-- ==== Sys2Proof/Word.lean ====
section
/-! DEFINITION. The words of the hardware: bytes, and the 16, 32 and 64 bit quantities of `00_scope.md`
rule R20. Bit 0 is the least significant bit of every word. -/

namespace Sys2Proof

/-- One byte of engine-virtual or physical memory (rule R70). -/
abbrev Byte := BitVec 8

/-- A PCI identity, a packet length, a command index (rules R42, R115). -/
abbrev W16 := BitVec 16

/-- A device register, a PCI configuration register, a head slot, a tail value (rules R79, R126, R127). -/
abbrev W32 := BitVec 32

/-- An engine register, an address, a descriptor word (rules R31, R70, R120). -/
abbrev W64 := BitVec 64

end Sys2Proof
end

