-- ==== Sys2Proof/Syntax.lean ====
section
/-! DEFINITION. The commands of the block (`30_encoding.md` rule R112) and the symbolic register and field
identifiers they name (`10_state.md` rules R52 to R54). -/

namespace Sys2Proof

/-- The device registers of rule R52, in the order of their ids. -/
inductive DevReg where
  | ctrl | status | ctrlExt | eimc | eec | rdrxctl | hlreg0 | gcrExt
  | rxctrl | secrxctrl | secrxstat | fctrl | rxdctl | rdbal | rdbah | rdlen
  | rdt | srrctl | dcarxctrl | txdctl | tdbal | tdbah | tdlen | tdt
  | tdwbal | tdwbah | dcatxctrl | dmatxctl | rttdcs | dtxmxszrq | txpbsize | txpbthresh
  | rxpbsize | fcrth | mflcn | pfuta | pfvlvf | pfvlvfb | mta | ftqf
  deriving DecidableEq, Repr, Inhabited

/-- The PCI configuration registers of rule R53, in the order of their ids. -/
inductive PciReg where
  | id | command | bar0Low | bar0High | pmcsr | deviceStatus
  deriving DecidableEq, Repr, Inhabited

/-- The fields of the device registers (rule R54, fid 1 to 36). -/
inductive DevField where
  | masterDisable | rst | masterEnableStatus | nsDis | eimcMask | autoRd | eePres | dmaIdone
  | crcStrip | rscFrstSize | rscAckc | fcoeWrfix | lpbk | buffersClearFunc | rxen | rxDis
  | secrxRdy | upe | mpe | rxdctlEnable | bsizePacket | dropEn | rsvdReq | pthresh
  | hthresh | txdctlEnable | headWbEn | txDescWbRoEn | te | arbDis | maxBytesNumReq | txpbSize
  | txpbThresh | rxpbSize | rth | rfce
  deriving DecidableEq, Repr, Inhabited

/-- The fields of the PCI configuration registers (rule R54, fid 37 to 41). -/
inductive PciField where
  | memoryAccessEnable | busMasterEnable | interruptDisable | powerState | transactionPending
  deriving DecidableEq, Repr, Inhabited

/-- The register and the optional field that REG_READ and REG_WRITE name (rule R113): a field id of 0 is
`none`. Whether the field belongs to the register is `WellFormed`'s to check. -/
inductive RegSel where
  | dev (reg : DevReg) (fld : Option DevField)
  | pci (reg : PciReg) (fld : Option PciField)
  deriving DecidableEq, Repr, Inhabited

/-- The twelve commands, one constructor for each row of rule R112, with the operands of rule R111. -/
inductive Instr where
  /-- DEV_OPEN `dev`, `bdf`. -/
  | devOpen (dev : BitVec 8) (bdf : W16)
  /-- DEV_RESET `dev`. -/
  | devReset (dev : BitVec 8)
  /-- DEV_INIT `dev`. -/
  | devInit (dev : BitVec 8)
  /-- SET_PROMISC `dev`, `enable`. -/
  | setPromisc (dev : BitVec 8) (enable : Bool)
  /-- REG_READ `dev`, register and field, index. -/
  | regRead (dev : BitVec 8) (sel : RegSel) (index : W16)
  /-- REG_WRITE `dev`, register and field, index, value. -/
  | regWrite (dev : BitVec 8) (sel : RegSel) (index : W16) (value : W32)
  /-- ENG_CONSTRUCT. -/
  | engConstruct
  /-- BIND_INPUT `dev`. -/
  | bindInput (dev : BitVec 8)
  /-- BIND_OUTPUT `dev`, `queue_index`. -/
  | bindOutput (dev : BitVec 8) (queue : BitVec 8)
  /-- RECEIVE. -/
  | receive
  /-- TRANSMIT `length`, `output_mask`. -/
  | transmit (length : W16) (mask : BitVec 4)
  /-- PROCESS. -/
  | process
  deriving DecidableEq, Repr, Inhabited

end Sys2Proof
end

