-- ==== Sys2Proof/Config.lean ====
section
/-! DEFINITION. The configuration (`00_scope.md` rules R9 to R19): the parameters of the step relation, held as
plain data, and the free values, which no rule constrains. The spec's defaults are `Config.spec` in
`Sys2Proof/Machine/Params.lean`. -/

namespace Sys2Proof

/-- How the byte offset of one register is computed (rules R52, R130): `lo + stride * idx`, and from index
`threshold` on, where the register is split, `hi + stride * (idx - threshold)`. -/
structure OffRow where
  lo : Nat
  stride : Nat
  /-- `(threshold, hi)` of a split register. -/
  split : Option (Nat × Nat)
  deriving DecidableEq, Repr, Inhabited

/-- `REGMAP` (rules R52 to R54, R168): offsets by register id, masks by field id, as data. -/
structure RegMap where
  /-- The offset rule of device register `id`, at position `id`. -/
  rows : List OffRow
  /-- The offset of PCI register `0x80 + k`, at position `k`. -/
  pciOffs : List Nat
  /-- The mask of field `fid`, at position `fid - 1`. -/
  masks : List W32
  deriving DecidableEq, Repr, Inhabited

/-- `DESC_LAYOUT` (rule R121): the bit positions inside descriptor word 1. `LEN` is the `LEN_BITS` bits from `lenLo`
up. -/
structure DescLayout where
  lenLo : Nat
  eop : Nat
  ifcs : Nat
  rs : Nat
  dd : Nat
  deriving DecidableEq, Repr, Inhabited

/-- `INIT_VALUES` (rule R240). -/
structure InitValues where
  eimcAll : W32
  nUnicast : Nat
  nVlan : Nat
  nVlanBmp : Nat
  nMulticast : Nat
  n5tuple : Nat
  rxpb0 : W32
  fcrth0 : W32
  txpbthresh0 : W32
  maxBytesReq : W32
  deriving DecidableEq, Repr, Inhabited

/-- The configuration. `OUTPUTS_MAX = 4`, `DESC_SIZE = 16`, `RING_ALIGN = 128` and `WINDOW_SIZE = 131072` are fixed
numbers and not fields (rules R10, R11, R13, R17). -/
structure Config where
  /-- `RING_SIZE`, written `R` in formulas (R9). -/
  ringSize : Nat
  /-- `BUF_SIZE` (R12). -/
  bufSize : Nat
  /-- `TRANSMIT_PERIOD`, written `TP` (R14). -/
  transmitPeriod : Nat
  /-- `PROCESS_PERIOD`, written `PP` (R15). -/
  processPeriod : Nat
  /-- `HEAD_STRIDE_BYTES` (R16). -/
  headStride : Nat
  /-- `T_POLL`, `T_RXQ_WAIT`, `T_FLUSH`, `T_RESET` in microseconds (R18). -/
  tPoll : Nat
  tRxqWait : Nat
  tFlush : Nat
  tReset : Nat
  /-- `RX_QUEUE_COUNT`, `TX_QUEUE_COUNT`, `RX_QUEUE`, `POLL_ATTEMPTS`, `N_DEV` (R19). -/
  rxQueueCount : Nat
  txQueueCount : Nat
  rxQueue : Nat
  pollAttempts : Nat
  nDev : Nat
  /-- `LEN_BITS` (R19, D38; log 35). -/
  lenBits : Nat
  /-- `FLUSHED_NONE` (R19, R33). -/
  flushedNone : W64
  /-- `RS_PHASE` and `IDLE_ALWAYS_SENTINEL` (R19, R306, R311). -/
  rsPhase : Nat
  idleAlwaysSentinel : Bool
  /-- `REGMAP`, `DESC_LAYOUT`, `INIT_VALUES` (R19). -/
  regmap : RegMap
  desc : DescLayout
  init : InitValues
  /-- `PCI_EXPECT.id` (R181). -/
  pciExpectId : W32
  /-- The value of `POWER_STATE` that is the D0 power state (R181, R184). -/
  pciD0 : W32
  /-- `TX_PTHRESH`, `TX_HTHRESH`, `RSVD_REQ_VALUE` (R19). -/
  txPthresh : W32
  txHthresh : W32
  rsvdReqValue : W32
  deriving DecidableEq, Repr, Inhabited

/-- `DESC_SIZE` (R10). -/
def descSize : Nat := 16

/-- `RING_ALIGN` (R11). -/
def ringAlign : Nat := 128

/-- `OUTPUTS_MAX` (R13): the encodings of rules R31 and R111 fix it at 4. -/
def outputsMax : Nat := 4

/-- `WINDOW_SIZE` (R17). -/
def windowSize : Nat := 131072

/-- The cache line `HEAD_STRIDE_BYTES` is a multiple of: 64 bytes (R16; `90_conflicts.md` C3). -/
def cacheLineSize : Nat := 64

/-- What one call of the handler does (rules R332, R350): it writes bytes at offsets into the buffer it was
given and returns a length and a selection, or it never returns (U7). -/
inductive HandlerRun where
  | returns (len : W16) (sel : BitVec 4) (writes : List (Nat × Byte))
  | never
  deriving DecidableEq, Repr, Inhabited

/-! The free values. Each is applied to the number of micro-steps made so far, so that every occasion has a
value of its own, and nothing in Lean can evaluate one. -/

/-- FREE VALUE (U3, R58, R349; log 7): what register offset `off` of a NIC holds after the device reset made at
micro-step `k`, as far as rule R349 does not say it. -/
opaque Config.nicAfterReset (k off : Nat) : W32

/-- FREE VALUE (R416 (b), U8; log 8): what a register access at micro-step `k` finds or leaves at offset `off`
while the device reset has not yet taken effect. -/
opaque Config.unsettledRegister (k off : Nat) : W32

/-- FREE VALUE (R166; log 9): what the NIC returns at micro-step `k` for a read of the write-only register at
offset `off`. -/
opaque Config.writeOnlyRead (k off : Nat) : W32

/-- FREE VALUE (R151, R348; log 10): what a register marked 'RO here' holds after a write of `v` at micro-step
`k`. -/
opaque Config.afterReadOnlyWrite (k off : Nat) (v : W32) : W32

/-- FREE VALUE (R386; log 17): the microseconds a sleep made at micro-step `k` lasts beyond what was asked. -/
opaque Config.sleepExtra (k : Nat) : Nat

/-- FREE VALUE (R386; log 17): the microseconds micro-step `k` takes, a sleep's own duration apart. -/
opaque Config.microTime (k : Nat) : Nat

/-- FREE VALUE (R350; log 16): what the handler called at micro-step `k` does with the packet of length `len` in
the buffer at `addr` that holds `bytes`, once the answers State lists are used up. -/
opaque Config.handler (k : Nat) (len : W16) (addr : W64) (bytes : List Byte) : HandlerRun

/-- FREE VALUE (R346; log 27): the byte a transmit DMA finds at physical address `p` outside every block. -/
opaque Config.foreignByte (k p : Nat) : Byte

end Sys2Proof
end

