-- ==== Sys2Proof/Machine/Params.lean ====
section
/-! DEFINITION. The numbers of the spec: register and field ids (`10_state.md` rules R52 to R54), and the default
configuration `Config.spec` with the default `REGMAP`, `DESC_LAYOUT` and `INIT_VALUES`. -/

namespace Sys2Proof

/-- Every device register, in the order of the ids of rule R52. -/
def DevReg.all : List DevReg :=
  [.ctrl, .status, .ctrlExt, .eimc, .eec, .rdrxctl, .hlreg0, .gcrExt,
   .rxctrl, .secrxctrl, .secrxstat, .fctrl, .rxdctl, .rdbal, .rdbah, .rdlen,
   .rdt, .srrctl, .dcarxctrl, .txdctl, .tdbal, .tdbah, .tdlen, .tdt,
   .tdwbal, .tdwbah, .dcatxctrl, .dmatxctl, .rttdcs, .dtxmxszrq] ++
  [.txpbsize, .txpbthresh, .rxpbsize, .fcrth, .mflcn, .pfuta, .pfvlvf, .pfvlvfb, .mta, .ftqf]

/-- The register id of rule R52. -/
def DevReg.id : DevReg → Nat
  | .ctrl => 0x00 | .status => 0x01 | .ctrlExt => 0x02 | .eimc => 0x03 | .eec => 0x04
  | .rdrxctl => 0x05 | .hlreg0 => 0x06 | .gcrExt => 0x07 | .rxctrl => 0x08 | .secrxctrl => 0x09
  | .secrxstat => 0x0A | .fctrl => 0x0B | .rxdctl => 0x0C | .rdbal => 0x0D | .rdbah => 0x0E
  | .rdlen => 0x0F | .rdt => 0x10 | .srrctl => 0x11 | .dcarxctrl => 0x12 | .txdctl => 0x13
  | .tdbal => 0x14 | .tdbah => 0x15 | .tdlen => 0x16 | .tdt => 0x17 | .tdwbal => 0x18
  | .tdwbah => 0x19 | .dcatxctrl => 0x1A | .dmatxctl => 0x1B | .rttdcs => 0x1C | .dtxmxszrq => 0x1D
  | .txpbsize => 0x1E | .txpbthresh => 0x1F | .rxpbsize => 0x20 | .fcrth => 0x21 | .mflcn => 0x22
  | .pfuta => 0x23 | .pfvlvf => 0x24 | .pfvlvfb => 0x25 | .mta => 0x26 | .ftqf => 0x27

/-- Every PCI configuration register, in the order of the ids of rule R53. -/
def PciReg.all : List PciReg := [.id, .command, .bar0Low, .bar0High, .pmcsr, .deviceStatus]

/-- The register id of rule R53, less `0x80`: the position in `RegMap.pciOffs`. -/
def PciReg.index : PciReg → Nat
  | .id => 0 | .command => 1 | .bar0Low => 2 | .bar0High => 3 | .pmcsr => 4 | .deviceStatus => 5

/-- The register id of rule R53. -/
def PciReg.regId (r : PciReg) : Nat := 0x80 + r.index

/-- Every device register field, in the order of the fids of rule R54. -/
def DevField.all : List DevField :=
  [.masterDisable, .rst, .masterEnableStatus, .nsDis, .eimcMask, .autoRd, .eePres, .dmaIdone,
   .crcStrip, .rscFrstSize, .rscAckc, .fcoeWrfix, .lpbk, .buffersClearFunc, .rxen, .rxDis,
   .secrxRdy, .upe, .mpe, .rxdctlEnable, .bsizePacket, .dropEn, .rsvdReq, .pthresh] ++
  [.hthresh, .txdctlEnable, .headWbEn, .txDescWbRoEn, .te, .arbDis, .maxBytesNumReq, .txpbSize,
   .txpbThresh, .rxpbSize, .rth, .rfce]

/-- The field id of rule R54. -/
def DevField.fid : DevField → Nat
  | .masterDisable => 1 | .rst => 2 | .masterEnableStatus => 3 | .nsDis => 4 | .eimcMask => 5
  | .autoRd => 6 | .eePres => 7 | .dmaIdone => 8 | .crcStrip => 9 | .rscFrstSize => 10
  | .rscAckc => 11 | .fcoeWrfix => 12 | .lpbk => 13 | .buffersClearFunc => 14 | .rxen => 15
  | .rxDis => 16 | .secrxRdy => 17 | .upe => 18 | .mpe => 19 | .rxdctlEnable => 20
  | .bsizePacket => 21 | .dropEn => 22 | .rsvdReq => 23 | .pthresh => 24 | .hthresh => 25
  | .txdctlEnable => 26 | .headWbEn => 27 | .txDescWbRoEn => 28 | .te => 29 | .arbDis => 30
  | .maxBytesNumReq => 31 | .txpbSize => 32 | .txpbThresh => 33 | .rxpbSize => 34 | .rth => 35
  | .rfce => 36

/-- The register a field belongs to (rule R54, `register.field`). -/
def DevField.reg : DevField → DevReg
  | .masterDisable => .ctrl | .rst => .ctrl | .masterEnableStatus => .status | .nsDis => .ctrlExt
  | .eimcMask => .eimc | .autoRd => .eec | .eePres => .eec | .dmaIdone => .rdrxctl
  | .crcStrip => .rdrxctl | .rscFrstSize => .rdrxctl | .rscAckc => .rdrxctl
  | .fcoeWrfix => .rdrxctl | .lpbk => .hlreg0 | .buffersClearFunc => .gcrExt | .rxen => .rxctrl
  | .rxDis => .secrxctrl | .secrxRdy => .secrxstat | .upe => .fctrl | .mpe => .fctrl
  | .rxdctlEnable => .rxdctl | .bsizePacket => .srrctl | .dropEn => .srrctl
  | .rsvdReq => .dcarxctrl | .pthresh => .txdctl | .hthresh => .txdctl | .txdctlEnable => .txdctl
  | .headWbEn => .tdwbal | .txDescWbRoEn => .dcatxctrl | .te => .dmatxctl | .arbDis => .rttdcs
  | .maxBytesNumReq => .dtxmxszrq | .txpbSize => .txpbsize | .txpbThresh => .txpbthresh
  | .rxpbSize => .rxpbsize | .rth => .fcrth | .rfce => .mflcn

/-- Every PCI configuration register field, in the order of the fids of rule R54. -/
def PciField.all : List PciField :=
  [.memoryAccessEnable, .busMasterEnable, .interruptDisable, .powerState, .transactionPending]

/-- The field id of rule R54. -/
def PciField.fid : PciField → Nat
  | .memoryAccessEnable => 37 | .busMasterEnable => 38 | .interruptDisable => 39
  | .powerState => 40 | .transactionPending => 41

/-- The register a field belongs to (rule R54). -/
def PciField.reg : PciField → PciReg
  | .memoryAccessEnable => .command | .busMasterEnable => .command | .interruptDisable => .command
  | .powerState => .pmcsr | .transactionPending => .deviceStatus

/-- The access column of rules R52 and R53. -/
inductive RegAccess where
  | rw | ro | roHere | wo
  deriving DecidableEq, Repr

/-- The access column of rule R52. -/
def DevReg.access : DevReg → RegAccess
  | .status => .ro | .secrxstat => .ro | .eec => .roHere | .eimc => .wo | _ => .rw

/-- The access column of rule R53. -/
def PciReg.access : PciReg → RegAccess
  | .command => .rw | .id => .ro | .deviceStatus => .ro | _ => .roHere

/-- A register without an index. -/
def OffRow.one (lo : Nat) : OffRow := ⟨lo, 0, none⟩

/-- An indexed register in one range. -/
def OffRow.arr (lo stride : Nat) : OffRow := ⟨lo, stride, none⟩

/-- A register split at index 64, stride 0x40 (rule R52, *split*). -/
def OffRow.rxQ (lo hi : Nat) : OffRow := ⟨lo, 0x40, some (64, hi)⟩

/-- The default `Off` column of rule R52. -/
def DevReg.specRow : DevReg → OffRow
  | .ctrl => .one 0x00000 | .status => .one 0x00008 | .ctrlExt => .one 0x00018
  | .eimc => .one 0x00888 | .eec => .one 0x10010 | .rdrxctl => .one 0x02F00
  | .hlreg0 => .one 0x04240 | .gcrExt => .one 0x11050 | .rxctrl => .one 0x03000
  | .secrxctrl => .one 0x08D00 | .secrxstat => .one 0x08D04 | .fctrl => .one 0x05080
  | .rxdctl => .rxQ 0x01028 0x0D028 | .rdbal => .rxQ 0x01000 0x0D000
  | .rdbah => .rxQ 0x01004 0x0D004 | .rdlen => .rxQ 0x01008 0x0D008
  | .rdt => .rxQ 0x01018 0x0D018 | .srrctl => .rxQ 0x01014 0x0D014
  | .dcarxctrl => .rxQ 0x0100C 0x0D00C
  | .txdctl => .arr 0x06028 0x40 | .tdbal => .arr 0x06000 0x40 | .tdbah => .arr 0x06004 0x40
  | .tdlen => .arr 0x06008 0x40 | .tdt => .arr 0x06018 0x40 | .tdwbal => .arr 0x06038 0x40
  | .tdwbah => .arr 0x0603C 0x40 | .dcatxctrl => .arr 0x0600C 0x40
  | .dmatxctl => .one 0x04A80 | .rttdcs => .one 0x04900 | .dtxmxszrq => .one 0x08100
  | .txpbsize => .arr 0x0CC00 4 | .txpbthresh => .arr 0x04950 4 | .rxpbsize => .arr 0x03C00 4
  | .fcrth => .arr 0x03260 4 | .mflcn => .one 0x04294 | .pfuta => .arr 0x0F400 4
  | .pfvlvf => .arr 0x0F100 4 | .pfvlvfb => .arr 0x0F200 4 | .mta => .arr 0x05200 4
  | .ftqf => .arr 0x0E600 4

/-- The default offset column of rule R53. -/
def PciReg.specOff : PciReg → Nat
  | .id => 0x00 | .command => 0x04 | .bar0Low => 0x10 | .bar0High => 0x14 | .pmcsr => 0x44
  | .deviceStatus => 0xAA

/-- The mask of the bits `hi` down to `lo` (rule R54, `bits hi:lo`). -/
def bitsMask (hi lo : Nat) : W32 := BitVec.ofNat 32 (2 ^ (hi + 1) - 2 ^ lo)

/-- The mask of one bit (rule R54, `bit k`). -/
def bitMask (k : Nat) : W32 := bitsMask k k

/-- The default mask column of rule R54 for the device registers. -/
def DevField.specMask : DevField → W32
  | .masterDisable => bitMask 2 | .rst => bitMask 26 | .masterEnableStatus => bitMask 19
  | .nsDis => bitMask 16 | .eimcMask => bitsMask 30 0 | .autoRd => bitMask 9 | .eePres => bitMask 8
  | .dmaIdone => bitMask 3 | .crcStrip => bitMask 1 | .rscFrstSize => bitsMask 21 17
  | .rscAckc => bitMask 25 | .fcoeWrfix => bitMask 26 | .lpbk => bitMask 15
  | .buffersClearFunc => bitMask 30 | .rxen => bitMask 0 | .rxDis => bitMask 1
  | .secrxRdy => bitMask 0 | .upe => bitMask 9 | .mpe => bitMask 8 | .rxdctlEnable => bitMask 25
  | .bsizePacket => bitsMask 4 0 | .dropEn => bitMask 28 | .rsvdReq => bitMask 12
  | .pthresh => bitsMask 6 0 | .hthresh => bitsMask 14 8 | .txdctlEnable => bitMask 25
  | .headWbEn => bitMask 0 | .txDescWbRoEn => bitMask 11 | .te => bitMask 0 | .arbDis => bitMask 6
  | .maxBytesNumReq => bitsMask 11 0 | .txpbSize => bitsMask 19 10 | .txpbThresh => bitsMask 9 0
  | .rxpbSize => bitsMask 19 10 | .rth => bitsMask 18 5 | .rfce => bitMask 3

/-- The default mask column of rule R54 for the PCI configuration registers. -/
def PciField.specMask : PciField → W32
  | .memoryAccessEnable => bitMask 1 | .busMasterEnable => bitMask 2
  | .interruptDisable => bitMask 10 | .powerState => bitsMask 1 0 | .transactionPending => bitMask 5

/-- The default `REGMAP` (rules R52 to R54). -/
def RegMap.spec : RegMap where
  rows := DevReg.all.map DevReg.specRow
  pciOffs := PciReg.all.map PciReg.specOff
  masks := DevField.all.map DevField.specMask ++ PciField.all.map PciField.specMask

/-- The default `DESC_LAYOUT` (rule R121). -/
def DescLayout.spec : DescLayout := ⟨0, 24, 25, 27, 32⟩

/-- The buffer size in units of 1 KiB, rounded up (rule R134). -/
def kibCeil (bufSize : Nat) : Nat := (bufSize + 1023) / 1024

/-- The default `INIT_VALUES` (rule R240), for a buffer of `bufSize` bytes. -/
def InitValues.spec (bufSize : Nat) : InitValues where
  eimcAll := 0x7FFFFFFF
  nUnicast := 128
  nVlan := 64
  nVlanBmp := 128
  nMulticast := 128
  n5tuple := 128
  rxpb0 := 0x200
  fcrth0 := 0x3D00
  txpbthresh0 := BitVec.ofNat 32 (0xA0 - kibCeil bufSize)
  maxBytesReq := 0xFFF

/-- The defaults of rules R9 to R19, R181 and R240. -/
def Config.spec : Config where
  ringSize := 1024
  bufSize := 2048
  transmitPeriod := 64
  processPeriod := 8
  headStride := 256
  tPoll := 1000000
  tRxqWait := 100
  tFlush := 20
  tReset := 1000
  rxQueueCount := 128
  txQueueCount := 128
  rxQueue := 0
  pollAttempts := 10
  nDev := 256
  lenBits := 16
  flushedNone := BitVec.allOnes 64
  rsPhase := 63
  idleAlwaysSentinel := true
  regmap := RegMap.spec
  desc := DescLayout.spec
  init := InitValues.spec 2048
  pciExpectId := 0x10FB8086
  pciD0 := 0
  txPthresh := 60
  txHthresh := 4
  rsvdReqValue := 1

end Sys2Proof
end

