-- ==== Sys2Proof/Machine/Operands.lean ====
section
/-! DEFINITION. Operand forms: which register, field and index a command may name (`30_encoding.md` rules R113,
R116), register offsets (R130), field extraction and insertion (R128, R129), the halves of an address pair (R131,
R132, R135), and the constraints a configuration meets (`00_scope.md` section 3). -/

namespace Sys2Proof

/-- How many indices a register has; `none` for a register without an index (rule R52, index column). For a register
that R52 indexes by queue no rule gives the range: that it is `RX_QUEUE_COUNT` or `TX_QUEUE_COUNT` (R19) is the
model's choice (DESIGN CHOICE, log 36). -/
def DevReg.indexCount (c : Config) : DevReg → Option Nat
  | .rxdctl | .rdbal | .rdbah | .rdlen | .rdt | .srrctl | .dcarxctrl => some c.rxQueueCount
  | .txdctl | .tdbal | .tdbah | .tdlen | .tdt | .tdwbal | .tdwbah | .dcatxctrl => some c.txQueueCount
  | .txpbsize | .txpbthresh | .rxpbsize | .fcrth => some 8
  | .pfuta | .pfvlvfb | .mta | .ftqf => some 128
  | .pfvlvf => some 64
  | _ => none

/-- The index lies inside the range of the register; a register without an index takes any (rules R116 (d),
R130; log 19). -/
def DevReg.indexOk (c : Config) (r : DevReg) (idx : Nat) : Bool :=
  match r.indexCount c with
  | none => true
  | some n => idx < n

/-- The register, the field and the index belong together (rules R113, R116 (d)). -/
def RegSel.legal (c : Config) (sel : RegSel) (index : W16) : Bool :=
  match sel with
  | .dev r f => (match f with | none => true | some f => f.reg == r) && r.indexOk c index.toNat
  | .pci r f => (match f with | none => true | some f => f.reg == r)

/-- The offset of one row at an index (rule R52). -/
def OffRow.off (row : OffRow) (idx : Nat) : Nat :=
  match row.split with
  | some (thr, hi) => if idx < thr then row.lo + row.stride * idx else hi + row.stride * (idx - thr)
  | none => row.lo + row.stride * idx

/-- `Off(reg, idx)` (rules R52, R130): a register without an index ignores `idx`. -/
def Config.off (c : Config) (r : DevReg) (idx : Nat) : Nat :=
  (c.regmap.rows.getD r.id default).off (if (r.indexCount c).isSome then idx else 0)

/-- `Off(reg)` of a PCI configuration register (rule R53). -/
def Config.pciOff (c : Config) (r : PciReg) : Nat := c.regmap.pciOffs.getD r.index 0

/-- The index at which register `r` lies at byte offset `off`, if it does (the inverse of `Config.off`). -/
def Config.indexAt (c : Config) (r : DevReg) (off : Nat) : Option Nat :=
  let row := c.regmap.rows.getD r.id default
  let n := (r.indexCount c).getD 1
  let lowIdx := (off - row.lo) / row.stride
  let highIdx := match row.split with
    | some (thr, hi) => thr + (off - hi) / row.stride
    | none => lowIdx
  if lowIdx < n ∧ c.off r lowIdx = off then some lowIdx
  else if highIdx < n ∧ c.off r highIdx = off then some highIdx
  else none

/-- `mask(fld)` of a device register field (rule R54). -/
def Config.mask (c : Config) (f : DevField) : W32 := c.regmap.masks.getD (f.fid - 1) 0

/-- `mask(fld)` of a PCI configuration register field (rule R54). -/
def Config.pciMask (c : Config) (f : PciField) : W32 := c.regmap.masks.getD (f.fid - 1) 0

/-- `tzc(m)`, the number of trailing zero bits of a non-zero mask (rule R20). -/
def tzc (m : W32) : Nat := ((List.range 32).find? fun i => m.getLsbD i).getD 32

/-- `extract(raw, m)` (rule R128). -/
def extract (raw m : W32) : W32 := (raw &&& m) >>> tzc m

/-- `insert(raw, m, v)` (rule R129): bits of `v` that do not fit the field are dropped. -/
def insertField (raw m v : W32) : W32 := (raw &&& ~~~m) ||| ((v <<< tzc m) &&& m)

/-- `mask >> tzc(mask)`: every bit of the field one (rules R118, R156). -/
def fieldOnes (m : W32) : W32 := m >>> tzc m

/-- The high half of an address pair (rule R131). -/
def highHalf (p : W64) : W32 := (p >>> 32).setWidth 32

/-- The low half of an address pair (rule R131). -/
def lowHalf (p : W64) : W32 := p.setWidth 32

/-- The address a register pair holds (rule R131). -/
def joinHalves (high low : W32) : W64 := high ++ low

/-- The low base address register is marked as a 64-bit memory BAR (rule R135): `low[0] = 0`, `low[2:1] = 2`. -/
def barIs64BitMemory (low : W32) : Bool := low.extractLsb' 0 1 == 0 && low.extractLsb' 1 2 == 2

/-- The physical address of the window: `high`, then `low` without its 4 control bits (rule R135). -/
def barAddress (high low : W32) : W64 := joinHalves high (low &&& 0xFFFFFFF0)

/-- A power of two. -/
def isPow2 (n : Nat) : Bool := n != 0 && n &&& (n - 1) == 0

/-- A mask is not zero and its one bits are contiguous (rule R128). -/
def maskOk (m : W32) : Bool := m != 0 && isPow2 ((fieldOnes m).toNat + 1)

/-- Every legal offset of one register is a multiple of 4 below `WINDOW_SIZE` (rule R52). -/
def Config.regOk (c : Config) (r : DevReg) : Bool :=
  (List.range ((r.indexCount c).getD 1)).all fun i => c.off r i % 4 == 0 && c.off r i < windowSize

/-- The five positions of `DESC_LAYOUT`, `LEN` being `lenBits` wide, do not overlap and lie in word 1 (rule R121). -/
def DescLayout.ok (d : DescLayout) (lenBits : Nat) : Bool :=
  let flags := [d.eop, d.ifcs, d.rs, d.dd]
  d.lenLo + lenBits ≤ 64 && flags.all (fun b => b < 64 && !(d.lenLo ≤ b && b < d.lenLo + lenBits)) &&
    decide flags.Nodup

/-- The constraints of `00_scope.md` section 3 on the numbers (rules R9, R14 to R16, R33, R60, R111, R211 (a), R311;
log 3, 35): a length fits its operand, and the sentinel is no slot number. -/
def Config.numbersOk (c : Config) : Bool :=
  isPow2 c.ringSize && c.ringSize % 128 == 0 && c.ringSize ≤ 2 ^ 31 &&
  isPow2 c.transmitPeriod && c.transmitPeriod < c.ringSize &&
  isPow2 c.processPeriod && c.processPeriod < c.ringSize &&
  c.rsPhase < c.transmitPeriod && c.headStride % 16 == 0 && c.headStride % cacheLineSize == 0 &&
  0 < c.headStride && 0 < c.bufSize && 0 < c.lenBits && c.lenBits ≤ 16 && c.ringSize ≤ c.flushedNone.toNat &&
  c.bufSize ≤ 2 ^ 31 && c.headStride ≤ 2 ^ 31 &&
  0 < c.rxQueueCount && c.rxQueue < c.rxQueueCount && 0 < c.pollAttempts && c.nDev ≤ 256 &&
  c.init.nUnicast ≤ 128 && c.init.nVlan ≤ 64 && c.init.nVlanBmp ≤ 128 &&
  c.init.nMulticast ≤ 128 && c.init.n5tuple ≤ 128

/-- A legal configuration (rules R9 to R19, R33, R52, R121, R128; U18). -/
def Config.legal (c : Config) : Bool :=
  c.numbersOk && c.desc.ok c.lenBits && DevReg.all.all c.regOk && DevField.all.all (fun f => maskOk (c.mask f)) &&
  PciField.all.all (fun f => maskOk (c.pciMask f))

end Sys2Proof
end

