-- ==== Sys2Proof/WellFormed.lean ====
section
/-! DEFINITION. Well-formed commands: the device index lies in the handle table (`30_encoding.md` rule R116 (c))
and the register, field and index of REG_READ and REG_WRITE belong together (R113, R116 (d)). -/

namespace Sys2Proof

/-- `dev < N_DEV` (rule R116 (c)). -/
def devInRange (c : Config) (dev : BitVec 8) : Bool := dev.toNat < c.nDev

/-- The operands of a command are legal (rules R111, R116). The queue index of BIND_OUTPUT is checked by the
command and not here (R115). -/
def Instr.wellFormed (c : Config) : Instr → Bool
  | .devOpen dev _ => devInRange c dev
  | .devReset dev => devInRange c dev
  | .devInit dev => devInRange c dev
  | .setPromisc dev _ => devInRange c dev
  | .regRead dev sel index => devInRange c dev && sel.legal c index
  | .regWrite dev sel index _ => devInRange c dev && sel.legal c index
  | .engConstruct => true
  | .bindInput dev => devInRange c dev
  | .bindOutput dev _ => devInRange c dev
  | .receive => true
  | .transmit _ _ => true
  | .process => true

end Sys2Proof
end

