-- ==== Sys2Proof/Decode.lean ====
section
/-! DEFINITION. The command word (`30_encoding.md` rules R110 to R116): the decoder, total on every pair of words
and rejecting by name, and the encoder, both written from the field table of rule R111 and the opcode map of rule
R112. -/

namespace Sys2Proof

/-- What the host presents on the command port (rule R110). -/
structure Command where
  cmd : W64
  data : W32
  deriving DecidableEq, Repr, Inhabited

/-- Why a command word is no command (rule R116 (a) to (d), in that order); the last case names the device, whose
lifecycle state is tested before the operands (rule R378). -/
inductive DecodeError where
  | unknownOpcode
  | reservedBits
  | deviceRange
  | badRegisterOperand (dev : BitVec 8)
  deriving DecidableEq, Repr

/-- One row of the opcode map (rules R111, R112): the bits of `CMD` that are fixed, whether the format has a `dev`
field and whether it uses `DATA`. -/
structure OpRow where
  mask : W64
  hasDev : Bool
  hasData : Bool
  deriving DecidableEq, Repr

/-- The opcode map (rule R112). -/
def opRow : Nat → Option OpRow
  | 0x01 => some ⟨0xFFFF0000FFFF00FF, true, false⟩
  | 0x02 => some ⟨0xFFFFFFFFFFFF00FF, true, false⟩
  | 0x03 => some ⟨0xFFFFFFFFFFFF00FF, true, false⟩
  | 0x04 => some ⟨0xFFFFFFFFFFFE00FF, true, false⟩
  | 0x08 => some ⟨0xFFFF0000000000FF, true, false⟩
  | 0x09 => some ⟨0xFFFF0000000000FF, true, true⟩
  | 0x10 => some ⟨0xFFFFFFFFFFFFFFFF, false, false⟩
  | 0x11 => some ⟨0xFFFFFFFFFFFF00FF, true, false⟩
  | 0x12 => some ⟨0xFFFFFFFFFF0000FF, true, false⟩
  | 0x18 => some ⟨0xFFFFFFFFFFFFFFFF, false, false⟩
  | 0x19 => some ⟨0xFFF00000FFFFFFFF, false, false⟩
  | 0x1A => some ⟨0xFFFFFFFFFFFFFFFF, false, false⟩
  | _ => none

/-- A register id and a field id (rule R113); `none` where an id names nothing. -/
def regSelOf (a b : Nat) : Option RegSel :=
  match DevReg.all.find? fun r => r.id == a with
  | some r =>
    if b = 0 then some (.dev r none)
    else (DevField.all.find? fun f => f.fid == b).map fun f => .dev r (some f)
  | none =>
    match PciReg.all.find? fun r => r.regId == a with
    | some r =>
      if b = 0 then some (.pci r none)
      else (PciField.all.find? fun f => f.fid == b).map fun f => .pci r (some f)
    | none => none

/-- The instruction of an opcode with its operands (rules R111, R112, R115): every operand is an unsigned field
copied from the words. `none` where a register or field id names nothing. -/
def assemble (w : Command) : Option Instr :=
  let dev := w.cmd.extractLsb' 8 8
  let a := w.cmd.extractLsb' 16 8
  let b := w.cmd.extractLsb' 24 8
  let c := w.cmd.extractLsb' 32 16
  let m := w.cmd.extractLsb' 48 4
  match (w.cmd.extractLsb' 0 8).toNat with
  | 0x01 => some (.devOpen dev c)
  | 0x02 => some (.devReset dev)
  | 0x03 => some (.devInit dev)
  | 0x04 => some (.setPromisc dev (w.cmd.getLsbD 16))
  | 0x08 => (regSelOf a.toNat b.toNat).map fun sel => .regRead dev sel c
  | 0x09 => (regSelOf a.toNat b.toNat).map fun sel => .regWrite dev sel c w.data
  | 0x10 => some .engConstruct
  | 0x11 => some (.bindInput dev)
  | 0x12 => some (.bindOutput dev a)
  | 0x18 => some .receive
  | 0x19 => some (.transmit c m)
  | 0x1A => some .process
  | _ => none

/-- The decoder (rules R111, R112, R116), with the checks in the order of rules R116 and R378: opcode, reserved
bits, device range, register operands. -/
def decode (c : Config) (w : Command) : Except DecodeError Instr :=
  match opRow (w.cmd.extractLsb' 0 8).toNat with
  | none => .error .unknownOpcode
  | some row =>
    if w.cmd &&& row.mask ≠ (w.cmd.extractLsb' 0 8).setWidth 64 ∨ (row.hasData = false ∧ w.data ≠ 0) then
      .error .reservedBits
    else if row.hasDev = true ∧ devInRange c (w.cmd.extractLsb' 8 8) = false then .error .deviceRange
    else
      match assemble w with
      | none => .error (.badRegisterOperand (w.cmd.extractLsb' 8 8))
      | some i => if i.wellFormed c then .ok i else .error (.badRegisterOperand (w.cmd.extractLsb' 8 8))

/-- A `CMD` word put together from its fields (rule R111); bits 63:52 are zero. -/
def cmdWord (op : BitVec 8) (dev a b : BitVec 8) (c : W16) (m : BitVec 4) : W64 :=
  0#12 ++ m ++ c ++ b ++ a ++ dev ++ op

/-- The register id of a selection (rule R113). -/
def RegSel.a : RegSel → BitVec 8
  | .dev r _ => BitVec.ofNat 8 r.id
  | .pci r _ => BitVec.ofNat 8 r.regId

/-- The field id of a selection, 0 for no field (rule R113). -/
def RegSel.b : RegSel → BitVec 8
  | .dev _ f => match f with | none => 0 | some f => BitVec.ofNat 8 f.fid
  | .pci _ f => match f with | none => 0 | some f => BitVec.ofNat 8 f.fid

/-- The encoder: the words of a well-formed instruction (rules R111 to R113). -/
def encode : Instr → Command
  | .devOpen dev bdf => ⟨cmdWord 0x01 dev 0 0 bdf 0, 0⟩
  | .devReset dev => ⟨cmdWord 0x02 dev 0 0 0 0, 0⟩
  | .devInit dev => ⟨cmdWord 0x03 dev 0 0 0 0, 0⟩
  | .setPromisc dev e => ⟨cmdWord 0x04 dev (if e then 1 else 0) 0 0 0, 0⟩
  | .regRead dev sel index => ⟨cmdWord 0x08 dev sel.a sel.b index 0, 0⟩
  | .regWrite dev sel index value => ⟨cmdWord 0x09 dev sel.a sel.b index 0, value⟩
  | .engConstruct => ⟨cmdWord 0x10 0 0 0 0 0, 0⟩
  | .bindInput dev => ⟨cmdWord 0x11 dev 0 0 0 0, 0⟩
  | .bindOutput dev q => ⟨cmdWord 0x12 dev q 0 0 0, 0⟩
  | .receive => ⟨cmdWord 0x18 0 0 0 0 0, 0⟩
  | .transmit len mask => ⟨cmdWord 0x19 0 0 0 len mask, 0⟩
  | .process => ⟨cmdWord 0x1A 0 0 0 0 0, 0⟩

/-- The command words whose bits are `w`, `nbits` of them given and the rest zero: bits 63:0 are `CMD`, bits 95:64
are `DATA`. -/
def commandOfTable (nbits w : Nat) : Command :=
  let v := w % 2 ^ nbits
  ⟨BitVec.ofNat 64 v, BitVec.ofNat 32 (v / 2 ^ 64)⟩

/-- The instruction the decoder reads from a row of spec/opcode_table.json, with the default configuration. -/
def decodeTableWord (nbits w : Nat) : Option Instr :=
  match decode Config.spec (commandOfTable nbits w) with
  | .ok i => some i
  | .error _ => none

/-- The pseudo-command DEV_CREATE (rules R118, R255): the commands it stands for, in order. -/
def devCreate (dev : BitVec 8) (bdf : W16) : List Instr := [.devOpen dev bdf, .devReset dev, .devInit dev]

/-- The value that sets every bit of the field a selection names (rule R118); 0 without a field. -/
def RegSel.ones (c : Config) : RegSel → W32
  | .dev _ f => match f with | none => 0 | some f => fieldOnes (c.mask f)
  | .pci _ f => match f with | none => 0 | some f => fieldOnes (c.pciMask f)

/-- The pseudo-command REG_SET (rule R118). -/
def regSetCommand (c : Config) (dev : BitVec 8) (sel : RegSel) (index : W16) : Instr :=
  .regWrite dev sel index (sel.ones c)

/-- The pseudo-command REG_CLEAR (rule R118). -/
def regClearCommand (dev : BitVec 8) (sel : RegSel) (index : W16) : Instr := .regWrite dev sel index 0

end Sys2Proof
end

