-- ==== Sys2Proof/Machine/State.lean ====
section
/-! DEFINITION. The state of the machine (`10_state.md`), as plain data, with the reasons a step can stop and the
state right after power-on (`70_reset_and_hazards.md` rule R401). -/

namespace Sys2Proof.Machine

/-- `ES`, the engine lifecycle state (rule R41). -/
inductive EngineLife where
  | unconstructed
  | constructed
  deriving DecidableEq, Repr, Inhabited

/-- `LS`, the device lifecycle state (rule R43). -/
inductive DevLife where
  | unmapped
  | validated
  | reset
  | initialized
  | failed
  deriving DecidableEq, Repr, Inhabited

/-- The engine register file (rule R31). `tta` and `ring` are `TTA[0..3]` and `RING[0..3]`. -/
structure Engine where
  pd : W64
  fd : W64
  oc : W64
  rta : W64
  rtaV : Bool
  tta : Vector W64 4
  ring : Vector W64 4
  buf : W64
  heads : W64
  deriving DecidableEq, Repr

/-- The sequencer state `pc = (cmd, step)` (rule R40): no command is `idle`. -/
structure Sequencer where
  cmd : Option Instr
  step : Nat
  deriving DecidableEq, Repr

/-- One device handle (rule R42). -/
structure Handle where
  ls : DevLife
  bdf : W16
  base : W64
  rxBound : Bool
  txBound : Nat
  deriving DecidableEq, Repr

/-- A stretch of a block, `off .. off + len - 1` from its base, for whose addresses `V2P` answers `failure`
(rules R87, R354). -/
structure Gap where
  off : Nat
  len : Nat
  deriving DecidableEq, Repr

/-- A live block of the allocator (rules R352 to R354): `size` bytes at `base`, physically contiguous from `phys` on
(R88). -/
structure Block where
  base : W64
  size : Nat
  phys : W64
  gaps : List Gap
  deriving DecidableEq, Repr

/-- One answer of the allocator: where the block lies, virtually and physically, and what of it `V2P` cannot
translate (rules R352, R354). -/
structure Grant where
  base : W64
  phys : W64
  gaps : List Gap
  deriving DecidableEq, Repr

/-- A mapping that `P2V` can make: `size` bytes of device memory at `paddr` appear at `addr` (rule R355). -/
structure Mapping where
  paddr : W64
  size : Nat
  addr : W64
  deriving DecidableEq, Repr

/-- One register of a NIC: its value, and whether the block wrote it, for a register of the window since the device
reset (rules R58, R356, U3). -/
structure RegCell where
  byBlock : Bool
  val : W32
  deriving DecidableEq, Repr

/-- A frame a transmit DMA has sent (rule R346). -/
structure Frame where
  queue : Nat
  bytes : List Byte
  eop : Bool
  ifcs : Bool
  deriving DecidableEq, Repr

/-- What a transmit queue holds inside the NIC (rules R51, R345 to R347): its head, the descriptors fetched ahead
of sending (word 0, word 1), and whether a Report-Status descriptor was finished since the last head write-back. -/
structure TxQueue where
  head : Nat
  fetched : List (W64 × W64)
  rsDone : Bool
  deriving DecidableEq, Repr

/-- A register write on its way to a NIC (rule R51): of `val` to offset `off`, made at time `time` as micro-step
`micro`. -/
structure RegWrite where
  micro : Nat
  time : Nat
  off : Nat
  val : W32
  deriving DecidableEq, Repr

/-- One NIC (rules R50, R51). -/
structure Nic where
  /-- By byte offset, the registers whose value is known. -/
  regs : List (Nat × RegCell)
  /-- By offset, the PCI configuration registers whose value is known. -/
  pci : List (Nat × RegCell)
  /-- The micro-step of the last device reset (R349). -/
  era : Option Nat
  /-- The time from which the last device reset has taken effect: a register access made before it has no defined
  result (R416 (b)). -/
  usable : Nat
  /-- The register writes posted toward the NIC and not yet arrived, the oldest first (R51). -/
  posted : List RegWrite
  /-- The MODEL's own: register writes do not arrive at once now, but wait in `posted` (R51; log 39). -/
  hold : Bool
  /-- The MODEL's own: the NIC answers a write of a queue's enable bit later, and not with the write (R348, R416 (a),
  (c); log 40). -/
  lag : Bool
  /-- By queue, the receive head `rxh` (R341). -/
  rxHeads : List (Nat × Nat)
  /-- By queue, what a transmit queue holds (R345). -/
  txQueues : List (Nat × TxQueue)
  /-- The frames sent, the oldest first (R346). -/
  sent : List Frame
  deriving DecidableEq, Repr

/-- The response port (rules R110, R114). -/
structure Response where
  res : BitVec 8
  val0 : W64
  val1 : W64
  deriving DecidableEq, Repr

/-- One access on the ports of the block: one micro-step (rules R22 to R27), with what was read or written. -/
inductive Access where
  | memRead (acquire : Bool) (addr : W64) (width : Nat) (value : W64)
  | memWrite (release : Bool) (addr : W64) (width : Nat) (value : W64)
  | mmioRead (addr : W64) (value : W32)
  | mmioWrite (addr : W64) (value : W32)
  | pciRead (bdf : W16) (off : Nat) (value : W32)
  | pciWrite (bdf : W16) (off : Nat) (value : W32)
  | sleep (micros : Nat)
  | alloc (size : Nat) (answer : Option W64)
  | free (addr : W64)
  | v2p (addr : W64) (answer : Option W64)
  | p2v (paddr : W64) (size : Nat) (answer : Option W64)
  | handler (len : W16) (addr : W64)
  deriving DecidableEq, Repr

/-- One move of another agent (`46_nic_agents.md`). A move that the rules do not enable does nothing. -/
inductive AgentAct where
  /-- The receive DMA is offered a packet on queue `q`; `other` are the bits of word 1 it chooses (R342, R344). -/
  | rxDeliver (bdf : W16) (q : Nat) (packet : List Byte) (other : W64)
  /-- The transmit DMA of queue `q` fetches one more descriptor ahead of sending it (R346). -/
  | txFetch (bdf : W16) (q : Nat)
  /-- The transmit DMA of queue `q` finishes with one descriptor (R346). -/
  | txSend (bdf : W16) (q : Nat)
  /-- The transmit DMA of queue `q` writes its head back (R347). -/
  | txWriteBack (bdf : W16) (q : Nat)
  /-- The register side presents `v` in what is its own of a register (R348, U3, U4). -/
  | regSide (bdf : W16) (reg : DevReg) (idx : Nat) (v : W32)
  /-- The device presents `v` in a PCI configuration register that is its own (R356). -/
  | pciSide (bdf : W16) (reg : PciReg) (v : W32)
  /-- From now on register writes toward the NIC arrive at once (`false`) or wait to arrive (`true`) (R51). -/
  | hold (bdf : W16) (on : Bool)
  /-- The oldest register write posted toward the NIC arrives (R51). -/
  | arrive (bdf : W16)
  /-- From now on the NIC answers writes of the enable bits at once (`false`) or later (`true`) (R348, R416). -/
  | lag (bdf : W16) (on : Bool)
  /-- Time passes (R386). -/
  | elapse (micros : Nat)
  deriving DecidableEq, Repr

/-- A coming move: it is made once `wait` more micro-step boundaries have passed (rule R27; log 2). -/
structure Due where
  wait : Nat
  act : AgentAct
  deriving DecidableEq, Repr

/-- The state of the machine. `cfg`, `micros`, `trace`, `agenda`, `grants`, `maps` and `handlerQ` are the MODEL's
own fields: the parameters of the step relation and the answers of the environment (rule R49; log 2, 3, 13, 15,
16, 25). -/
structure State where
  /-- The configuration: no step writes it (R49). -/
  cfg : Config
  /-- `ES` (R41). -/
  es : EngineLife
  /-- The engine registers (R31). -/
  eng : Engine
  /-- The sequencer (R40). -/
  pc : Sequencer
  /-- The device handles by index; one not listed is `Handle.unmapped` (R42). -/
  handles : List (Nat × Handle)
  /-- Engine-virtual memory, in canonical form (R70). -/
  mem : List Host.Cell
  /-- The live blocks, the newest first (R352). -/
  blocks : List Block
  /-- The NICs by PCI identity; one not listed is `Nic.powerOn` (R50). -/
  nics : List (Nat × Nic)
  /-- The command port: the commands the host will present, the next one first (R110). -/
  port : List Command
  /-- The response port: the response to the last command, if one has ended (R110, R114). -/
  resp : Option Response
  /-- The abstract clock, in microseconds (R386). -/
  now : Nat
  /-- The micro-steps made so far. -/
  micros : Nat
  /-- The accesses made so far, the newest first (R85). -/
  trace : List Access
  /-- The coming moves of the other agents (R27, R340). -/
  agenda : List Due
  /-- The coming answers of the allocator; `none` is a failure, and so is an empty list (R352). -/
  grants : List (Option Grant)
  /-- The mappings `P2V` can make (R355). -/
  maps : List Mapping
  /-- The coming answers of the handler; after them it is `Config.handler` (R350). -/
  handlerQ : List HandlerRun
  deriving DecidableEq, Repr

/-- Why the machine stops with a fault. -/
inductive Fault where
  /-- An access to shared memory outside every live block, which the spec gives no existence (R70, R401), or a
  handler's write there. Raised by the memory accesses of `Ops.lean`. Safe: no run goes on from it. -/
  | unmappedMemory (addr : W64)
  /-- A register access outside the window of a mapped device (R70, R150). Raised by the register accesses of
  `Ops.lean`. Safe: no run goes on from it. -/
  | unmappedRegister (addr : W64)
  /-- The handler PROCESS called never returns: `stuck` (U7). Raised by PROCESS. Safe: the command never ends. -/
  | handlerNeverReturns
  deriving DecidableEq, Repr

/-- Why a command has no meaning in the model. -/
inductive Refusal where
  /-- The command is not modelled yet. Raised by no arm of this model. Safe. -/
  | notModelled (mnemonic : String)
  /-- REG_READ or REG_WRITE of a mapped device with a register, field and index that do not belong together (R116 (d),
  U1). Raised for such words by the step and by the two commands. Safe: the spec gives them no behaviour. -/
  | badRegisterOperand
  /-- The allocator answered a block for a ring that is not 128-byte aligned, virtually or physically (R77, R78, U13;
  log 14). Raised by ENG_CONSTRUCT. Safe: the allocator broke its contract. -/
  | misalignedBlock
  /-- The allocator answered a block that overlaps a live block or a window, or leaves the address space, virtually
  or physically (R352, U13). Raised by ENG_CONSTRUCT. Safe: the allocator broke its contract. -/
  | overlappingBlock
  /-- The handler returned a length above `BUF_SIZE` or wrote outside its buffer (R332, R350, U7). Raised by
  PROCESS. Safe: the handler broke its contract. -/
  | handlerBrokeContract
  deriving DecidableEq, Repr

/-- The engine registers before construction: they hold no value (R55), and the model's is 0 (log 4). -/
def Engine.powerOn : Engine where
  pd := 0
  fd := 0
  oc := 0
  rta := 0
  rtaV := false
  tta := Vector.replicate 4 0
  ring := Vector.replicate 4 0
  buf := 0
  heads := 0

/-- `pc = (idle, 0)` (R40, R55). -/
def Sequencer.idle : Sequencer := ⟨none, 0⟩

/-- A handle at power-on (R55): `bdf` and `base` hold no value, and the model's is 0 (log 5). -/
def Handle.unmapped : Handle := ⟨.unmapped, 0, 0, false, 0⟩

/-- A transmit queue whose head is 0 and that has fetched nothing (R345). -/
def TxQueue.empty : TxQueue := ⟨0, [], false⟩

/-- A NIC at power-on: no register is known; what one reads as is `Nic.unlisted` (R58; log 6). No rule gives what
the NIC holds inside before a queue is enabled or the device is reset (R51, R58, R401): that every head is 0, nothing
is fetched, no head write-back is pending, no frame is sent, no write is on its way and enable bits are answered at
once is the model's choice (DESIGN CHOICE, unsafe, log 44). -/
def Nic.powerOn : Nic where
  regs := []
  pci := []
  era := none
  usable := 0
  posted := []
  hold := false
  lag := false
  rxHeads := []
  txQueues := []
  sent := []

/-- The state after power-on (R401). -/
def State.reset : State where
  cfg := Config.spec
  es := .unconstructed
  eng := Engine.powerOn
  pc := Sequencer.idle
  handles := []
  mem := []
  blocks := []
  nics := []
  port := []
  resp := none
  now := 0
  micros := 0
  trace := []
  agenda := []
  grants := []
  maps := []
  handlerQ := []

end Sys2Proof.Machine
end

