-- ==== Sys2Proof/Machine/Flags.lean ====
section
/-! DEFINITION. The bits and conditions that steer the block; it has no condition codes (`10_state.md` rule R45).
Descriptor words (`30_encoding.md` rules R121 to R124), the Report-Status and flush conditions (R311, R315), slot
arithmetic (R334) and the result codes (`60_exceptions.md` rule R371). -/

namespace Sys2Proof.Machine

/-- `meta[DD]` (R303). -/
def ddOf (d : DescLayout) (word : W64) : Bool := word.getLsbD d.dd

/-- The `LEN_BITS` low bits of a word (R19, R121). -/
def lenMask (c : Config) : W64 := BitVec.ofNat 64 (2 ^ c.lenBits - 1)

/-- `meta[LEN]` (R303). -/
def lenOf (c : Config) (word : W64) : W16 := ((word >>> c.desc.lenLo) &&& lenMask c).setWidth 16

/-- A length in its place in word 1 (R121, R123); bits that do not fit `LEN` are dropped (log 35). -/
def lenField (c : Config) (len : W16) : W64 := (len.setWidth 64 &&& lenMask c) <<< c.desc.lenLo

/-- Word 1 in transmit form (R123, R124): every bit outside `LEN`, `EOP`, `IFCS` and `RS` is zero. -/
def txWord (c : Config) (len : W16) (rs : Bool) : W64 :=
  lenField c len ||| (1#64 <<< c.desc.eop) ||| (1#64 <<< c.desc.ifcs) |||
    ((if rs then 1#64 else 0#64) <<< c.desc.rs)

/-- Word 1 as the receive DMA writes it (R122, R342): `LEN` and `DD` set, the other bits of `other`. -/
def rxWord (c : Config) (len : W16) (other : W64) : W64 :=
  let own := (lenMask c <<< c.desc.lenLo) ||| (1#64 <<< c.desc.dd)
  (other &&& ~~~own) ||| lenField c len ||| (1#64 <<< c.desc.dd)

/-- `PD mod TP = RS_PHASE` (R311). -/
def rsSlot (c : Config) (pd : W64) : Bool := pd.toNat % c.transmitPeriod == c.rsPhase

/-- `(x + k) mod R` (R334 (a)). -/
def slotAdd (c : Config) (x : W64) (k : Nat) : W64 := BitVec.ofNat 64 ((x.toNat + k) % c.ringSize)

/-- `(x - 1) mod R` (R320, R334 (a)): the low bits of the 64-bit difference. -/
def slotBefore (c : Config) (x : W64) : W64 := BitVec.ofNat 64 ((x - 1).toNat % c.ringSize)

/-- The flush condition of TRANSMIT (R315), with the advanced `PD`. -/
def flushDue (c : Config) (fd pd : W64) : Bool := fd == c.flushedNone || pd == slotAdd c fd c.processPeriod

/-- The catch-up flush condition of RECEIVE (R305). -/
def catchUpDue (c : Config) (fd pd : W64) : Bool := fd != c.flushedNone && fd != pd

/-- One head of the scan (R318, R319): the distance is 64-bit subtraction, and `<=` keeps the later of equals. The
pair is `(earliest, min)`. -/
def scanHead (pd head : W64) (best : W64 × W64) : W64 × W64 :=
  if head - pd ≤ best.2 then (head, head - pd) else best

/-- The start of the scan (R319): `earliest` is the advanced `PD`, `min` is `2^64 - 1`. -/
def scanStart (pd : W64) : W64 × W64 := (pd, BitVec.allOnes 64)

/-- Which allocation of ENG_CONSTRUCT, or which translation of a bind, failed (R262, R270, R280). -/
inductive AllocSite where
  | ring (n : Nat) | pool | heads | translateRing (n : Nat) | translateBuffer (s : Nat) | translateHead (n : Nat)
  deriving DecidableEq, Repr

/-- What did not match (R182, R231). -/
inductive ValidationSite where
  | identity | powerState | barShape | mapping | eeprom
  deriving DecidableEq, Repr

/-- What a command was refused for (R270, R280, R376). -/
inductive PreconditionSite where
  | lifecycle | encoding | inputBound | rxQueueInUse | outputsFull | queueIndex | txQueueInUse | headAlignment
  deriving DecidableEq, Repr

/-- `raise <Failure>(info)` (R25, R371); the `info` is the content of a log line and not state (R377). -/
inductive Failure where
  | allocFail (site : AllocSite)
  | hwTimeout (field : DevField) (idx : Nat) (expected : Bool)
  | validationFail (site : ValidationSite)
  | preconditionFail (site : PreconditionSite)
  deriving DecidableEq, Repr

/-- `RES` of a command that ends with `return` (R371). -/
def resOk : BitVec 8 := 0

/-- `RES` of a failure (R371). -/
def Failure.res : Failure → BitVec 8
  | .allocFail _ => 1
  | .hwTimeout _ _ _ => 2
  | .validationFail _ => 3
  | .preconditionFail _ => 4

end Sys2Proof.Machine
end

