-- ==== Sys2Proof/Machine/Store.lean ====
section
/-! DEFINITION. Stores: lists of (key, value) pairs with rising keys, and byte memory in its one canonical form
(rising addresses, no listed byte equal to what an unlisted address reads as). -/

namespace Sys2Proof.Machine

/-- What a store lists under a key. -/
def Store.get? {β : Type} : List (Nat × β) → Nat → Option β
  | [], _ => none
  | (k', v) :: rest, k => if k' = k then some v else Store.get? rest k

/-- List `v` under `k`, in place of what was listed there. -/
def Store.put {β : Type} : List (Nat × β) → Nat → β → List (Nat × β)
  | [], k, v => [(k, v)]
  | (k', v') :: rest, k, v =>
    if k < k' then (k, v) :: (k', v') :: rest
    else if k' = k then (k, v) :: rest
    else (k', v') :: Store.put rest k v

/-- List nothing under `k`. -/
def Store.erase {β : Type} : List (Nat × β) → Nat → List (Nat × β)
  | [], _ => []
  | (k', v') :: rest, k => if k' = k then rest else (k', v') :: Store.erase rest k

/-- The keys rise strictly. -/
def Store.sorted {β : Type} : List (Nat × β) → Bool
  | [] => true
  | (k, _) :: rest => rest.all (fun c => k < c.1) && Store.sorted rest

/-- What an address that memory does not list reads as: allocated memory is zero-filled (rules R57, R352). -/
def Memory.unlisted : Byte := 0

/-- The byte at an address. -/
def Memory.read (m : List Host.Cell) (a : Nat) : Byte := (Store.get? m a).getD Memory.unlisted

/-- Store one byte, keeping the canonical form. -/
def Memory.write (m : List Host.Cell) (a : Nat) (b : Byte) : List Host.Cell :=
  if b = Memory.unlisted then Store.erase m a else Store.put m a b

/-- Every byte of `base .. base + size - 1` becomes what an unlisted address reads as (rule R57). -/
def Memory.clear (m : List Host.Cell) (base size : Nat) : List Host.Cell :=
  m.filter fun c => !(base ≤ c.1 && c.1 < base + size)

/-- The canonical form: rising addresses and no listed byte equal to an unlisted one. -/
def Memory.wf (m : List Host.Cell) : Bool := Store.sorted m && m.all fun c => c.2 != Memory.unlisted

/-- `n` bytes from address `a` on, as a little-endian number (rule R76). -/
def Memory.readLE (m : List Host.Cell) (a : Nat) : Nat → Nat
  | 0 => 0
  | n + 1 => (Memory.read m a).toNat + 256 * Memory.readLE m (a + 1) n

/-- Store the `n` low bytes of `v` from address `a` on, little-endian (rule R76). -/
def Memory.writeLE (m : List Host.Cell) (a : Nat) : Nat → Nat → List Host.Cell
  | 0, _ => m
  | n + 1, v => Memory.writeLE (Memory.write m a (BitVec.ofNat 8 v)) (a + 1) n (v / 256)

/-- The `n` low bytes of a number, least significant first (rule R76). -/
def bytesLE : Nat → Nat → List Byte
  | 0, _ => []
  | n + 1, v => BitVec.ofNat 8 v :: bytesLE n (v / 256)

/-- The number whose bytes these are, least significant first (rule R76). -/
def ofBytesLE : List Byte → Nat
  | [] => 0
  | b :: rest => b.toNat + 256 * ofBytesLE rest

end Sys2Proof.Machine
end

