-- ==== Sys2Proof/Machine/Nic.lean ====
section
/-! DEFINITION. One NIC as the block sees it: its register window and PCI configuration space (`10_state.md` rules
R50 to R54, R58), the device reset (`46_nic_agents.md` rule R349) and what its register side may change (R348). -/

namespace Sys2Proof.Machine

/-- What a register whose value is not known reads as: at power-on the model's 0 (R58; log 6), after a device reset
the NIC's own value, with every queue disabled and every tail 0 (R349; log 7). -/
def Nic.unlisted (c : Config) (n : Nic) (off : Nat) : W32 :=
  match n.era with
  | none => 0
  | some k =>
    let raw := Config.nicAfterReset k off
    if (c.indexAt .rxdctl off).isSome then raw &&& ~~~(c.mask .rxdctlEnable)
    else if (c.indexAt .txdctl off).isSome then raw &&& ~~~(c.mask .txdctlEnable)
    else if (c.indexAt .rdt off).isSome || (c.indexAt .tdt off).isSome then 0
    else raw

/-- The value of the register at a byte offset, as the NIC itself holds it. -/
def Nic.reg (c : Config) (n : Nic) (off : Nat) : W32 :=
  match Store.get? n.regs off with
  | some cell => cell.val
  | none => n.unlisted c off

/-- A field of a register, as the NIC itself holds it. -/
def Nic.field (c : Config) (n : Nic) (f : DevField) (idx : Nat) : W32 :=
  extract (n.reg c (c.off f.reg idx)) (c.mask f)

/-- What a register read at micro-step `k` and time `now` returns (R150): the register; a free value for a
write-only register (R166; log 9) and while a device reset has not taken effect (R416 (b); log 8). -/
def Nic.read (c : Config) (k now : Nat) (n : Nic) (off : Nat) : W32 :=
  if now < n.usable then Config.unsettledRegister k off
  else if off = c.off .eimc 0 then Config.writeOnlyRead k off
  else n.reg c off

/-- The register at `off` holds `v`, written by the block. -/
def Nic.putReg (n : Nic) (off : Nat) (v : W32) : Nic := { n with regs := Store.put n.regs off ⟨true, v⟩ }

/-- The device reset by a write made at micro-step `k` and time `now` (R349; log 7, 8): every register holds the
NIC's own value, every queue is disabled, heads and tails are 0; PCI configuration space is as before. R208 and R349
leave two points open. That descriptors fetched ahead and a pending head write-back are discarded is the model's
choice (DESIGN CHOICE, log 7), and so is the moment: all of this holds from the arrival of the write on, and not from
some later time up to `T_RESET` (DESIGN CHOICE, unsafe, log 45). -/
def Nic.deviceReset (c : Config) (k now : Nat) (n : Nic) : Nic :=
  { n with regs := [], era := some k, usable := now + c.tReset, rxHeads := [], txQueues := [] }

/-- A bit of `m` rises from `old` to `new`. -/
def rises (m old new : W32) : Bool := old &&& m == 0 && new &&& m != 0

/-- What enabling a queue does inside the NIC when the register at `off` goes from holding `old` to `new` (R341, R345;
log 26): the receive head, or the transmit head and tail, start at 0. -/
def Nic.queueEnable (c : Config) (n : Nic) (off : Nat) (old new : W32) : Nic :=
  match c.indexAt .rxdctl off with
  | some q =>
    if rises (c.mask .rxdctlEnable) old new then { n with rxHeads := Store.put n.rxHeads q 0 } else n
  | none =>
    match c.indexAt .txdctl off with
    | some q =>
      if rises (c.mask .txdctlEnable) old new then
        { n.putReg (c.off .tdt q) 0 with txQueues := Store.put n.txQueues q TxQueue.empty }
      else n
    | none => n

/-- The enable bit of a queue in the register at `off`; 0 where the register has none (R54). -/
def enableMask (c : Config) (off : Nat) : W32 :=
  if (c.indexAt .rxdctl off).isSome then c.mask .rxdctlEnable
  else if (c.indexAt .txdctl off).isSome then c.mask .txdctlEnable
  else 0

/-- What the register at `off` holds after a write of `v` (R348, R416 (a), (c); log 40): `v`, but while the NIC lags
the enable bit of a queue stays as it is until the register side changes it. -/
def Nic.accepted (c : Config) (n : Nic) (off : Nat) (v : W32) : W32 :=
  if n.lag then (v &&& ~~~(enableMask c off)) ||| (n.reg c off &&& enableMask c off) else v

/-- What a register write does inside the NIC when it arrives (R151, R348, R349): the register holds the value.
A write that sets `CTRL.RST` resets the device; a read-only register keeps its value and one marked 'RO here' gets
a free one (log 10); of a write made before a device reset has taken effect the register gets a free value (log 8). -/
def Nic.write (c : Config) (n : Nic) (w : RegWrite) : Nic :=
  if w.time < n.usable then n.putReg w.off (Config.unsettledRegister w.micro w.off)
  else if w.off = c.off .ctrl 0 then
    if w.val &&& c.mask .rst ≠ 0 then n.deviceReset c w.micro w.time else n.putReg w.off w.val
  else if w.off = c.off .status 0 ∨ w.off = c.off .secrxstat 0 then n
  else if w.off = c.off .eec 0 then
    { n with regs := Store.put n.regs w.off ⟨false, Config.afterReadOnlyWrite w.micro w.off w.val⟩ }
  else
    let v := n.accepted c w.off w.val
    (n.putReg w.off v).queueEnable c w.off (n.reg c w.off) v

/-- A register write leaves the block (R51, R94; log 39): it arrives at once, or waits behind the writes posted before
it. -/
def Nic.post (c : Config) (n : Nic) (w : RegWrite) : Nic :=
  if n.hold = false ∧ n.posted = [] then n.write c w else { n with posted := n.posted ++ [w] }

/-- The oldest posted write arrives (R51). -/
def Nic.arrive (c : Config) (n : Nic) : Nic :=
  match n.posted with
  | [] => n
  | w :: rest => { n with posted := rest }.write c w

/-- Every posted write arrives, in order (R94: register accesses to one device are performed in program order). -/
def Nic.drain (c : Config) (n : Nic) : Nic := n.posted.foldl (Nic.write c) { n with posted := [] }

/-- The bits of a register the NIC's register side may change at any time (R348, U3, U4): the status bits the block
polls, and all of a read-only register. -/
def statusBits (c : Config) : DevReg → W32
  | .status | .secrxstat | .eec => BitVec.allOnes 32
  | .rxdctl => c.mask .rxdctlEnable
  | .txdctl => c.mask .txdctlEnable
  | .rdrxctl => c.mask .dmaIdone
  | _ => 0

/-- The bits of the register at `off` that are the NIC's own now (R58, R348, R349, U3): of a register the block has
written since the device reset, the status bits; of any other register every bit, the tails after a device reset
apart. -/
def Nic.ownBits (c : Config) (n : Nic) (r : DevReg) (off : Nat) : W32 :=
  match Store.get? n.regs off with
  | some ⟨true, _⟩ => statusBits c r
  | _ => if n.era.isSome && (r == .rdt || r == .tdt) then 0 else BitVec.allOnes 32

/-- The register side presents `v` in its own bits of a register (R348); where the register has no such index there
is no register to change. -/
def Nic.regSide (c : Config) (n : Nic) (r : DevReg) (idx : Nat) (v : W32) : Nic :=
  if r.indexOk c idx then
    let off := c.off r idx
    let own := n.ownBits c r off
    let old := n.reg c off
    let new := (old &&& ~~~own) ||| (v &&& own)
    let byBlock := match Store.get? n.regs off with
      | some cell => cell.byBlock
      | none => false
    { n with regs := Store.put n.regs off ⟨byBlock, new⟩ }.queueEnable c off old new
  else n

/-- A PCI configuration read (R162, R356); a register that is not listed reads as the model's 0 (log 6). That a device
reset under way does not matter is the model's choice (R416 (b), U8; DESIGN CHOICE, log 47). -/
def Nic.pciRead (n : Nic) (off : Nat) : W32 := ((Store.get? n.pci off).map RegCell.val).getD 0

/-- A PCI configuration write of `v` at micro-step `k` (R163, R356), by the access column of R53 (log 10), a device
reset under way or not (DESIGN CHOICE, log 47). -/
def Nic.pciWrite (c : Config) (k : Nat) (n : Nic) (off : Nat) (v : W32) : Nic :=
  match PciReg.all.find? fun r => c.pciOff r == off with
  | some r =>
    match r.access with
    | .ro => n
    | .roHere => { n with pci := Store.put n.pci off ⟨false, Config.afterReadOnlyWrite k off v⟩ }
    | _ => { n with pci := Store.put n.pci off ⟨true, v⟩ }
  | none => { n with pci := Store.put n.pci off ⟨true, v⟩ }

/-- The device presents `v` in a PCI configuration register of its own: any but `PCI_COMMAND` once the block has
written it, which then reads back as written (R356; log 11). -/
def Nic.pciSide (c : Config) (n : Nic) (r : PciReg) (v : W32) : Nic :=
  if r == .command && (Store.get? n.pci (c.pciOff r)).any RegCell.byBlock then n
  else { n with pci := Store.put n.pci (c.pciOff r) ⟨false, v⟩ }

/-- The receive head `rxh` of a queue (R341). -/
def Nic.rxHead (n : Nic) (q : Nat) : Nat := (Store.get? n.rxHeads q).getD 0

/-- What a transmit queue holds (R345). -/
def Nic.txQueue (n : Nic) (q : Nat) : TxQueue := (Store.get? n.txQueues q).getD TxQueue.empty

end Sys2Proof.Machine
end

