-- ==== Sys2Proof/Machine/Agents.lean ====
section
/-! DEFINITION. The other agents (`46_nic_agents.md`): the NICs and handles of a state, address translation
(`20_memory.md` rules R87, R88), the DMA engines, and the boundary between two micro-steps at which the agents make
the moves that have come due (`00_scope.md` rule R27). -/

namespace Sys2Proof.Machine

/-- The handle of a device index (R42). -/
def State.handle (s : State) (dev : BitVec 8) : Handle := (Store.get? s.handles dev.toNat).getD Handle.unmapped

/-- Give the handle of a device index new contents. -/
def State.setHandle (s : State) (dev : BitVec 8) (h : Handle) : State :=
  { s with handles := Store.put s.handles dev.toNat h }

/-- The NIC of a PCI identity (R50): two handles of one identity alias one NIC (R190 (d)). -/
def State.nic (s : State) (bdf : W16) : Nic := (Store.get? s.nics bdf.toNat).getD Nic.powerOn

/-- Give the NIC of a PCI identity new contents. -/
def State.setNic (s : State) (bdf : W16) (n : Nic) : State := { s with nics := Store.put s.nics bdf.toNat n }

/-- A register write leaves the block for a NIC (R51, R151). -/
def State.postWrite (s : State) (bdf : W16) (off : Nat) (v : W32) : State :=
  s.setNic bdf ((s.nic bdf).post s.cfg ⟨s.micros, s.now, off, v⟩)

/-- The writes posted toward a NIC arrive before a read of one of its registers is answered (R51, R94). -/
def State.drainNic (s : State) (bdf : W16) : State :=
  if (s.nic bdf).posted = [] then s else s.setNic bdf ((s.nic bdf).drain s.cfg)

/-- Bytes `a .. a + n - 1` lie in the block. -/
def Block.holds (b : Block) (a n : Nat) : Bool := b.base.toNat ≤ a && a + n ≤ b.base.toNat + b.size

/-- Bytes `a .. a + n - 1` of engine-virtual memory exist: they lie in one live block (R86, R352). -/
def State.memExists (s : State) (a n : Nat) : Bool := s.blocks.any fun b => b.holds a n

/-- Byte `o` of a block lies in one of the stretches that `V2P` cannot translate. -/
def Block.inGap (b : Block) (o : Nat) : Bool := b.gaps.any fun g => g.off ≤ o && o < g.off + g.len

/-- The physical address `V2P` answers for address `a` of a block: contiguous from `phys` on (R88, R354). -/
def Block.physOf (b : Block) (a : Nat) : Option W64 :=
  let o := a - b.base.toNat
  if b.holds a 1 && !b.inGap o then some (BitVec.ofNat 64 (b.phys.toNat + o)) else none

/-- `V2P(addr)` (R87, R354): `none` is `failure`. -/
def State.v2p (s : State) (a : W64) : Option W64 := s.blocks.findSome? fun b => b.physOf a.toNat

/-- `P2V(paddr, size)` (R87, R355): `none` is `failure`. -/
def State.p2v (s : State) (paddr : W64) (size : Nat) : Option W64 :=
  (s.maps.find? fun m => m.paddr == paddr && size ≤ m.size).map Mapping.addr

/-- The engine-virtual address of physical byte `p`, if it lies in the block (R88). -/
def Block.virtOf (b : Block) (p : Nat) : Option Nat :=
  if b.phys.toNat ≤ p ∧ p < b.phys.toNat + b.size then some (b.base.toNat + (p - b.phys.toNat)) else none

/-- The engine-virtual address of physical byte `p`, if it lies in a live block. -/
def State.physToVirt (s : State) (p : Nat) : Option Nat := s.blocks.findSome? fun b => b.virtOf p

/-- The `n` bytes a DMA engine reads from physical address `p` on; outside the live blocks they are free values
(log 27). An access that runs past the end of the 64-bit address space does not wrap around: what lies there is outside
every block (R70 is silent; DESIGN CHOICE, log 49). -/
def State.dmaRead (s : State) (p : Nat) : Nat → List Byte
  | 0 => []
  | n + 1 =>
    (match s.physToVirt p with
      | some a => Memory.read s.mem a
      | none => Config.foreignByte s.micros p) :: State.dmaRead s (p + 1) n

/-- A DMA engine writes bytes from physical address `p` on; what lies outside the live blocks is no memory of the
block (R410; log 28), and so is what lies past the end of the address space, without wrapping around (R70 is silent;
DESIGN CHOICE, log 49). -/
def State.dmaWrite (s : State) (p : Nat) : List Byte → State
  | [] => s
  | b :: rest =>
    State.dmaWrite
      (match s.physToVirt p with
        | some a => { s with mem := Memory.write s.mem a b }
        | none => s) (p + 1) rest

/-- The address a register pair of a NIC holds (R131). -/
def Nic.pair (c : Config) (n : Nic) (high low : DevReg) (q : Nat) : W64 :=
  joinHalves (n.reg c (c.off high q)) (n.reg c (c.off low q))

/-- The receive DMA step (R341 to R344): the NIC has the queue (log 36), it and the receiver are enabled, the head is not
the tail, and the packet has 1 to `BUF_SIZE` bytes; otherwise the packet is dropped and nothing changes. No rule of the
agents asks for the master-disable bit (log 41), and none says what a tail that is no slot number does: like any tail that
is not the head it stops nothing (DESIGN CHOICE, log 48).
That a packet which comes while receive is disabled is dropped is the model's choice where R251 (b) and U12 leave
'dropped or held' open (DESIGN CHOICE, log 28); one that a NIC holds is a later entry of the agenda. -/
def State.rxDeliver (s : State) (bdf : W16) (q : Nat) (packet : List Byte) (other : W64) : State :=
  let c := s.cfg
  let n := s.nic bdf
  let head := n.rxHead q
  if c.rxQueueCount ≤ q ∨ n.field c .rxdctlEnable q = 0 ∨ n.field c .rxen 0 = 0 ∨
      head = (n.reg c (c.off .rdt q)).toNat ∨ packet.length = 0 ∨ c.bufSize < packet.length then s
  else
    let slot := (n.pair c .rdbah .rdbal q).toNat + descSize * head
    let pa := ofBytesLE (s.dmaRead slot 8)
    let word := rxWord c (BitVec.ofNat 16 packet.length) other
    ((s.dmaWrite pa packet).dmaWrite (slot + 8) (bytesLE 8 word.toNat)).setNic bdf
      { n with rxHeads := Store.put n.rxHeads q ((head + 1) % c.ringSize) }

/-- The NIC has the transmit queue (log 36), and it and the transmitter are enabled (R346). -/
def Nic.txEnabled (c : Config) (n : Nic) (q : Nat) : Bool :=
  decide (q < c.txQueueCount) && n.field c .txdctlEnable q != 0 && n.field c .te 0 != 0

/-- The descriptor a transmit DMA reads at slot `i` of its ring: word 0 and word 1 (R346). -/
def State.txDescriptor (s : State) (n : Nic) (q i : Nat) : W64 × W64 :=
  let slot := (n.pair s.cfg .tdbah .tdbal q).toNat + descSize * i
  (BitVec.ofNat 64 (ofBytesLE (s.dmaRead slot 8)), BitVec.ofNat 64 (ofBytesLE (s.dmaRead (slot + 8) 8)))

/-- How many slots the transmit DMA owns, from its head to the one before the tail, mod `RING_SIZE` (R345); a
tail that is no slot number is taken mod `RING_SIZE` too (DESIGN CHOICE, log 48). -/
def Nic.txOwned (c : Config) (n : Nic) (q : Nat) : Nat :=
  ((n.reg c (c.off .tdt q)).toNat + c.ringSize - (n.txQueue q).head) % c.ringSize

/-- The transmit DMA fetches one descriptor ahead of sending it, if it owns a slot that it has not fetched: never beyond
the tail, wherever a write has moved it (R345, R346). -/
def State.txFetch (s : State) (bdf : W16) (q : Nat) : State :=
  let c := s.cfg
  let n := s.nic bdf
  let t := n.txQueue q
  let i := (t.head + t.fetched.length) % c.ringSize
  if n.txEnabled c q = false ∨ n.txOwned c q ≤ t.fetched.length then s
  else s.setNic bdf
    { n with txQueues := Store.put n.txQueues q { t with fetched := t.fetched ++ [s.txDescriptor n q i] } }

/-- The transmit DMA step (R345, R346): the descriptor at the head, fetched before or read now; a frame when `LEN`
is not 0; the head advances. A tail that is no slot number is never the head, so it stops no send (DESIGN CHOICE, log
48). -/
def State.txSend (s : State) (bdf : W16) (q : Nat) : State :=
  let c := s.cfg
  let n := s.nic bdf
  let t := n.txQueue q
  if n.txEnabled c q = false ∨ t.head = (n.reg c (c.off .tdt q)).toNat then s
  else
    let d := match t.fetched with
      | d :: _ => d
      | [] => s.txDescriptor n q t.head
    let len := (lenOf c d.2).toNat
    let frame : Frame := ⟨q, s.dmaRead d.1.toNat len, d.2.getLsbD c.desc.eop, d.2.getLsbD c.desc.ifcs⟩
    let t' : TxQueue := ⟨(t.head + 1) % c.ringSize, t.fetched.tail, t.rsDone || d.2.getLsbD c.desc.rs⟩
    s.setNic bdf
      { n with txQueues := Store.put n.txQueues q t', sent := if len = 0 then n.sent else n.sent ++ [frame] }

/-- The address the head of a queue is written back to (R131, R132): the register pair without the enable bit. -/
def Nic.headSlot (c : Config) (n : Nic) (q : Nat) : W64 :=
  joinHalves (n.reg c (c.off .tdwbah q)) (n.reg c (c.off .tdwbal q) &&& ~~~(c.mask .headWbEn))

/-- The head write-back (R347, R132): the NIC has the queue (log 36), its write-back is enabled, and a Report-Status
descriptor has been finished since the last one; the current head is written, 32 bits, little-endian. No rule asks
that the queue or the transmitter be enabled still (R290, R347). While `TX_DESC_WB_RO_EN` is 1 (R291 gives no order then)
the current head is written all the same, in order (DESIGN CHOICE, unsafe, log 42). -/
def State.txWriteBack (s : State) (bdf : W16) (q : Nat) : State :=
  let c := s.cfg
  let n := s.nic bdf
  let t := n.txQueue q
  if c.txQueueCount ≤ q ∨ n.field c .headWbEn q = 0 ∨ t.rsDone = false then s
  else
    (s.dmaWrite (n.headSlot c q).toNat (bytesLE 4 t.head)).setNic bdf
      { n with txQueues := Store.put n.txQueues q { t with rsDone := false } }

/-- `d` microseconds pass (R386). -/
def State.elapse (s : State) (d : Nat) : State := { s with now := s.now + d }

/-- One move of another agent (R340). -/
def AgentAct.apply (act : AgentAct) (s : State) : State :=
  match act with
  | .rxDeliver bdf q packet other => s.rxDeliver bdf q packet other
  | .txFetch bdf q => s.txFetch bdf q
  | .txSend bdf q => s.txSend bdf q
  | .txWriteBack bdf q => s.txWriteBack bdf q
  | .regSide bdf reg idx v => s.setNic bdf ((s.nic bdf).regSide s.cfg reg idx v)
  | .pciSide bdf reg v => s.setNic bdf ((s.nic bdf).pciSide s.cfg reg v)
  | .hold bdf on => s.setNic bdf { s.nic bdf with hold := on }
  | .arrive bdf => s.setNic bdf ((s.nic bdf).arrive s.cfg)
  | .lag bdf on => s.setNic bdf { s.nic bdf with lag := on }
  | .elapse d => s.elapse d

/-- Make the moves that are due, in order; the next one is one boundary nearer (R27; log 2). -/
def runDue : List Due → State → State
  | [], s => { s with agenda := [] }
  | ⟨0, act⟩ :: rest, s => runDue rest (act.apply s)
  | ⟨w + 1, act⟩ :: rest, s => { s with agenda := ⟨w, act⟩ :: rest }

/-- The other agents act: what happens between two micro-steps (R27). -/
def State.agents (s : State) : State := runDue s.agenda s

/-- The sequencer comes to stand at the micro-step numbered `line` of the command in progress, the next one to be made
(R40; log 34). -/
def State.atStep (s : State) (line : Nat) : State := { s with pc := { s.pc with step := line } }

/-- From one micro-step to the next, the one numbered `line` in its command's pseudocode (R27, R40): the sequencer
stands at `line` while the other agents act, and the micro-step then made takes some time (R386; log 17). -/
def State.boundary (s : State) (line : Nat) : State :=
  let t := (s.atStep line).agents
  { t with micros := t.micros + 1, now := t.now + Config.microTime t.micros }

end Sys2Proof.Machine
end

