-- ==== Sys2Proof/Machine/Ops.lean ====
section
/-! DEFINITION. The named operations: the primitives of `00_scope.md` rules R22 to R26, each one micro-step, the
register and field operations of `40_register_access.md` built on them, and the two ends of a command: `return`
and `raise` (`60_exceptions.md` rules R370, R379). The first argument of a primitive is the number of its
micro-step in the command's pseudocode. -/

namespace Sys2Proof.Machine

/-- Why a command's micro-steps end early: `raise`, or a stop of the model. -/
inductive Stop where
  | raise (f : Failure)
  | fault (f : Fault)
  | refuse (r : Refusal)
  deriving DecidableEq, Repr

/-- A sequence of micro-steps in program order (R27): it yields a value or stops early, and what the micro-steps
made so far did to the state stays in both cases (R25, R385). -/
abbrev Micro (α : Type) := EStateM Stop State α

/-- `raise <Failure>(info)` (R25). -/
def raise {α : Type} (f : Failure) : Micro α := throw (.raise f)

/-- The model gives the execution no meaning. -/
def refuse {α : Type} (r : Refusal) : Micro α := throw (.refuse r)

/-- Look at the state: no micro-step. -/
def look {α : Type} (f : State → α) : Micro α := fun s => .ok (f s) s

/-- Change state of the block itself: no micro-step (R27). -/
def change (f : State → State) : Micro Unit := fun s => .ok () (f s)

/-- Run `body` for each element, in order. -/
def forEach {α : Type} : List α → (α → Micro Unit) → Micro Unit
  | [], _ => pure ()
  | x :: rest, body => do
    body x
    forEach rest body

/-- Note an access on the ports (R85; log 25). -/
def State.log (s : State) (a : Access) : State := { s with trace := a :: s.trace }

/-! Shared memory (R22, R76, R79 to R83). -/

/-- `MemRead(a, n)`, with acquire ordering where marked (R76, R95). -/
def memRead (line : Nat) (acquire : Bool) (a : W64) (n : Nat) : Micro W64 := fun s =>
  let s := s.boundary line
  if s.memExists a.toNat n then
    let v := BitVec.ofNat 64 (Memory.readLE s.mem a.toNat n)
    .ok v (s.log (.memRead acquire a n v))
  else .error (.fault (.unmappedMemory a)) s

/-- `MemWrite(a, n, v)`, with release ordering where marked (R76, R96). -/
def memWrite (line : Nat) (release : Bool) (a : W64) (n : Nat) (v : W64) : Micro Unit := fun s =>
  let s := s.boundary line
  if s.memExists a.toNat n then
    .ok () ({ s with mem := Memory.writeLE s.mem a.toNat n v.toNat }.log (.memWrite release a n v))
  else .error (.fault (.unmappedMemory a)) s

/-! Device registers (R23, R150, R151). -/

/-- The window of the device is mapped (R43, R150). -/
def Handle.mapped (h : Handle) : Bool :=
  match h.ls with
  | .validated | .reset | .initialized => true
  | .unmapped | .failed => false

/-- A register access at this offset is legal (R150). -/
def regOffOk (off : Nat) : Bool := off % 4 == 0 && off < windowSize

/-- `MmioRead32(dev, off)` (R150); the writes posted toward the NIC have arrived before it (R94). -/
def mmioRead32 (line : Nat) (dev : BitVec 8) (off : Nat) : Micro W32 := fun s =>
  let s := s.boundary line
  let h := s.handle dev
  let a := h.base + BitVec.ofNat 64 off
  if h.mapped && regOffOk off then
    let s := s.drainNic h.bdf
    let v := (s.nic h.bdf).read s.cfg s.micros s.now off
    .ok v (s.log (.mmioRead a v))
  else .error (.fault (.unmappedRegister a)) s

/-- `MmioWrite32(dev, off, v)` (R151). -/
def mmioWrite32 (line : Nat) (dev : BitVec 8) (off : Nat) (v : W32) : Micro Unit := fun s =>
  let s := s.boundary line
  let h := s.handle dev
  let a := h.base + BitVec.ofNat 64 off
  if h.mapped && regOffOk off then
    .ok () ((s.postWrite h.bdf off v).log (.mmioWrite a v))
  else .error (.fault (.unmappedRegister a)) s

/-- The byte offset of an engine-virtual address in the window of a handle, if the window is mapped and has a register
there (R72, R77). The window itself may lie at any address, across the top of the address space too (R355 is silent;
DESIGN CHOICE, log 46). -/
def Handle.offsetOf (h : Handle) (a : W64) : Option Nat :=
  let off := (a - h.base).toNat
  if h.mapped && regOffOk off then some off else none

/-- The PCI identity and window offset an engine-virtual address names (R72); of overlapping windows the one with
the least device index (log 23). -/
def State.windowAt (s : State) (a : W64) : Option (W16 × Nat) :=
  s.handles.findSome? fun e => (e.2.offsetOf a).map fun off => (e.2.bdf, off)

/-- `MmioWrite32At(a, v)` (R72). -/
def mmioWriteAt (line : Nat) (a : W64) (v : W32) : Micro Unit := fun s =>
  let s := s.boundary line
  match s.windowAt a with
  | some (bdf, off) => .ok () ((s.postWrite bdf off v).log (.mmioWrite a v))
  | none => .error (.fault (.unmappedRegister a)) s

/-- `RegRead(dev, reg, idx)` (R152). -/
def regRead (line : Nat) (dev : BitVec 8) (r : DevReg) (idx : Nat) : Micro W32 := do
  mmioRead32 line dev (← look fun s => s.cfg.off r idx)

/-- `RegWrite(dev, reg, idx, v)` (R153). -/
def regWrite (line : Nat) (dev : BitVec 8) (r : DevReg) (idx : Nat) (v : W32) : Micro Unit := do
  mmioWrite32 line dev (← look fun s => s.cfg.off r idx) v

/-- `RegReadField(dev, reg, idx, fld)` (R154). -/
def regReadField (line : Nat) (dev : BitVec 8) (f : DevField) (idx : Nat) : Micro W32 := do
  let raw ← regRead line dev f.reg idx
  return extract raw (← look fun s => s.cfg.mask f)

/-- `RegWriteField(dev, reg, idx, fld, v)` (R155): two micro-steps, `line` and `line + 1`. -/
def regWriteField (line : Nat) (dev : BitVec 8) (f : DevField) (idx : Nat) (v : W32) : Micro Unit := do
  let raw ← regRead line dev f.reg idx
  regWrite (line + 1) dev f.reg idx (insertField raw (← look fun s => s.cfg.mask f) v)

/-- `RegSet(dev, reg, idx, fld)` (R156). -/
def regSet (line : Nat) (dev : BitVec 8) (f : DevField) (idx : Nat) : Micro Unit := do
  regWriteField line dev f idx (fieldOnes (← look fun s => s.cfg.mask f))

/-- `RegClear(dev, reg, idx, fld)` (R157). -/
def regClear (line : Nat) (dev : BitVec 8) (f : DevField) (idx : Nat) : Micro Unit :=
  regWriteField line dev f idx 0

/-- `RegIsCleared(dev, reg, idx, fld)` (R158). -/
def regIsCleared (line : Nat) (dev : BitVec 8) (f : DevField) (idx : Nat) : Micro Bool := do
  return (← regReadField line dev f idx) == 0

/-! Time (R24, R159, R160, R386). -/

/-- `SleepUs(n)`: at least `n` microseconds pass. -/
def sleepUs (line : Nat) (n : Nat) : Micro Unit := fun s =>
  let s := s.boundary line
  .ok () ({ s.elapse n with now := s.now + n + Config.sleepExtra s.micros }.log (.sleep n))

/-- The time between two reads of a poll: `t / POLL_ATTEMPTS`, rounded up so that a timeout comes after at least
`t` microseconds whatever the number of attempts (R159; log 18). -/
def pollGap (c : Config) (t : Nat) : Nat := (t + c.pollAttempts - 1) / c.pollAttempts

/-- The loop of a poll (R159), `attempts` reads still to make: a read at `line`, a sleep at `line + 1`. -/
def pollLoop (line : Nat) (dev : BitVec 8) (f : DevField) (idx : Nat) (wantSet : Bool) (gap : Nat) :
    Nat → Micro Bool
  | 0 => pure false
  | attempts + 1 => do
    let cleared ← regIsCleared line dev f idx
    if cleared != wantSet then return true
    sleepUs (line + 1) gap
    pollLoop line dev f idx wantSet gap attempts

/-- `Poll(cond, T_POLL)` (R159) for the condition that the field is not 0 (`wantSet`) or is 0; `false` is
`timeout`. -/
def poll (line : Nat) (dev : BitVec 8) (f : DevField) (idx : Nat) (wantSet : Bool) : Micro Bool := do
  let c ← look State.cfg
  pollLoop line dev f idx wantSet (pollGap c c.tPoll) c.pollAttempts

/-! PCI configuration space (R162 to R164, R356). -/

/-- `PciRead(bdf, off)` (R162); before a device reset has taken effect it answers as ever (DESIGN CHOICE, log 47). -/
def pciRead (line : Nat) (bdf : W16) (off : Nat) : Micro W32 := fun s =>
  let s := s.boundary line
  let v := (s.nic bdf).pciRead off
  .ok v (s.log (.pciRead bdf off v))

/-- `PciWrite(bdf, off, v)` (R163); before a device reset has taken effect it acts as ever (DESIGN CHOICE, log 47). -/
def pciWrite (line : Nat) (bdf : W16) (off : Nat) (v : W32) : Micro Unit := fun s =>
  let s := s.boundary line
  .ok () ((s.setNic bdf ((s.nic bdf).pciWrite s.cfg s.micros off v)).log (.pciWrite bdf off v))

/-- `PciRead(bdf, Off(reg))` (R53, R162). -/
def pciRegRead (line : Nat) (bdf : W16) (r : PciReg) : Micro W32 := do
  pciRead line bdf (← look fun s => s.cfg.pciOff r)

/-- `PciReadField(bdf, reg, fld)` (R164). -/
def pciReadField (line : Nat) (bdf : W16) (f : PciField) : Micro W32 := do
  let raw ← pciRegRead line bdf f.reg
  return extract raw (← look fun s => s.cfg.pciMask f)

/-- `PciWriteField(bdf, reg, fld, v)` (R164): two micro-steps, `line` and `line + 1`. -/
def pciWriteField (line : Nat) (bdf : W16) (f : PciField) (v : W32) : Micro Unit := do
  let raw ← pciRegRead line bdf f.reg
  pciWrite (line + 1) bdf (← look fun s => s.cfg.pciOff f.reg)
    (insertField raw (← look fun s => s.cfg.pciMask f) v)

/-- `PciSet(bdf, reg, fld)` (R164). -/
def pciSet (line : Nat) (bdf : W16) (f : PciField) : Micro Unit := do
  pciWriteField line bdf f (fieldOnes (← look fun s => s.cfg.pciMask f))

/-- `PciIsCleared(bdf, reg, fld)` (R164, R158). -/
def pciIsCleared (line : Nat) (bdf : W16) (f : PciField) : Micro Bool := do
  return (← pciReadField line bdf f) == 0

/-! The allocator (R26, R352 to R355). -/

/-- The stretches `a .. a + n - 1` and `b .. b + m - 1` have an address in common. -/
def overlap (a n b m : Nat) : Bool := a < b + m && b < a + n && 0 < n && 0 < m

/-- A block answered by the allocator lies inside both address spaces, and overlaps no live block, virtually or
physically, and no register window (R86, R352). -/
def State.grantOk (s : State) (g : Grant) (size : Nat) : Bool :=
  g.base.toNat + size ≤ 2 ^ 64 && g.phys.toNat + size ≤ 2 ^ 64 &&
  s.blocks.all (fun b => !overlap g.base.toNat size b.base.toNat b.size &&
    !overlap g.phys.toNat size b.phys.toNat b.size) &&
  s.handles.all fun e => !(e.2.ls != .unmapped && overlap g.base.toNat size e.2.base.toNat windowSize)

/-- A block answered for a ring is 128-byte aligned, virtually and physically (R11, R77, R78, U13). The command asks
nothing of where the pool and the head array stand (R77, R265 (b)); a misaligned head slot has its answer in
BIND_OUTPUT (R289; log 14). -/
def Grant.aligned (g : Grant) (site : AllocSite) : Bool :=
  match site with
  | .ring _ => g.base.toNat % ringAlign == 0 && g.phys.toNat % ringAlign == 0
  | .pool | .heads | .translateRing _ | .translateBuffer _ | .translateHead _ => true

/-- The state once the allocator has given a block of `size` bytes: live and zero-filled (R57, R352). -/
def State.addBlock (s : State) (g : Grant) (size : Nat) : State :=
  { s with
    blocks := ⟨g.base, size, g.phys, g.gaps⟩ :: s.blocks
    mem := Memory.clear s.mem g.base.toNat size }

/-- `Alloc(size)` for a use (R26, R352): `none` is `failure`. A misaligned ring and a block that overlaps have
no meaning (R78, U13; log 14). -/
def alloc (line : Nat) (size : Nat) (site : AllocSite) : Micro (Option W64) := fun s =>
  let s := s.boundary line
  match s.grants with
  | [] => .ok none (s.log (.alloc size none))
  | none :: rest => .ok none ({ s with grants := rest }.log (.alloc size none))
  | some g :: rest =>
    if g.aligned site = false then .error (.refuse .misalignedBlock) s
    else if s.grantOk g size then
      .ok (some g.base) (({ s with grants := rest }.addBlock g size).log (.alloc size (some g.base)))
    else .error (.refuse .overlappingBlock) s

/-- `Free(addr)` (R353): the life of the block ends. -/
def free (line : Nat) (a : W64) : Micro Unit := fun s =>
  let s := s.boundary line
  .ok () ({ s with blocks := s.blocks.filter fun b => b.base != a }.log (.free a))

/-- `V2P(addr)` (R354): `none` is `failure`. -/
def v2p (line : Nat) (a : W64) : Micro (Option W64) := fun s =>
  let s := s.boundary line
  .ok (s.v2p a) (s.log (.v2p a (s.v2p a)))

/-- `V2P(addr)`, or `raise AllocFail` where it fails (R87, R354, R372). -/
def v2pOrRaise (line : Nat) (a : W64) (site : AllocSite) : Micro W64 := do
  match ← v2p line a with
  | some p => return p
  | none => raise (.allocFail site)

/-- `P2V(paddr, size)` (R355): `none` is `failure`. -/
def p2v (line : Nat) (paddr : W64) (size : Nat) : Micro (Option W64) := fun s =>
  let s := s.boundary line
  .ok (s.p2v paddr size) (s.log (.p2v paddr size (s.p2v paddr size)))

/-! Engine addresses (R36 to R39). -/

/-- Output `n` is bound when `n < OC` (R34); the bound outputs, in ascending order. -/
def State.outputs (s : State) : List (Fin 4) := (List.finRange 4).filter fun n => n.val < s.eng.oc.toNat

/-- The address of word `w` of slot `i` of ring `n` (R37). -/
def Engine.wordAddr (e : Engine) (n : Fin 4) (i : W64) (w : Nat) : W64 :=
  e.ring[n] + BitVec.ofNat 64 (descSize * i.toNat + 8 * w)

/-- The address of buffer `i` (R38). -/
def Engine.bufAddr (e : Engine) (c : Config) (i : W64) : W64 := e.buf + BitVec.ofNat 64 (c.bufSize * i.toNat)

/-- The address of the head slot of output `n` (R39). -/
def Engine.headAddr (e : Engine) (c : Config) (n : Fin 4) : W64 :=
  e.heads + BitVec.ofNat 64 (n.val * c.headStride)

/-- `x[i]`, the engine registers by index (R21, R31). -/
def Engine.x (e : Engine) (i : Fin 14) : W64 :=
  if i.val = 0 then e.pd
  else if i.val = 1 then e.fd
  else if i.val = 2 then e.oc
  else if i.val = 3 then e.rta
  else if i.val < 8 then e.tta.toList.getD (i.val - 4) 0
  else if i.val < 12 then e.ring.toList.getD (i.val - 8) 0
  else if i.val = 12 then e.buf
  else e.heads

/-- A slot number as a 32-bit tail value (R127). -/
def tailValue (slot : W64) : W32 := slot.setWidth 32

/-- A flush (R305, R314): the transmit tail of every bound output is written with `PD`, in ascending order. -/
def flushTails (line : Nat) : Micro Unit := do
  let s ← look id
  forEach s.outputs fun n => mmioWriteAt line s.eng.tta[n] (tailValue s.eng.pd)

/-! The two ends of a command (R25, R370, R379). -/

/-- The lifecycle state of a device changes (R43). -/
def setLife (dev : BitVec 8) (ls : DevLife) : Micro Unit :=
  change fun s => s.setHandle dev { s.handle dev with ls := ls }

/-- The end of a command: `pc <- (idle, 0)` and the response (R40, R370, R379 (3), (4)). -/
def State.respond (s : State) (res : BitVec 8) (val0 val1 : W64) : State :=
  { s with pc := Sequencer.idle, resp := some ⟨res, val0, val1⟩ }

/-- A failure is taken (R370, R379): there is no vector and no handler; the rollback and the lifecycle update of the
raising rule have been made, the sequencer goes idle, and the response carries the result code. R114 and R377 give
`VAL0` and `VAL1` of a failing RECEIVE or REG_READ no value: 0 in both is the model's choice (DESIGN CHOICE, log 38). -/
def State.takeFailure (s : State) (f : Failure) : State := s.respond f.res 0 0

/-- Run the command `i` (R370, R376, R378, R379): its lifecycle precondition is tested before any micro-step, and a
command refused by it changes nothing but the response; `body` yields `VAL0` and `VAL1`. -/
def runCommand (i : Instr) (pre : State → Bool) (body : Micro (W64 × W64)) (s : State) :
    Host.Outcome State Fault Refusal :=
  if pre s then
    match body { s with pc := ⟨some i, 1⟩ } with
    | .ok v s' => .next (s'.respond resOk v.1 v.2)
    | .error (.raise f) s' => .next (s'.takeFailure f)
    | .error (.fault f) _ => .fault f
    | .error (.refuse r) _ => .refused r
  else .next (s.takeFailure (.preconditionFail .lifecycle))

/-- The response values of a command that returns none (R114). -/
def noValues : W64 × W64 := (0, 0)

/-- The device index is in range (R116 (c)) and `LS` is the state that accepts the command (R43). -/
def lifeIs (dev : BitVec 8) (ls : DevLife) (s : State) : Bool := devInRange s.cfg dev && (s.handle dev).ls == ls

/-- `ES = Constructed` (R41). -/
def isConstructed (s : State) : Bool := s.es == .constructed

end Sys2Proof.Machine
end

