-- ==== Sys2Proof/Machine/DevReset.lean ====
section
/-! DEFINITION. DEV_RESET (`42_device_reset.md`): the meaning follows the pseudocode of rule R202; the
device_reset_fsm of rule R201 stands beside it as a second reading of the same command. -/

namespace Sys2Proof.Machine

/-- `dev.LS <- Failed ; raise X` (R202, R231). -/
def failDevice {α : Type} (dev : BitVec 8) (f : Failure) : Micro α := do
  setLife dev .failed
  raise f

/-- The receive-queue loop of rule R202 from queue `q` on, `todo` queues still to disable. -/
def disableRxQueues (dev : BitVec 8) : Nat → Nat → Micro Unit
  | 0, _ => pure ()
  | todo + 1, q => do
    regClear 1 dev .rxdctlEnable q
    let ok ← poll 3 dev .rxdctlEnable q false
    if !ok then failDevice dev (.hwTimeout .rxdctlEnable q false)
    sleepUs 5 (← look fun s => s.cfg.tRxqWait)
    disableRxQueues dev todo (q + 1)

/-- The buffer flush (R206). -/
def flushBuffers (dev : BitVec 8) : Micro Unit := do
  regSet 11 dev .lpbk 0
  regSet 13 dev .buffersClearFunc 0
  sleepUs 15 (← look fun s => s.cfg.tFlush)
  regClear 16 dev .lpbk 0
  regClear 18 dev .buffersClearFunc 0

/-- The transaction-pending check of the fallback path (R205). -/
def transactionPending (dev : BitVec 8) : Micro Bool := do
  let clear ← pciIsCleared 10 (← look fun s => (s.handle dev).bdf) .transactionPending
  return !clear

/-- Master disable, with the fallback (R204, R205). -/
def disableMaster (dev : BitVec 8) : Micro Unit := do
  regSet 6 dev .masterDisable 0
  let ok ← poll 8 dev .masterEnableStatus 0 false
  if !ok then
    if ← transactionPending dev then flushBuffers dev

/-- The device reset and its wait (R207). -/
def issueReset (dev : BitVec 8) : Micro Unit := do
  regSet 20 dev .rst 0
  sleepUs 22 (← look fun s => s.cfg.tReset)

/-- The pseudocode of rule R202. -/
def resetDevice (dev : BitVec 8) : Micro Unit := do
  disableRxQueues dev (← look fun s => s.cfg.rxQueueCount) 0
  disableMaster dev
  issueReset dev
  setLife dev .reset

/-- DEV_RESET (R202). -/
def execDevReset (dev : BitVec 8) (s : State) : Host.Outcome State Fault Refusal :=
  runCommand (.devReset dev) (lifeIs dev .validated)
    (do
      resetDevice dev
      return noValues)
    s

/-- The states of the device_reset_fsm (R201). -/
inductive ResetPhase where
  | rxqClear (q : Nat)
  | rxqPoll (q : Nat)
  | rxqWait (q : Nat)
  | masterDisable
  | masterPoll
  | pendingCheck
  | flushOn
  | flushWait
  | flushOff
  | deviceReset
  | resetWait
  | done
  | fail (q : Nat)
  deriving DecidableEq, Repr

/-- The action and the next state of each state of rule R201; `none` is idle. -/
def resetPhaseStep (dev : BitVec 8) : ResetPhase → Micro (Option ResetPhase)
  | .rxqClear q => do
    regClear 1 dev .rxdctlEnable q
    return some (.rxqPoll q)
  | .rxqPoll q => do
    let ok ← poll 3 dev .rxdctlEnable q false
    return some (if ok then .rxqWait q else .fail q)
  | .rxqWait q => do
    sleepUs 5 (← look fun s => s.cfg.tRxqWait)
    let count ← look fun s => s.cfg.rxQueueCount
    return some (if q + 1 < count then .rxqClear (q + 1) else .masterDisable)
  | .masterDisable => do
    regSet 6 dev .masterDisable 0
    return some .masterPoll
  | .masterPoll => do
    let ok ← poll 8 dev .masterEnableStatus 0 false
    return some (if ok then .deviceReset else .pendingCheck)
  | .pendingCheck => do
    let pending ← transactionPending dev
    return some (if pending then .flushOn else .deviceReset)
  | .flushOn => do
    regSet 11 dev .lpbk 0
    regSet 13 dev .buffersClearFunc 0
    return some .flushWait
  | .flushWait => do
    sleepUs 15 (← look fun s => s.cfg.tFlush)
    return some .flushOff
  | .flushOff => do
    regClear 16 dev .lpbk 0
    regClear 18 dev .buffersClearFunc 0
    return some .deviceReset
  | .deviceReset => do
    regSet 20 dev .rst 0
    return some .resetWait
  | .resetWait => do
    sleepUs 22 (← look fun s => s.cfg.tReset)
    return some .done
  | .done => do
    setLife dev .reset
    return none
  | .fail q => failDevice dev (.hwTimeout .rxdctlEnable q false)

/-- Run the device_reset_fsm for at most `fuel` of its steps. -/
def resetFsm (dev : BitVec 8) : Nat → ResetPhase → Micro Unit
  | 0, _ => pure ()
  | fuel + 1, phase => do
    match ← resetPhaseStep dev phase with
    | some next => resetFsm dev fuel next
    | none => pure ()

/-- Enough steps for every run of the device_reset_fsm: three for each queue, and nine more at most. -/
def resetFsmFuel (c : Config) : Nat := 3 * c.rxQueueCount + 9

end Sys2Proof.Machine
end

