-- ==== Sys2Proof/Machine/DevInit.lean ====
section
/-! DEFINITION. DEV_INIT and SET_PROMISC (`43_device_init.md` rules R231, R250), and the pseudo-command DEV_CREATE
run as its commands (R118, R255). -/

namespace Sys2Proof.Machine

/-- Steps I1 to I4 (R232 to R234): interrupts masked, EEPROM and DMA ready. -/
def awaitDevice (dev : BitVec 8) : Micro Unit := do
  regWrite 1 dev .eimc 0 (← look fun s => s.cfg.init.eimcAll)
  let read ← poll 2 dev .autoRd 0 true
  if !read then failDevice dev (.hwTimeout .autoRd 0 true)
  let absent ← regIsCleared 4 dev .eePres 0
  if absent then failDevice dev (.validationFail .eeprom)
  let ready ← poll 5 dev .dmaIdone 0 true
  if !ready then failDevice dev (.hwTimeout .dmaIdone 0 true)

/-- Write 0 to every entry of a table of `n` registers, in ascending order (R235). -/
def zeroTable (line : Nat) (dev : BitVec 8) (r : DevReg) (n : Nat) : Micro Unit :=
  forEach (List.range n) fun i => regWrite line dev r i 0

/-- Steps I5 to I9 (R235): the five filter tables. -/
def zeroFilterTables (dev : BitVec 8) : Micro Unit := do
  let v ← look fun s => s.cfg.init
  zeroTable 7 dev .pfuta v.nUnicast
  zeroTable 8 dev .pfvlvf v.nVlan
  zeroTable 9 dev .pfvlvfb v.nVlanBmp
  zeroTable 10 dev .mta v.nMulticast
  zeroTable 11 dev .ftqf v.n5tuple

/-- The packet buffers 1 to 7. -/
def otherBuffers : List Nat := [1, 2, 3, 4, 5, 6, 7]

/-- Steps I10 to I12 (R236 to R238): receive buffers, receive control bits, flow control. -/
def configureReceive (dev : BitVec 8) : Micro Unit := do
  let v ← look fun s => s.cfg.init
  regWriteField 12 dev .rxpbSize 0 v.rxpb0
  forEach otherBuffers fun n => regWriteField 14 dev .rxpbSize n 0
  regWriteField 16 dev .rth 0 v.fcrth0
  regSet 18 dev .crcStrip 0
  regClear 20 dev .rscFrstSize 0
  regSet 22 dev .rscAckc 0
  regSet 24 dev .fcoeWrfix 0
  regSet 26 dev .rfce 0

/-- Steps I13 to I15 (R239): the transmit bracket. -/
def configureTransmit (dev : BitVec 8) : Micro Unit := do
  let v ← look fun s => s.cfg.init
  regSet 28 dev .arbDis 0
  forEach otherBuffers fun n => regWriteField 30 dev .txpbSize n 0
  regWriteField 32 dev .txpbThresh 0 v.txpbthresh0
  regWriteField 34 dev .maxBytesNumReq 0 v.maxBytesReq
  regClear 36 dev .arbDis 0

/-- The pseudocode of rule R231. -/
def initDevice (dev : BitVec 8) : Micro Unit := do
  awaitDevice dev
  zeroFilterTables dev
  configureReceive dev
  configureTransmit dev
  setLife dev .initialized

/-- DEV_INIT (R231). -/
def execDevInit (dev : BitVec 8) (s : State) : Host.Outcome State Fault Refusal :=
  runCommand (.devInit dev) (lifeIs dev .reset)
    (do
      initDevice dev
      return noValues)
    s

/-- The pseudocode of rule R250. -/
def setPromiscuous (dev : BitVec 8) (enable : Bool) : Micro Unit := do
  let v : W32 := if enable then 1 else 0
  let off ← regIsCleared 1 dev .rxen 0
  if !off then regClear 2 dev .rxen 0
  regWriteField 4 dev .upe 0 v
  regWriteField 6 dev .mpe 0 v
  if !off then regSet 8 dev .rxen 0

/-- SET_PROMISC (R250). -/
def execSetPromisc (dev : BitVec 8) (enable : Bool) (s : State) : Host.Outcome State Fault Refusal :=
  runCommand (.setPromisc dev enable) (lifeIs dev .initialized)
    (do
      setPromiscuous dev enable
      return noValues)
    s

end Sys2Proof.Machine
end

