-- ==== Sys2Proof/Machine/DevOpen.lean ====
section
/-! DEFINITION. DEV_OPEN: discovery, validation, BAR resolution (`41_device_open.md` rule R182). -/

namespace Sys2Proof.Machine

/-- Steps 1 to 12 of rule R182: the window's address. -/
def openDevice (bdf : W16) : Micro W64 := do
  let c ← look State.cfg
  let id ← pciRegRead 1 bdf .id
  if id ≠ c.pciExpectId then raise (.validationFail .identity)
  let power ← pciReadField 2 bdf .powerState
  if power ≠ c.pciD0 then raise (.validationFail .powerState)
  pciSet 3 bdf .busMasterEnable
  pciSet 5 bdf .memoryAccessEnable
  pciSet 7 bdf .interruptDisable
  let low ← pciRegRead 9 bdf .bar0Low
  if !barIs64BitMemory low then raise (.validationFail .barShape)
  let high ← pciRegRead 10 bdf .bar0High
  match ← p2v 11 (barAddress high low) windowSize with
  | some va => return va
  | none => raise (.validationFail .mapping)

/-- DEV_OPEN (R182). A failure leaves the handle as it was (R189). R86 leaves to the allocator that a window and the
engine's memory do not overlap, and R352 binds `Alloc` alone: a window that `P2V` maps over a live block is accepted,
and memory accesses go on reaching the block and register accesses the window (DESIGN CHOICE, log 43). No rule gives the
alignment of the address that `P2V` answers (R355, R77 speaks of offsets only): any is accepted (DESIGN CHOICE, log 46). -/
def execDevOpen (dev : BitVec 8) (bdf : W16) (s : State) : Host.Outcome State Fault Refusal :=
  runCommand (.devOpen dev bdf) (lifeIs dev .unmapped)
    (do
      let va ← openDevice bdf
      change fun s => s.setHandle dev { s.handle dev with bdf := bdf, base := va, ls := .validated }
      return noValues)
    s

end Sys2Proof.Machine
end

