-- ==== Sys2Proof/Machine/EngineSetup.lean ====
section
/-! DEFINITION. ENG_CONSTRUCT, BIND_INPUT and BIND_OUTPUT (`44_engine_setup.md` rules R262, R270, R280). -/

namespace Sys2Proof.Machine

/-- `RING_SIZE * 16`: the bytes of a ring (R10, R133). -/
def ringBytes (c : Config) : Nat := c.ringSize * descSize

/-- `unwind` (R262): free what was obtained, in reverse order. -/
def unwind (got : List W64) : Micro Unit := forEach got.reverse fun a => free 4 a

/-- One allocation of ENG_CONSTRUCT (R262): its failure frees what was `got` before and raises. -/
def allocOrUnwind (line size : Nat) (site : AllocSite) (got : List W64) : Micro W64 := do
  match ← alloc line size site with
  | some a => return a
  | none =>
    unwind got
    raise (.allocFail site)

/-- The allocation of ring `n` (R262): the body of a loop, so one micro-step that every ring revisits (R40). -/
def allocRing (n : Nat) (got : List W64) : Micro W64 := do
  allocOrUnwind 1 (ringBytes (← look State.cfg)) (.ring n) got

/-- The pseudocode of rule R262. The engine registers are written once every block is there (R263; log 21). -/
def constructEngine : Micro Unit := do
  let c ← look State.cfg
  let r0 ← allocRing 0 []
  let r1 ← allocRing 1 [r0]
  let r2 ← allocRing 2 [r0, r1]
  let r3 ← allocRing 3 [r0, r1, r2]
  let b ← allocOrUnwind 2 (c.ringSize * c.bufSize) .pool [r0, r1, r2, r3]
  let h ← allocOrUnwind 3 (outputsMax * c.headStride) .heads [r0, r1, r2, r3, b]
  change fun s =>
    { s with
      es := .constructed
      eng := { s.eng with pd := 0, fd := c.flushedNone, oc := 0, rtaV := false,
                          ring := #v[r0, r1, r2, r3], buf := b, heads := h } }

/-- ENG_CONSTRUCT (R261, R262). -/
def execEngConstruct (s : State) : Host.Outcome State Fault Refusal :=
  runCommand .engConstruct (fun s => s.es == .unconstructed)
    (do
      constructEngine
      return noValues)
    s

/-- The precondition of the binds (R270, R280). -/
def bindReady (dev : BitVec 8) (s : State) : Bool := isConstructed s && lifeIs dev .initialized s

/-- Steps B3 to B5 (R272, R273): the shared ring's address and length, the buffer size and the drop policy. Where
the length in bytes does not fit the 32-bit register (R133 is silent there) its low 32 bits are written (DESIGN
CHOICE, log 37). -/
def programInput (dev : BitVec 8) (q : Nat) : Micro Unit := do
  let s ← look id
  let p ← v2pOrRaise 2 s.eng.ring[0] (.translateRing 0)
  regWrite 3 dev .rdbah q (highHalf p)
  regWrite 4 dev .rdbal q (lowHalf p)
  regWrite 5 dev .rdlen q (BitVec.ofNat 32 (ringBytes s.cfg))
  regWriteField 6 dev .bsizePacket q (BitVec.ofNat 32 (kibCeil s.cfg.bufSize))
  regSet 8 dev .dropEn q

/-- Steps B6 to B9 (R274 to R277): the queue's enable, the first tail, the secure-receive bracket, the two bits. -/
def startInput (dev : BitVec 8) (q : Nat) : Micro Unit := do
  let c ← look State.cfg
  regSet 10 dev .rxdctlEnable q
  let enabled ← poll 12 dev .rxdctlEnable q true
  if !enabled then raise (.hwTimeout .rxdctlEnable q true)
  regWrite 14 dev .rdt q (BitVec.ofNat 32 (c.ringSize - 1))
  regSet 15 dev .rxDis 0
  let drained ← poll 17 dev .secrxRdy 0 true
  if !drained then raise (.hwTimeout .secrxRdy 0 true)
  regSet 19 dev .rxen 0
  regClear 21 dev .rxDis 0
  regSet 23 dev .nsDis 0
  regWriteField 25 dev .rsvdReq q c.rsvdReqValue

/-- The pseudocode of rule R270. -/
def bindInput (dev : BitVec 8) : Micro Unit := do
  let s ← look id
  let q := s.cfg.rxQueue
  if s.eng.rtaV then raise (.preconditionFail .inputBound)
  let idle ← regIsCleared 1 dev .rxdctlEnable q
  if !idle then raise (.preconditionFail .rxQueueInUse)
  programInput dev q
  startInput dev q
  change fun s =>
    let h := s.handle dev
    { s.setHandle dev { h with rxBound := true } with
      eng := { s.eng with rta := h.base + BitVec.ofNat 64 (s.cfg.off .rdt q), rtaV := true } }

/-- BIND_INPUT (R270). -/
def execBindInput (dev : BitVec 8) (s : State) : Host.Outcome State Fault Refusal :=
  runCommand (.bindInput dev) (bindReady dev)
    (do
      bindInput dev
      return noValues)
    s

/-- Step O4 for slot `i` of ring `n` (R283, R284). -/
def fillSlot (n : Fin 4) (i : Nat) : Micro Unit := do
  let s ← look id
  let buf := s.eng.bufAddr s.cfg (BitVec.ofNat 64 i)
  let pa ← v2pOrRaise 2 buf (.translateBuffer i)
  memWrite 3 false (s.eng.wordAddr n (BitVec.ofNat 64 i) 0) 8 pa
  let _ ← memRead 4 false buf 1

/-- Steps O5 to O7 (R285 to R287): the ring's address and length, the thresholds. Of a length in bytes that does not
fit 32 bits the low 32 are written (R133 is silent; DESIGN CHOICE, log 37). -/
def programOutput (dev : BitVec 8) (n : Fin 4) (q : Nat) : Micro Unit := do
  let s ← look id
  let p ← v2pOrRaise 5 s.eng.ring[n] (.translateRing n)
  regWrite 6 dev .tdbah q (highHalf p)
  regWrite 7 dev .tdbal q (lowHalf p)
  regWrite 8 dev .tdlen q (BitVec.ofNat 32 (ringBytes s.cfg))
  regWriteField 9 dev .pthresh q s.cfg.txPthresh
  regWriteField 11 dev .hthresh q s.cfg.txHthresh

/-- Steps O8 to O11 (R288 to R291, R132): the head write-back. -/
def programWriteBack (dev : BitVec 8) (n : Fin 4) (q : Nat) : Micro Unit := do
  let s ← look id
  let hp ← v2pOrRaise 13 (s.eng.headAddr s.cfg n) (.translateHead n)
  if hp.toNat % 16 ≠ 0 then raise (.preconditionFail .headAlignment)
  regWrite 14 dev .tdwbah q (highHalf hp)
  regWrite 15 dev .tdwbal q (lowHalf hp ||| 1)
  regClear 16 dev .txDescWbRoEn q

/-- Steps O12 and O13 (R292, R293): transmit enable, the queue's enable. -/
def startOutput (dev : BitVec 8) (q : Nat) : Micro Unit := do
  regSet 18 dev .te 0
  regSet 20 dev .txdctlEnable q
  let enabled ← poll 22 dev .txdctlEnable q true
  if !enabled then raise (.hwTimeout .txdctlEnable q true)

/-- Steps O2 to O14 of rule R280 for output `n`, the next free one. -/
def bindOutputAs (dev : BitVec 8) (q : Nat) (n : Fin 4) : Micro Unit := do
  let c ← look State.cfg
  if c.txQueueCount ≤ q then raise (.preconditionFail .queueIndex)
  let idle ← regIsCleared 1 dev .txdctlEnable q
  if !idle then raise (.preconditionFail .txQueueInUse)
  forEach (List.range c.ringSize) (fillSlot n)
  programOutput dev n q
  programWriteBack dev n q
  startOutput dev q
  change fun s =>
    let h := s.handle dev
    { s.setHandle dev { h with txBound := h.txBound + 1 } with
      eng := { s.eng with
        tta := s.eng.tta.set n (h.base + BitVec.ofNat 64 (s.cfg.off .tdt q))
        oc := BitVec.ofNat 64 (n.val + 1) } }

/-- The pseudocode of rule R280; `n = OC`, and no output is left when `OC` is not below `OUTPUTS_MAX` (log 20). -/
def bindOutput (dev : BitVec 8) (queue : BitVec 8) : Micro Unit := do
  let oc ← look fun s => s.eng.oc.toNat
  if h : oc < 4 then bindOutputAs dev queue.toNat ⟨oc, h⟩
  else raise (.preconditionFail .outputsFull)

/-- BIND_OUTPUT (R280). -/
def execBindOutput (dev : BitVec 8) (queue : BitVec 8) (s : State) : Host.Outcome State Fault Refusal :=
  runCommand (.bindOutput dev queue) (bindReady dev)
    (do
      bindOutput dev queue
      return noValues)
    s

end Sys2Proof.Machine
end

