-- ==== Sys2Proof/Machine/HotPath.lean ====
section
/-! DEFINITION. RECEIVE, TRANSMIT and PROCESS (`45_engine_hotpath.md` rules R303, R316, R331). -/

namespace Sys2Proof.Machine

/-- `FD <- v`. -/
def setFd (v : W64) : Micro Unit := change fun s => { s with eng := { s.eng with fd := v } }

/-- Steps V2 to V5 of rule R303, no packet: the catch-up flush, and the sentinel, which `IDLE_ALWAYS_SENTINEL`
says whether to record without a flush too (R305, R306). -/
def receiveIdle (line : Nat) : Micro Unit := do
  let s ← look id
  if catchUpDue s.cfg s.eng.fd s.eng.pd then
    flushTails line
    setFd s.cfg.flushedNone
  else if s.cfg.idleAlwaysSentinel then setFd s.cfg.flushedNone

/-- RECEIVE's steps V1 to V6 (R303), micro-steps `line` and `line + 1`: `(has_packet, length, buffer_address)`. -/
def receiveSteps (line : Nat) : Micro (Bool × W16 × W64) := do
  let s ← look id
  let word ← memRead line true (s.eng.wordAddr 0 s.eng.pd 1) 8
  if ddOf s.cfg.desc word then return (true, lenOf s.cfg word, s.eng.bufAddr s.cfg s.eng.pd)
  receiveIdle (line + 1)
  return (false, 0, 0)

/-- The response of RECEIVE (R114): `VAL0[63]` and `VAL0[15:0]`, `VAL1`. -/
def receiveValues (r : Bool × W16 × W64) : W64 × W64 :=
  ((if r.1 then 1#64 <<< 63 else 0) ||| r.2.1.setWidth 64, r.2.2)

/-- RECEIVE (R303). -/
def execReceive (s : State) : Host.Outcome State Fault Refusal :=
  runCommand .receive isConstructed
    (do
      let r ← receiveSteps 1
      return receiveValues r)
    s

/-- The precondition of TRANSMIT and PROCESS (R310, R330): constructed, and an input bound if the slot is a
Report-Status slot. -/
def transmitReady (s : State) : Bool := isConstructed s && (s.eng.rtaV || !rsSlot s.cfg s.eng.pd)

/-- Step T2 (R312): the descriptor of every bound output at slot `PD`, in ascending order. -/
def writeDescriptors (line : Nat) (len : W16) (mask : BitVec 4) (rs : Bool) : Micro Unit := do
  let s ← look id
  forEach s.outputs fun n =>
    memWrite line true (s.eng.wordAddr n s.eng.pd 1) 8
      (txWord s.cfg (if mask.getLsbD n.val then len else 0) rs)

/-- Step T3 (R313). -/
def advance : Micro Unit := change fun s => { s with eng := { s.eng with pd := slotAdd s.cfg s.eng.pd 1 } }

/-- Step T4 (R314, R315). -/
def flushIfDue (line : Nat) : Micro Unit := do
  let s ← look id
  if flushDue s.cfg s.eng.fd s.eng.pd then
    flushTails line
    setFd s.eng.pd

/-- The loop of step T5 (R318, R319) over the outputs still to read. -/
def scanHeads (line : Nat) : List (Fin 4) → W64 × W64 → Micro (W64 × W64)
  | [], best => pure best
  | n :: rest, best => do
    let s ← look id
    let head ← memRead line true (s.eng.headAddr s.cfg n) 4
    scanHeads line rest (scanHead s.eng.pd head best)

/-- Steps T5 and T6 (R317 to R321): the head scan and the receive tail. -/
def recycle (line : Nat) : Micro Unit := do
  let s ← look id
  let best ← scanHeads line s.outputs (scanStart s.eng.pd)
  mmioWriteAt (line + 1) s.eng.rta (tailValue (slotBefore s.cfg best.1))

/-- TRANSMIT's steps T1 to T7 (R316), micro-steps `line` to `line + 3`. -/
def transmitSteps (line : Nat) (len : W16) (mask : BitVec 4) : Micro Unit := do
  let rs ← look fun s => rsSlot s.cfg s.eng.pd
  writeDescriptors line len mask rs
  advance
  flushIfDue (line + 1)
  if rs then recycle (line + 2)

/-- TRANSMIT (R310, R316). -/
def execTransmit (len : W16) (mask : BitVec 4) (s : State) : Host.Outcome State Fault Refusal :=
  runCommand (.transmit len mask) transmitReady
    (do
      transmitSteps 1 len mask
      return noValues)
    s

/-- The bytes of the buffer at `addr`. -/
def State.bufferBytes (s : State) (addr : W64) : List Byte :=
  (List.range s.cfg.bufSize).map fun i => Memory.read s.mem (addr.toNat + i)

/-- What the handler does with the packet at `addr` (R332, R350): its next answer in State, and after those the
free value `Config.handler` (log 16). -/
def State.handlerRun (s : State) (len : W16) (addr : W64) : HandlerRun :=
  match s.handlerQ with
  | run :: _ => run
  | [] => Config.handler s.micros len addr (s.bufferBytes addr)

/-- Bytes written at offsets from `base`, in order. -/
def applyWrites (m : List Host.Cell) (base : Nat) : List (Nat × Byte) → List Host.Cell
  | [] => m
  | (off, b) :: rest => applyWrites (Memory.write m (base + off) b) base rest

/-- The handler call (R332), one micro-step: `(len', sel')`, with the handler's writes made. A write outside the
buffer has no meaning (U7); a handler that never returns is stuck (U7). -/
def callHandler (line : Nat) (len : W16) (addr : W64) : Micro (W16 × BitVec 4) := fun s =>
  let s := s.boundary line
  match s.handlerRun len addr with
  | .never => .error (.fault .handlerNeverReturns) s
  | .returns len' sel writes =>
    if writes.any fun w => s.cfg.bufSize ≤ w.1 then .error (.refuse .handlerBrokeContract) s
    else if writes.all fun w => s.memExists (addr.toNat + w.1) 1 then
      .ok (len', sel)
        ({ s with
          handlerQ := s.handlerQ.tail
          mem := applyWrites s.mem addr.toNat writes }.log
            (.handler len addr))
    else .error (.fault (.unmappedMemory addr)) s

/-- The pseudocode of rule R331. -/
def processSteps : Micro Unit := do
  let r ← receiveSteps 1
  if r.1 then
    let c ← look State.cfg
    let answer ← callHandler 3 r.2.1 r.2.2
    if c.bufSize < answer.1.toNat then refuse .handlerBrokeContract
    transmitSteps 4 answer.1 answer.2

/-- PROCESS (R330, R331). -/
def execProcess (s : State) : Host.Outcome State Fault Refusal :=
  runCommand .process transmitReady
    (do
      processSteps
      return noValues)
    s

end Sys2Proof.Machine
end

