-- ==== Sys2Proof/Machine/RegAccess.lean ====
section
/-! DEFINITION. REG_READ and REG_WRITE (`40_register_access.md` rules R165, R166). -/

namespace Sys2Proof.Machine

/-- The precondition of REG_READ and REG_WRITE on the device (R165): its window is mapped. -/
def regAccessReady (dev : BitVec 8) (s : State) : Bool := devInRange s.cfg dev && (s.handle dev).mapped

/-- A register, field and index that do not belong together are refused (R116 (d), R165, U1). -/
def requireLegal (sel : RegSel) (index : W16) : Micro Unit := do
  if !sel.legal (← look State.cfg) index then refuse .badRegisterOperand

/-- The access of REG_READ (R165). -/
def readSelected (dev : BitVec 8) (sel : RegSel) (index : W16) : Micro W32 := do
  let bdf ← look fun s => (s.handle dev).bdf
  match sel with
  | .dev r none => regRead 1 dev r index.toNat
  | .dev _ (some f) => regReadField 1 dev f index.toNat
  | .pci r none => pciRegRead 1 bdf r
  | .pci _ (some f) => pciReadField 1 bdf f

/-- The access of REG_WRITE (R166). -/
def writeSelected (dev : BitVec 8) (sel : RegSel) (index : W16) (value : W32) : Micro Unit := do
  let bdf ← look fun s => (s.handle dev).bdf
  match sel with
  | .dev r none => regWrite 1 dev r index.toNat value
  | .dev _ (some f) => regWriteField 1 dev f index.toNat value
  | .pci r none => do pciWrite 1 bdf (← look fun s => s.cfg.pciOff r) value
  | .pci _ (some f) => pciWriteField 1 bdf f value

/-- REG_READ (R165): the value is returned in `VAL0[31:0]`. R114 gives it no `VAL1`: 0 is the model's choice (DESIGN
CHOICE, log 38). -/
def execRegRead (dev : BitVec 8) (sel : RegSel) (index : W16) (s : State) : Host.Outcome State Fault Refusal :=
  runCommand (.regRead dev sel index) (regAccessReady dev)
    (do
      requireLegal sel index
      let v ← readSelected dev sel index
      return (v.setWidth 64, 0))
    s

/-- REG_WRITE (R166). -/
def execRegWrite (dev : BitVec 8) (sel : RegSel) (index : W16) (value : W32) (s : State) :
    Host.Outcome State Fault Refusal :=
  runCommand (.regWrite dev sel index value) (regAccessReady dev)
    (do
      requireLegal sel index
      writeSelected dev sel index value
      return noValues)
    s

end Sys2Proof.Machine
end

