-- ==== Sys2Proof/Machine/Dispatch.lean ====
section
/-! DEFINITION. One arm per command, each one call of its meaning. -/

namespace Sys2Proof.Machine

def exec (i : Instr) (s : State) : Host.Outcome State Fault Refusal :=
  match i with
  | .devOpen dev bdf => Sys2Proof.Machine.execDevOpen dev bdf s
  | .devReset dev => Sys2Proof.Machine.execDevReset dev s
  | .devInit dev => Sys2Proof.Machine.execDevInit dev s
  | .setPromisc dev enable => Sys2Proof.Machine.execSetPromisc dev enable s
  | .regRead dev sel index => Sys2Proof.Machine.execRegRead dev sel index s
  | .regWrite dev sel index value => Sys2Proof.Machine.execRegWrite dev sel index value s
  | .engConstruct => Sys2Proof.Machine.execEngConstruct s
  | .bindInput dev => Sys2Proof.Machine.execBindInput dev s
  | .bindOutput dev queue => Sys2Proof.Machine.execBindOutput dev queue s
  | .receive => Sys2Proof.Machine.execReceive s
  | .transmit length mask => Sys2Proof.Machine.execTransmit length mask s
  | .process => Sys2Proof.Machine.execProcess s

end Sys2Proof.Machine
end

