-- ==== Sys2Proof/Machine/Port.lean ====
section
/-! DEFINITION. The command port (`30_encoding.md` rules R110, R116): what becomes of a command word that decodes
to no command, of an idle block, and the response to look at for the pseudo-command DEV_CREATE (R255). -/

namespace Sys2Proof.Machine

/-- The outcome of a command word that is no command (R116, R378): opcode, reserved bits and device range give
`PRECONDITION_FAIL` and change nothing, and so does a device whose window is not mapped (R43, R165, U10); on a mapped
device register operands that do not belong together are refused (U1). -/
def rejectCommand (e : DecodeError) (s : State) : Host.Outcome State Fault Refusal :=
  match e with
  | .unknownOpcode | .reservedBits | .deviceRange => .next (s.takeFailure (.preconditionFail .encoding))
  | .badRegisterOperand dev =>
    if regAccessReady dev s then .refused .badRegisterOperand
    else .next (s.takeFailure (.preconditionFail .lifecycle))

/-- The block waits for a command (R404): only the other agents act (log 32). -/
def State.idle (s : State) : State := s.agents

/-- The next command has been taken from the port. -/
def State.takeCommand (s : State) : State := { s with port := s.port.tail }

/-- The host presents a command as the next one (R110). -/
def State.present (s : State) (w : Command) : State := { s with port := w :: s.port }

/-- The last command ended with `OK` (R371). -/
def State.lastOk (s : State) : Bool :=
  match s.resp with
  | some r => r.res == resOk
  | none => false

end Sys2Proof.Machine
end

