-- ==== Sys2Proof/Machine/Step.lean ====
section
/-! DEFINITION. One step of the machine: the next command of the command port, decoded and run to its end
(`30_encoding.md` rule R110; log 1, 2). -/

namespace Sys2Proof.Machine

/-- One step: with no command waiting the block is idle (R404); otherwise the next command is taken, decoded
and run, or rejected as rule R116 says. -/
def step (s : State) : Host.Outcome State Fault Refusal :=
  match s.port with
  | [] => .next s.idle
  | w :: _ =>
    match decode s.cfg w with
    | .ok i => exec i s.takeCommand
    | .error e => rejectCommand e s.takeCommand

/-- Present the command whose bits are `w`, `nbits` of them given, as the next one. -/
def State.withFetchWord (s : State) (nbits w : Nat) : State := s.present (commandOfTable nbits w)

end Sys2Proof.Machine
end

