-- ==== Sys2Proof/Machine/Pseudo.lean ====
section
/-! DEFINITION. How the host runs a pseudo-command (`30_encoding.md` rule R118, `43_device_init.md` rule R255). -/

namespace Sys2Proof.Machine

/-- Commands issued one after the other, stopping after the first that does not return `OK`. -/
def runUntilFailure : List Instr → State → Host.Outcome State Fault Refusal
  | [], s => .next s
  | i :: rest, s =>
    match exec i s with
    | .next s' => if s'.lastOk then runUntilFailure rest s' else .next s'
    | .fault f => .fault f
    | .refused r => .refused r

/-- DEV_CREATE `dev`, `bdf` (R118, R255). -/
def execDevCreate (dev : BitVec 8) (bdf : W16) (s : State) : Host.Outcome State Fault Refusal :=
  runUntilFailure (devCreate dev bdf) s

end Sys2Proof.Machine
end

