-- ==== Sys2Proof/Safety.lean ====
section
/-! DEFINITION. The terms claims are stated in: configurations with the default register map, states in which no
other agent moves, the invariant that every step keeps (`10_state.md` rules R32 to R39 and R60), and what a command
reads and writes, written from the rules. -/

namespace Sys2Proof.Machine

/-- A legal configuration with the default register map and at most 128 queues each way (rules R19, R52 to R54),
so that no two registers share an offset. -/
def StandardConfig (c : Config) : Prop :=
  c.legal = true ∧ c.regmap = RegMap.spec ∧ c.rxQueueCount ≤ 128 ∧ c.txQueueCount ≤ 128

/-- No other agent has a move coming (R27). -/
def State.quiet (s : State) : Prop := s.agenda = []

/-- At this time register accesses to the NIC have defined results (R416 (b)), and writes arrive at once, with none
on its way (R51). -/
def Nic.settledAt (n : Nic) (now : Nat) : Prop := n.usable ≤ now ∧ n.hold = false ∧ n.posted = []

/-- The NIC a handle names is settled now. -/
def State.settled (s : State) (dev : BitVec 8) : Prop := (s.nic (s.handle dev).bdf).settledAt s.now

/-- The NIC a handle names answers writes of the enable bits at once (R348). -/
def State.prompt (s : State) (dev : BitVec 8) : Prop := (s.nic (s.handle dev).bdf).lag = false

/-- A register of the NIC a handle names, as the NIC holds it. -/
def State.regOf (s : State) (dev : BitVec 8) (r : DevReg) (idx : Nat) : W32 :=
  (s.nic (s.handle dev).bdf).reg s.cfg (s.cfg.off r idx)

/-- The address of a register of a device (R150). -/
def State.regAddr (s : State) (dev : BitVec 8) (r : DevReg) (idx : Nat) : W64 :=
  (s.handle dev).base + BitVec.ofNat 64 (s.cfg.off r idx)

/-- A field of a register of the NIC a handle names. -/
def State.fieldOf (s : State) (dev : BitVec 8) (f : DevField) (idx : Nat) : W32 :=
  extract (s.regOf dev f.reg idx) (s.cfg.mask f)

/-- A command ended with this result code and these values (R110, R114). -/
def State.answered (s : State) (res : BitVec 8) (val0 val1 : W64) : Prop :=
  s.resp = some ⟨res, val0, val1⟩ ∧ s.pc = Sequencer.idle

/-- A live block with this base and size. -/
def State.hasBlock (s : State) (base : W64) (size : Nat) : Prop :=
  ∃ b ∈ s.blocks, b.base = base ∧ b.size = size

/-- Where the engine's memory objects lie, as base and size (R37 to R39, R86). -/
def engineRegions (s : State) : List (W64 × Nat) :=
  (s.eng.ring.toList.map fun r => (r, ringBytes s.cfg)) ++
    [(s.eng.buf, s.cfg.ringSize * s.cfg.bufSize), (s.eng.heads, outputsMax * s.cfg.headStride)]

/-- Two regions have no byte in common. -/
def apart (a b : W64 × Nat) : Prop := overlap a.1.toNat a.2 b.1.toNat b.2 = false

/-- What holds of a constructed engine at every command boundary (R32 to R39, R60). -/
structure EngineOk (s : State) : Prop where
  /-- R32. -/
  pd : s.eng.pd.toNat < s.cfg.ringSize
  /-- R33. -/
  fd : s.eng.fd = s.cfg.flushedNone ∨ s.eng.fd.toNat < s.cfg.ringSize
  /-- R34. -/
  oc : s.eng.oc.toNat ≤ outputsMax
  /-- R37 to R39: the objects are live blocks. -/
  live : ∀ r ∈ engineRegions s, s.hasBlock r.1 r.2
  /-- R11, R77: the rings are aligned, virtually and physically. -/
  aligned : ∀ n : Fin 4, s.eng.ring[n].toNat % ringAlign = 0 ∧
    ∀ b ∈ s.blocks, b.base = s.eng.ring[n] → b.phys.toNat % ringAlign = 0
  /-- R352: they do not overlap. -/
  disjoint : (engineRegions s).Pairwise apart
  /-- R35. -/
  rta : s.eng.rtaV = true → ∃ e ∈ s.handles, e.2.ls = .initialized ∧
    s.eng.rta = e.2.base + BitVec.ofNat 64 (s.cfg.off .rdt s.cfg.rxQueue)
  /-- R36. -/
  tta : ∀ n : Fin 4, n.val < s.eng.oc.toNat → ∃ e ∈ s.handles, e.2.ls = .initialized ∧
    ∃ q, q < s.cfg.txQueueCount ∧ s.eng.tta[n] = e.2.base + BitVec.ofNat 64 (s.cfg.off .tdt q)

/-- The invariant of the machine at every command boundary (R40, R60, R352): whatever step is made from a state
that meets it ends in a state that meets it, if it ends in a state. -/
structure Inv (s : State) : Prop where
  legal : s.cfg.legal = true
  /-- R40: between commands the sequencer is idle. -/
  idle : s.pc = Sequencer.idle
  memory : Memory.wf s.mem = true
  handles : Store.sorted s.handles = true
  /-- R88, R352: blocks lie inside both address spaces and do not overlap in either. -/
  blocks : ∀ b ∈ s.blocks, 0 < b.size ∧ b.base.toNat + b.size ≤ 2 ^ 64 ∧ b.phys.toNat + b.size ≤ 2 ^ 64
  blocksApart : s.blocks.Pairwise fun a b =>
    apart (a.base, a.size) (b.base, b.size) ∧ apart (a.phys, a.size) (b.phys, b.size)
  /-- R341, R345: heads are slot numbers. -/
  heads : ∀ e ∈ s.nics, (∀ p ∈ e.2.rxHeads, p.2 < s.cfg.ringSize) ∧
    ∀ p ∈ e.2.txQueues, p.2.head < s.cfg.ringSize
  engine : s.es = .constructed → EngineOk s

/-- The coming answer of the handler keeps its contract (R332, R350). -/
def State.handlerOk (s : State) : Prop :=
  ∃ len sel writes rest, s.handlerQ = .returns len sel writes :: rest ∧ len.toNat ≤ s.cfg.bufSize ∧
    ∀ w ∈ writes, w.1 < s.cfg.bufSize

/-- Word 1 of the slot `PD` of ring 0 (R303, step V1). -/
def State.word1 (s : State) : W64 := BitVec.ofNat 64 (Memory.readLE s.mem (s.eng.wordAddr 0 s.eng.pd 1).toNat 8)

/-- The length in word 1 of the slot `PD` of ring 0 (R303, R121). -/
def State.length1 (s : State) : Nat := s.word1.toNat / 2 ^ s.cfg.desc.lenLo % 2 ^ s.cfg.lenBits

/-- The head slot of output `n` (R48). -/
def State.headOf (s : State) (n : Fin 4) : W64 :=
  BitVec.ofNat 64 (Memory.readLE s.mem (s.eng.headAddr s.cfg n).toNat 4)

/-- The head that the scan of TRANSMIT keeps, for the delimiter `pd` and heads in the order they are read (R316,
step T5). -/
def earliestHead (pd : W64) (heads : List W64) : W64 :=
  (heads.foldl (fun best h => scanHead pd h best) (scanStart pd)).1

/-- The tail writes of a flush with the value `pd`, in the order they are made (R305, R314). -/
def tailWrites (s : State) (pd : W64) : List Access :=
  s.outputs.map fun n => .mmioWrite s.eng.tta[n] (tailValue pd)

/-- RECEIVE in this state, finding no packet, makes a catch-up flush (R305). -/
abbrev State.catchesUp (s : State) : Prop := s.eng.fd ≠ s.cfg.flushedNone ∧ s.eng.fd ≠ s.eng.pd

/-- Every access of RECEIVE, in the order they are made (R303). -/
def receiveAccesses (s : State) : List Access :=
  .memRead true (s.eng.wordAddr 0 s.eng.pd 1) 8 s.word1 ::
    (if s.word1.getLsbD s.cfg.desc.dd = false ∧ s.catchesUp then tailWrites s s.eng.pd
    else [])

/-- TRANSMIT in this state makes a flush (R315, with the advanced `PD`). -/
abbrev State.flushes (s : State) : Prop :=
  s.eng.fd = s.cfg.flushedNone ∨
    (s.eng.pd.toNat + 1) % s.cfg.ringSize = (s.eng.fd.toNat + s.cfg.processPeriod) % s.cfg.ringSize

/-- TRANSMIT in this state is on a Report-Status slot (R311). -/
abbrev State.rsDue (s : State) : Prop := s.eng.pd.toNat % s.cfg.transmitPeriod = s.cfg.rsPhase

/-- Every access of TRANSMIT, in the order they are made (R316). -/
def transmitAccesses (s : State) (len : W16) (mask : BitVec 4) : List Access :=
  let rs := s.rsDue
  let pd : W64 := BitVec.ofNat 64 ((s.eng.pd.toNat + 1) % s.cfg.ringSize)
  (s.outputs.map fun n =>
      .memWrite true (s.eng.wordAddr n s.eng.pd 1) 8
        (txWord s.cfg (if mask.getLsbD n.val then len else 0) rs)) ++
    (if s.flushes then tailWrites s pd else []) ++
    if rs then
      (s.outputs.map fun n => .memRead true (s.eng.headAddr s.cfg n) 4 (s.headOf n)) ++
        [.mmioWrite s.eng.rta
          (tailValue (slotBefore s.cfg (earliestHead pd (s.outputs.map fun n => s.headOf n))))]
    else []

/-- The two accesses of a read-modify-write (R155). -/
def readModifyWrite (a : W64) (old new : W32) : List Access := [.mmioRead a old, .mmioWrite a new]

/-- The three read-modify-writes of the command register (R185), from the value `v`. -/
def commandAccesses (c : Config) (bdf : W16) (v : W32) : List Access :=
  let off := c.pciOff .command
  let mastering := v ||| c.pciMask .busMasterEnable
  let decoding := mastering ||| c.pciMask .memoryAccessEnable
  [.pciRead bdf off v, .pciWrite bdf off mastering, .pciRead bdf off mastering, .pciWrite bdf off decoding,
    .pciRead bdf off decoding, .pciWrite bdf off (decoding ||| c.pciMask .interruptDisable)]

/-- Every access of a DEV_OPEN that passes every check, in the order they are made (R182), for a window that `P2V` maps
at `va`: identity, power state, command register, low half of the base address before the high half, mapping. -/
def openAccesses (s : State) (bdf : W16) (va : W64) : List Access :=
  let pci := fun r => (s.nic bdf).pciRead (s.cfg.pciOff r)
  let read := fun r => Access.pciRead bdf (s.cfg.pciOff r) (pci r)
  [read .id, read .pmcsr] ++ commandAccesses s.cfg bdf (pci .command) ++ [read .bar0Low, read .bar0High] ++
    [.p2v (barAddress (pci .bar0High) (pci .bar0Low)) windowSize (some va)]

/-- The poll of the master-enable status times out: the bit is set (R204). -/
abbrev State.masterStays (s : State) (dev : BitVec 8) : Prop := s.fieldOf dev .masterEnableStatus 0 ≠ 0

/-- After that timeout a transaction is pending, so that the buffers are flushed (R205). -/
abbrev State.flushDue (s : State) (dev : BitVec 8) : Prop :=
  s.masterStays dev ∧ extract ((s.nic (s.handle dev).bdf).pciRead (s.cfg.pciOff .deviceStatus))
    (s.cfg.pciMask .transactionPending) ≠ 0

/-- Every access of a DEV_RESET on a device whose queues answer at once, in the order they are made (R202): the queues in
ascending order, each cleared, polled and waited for (R203), master disable and its poll (R204), where that times out the
one read of the pending bit (R205) and, if it is set, the flush (R206), then the reset bit, once, and its wait (R207). -/
def resetAccesses (s : State) (dev : BitVec 8) : List Access :=
  let m := s.cfg.mask
  let a := s.regAddr dev
  let old := s.regOf dev
  let queue := fun q =>
    let cleared := insertField (old .rxdctl q) (m .rxdctlEnable) 0
    readModifyWrite (a .rxdctl q) (old .rxdctl q) cleared ++
      [.mmioRead (a .rxdctl q) cleared, .sleep s.cfg.tRxqWait]
  let disabled := old .ctrl 0 ||| m .masterDisable
  let status := Access.mmioRead (a .status 0) (old .status 0)
  let looped := old .hlreg0 0 ||| m .lpbk
  let clearing := old .gcrExt 0 ||| m .buffersClearFunc
  ((List.range s.cfg.rxQueueCount).map queue).flatten ++
  readModifyWrite (a .ctrl 0) (old .ctrl 0) disabled ++
  (if s.masterStays dev then
    (List.replicate s.cfg.pollAttempts [status, .sleep (pollGap s.cfg s.cfg.tPoll)]).flatten ++
      [.pciRead (s.handle dev).bdf (s.cfg.pciOff .deviceStatus)
        ((s.nic (s.handle dev).bdf).pciRead (s.cfg.pciOff .deviceStatus))]
  else [status]) ++
  (if s.flushDue dev then
    readModifyWrite (a .hlreg0 0) (old .hlreg0 0) looped ++ readModifyWrite (a .gcrExt 0) (old .gcrExt 0) clearing ++
      [.sleep s.cfg.tFlush] ++
      readModifyWrite (a .hlreg0 0) looped (insertField looped (m .lpbk) 0) ++
      readModifyWrite (a .gcrExt 0) clearing (insertField clearing (m .buffersClearFunc) 0)
  else []) ++
  readModifyWrite (a .ctrl 0) disabled (disabled ||| m .rst) ++ [.sleep s.cfg.tReset]

/-- Every access of a DEV_INIT on a device that is ready, in the order they are made (R231): the tables in ascending
order, transmit inside the arbitration bracket. -/
def initAccesses (s : State) (dev : BitVec 8) : List Access :=
  let v := s.cfg.init
  let m := s.cfg.mask
  let a := s.regAddr dev
  let old := s.regOf dev
  let zeros := fun r n => (List.range n).map fun i => Access.mmioWrite (a r i) 0
  let field := fun (f : DevField) (i : Nat) (x : W32) =>
    readModifyWrite (a f.reg i) (old f.reg i) (insertField (old f.reg i) (m f) x)
  let stripped := old .rdrxctl 0 ||| m .crcStrip
  let sized := insertField stripped (m .rscFrstSize) 0
  let paused := old .rttdcs 0 ||| m .arbDis
  [.mmioWrite (a .eimc 0) v.eimcAll, .mmioRead (a .eec 0) (old .eec 0), .mmioRead (a .eec 0) (old .eec 0),
    .mmioRead (a .rdrxctl 0) (old .rdrxctl 0)] ++
  zeros .pfuta v.nUnicast ++ zeros .pfvlvf v.nVlan ++ zeros .pfvlvfb v.nVlanBmp ++ zeros .mta v.nMulticast ++
  zeros .ftqf v.n5tuple ++
  field .rxpbSize 0 v.rxpb0 ++ (otherBuffers.map fun n => field .rxpbSize n 0).flatten ++ field .rth 0 v.fcrth0 ++
  readModifyWrite (a .rdrxctl 0) (old .rdrxctl 0) stripped ++ readModifyWrite (a .rdrxctl 0) stripped sized ++
  readModifyWrite (a .rdrxctl 0) sized (sized ||| m .rscAckc) ++
  readModifyWrite (a .rdrxctl 0) (sized ||| m .rscAckc) (sized ||| m .rscAckc ||| m .fcoeWrfix) ++
  readModifyWrite (a .mflcn 0) (old .mflcn 0) (old .mflcn 0 ||| m .rfce) ++
  readModifyWrite (a .rttdcs 0) (old .rttdcs 0) paused ++
  (otherBuffers.map fun n => field .txpbSize n 0).flatten ++ field .txpbThresh 0 v.txpbthresh0 ++
  field .maxBytesNumReq 0 v.maxBytesReq ++
  readModifyWrite (a .rttdcs 0) paused (insertField paused (m .arbDis) 0)

/-- Every access of a BIND_INPUT that succeeds on a device that answers at once, in the order they are made (R270), for
a ring at physical address `p`: the address pair before the enable, the tail after the enable poll, receive enabled
inside the secure-receive bracket. -/
def bindInputAccesses (s : State) (dev : BitVec 8) (p : W64) : List Access :=
  let q := s.cfg.rxQueue
  let m := s.cfg.mask
  let a := s.regAddr dev
  let old := s.regOf dev
  let sized := insertField (old .srrctl q) (m .bsizePacket) (BitVec.ofNat 32 ((s.cfg.bufSize + 1023) / 1024))
  let enabled := old .rxdctl q ||| m .rxdctlEnable
  let halted := old .secrxctrl 0 ||| m .rxDis
  [.mmioRead (a .rxdctl q) (old .rxdctl q), .v2p s.eng.ring[0] (some p),
    .mmioWrite (a .rdbah q) (highHalf p), .mmioWrite (a .rdbal q) (lowHalf p),
    .mmioWrite (a .rdlen q) (BitVec.ofNat 32 (s.cfg.ringSize * 16))] ++
  readModifyWrite (a .srrctl q) (old .srrctl q) sized ++
  readModifyWrite (a .srrctl q) sized (sized ||| m .dropEn) ++
  readModifyWrite (a .rxdctl q) (old .rxdctl q) enabled ++ [.mmioRead (a .rxdctl q) enabled] ++
  [.mmioWrite (a .rdt q) (BitVec.ofNat 32 (s.cfg.ringSize - 1))] ++
  readModifyWrite (a .secrxctrl 0) (old .secrxctrl 0) halted ++ [.mmioRead (a .secrxstat 0) (old .secrxstat 0)] ++
  readModifyWrite (a .rxctrl 0) (old .rxctrl 0) (old .rxctrl 0 ||| m .rxen) ++
  readModifyWrite (a .secrxctrl 0) halted (insertField halted (m .rxDis) 0) ++
  readModifyWrite (a .ctrlExt 0) (old .ctrlExt 0) (old .ctrlExt 0 ||| m .nsDis) ++
  readModifyWrite (a .dcarxctrl q) (old .dcarxctrl q)
    (insertField (old .dcarxctrl q) (m .rsvdReq) s.cfg.rsvdReqValue)

/-- Every access of a BIND_OUTPUT of output `n` that succeeds on a device that answers at once, in the order they are
made (R280), for buffers at physical addresses `pa`, the ring at `p` and the head slot at `hp`: high halves before low
halves, and the head write-back programmed before the queue is enabled. -/
def bindOutputAccesses (s : State) (dev : BitVec 8) (q : Nat) (n : Fin 4) (pa : Nat → W64) (p hp : W64) : List Access :=
  let m := s.cfg.mask
  let a := s.regAddr dev
  let old := s.regOf dev
  let prefetch := insertField (old .txdctl q) (m .pthresh) s.cfg.txPthresh
  let thresholds := insertField prefetch (m .hthresh) s.cfg.txHthresh
  let enabled := thresholds ||| m .txdctlEnable
  let fill := fun (i : Nat) =>
    let buf : W64 := s.eng.buf + BitVec.ofNat 64 (s.cfg.bufSize * i)
    [Access.v2p buf (some (pa i)), .memWrite false (s.eng.wordAddr n (BitVec.ofNat 64 i) 0) 8 (pa i),
      .memRead false buf 1 (BitVec.ofNat 64 (Memory.read s.mem buf.toNat).toNat)]
  [.mmioRead (a .txdctl q) (old .txdctl q)] ++ ((List.range s.cfg.ringSize).map fill).flatten ++
  [.v2p s.eng.ring[n] (some p), .mmioWrite (a .tdbah q) (highHalf p), .mmioWrite (a .tdbal q) (lowHalf p),
    .mmioWrite (a .tdlen q) (BitVec.ofNat 32 (s.cfg.ringSize * 16))] ++
  readModifyWrite (a .txdctl q) (old .txdctl q) prefetch ++ readModifyWrite (a .txdctl q) prefetch thresholds ++
  [.v2p (s.eng.headAddr s.cfg n) (some hp), .mmioWrite (a .tdwbah q) (highHalf hp),
    .mmioWrite (a .tdwbal q) (lowHalf hp ||| 1)] ++
  readModifyWrite (a .dcatxctrl q) (old .dcatxctrl q) (insertField (old .dcatxctrl q) (m .txDescWbRoEn) 0) ++
  readModifyWrite (a .dmatxctl 0) (old .dmatxctl 0) (old .dmatxctl 0 ||| m .te) ++
  readModifyWrite (a .txdctl q) thresholds enabled ++ [.mmioRead (a .txdctl q) enabled]

/-! When a command is accepted, and what it may answer. -/

/-- The precondition of each command (R43, R165, R261, R270, R280, R302, R310, R330): with it the command's
micro-steps are made, without it the command is refused. -/
def accepts (i : Instr) (s : State) : Prop :=
  match i with
  | .devOpen dev _ => dev.toNat < s.cfg.nDev ∧ (s.handle dev).ls = .unmapped
  | .devReset dev => dev.toNat < s.cfg.nDev ∧ (s.handle dev).ls = .validated
  | .devInit dev => dev.toNat < s.cfg.nDev ∧ (s.handle dev).ls = .reset
  | .setPromisc dev _ => dev.toNat < s.cfg.nDev ∧ (s.handle dev).ls = .initialized
  | .regRead dev _ _ | .regWrite dev _ _ _ =>
    dev.toNat < s.cfg.nDev ∧ (s.handle dev).ls ≠ .unmapped ∧ (s.handle dev).ls ≠ .failed
  | .engConstruct => s.es = .unconstructed
  | .bindInput dev | .bindOutput dev _ =>
    s.es = .constructed ∧ dev.toNat < s.cfg.nDev ∧ (s.handle dev).ls = .initialized
  | .receive => s.es = .constructed
  | .transmit _ _ | .process =>
    s.es = .constructed ∧ (s.eng.rtaV = true ∨ s.eng.pd.toNat % s.cfg.transmitPeriod ≠ s.cfg.rsPhase)

/-- The result codes each command can end with (R371, R375, R376). -/
def resultCodes : Instr → List (BitVec 8)
  | .devOpen _ _ => [0, 3, 4]
  | .devReset _ => [0, 2, 4]
  | .devInit _ => [0, 2, 3, 4]
  | .setPromisc _ _ => [0, 4]
  | .regRead _ _ _ => [0, 4]
  | .regWrite _ _ _ _ => [0, 4]
  | .engConstruct => [0, 1, 4]
  | .bindInput _ => [0, 1, 2, 4]
  | .bindOutput _ _ => [0, 1, 2, 4]
  | .receive => [0, 4]
  | .transmit _ _ => [0, 4]
  | .process => [0, 4]

/-- What a command may do to the lifecycle state of a device (R43). -/
def lifecycleEdge (i : Instr) (dev : BitVec 8) (a b : DevLife) : Prop :=
  a = b ∨
  (a = .unmapped ∧ b = .validated ∧ ∃ bdf, i = .devOpen dev bdf) ∨
  (a = .validated ∧ (b = .reset ∨ b = .failed) ∧ i = .devReset dev) ∨
  (a = .reset ∧ (b = .initialized ∨ b = .failed) ∧ i = .devInit dev)

/-- The state after a command that was refused before its first micro-step (R376 (b)). -/
def State.refusedWith4 (s : State) : State := { s with pc := Sequencer.idle, resp := some ⟨4, 0, 0⟩ }

/-! Accesses. -/

/-- The accesses made between two states, in the order they were made. -/
def madeBetween (s t : State) (l : List Access) : Prop := t.trace = l.reverse ++ s.trace

/-- The register writes among accesses, as addresses and values. -/
def registerWrites : List Access → List (W64 × W32)
  | [] => []
  | .mmioWrite a v :: rest => (a, v) :: registerWrites rest
  | _ :: rest => registerWrites rest

/-! Frames: what a command leaves alone where no other agent moves. -/

/-- The configuration, the command port, the agenda and the mappings. -/
def SameEnvironment (s t : State) : Prop :=
  t.cfg = s.cfg ∧ t.port = s.port ∧ t.agenda = s.agenda ∧ t.maps = s.maps

/-- The engine: its lifecycle state and every register. -/
def SameEngine (s t : State) : Prop := t.es = s.es ∧ t.eng = s.eng

/-- Every byte of memory, and the live blocks. -/
def SameMemory (s t : State) : Prop := (∀ a, Memory.read t.mem a = Memory.read s.mem a) ∧ t.blocks = s.blocks

/-- The coming answers of the allocator and of the handler. -/
def SameAnswers (s t : State) : Prop := t.grants = s.grants ∧ t.handlerQ = s.handlerQ

/-- Every device handle. -/
def SameHandles (s t : State) : Prop := ∀ dev, t.handle dev = s.handle dev

/-- Every device handle but one. -/
def SameHandlesBut (s t : State) (dev : BitVec 8) : Prop := ∀ d, d ≠ dev → t.handle d = s.handle d

/-- Every NIC. -/
def SameNics (s t : State) : Prop := ∀ b, t.nic b = s.nic b

/-- Every NIC but one. -/
def SameNicsBut (s t : State) (bdf : W16) : Prop := ∀ b, b ≠ bdf → t.nic b = s.nic b

/-- The registers at every offset but those for which `p` holds, of the NIC with PCI identity `bdf`. -/
def SameRegistersBut (s t : State) (bdf : W16) (p : Nat → Prop) : Prop :=
  ∀ off, ¬ p off → (t.nic bdf).reg t.cfg off = (s.nic bdf).reg s.cfg off

/-- Of the NIC with PCI identity `bdf` only the configuration register at `off` may change (R163, R164). -/
def OnlyPciChanges (s t : State) (bdf : W16) (off : Nat) : Prop :=
  t.nic bdf = { s.nic bdf with pci := (t.nic bdf).pci } ∧
    ∀ o, o ≠ off → (t.nic bdf).pciRead o = (s.nic bdf).pciRead o

/-- The block has written the register at `off` since the last device reset (R58, R348). -/
def Nic.blockWrote (n : Nic) (off : Nat) : Prop := ∃ v, Store.get? n.regs off = some ⟨true, v⟩

/-- The block has written the configuration register at `off` (R356). -/
def Nic.blockWrotePci (n : Nic) (off : Nat) : Prop := ∃ v, Store.get? n.pci off = some ⟨true, v⟩

/-- The enable bit `f` of queue `q` rises from the NIC `n` to the NIC `n'`. -/
def enableRises (c : Config) (n n' : Nic) (f : DevField) (q : Nat) : Prop :=
  n.field c f q = 0 ∧ n'.field c f q ≠ 0

/-- What a move of the register side of the NIC `n` to `n'` leaves alone (R348): a register the block has written keeps
every bit but those the block polls, a transmit tail unless its queue comes to be enabled (R345); heads stay but where a
queue comes to be enabled (R341, R345); configuration space, writes on their way and frames stay. -/
def RegSideKeeps (c : Config) (n n' : Nic) : Prop :=
  (∀ (r : DevReg) (i : Nat), r.indexOk c i = true → n.blockWrote (c.off r i) →
    let before := n.reg c (c.off r i)
    let after := n'.reg c (c.off r i)
    (r ∉ [.rxdctl, .txdctl, .rdrxctl, .status, .secrxstat, .eec, .tdt] → after = before) ∧
    (r = .rxdctl → after &&& ~~~(c.mask .rxdctlEnable) = before &&& ~~~(c.mask .rxdctlEnable)) ∧
    (r = .txdctl → after &&& ~~~(c.mask .txdctlEnable) = before &&& ~~~(c.mask .txdctlEnable)) ∧
    (r = .rdrxctl → after &&& ~~~(c.mask .dmaIdone) = before &&& ~~~(c.mask .dmaIdone)) ∧
    (r = .tdt → after = before ∨ (after = 0 ∧ enableRises c n n' .txdctlEnable i))) ∧
  (∀ q, n'.rxHead q = n.rxHead q ∨ (n'.rxHead q = 0 ∧ enableRises c n n' .rxdctlEnable q)) ∧
  (∀ q, n'.txQueue q = n.txQueue q ∨ (n'.txQueue q = TxQueue.empty ∧ enableRises c n n' .txdctlEnable q)) ∧
  n'.pci = n.pci ∧ n'.posted = n.posted ∧ n'.usable = n.usable ∧ n'.sent = n.sent

/-- What a command on one device leaves alone. -/
def DeviceFrame (s t : State) (dev : BitVec 8) (bdf : W16) : Prop :=
  SameEnvironment s t ∧ SameEngine s t ∧ SameMemory s t ∧ SameAnswers s t ∧ SameHandlesBut s t dev ∧
    SameNicsBut s t bdf

/-- The registers that tail writes of the hot path name, as PCI identity and offset (R72, R305, R314, R320): on a flush
those at the recorded tails of the bound outputs, on a Report-Status slot the one at the receive tail. -/
def tailTargets (s : State) (flush rs : Prop) (bdf : W16) (off : Nat) : Prop :=
  (flush ∧ ∃ n : Fin 4, n.val < s.eng.oc.toNat ∧ s.windowAt s.eng.tta[n] = some (bdf, off)) ∨
    (rs ∧ s.windowAt s.eng.rta = some (bdf, off))

/-- Every NIC but those that tail writes name. -/
def SameNicsButTails (s t : State) (flush rs : Prop) : Prop :=
  ∀ bdf, (∀ off, ¬ tailTargets s flush rs bdf off) → t.nic bdf = s.nic bdf

/-- The recorded tail addresses name tail registers: no other window lies over them (R35, R36, R72). -/
def TailsResolve (s : State) : Prop :=
  (∀ n : Fin 4, n.val < s.eng.oc.toNat →
    ∃ bdf q, q < s.cfg.txQueueCount ∧ s.windowAt s.eng.tta[n] = some (bdf, s.cfg.off .tdt q)) ∧
  (s.eng.rtaV = true → ∃ bdf, s.windowAt s.eng.rta = some (bdf, s.cfg.off .rdt s.cfg.rxQueue))

/-- `V2P` translates the addresses of the first `k` buffers (R283). -/
def BuffersTranslate (s : State) (pa : Nat → W64) (k : Nat) : Prop :=
  ∀ i, i < k → s.v2p (s.eng.buf + BitVec.ofNat 64 (s.cfg.bufSize * i)) = some (pa i)

/-- Word 0 of the first `k` slots of ring `n` holds these addresses, and every other byte is as before (R283). -/
def RingFilled (s t : State) (n : Fin 4) (pa : Nat → W64) (k : Nat) : Prop :=
  (∀ i, i < k → Memory.readLE t.mem (s.eng.ring[n].toNat + 16 * i) 8 = (pa i).toNat) ∧
  ∀ a, (∀ i, i < k → a < s.eng.ring[n].toNat + 16 * i ∨ s.eng.ring[n].toNat + 16 * i + 8 ≤ a) →
    Memory.read t.mem a = Memory.read s.mem a

/-- What a bind that fails on a device leaves alone (R279, R296): all but memory and that NIC. -/
def BindFrame (s t : State) (bdf : W16) : Prop :=
  SameEnvironment s t ∧ SameEngine s t ∧ t.blocks = s.blocks ∧ SameAnswers s t ∧ SameHandles s t ∧ SameNicsBut s t bdf

/-! Construction. -/

/-- The sizes ENG_CONSTRUCT asks for, in order (R262). -/
def blockSizes (c : Config) : List Nat :=
  [ringBytes c, ringBytes c, ringBytes c, ringBytes c, c.ringSize * c.bufSize, outputsMax * c.headStride]

/-- The allocator's answers keep its contract (R352): they overlap nothing live and not each other, and the rings are
aligned, virtually and physically (R77, R78). -/
def GrantsOk (s : State) (gs : List Grant) : Prop :=
  (∀ p ∈ gs.zip (blockSizes s.cfg), s.grantOk p.1 p.2 = true) ∧
  ((gs.zip (blockSizes s.cfg)).Pairwise fun p q =>
    apart (p.1.base, p.2) (q.1.base, q.2) ∧ apart (p.1.phys, p.2) (q.1.phys, q.2)) ∧
  ∀ g ∈ gs.take 4, g.base.toNat % ringAlign = 0 ∧ g.phys.toNat % ringAlign = 0

/-! Runs. -/

/-- Commands run one after the other, each ending with `OK`. -/
def runAll : List Instr → State → Option State
  | [], s => some s
  | i :: rest, s =>
    match exec i s with
    | .next t => if t.lastOk then runAll rest t else none
    | .fault _ => none
    | .refused _ => none

/-- TRANSMIT with each of the given operands. -/
def transmits (ops : List (W16 × BitVec 4)) : List Instr := ops.map fun o => .transmit o.1 o.2

end Sys2Proof.Machine
end

