-- ==== Sys2Proof/Certificates/Slice0/Obligations.lean ====
section
/-! DEFINITION. The statements for the provers. R<n> is a numbered rule of spec/; log <n> is
notes/assumptions/<n>.md. "Quiet" is a state in which no other agent has a move coming; a statement that does not
say so holds whatever the other agents do between micro-steps. -/

open Sys2Proof Sys2Proof.Machine

/-! The command word. -/

/-- R111 to R113, R115: decoding the words of any well-formed command gives the command back, with every operand at
every value. -/
def Obligations.DecodeOfEncode : Prop :=
  ∀ (c : Config) (i : Instr), i.wellFormed c = true → decode c (encode i) = .ok i

/-- R111, R112, R116: words that decode to a command are the words of that command, which is well-formed: no two
words stand for one command and no bit is ignored. -/
def Obligations.EncodeOfDecode : Prop :=
  ∀ (c : Config) (w : Command) (i : Instr), decode c w = .ok i → encode i = w ∧ i.wellFormed c = true

/-- R111, R112: words written out from the encoding tables decode to the commands they stand for. -/
def Obligations.WordsOfTheTables : Prop :=
  decode Config.spec ⟨0x0000040000000101, 0⟩ = .ok (.devOpen 1 0x0400) ∧
  decode Config.spec ⟨0x0000000000010004, 0⟩ = .ok (.setPromisc 0 true) ∧
  decode Config.spec ⟨0x00000000140C0008, 0⟩ = .ok (.regRead 0 (.dev .rxdctl (some .rxdctlEnable)) 0) ∧
  decode Config.spec ⟨0x0000000016110009, 1⟩ = .ok (.regWrite 0 (.dev .srrctl (some .dropEn)) 0 1) ∧
  decode Config.spec ⟨0x0000000000050112, 0⟩ = .ok (.bindOutput 1 5) ∧
  decode Config.spec ⟨0x000305DC00000019, 0⟩ = .ok (.transmit 1500 3) ∧
  decode Config.spec ⟨0x000000000000001A, 0⟩ = .ok .process

/-- R116 (a) to (c), R376, R378: an opcode of no command, a non-zero bit where the format has none, a non-zero `DATA`
where the format has none, or a device index out of range ends with `PRECONDITION_FAIL` and changes nothing. That both
values of the response are 0 for the words of RECEIVE and REG_READ too is the model's choice (log 38). -/
def Obligations.ReservedWordsRefused : Prop :=
  ∀ (s : State) (w : Command) (rest : List Command), s.port = w :: rest →
    (((w.cmd.extractLsb' 0 8).toNat ∉ [0x01, 0x02, 0x03, 0x04, 0x08, 0x09, 0x10, 0x11, 0x12, 0x18, 0x19, 0x1A]) ∨
      ∃ row, opRow (w.cmd.extractLsb' 0 8).toNat = some row ∧
        (w.cmd &&& row.mask ≠ (w.cmd.extractLsb' 0 8).setWidth 64 ∨ (row.hasData = false ∧ w.data ≠ 0) ∨
          (row.hasDev = true ∧ s.cfg.nDev ≤ (w.cmd.extractLsb' 8 8).toNat))) →
    step s = .next { s with port := rest, pc := Sequencer.idle, resp := some ⟨4, 0, 0⟩ }

/-- R43, R116 (d), R165, R167, R378, U1: REG_READ and REG_WRITE with a register, field and index that do not belong
together have no behaviour and are refused, as a word and as a command, where the device's window is mapped; where it
is not, the lifecycle test comes first and the word ends with `PRECONDITION_FAIL`. Which indices a queue register has
(log 36), and that both values of a failing REG_READ are 0 (log 38), is the model's choice. -/
def Obligations.IllegalRegisterRefused : Prop :=
  (∀ (s : State) (w : Command) (rest : List Command) (row : OpRow), s.port = w :: rest →
    opRow (w.cmd.extractLsb' 0 8).toNat = some row →
    (w.cmd.extractLsb' 0 8 = 0x08 ∨ w.cmd.extractLsb' 0 8 = 0x09) →
    w.cmd &&& row.mask = (w.cmd.extractLsb' 0 8).setWidth 64 → (row.hasData = false → w.data = 0) →
    (w.cmd.extractLsb' 8 8).toNat < s.cfg.nDev →
    (∀ sel, regSelOf (w.cmd.extractLsb' 16 8).toNat (w.cmd.extractLsb' 24 8).toNat = some sel →
      sel.legal s.cfg (w.cmd.extractLsb' 32 16) = false) →
    let ls := (s.handle (w.cmd.extractLsb' 8 8)).ls
    ((ls = .validated ∨ ls = .reset ∨ ls = .initialized) → step s = .refused .badRegisterOperand) ∧
    ((ls = .unmapped ∨ ls = .failed) → step s = .next { s.refusedWith4 with port := rest })) ∧
  (∀ (s : State) (dev : BitVec 8) (sel : RegSel) (index : W16), accepts (.regRead dev sel index) s →
    sel.legal s.cfg index = false → exec (.regRead dev sel index) s = .refused .badRegisterOperand) ∧
  ∀ (s : State) (dev : BitVec 8) (sel : RegSel) (index : W16) (value : W32),
    accepts (.regWrite dev sel index value) s → sel.legal s.cfg index = false →
    exec (.regWrite dev sel index value) s = .refused .badRegisterOperand

/-! The machine. -/

/-- R110, R404: a step takes the next command of the port; where its words decode to a command, the step is that
command's meaning on the state without it; with no command waiting and no other agent moving nothing happens. -/
def Obligations.StepRunsCommand : Prop :=
  (∀ (s : State) (w : Command) (rest : List Command) (i : Instr), s.port = w :: rest → decode s.cfg w = .ok i →
    step s = exec i { s with port := rest }) ∧
  ∀ s : State, s.port = [] → s.quiet → step s = .next s

/-- R55, R401: the state after power-on, and the commands that would read an engine register are refused in it. That
both values of a refused RECEIVE's response are 0 is the model's choice (log 38). -/
def Obligations.PowerOnState : Prop :=
  State.reset.es = .unconstructed ∧ State.reset.pc = Sequencer.idle ∧
  (∀ dev, (State.reset.handle dev).ls = .unmapped ∧ (State.reset.handle dev).rxBound = false ∧
    (State.reset.handle dev).txBound = 0) ∧
  (∀ a n, State.reset.memExists a n = false) ∧
  ∀ i, (∃ dev, i = .bindInput dev) ∨ (∃ dev q, i = .bindOutput dev q) ∨ i = .receive ∨
      (∃ len mask, i = .transmit len mask) ∨ i = .process →
    exec i State.reset = .next State.reset.refusedWith4

/-- R55, R60, R401: the invariant holds after power-on. -/
def Obligations.InvAtPowerOn : Prop := Inv State.reset

/-- R32 to R39, R40, R60, R352: every step from a state that meets the invariant ends, if it ends in a state, in one
that meets it, whatever the other agents do. -/
def Obligations.InvKeptByEveryStep : Prop :=
  ∀ s t : State, Inv s → step s = .next t → Inv t

/-- R78, R86, R150, R300, R375: from a state that meets the invariant no command touches memory or a register that
does not exist: the one fault left is a handler that never returns (U7). That windows may lie at any address, aligned or
not, is the model's choice (log 46). -/
def Obligations.NoAccessFault : Prop :=
  ∀ (s : State) (f : Fault), Inv s → step s = .fault f → f = .handlerNeverReturns

/-- R300, R370, R386: from a state that meets the invariant every well-formed command ends in a next state, whatever
the other agents do, but for a breach of the allocator's contract (U13) or of the handler's (U7). That windows may lie
at any address, aligned or not, is the model's choice (log 46). -/
def Obligations.EveryCommandEnds : Prop :=
  ∀ (s : State) (i : Instr), Inv s → i.wellFormed s.cfg = true →
    (∃ t, exec i s = .next t) ∨
    (i = .engConstruct ∧ (exec i s = .refused .misalignedBlock ∨ exec i s = .refused .overlappingBlock)) ∨
    (i = .process ∧ (exec i s = .refused .handlerBrokeContract ∨ exec i s = .fault .handlerNeverReturns))

/-- R300, R303, R316, R331, R375, R431: the hot path never fails and makes boundedly many micro-steps, whatever the
other agents do: RECEIVE at most `1 + OC`, TRANSMIT at most `3*OC + 1`, PROCESS at most their sum and the handler
call, if the handler keeps its contract. That windows may lie at any address, aligned or not, is the model's choice (log
46). -/
def Obligations.HotPathEndsInBoundedSteps : Prop :=
  ∀ s : State, Inv s →
    (accepts .receive s → ∃ t v w, exec .receive s = .next t ∧ t.answered 0 v w ∧
      t.micros ≤ s.micros + 1 + s.eng.oc.toNat) ∧
    (∀ len mask, accepts (.transmit len mask) s → ∃ t, exec (.transmit len mask) s = .next t ∧ t.answered 0 0 0 ∧
      t.micros ≤ s.micros + 3 * s.eng.oc.toNat + 1) ∧
    (accepts .process s → s.handlerOk → ∃ t, exec .process s = .next t ∧ t.answered 0 0 0 ∧
      t.micros ≤ s.micros + 4 * s.eng.oc.toNat + 3)

/-- R114, R370, R371, R375, R379: a command that ends leaves the sequencer idle and one response, whose code is one
that the command can raise; values are zero but for RECEIVE and REG_READ, and with every failure (of those two the
model's choice, log 38). -/
def Obligations.EveryCommandResponds : Prop :=
  ∀ (i : Instr) (s t : State), exec i s = .next t →
    t.pc = Sequencer.idle ∧ ∃ r, t.resp = some r ∧ r.res ∈ resultCodes i ∧
      ((r.res ≠ 0 ∨ (i ≠ .receive ∧ ∀ dev sel index, i ≠ .regRead dev sel index)) → r.val0 = 0 ∧ r.val1 = 0)

/-- R43, R376 (b), R378: a command that is not accepted makes no micro-step and changes nothing but the response.
That both values of a refused RECEIVE's or REG_READ's response are 0 is the model's choice (log 38). -/
def Obligations.NotAcceptedChangesNothing : Prop :=
  ∀ (i : Instr) (s : State), ¬ accepts i s → exec i s = .next s.refusedWith4

/-- R49, R85, R386: no step writes the configuration or the mappings; the clock never goes back, and accesses made
are never unmade. -/
def Obligations.ClockAndTraceOnlyGrow : Prop :=
  ∀ s t : State, step s = .next t →
    t.cfg = s.cfg ∧ t.maps = s.maps ∧ s.now ≤ t.now ∧ s.micros ≤ t.micros ∧ s.trace <:+ t.trace

/-- R31, last column, R41: only the commands named there write an engine register; construction is never undone. -/
def Obligations.WhoWritesTheEngine : Prop :=
  ∀ (i : Instr) (s t : State), exec i s = .next t →
    (i ≠ .engConstruct → (∀ len mask, i ≠ .transmit len mask) → i ≠ .process → t.eng.pd = s.eng.pd) ∧
    (i ≠ .engConstruct → i ≠ .receive → (∀ len mask, i ≠ .transmit len mask) → i ≠ .process →
      t.eng.fd = s.eng.fd) ∧
    (i ≠ .engConstruct → (∀ dev q, i ≠ .bindOutput dev q) → t.eng.oc = s.eng.oc) ∧
    (i ≠ .engConstruct → (∀ dev, i ≠ .bindInput dev) → t.eng.rta = s.eng.rta ∧ t.eng.rtaV = s.eng.rtaV) ∧
    ((∀ dev q, i ≠ .bindOutput dev q) → t.eng.tta = s.eng.tta) ∧
    (i ≠ .engConstruct → t.eng.ring = s.eng.ring ∧ t.eng.buf = s.eng.buf ∧ t.eng.heads = s.eng.heads ∧ t.es = s.es) ∧
    (s.es = .constructed → t.es = .constructed)

/-- R42 to R44: a device's lifecycle state moves only along the source's path, by the commands named there; `bdf`
and `base` are set by DEV_OPEN alone, the bound marks by the binds alone. -/
def Obligations.LifecycleFollowsItsPath : Prop :=
  ∀ (i : Instr) (s t : State), exec i s = .next t → ∀ dev,
    lifecycleEdge i dev (s.handle dev).ls (t.handle dev).ls ∧
    ((∀ bdf, i ≠ .devOpen dev bdf) → (t.handle dev).bdf = (s.handle dev).bdf ∧ (t.handle dev).base = (s.handle dev).base) ∧
    (i ≠ .bindInput dev → (t.handle dev).rxBound = (s.handle dev).rxBound) ∧
    ((∀ q, i ≠ .bindOutput dev q) → (t.handle dev).txBound = (s.handle dev).txBound)

/-! Register access. -/

/-- R128, R129: a field insertion leaves the bits outside the field alone, and extraction then gives the value
inserted, its excess bits dropped. -/
def Obligations.FieldInsertThenExtract : Prop :=
  ∀ raw m v : W32, maskOk m = true →
    extract (insertField raw m v) m = v &&& fieldOnes m ∧
    insertField raw m v &&& ~~~m = raw &&& ~~~m ∧
    (v.toNat ≤ (fieldOnes m).toNat → extract (insertField raw m v) m = v) ∧
    insertField raw m (fieldOnes m) = raw ||| m

/-- R51, R94, R150, R152, R154, R162, R164, R165, R114: REG_READ ends with the register or the field in `VAL0`, after
one access, and changes nothing else; the writes on their way to the NIC have arrived before it. A register with a
defined result reads as the NIC then holds it. That `VAL1` is 0 (log 38), how writes wait and arrive (log 39), and that a
configuration register reads as ever while a device reset is under way (log 47), is the model's choice. -/
def Obligations.RegReadReturnsRegister : Prop :=
  ∀ (s : State) (dev : BitVec 8) (sel : RegSel) (index : W16), s.quiet → s.cfg.legal = true →
    accepts (.regRead dev sel index) s → sel.legal s.cfg index = true →
    (∀ r f, sel = .dev r f →
      let d := s.drainNic (s.handle dev).bdf
      ((s.nic (s.handle dev).bdf).posted = [] → d = s) ∧
      ∃ raw, (StandardConfig s.cfg → (d.nic (s.handle dev).bdf).usable ≤ s.now → r ≠ .eimc →
          raw = d.regOf dev r index.toNat) ∧
        exec (.regRead dev sel index) s = .next
          { d with
            pc := Sequencer.idle
            resp := some ⟨0, (match f with | none => raw | some f => extract raw (s.cfg.mask f)).setWidth 64, 0⟩
            now := s.now + Config.microTime s.micros
            micros := s.micros + 1
            trace := .mmioRead (s.regAddr dev r index.toNat) raw :: s.trace }) ∧
    ∀ r f, sel = .pci r f →
      let raw := (s.nic (s.handle dev).bdf).pciRead (s.cfg.pciOff r)
      exec (.regRead dev sel index) s = .next
        { s with
          pc := Sequencer.idle
          resp := some ⟨0, (match f with | none => raw | some f => extract raw (s.cfg.pciMask f)).setWidth 64, 0⟩
          now := s.now + Config.microTime s.micros
          micros := s.micros + 1
          trace := .pciRead (s.handle dev).bdf (s.cfg.pciOff r) raw :: s.trace }

/-- R151, R153, R155, R163, R164, R166, R349, R356: REG_WRITE ends after one write, with a field after one read and one write
that puts back every bit outside the field; the engine, memory, every handle and every other NIC are as before. A write
of a device register leaves configuration space as it is; one of a configuration register leaves every other
configuration register and all else of the NIC, and `PCI_COMMAND` then reads as written. That a write of a configuration
register marked RO or 'RO here' does no more (log 10), and that a device register write keeps configuration space, the
device reset too (log 7, 11), and that configuration accesses act as ever while a device reset is under way (log 47), is
the model's choice. -/
def Obligations.RegWriteWritesOnce : Prop :=
  ∀ (s : State) (dev : BitVec 8) (sel : RegSel) (index : W16) (value : W32), s.quiet → s.cfg.legal = true →
    accepts (.regWrite dev sel index value) s → sel.legal s.cfg index = true →
    ∃ t, exec (.regWrite dev sel index value) s = .next t ∧ t.answered 0 0 0 ∧
      DeviceFrame s t dev (s.handle dev).bdf ∧ SameHandles s t ∧
      (∀ r, sel = .dev r none →
        madeBetween s t [.mmioWrite (s.regAddr dev r index.toNat) value] ∧
        (t.nic (s.handle dev).bdf).pci = (s.nic (s.handle dev).bdf).pci) ∧
      (∀ r f, sel = .dev r (some f) →
        (∃ raw, madeBetween s t [.mmioRead (s.regAddr dev r index.toNat) raw,
          .mmioWrite (s.regAddr dev r index.toNat) (insertField raw (s.cfg.mask f) value)]) ∧
        (t.nic (s.handle dev).bdf).pci = (s.nic (s.handle dev).bdf).pci) ∧
      (∀ r, sel = .pci r none →
        madeBetween s t [.pciWrite (s.handle dev).bdf (s.cfg.pciOff r) value] ∧
        OnlyPciChanges s t (s.handle dev).bdf (s.cfg.pciOff r) ∧
        (StandardConfig s.cfg → r = .command → (t.nic (s.handle dev).bdf).pciRead (s.cfg.pciOff r) = value)) ∧
      ∀ r f, sel = .pci r (some f) →
        let raw := (s.nic (s.handle dev).bdf).pciRead (s.cfg.pciOff r)
        madeBetween s t [.pciRead (s.handle dev).bdf (s.cfg.pciOff r) raw,
          .pciWrite (s.handle dev).bdf (s.cfg.pciOff r) (insertField raw (s.cfg.pciMask f) value)] ∧
        OnlyPciChanges s t (s.handle dev).bdf (s.cfg.pciOff r) ∧
        (StandardConfig s.cfg → r = .command →
          (t.nic (s.handle dev).bdf).pciRead (s.cfg.pciOff r) = insertField raw (s.cfg.pciMask f) value)

/-- R129, R153, R155, R348: a register marked RW, written without setting the device reset bit, then reads as written,
a field's other bits as they were; every other register of the NIC is as before, but where the write makes a transmit
queue's enable bit rise: its transmit tail is then 0. That registers follow a write at once, and that the tail is
zeroed by it, is the model's choice (log 11, 26, 40). -/
def Obligations.RegWriteThenReads : Prop :=
  ∀ (s t : State) (dev : BitVec 8) (r : DevReg) (f : Option DevField) (index : W16) (value : W32), s.quiet →
    StandardConfig s.cfg → s.settled dev → r.access = .rw → (r = .rxdctl ∨ r = .txdctl → s.prompt dev) →
    accepts (.regWrite dev (.dev r f) index value) s → (RegSel.dev r f).legal s.cfg index = true →
    let written := match f with
      | none => value
      | some f => insertField (s.regOf dev r index.toNat) (s.cfg.mask f) value
    (r = .ctrl → written &&& s.cfg.mask .rst = 0) →
    exec (.regWrite dev (.dev r f) index value) s = .next t →
    let enabled := r = .txdctl ∧ s.regOf dev r index.toNat &&& s.cfg.mask .txdctlEnable = 0 ∧
      written &&& s.cfg.mask .txdctlEnable ≠ 0
    t.regOf dev r index.toNat = written ∧ (enabled → t.regOf dev .tdt index.toNat = 0) ∧
    SameRegistersBut s t (s.handle dev).bdf fun off =>
      off = s.cfg.off r index.toNat ∨ (enabled ∧ off = s.cfg.off .tdt index.toNat)

/-- R51, R94, R348: a write posted toward a NIC whose writes wait changes nothing the NIC holds until it arrives, behind
those posted before it; with none before it, its arrival gives the register (marked RW, the device reset bit not set)
the value, and a REG_READ made first finds the value too. When writes wait (log 39), that a register then holds what was
written, the bits of RXDCTL, TXDCTL and RDRXCTL that the NIC may change among it (log 11, 40), and that `VAL1` of that
REG_READ is 0 (log 38), is the model's choice. -/
def Obligations.PostedWriteArrivesBeforeRead : Prop :=
  ∀ (s : State) (dev : BitVec 8) (r : DevReg) (index : W16) (value : W32), s.quiet → StandardConfig s.cfg →
    accepts (.regWrite dev (.dev r none) index value) s → (RegSel.dev r none).legal s.cfg index = true →
    (s.nic (s.handle dev).bdf).hold = true →
    let bdf := (s.handle dev).bdf
    ∃ t w, exec (.regWrite dev (.dev r none) index value) s = .next t ∧ t.answered 0 0 0 ∧
      DeviceFrame s t dev bdf ∧ SameHandles s t ∧ w.off = s.cfg.off r index.toNat ∧ w.val = value ∧
      t.nic bdf = { s.nic bdf with posted := (s.nic bdf).posted ++ [w] } ∧
      ((s.nic bdf).posted = [] → (s.nic bdf).usable ≤ s.now → r.access = .rw →
        (r = .rxdctl ∨ r = .txdctl → s.prompt dev) → (r = .ctrl → value &&& s.cfg.mask .rst = 0) →
        ((AgentAct.arrive bdf).apply t).regOf dev r index.toNat = value ∧
        ∃ u, exec (.regRead dev (.dev r none) index) t = .next u ∧ u.answered 0 (value.setWidth 64) 0 ∧
          (u.nic bdf).posted = [])

/-- R207, R349, R416 (b), U3, log 7 and 8: a REG_WRITE that sets `CTRL.RST` resets the device: every queue is
disabled, heads and tails are 0, configuration space is as before, and registers have no defined result for `T_RESET`.
That these are the effects and no more (log 7, 8), and that they hold as soon as the write arrives (log 45), is the
model's choice where R349 leaves it open. -/
def Obligations.DeviceResetEffects : Prop :=
  ∀ (s : State) (dev : BitVec 8), s.quiet → StandardConfig s.cfg → s.settled dev →
    accepts (.regWrite dev (.dev .ctrl (some .rst)) 0 1) s →
    ∃ t, exec (.regWrite dev (.dev .ctrl (some .rst)) 0 1) s = .next t ∧ t.answered 0 0 0 ∧
      DeviceFrame s t dev (s.handle dev).bdf ∧
      (∀ q, q < s.cfg.rxQueueCount → t.fieldOf dev .rxdctlEnable q = 0 ∧ t.regOf dev .rdt q = 0 ∧
        (t.nic (s.handle dev).bdf).rxHead q = 0) ∧
      (∀ q, q < s.cfg.txQueueCount → t.fieldOf dev .txdctlEnable q = 0 ∧ t.regOf dev .tdt q = 0 ∧
        ((t.nic (s.handle dev).bdf).txQueue q).head = 0) ∧
      (t.nic (s.handle dev).bdf).pci = (s.nic (s.handle dev).bdf).pci ∧
      (t.nic (s.handle dev).bdf).usable = t.now + s.cfg.tReset

/-! DEV_OPEN. -/

/-- R182 to R188: a device with the expected identity, in D0, with a 64-bit memory BAR that can be mapped is opened, after
exactly the eleven accesses of R182 in its order: the three command register bits are set, nothing else of it changes, and the handle holds `bdf`, the window and
`Validated`. That the window may lie at any address, aligned or not, and over live memory (log 43, 46), and that
a device reset under way does not matter (log 47), is the model's choice. -/
def Obligations.DevOpenCompletes : Prop :=
  ∀ (s : State) (dev : BitVec 8) (bdf : W16) (va : W64), s.quiet → StandardConfig s.cfg →
    accepts (.devOpen dev bdf) s →
    let pci := fun r => (s.nic bdf).pciRead (s.cfg.pciOff r)
    pci .id = s.cfg.pciExpectId → extract (pci .pmcsr) (s.cfg.pciMask .powerState) = s.cfg.pciD0 →
    barIs64BitMemory (pci .bar0Low) = true → s.p2v (barAddress (pci .bar0High) (pci .bar0Low)) windowSize = some va →
    ∃ t, exec (.devOpen dev bdf) s = .next t ∧ t.answered 0 0 0 ∧ DeviceFrame s t dev bdf ∧
      t.handle dev = { s.handle dev with bdf := bdf, base := va, ls := .validated } ∧
      madeBetween s t (openAccesses s bdf va) ∧
      (∀ off, (t.nic bdf).pciRead off =
        if off = s.cfg.pciOff .command then
          pci .command ||| s.cfg.pciMask .busMasterEnable ||| s.cfg.pciMask .memoryAccessEnable |||
            s.cfg.pciMask .interruptDisable
        else (s.nic bdf).pciRead off) ∧
      OnlyPciChanges s t bdf (s.cfg.pciOff .command) ∧ SameRegistersBut s t bdf fun _ => False

/-- R183, R184, R186, R187, R189, R190, R374: the first check that fails ends DEV_OPEN with `VALIDATION_FAIL`; the
handle is as it was. Before the command register is touched nothing else has changed; a bad BAR is rejected without
reading its high half; the three bits set by then stay set. That a device reset under way does not matter is the model's
choice (log 47). -/
def Obligations.DevOpenRejects : Prop :=
  ∀ (s : State) (dev : BitVec 8) (bdf : W16), s.quiet → StandardConfig s.cfg → accepts (.devOpen dev bdf) s →
    let pci := fun r => (s.nic bdf).pciRead (s.cfg.pciOff r)
    let idOk := pci .id = s.cfg.pciExpectId
    let powerOk := extract (pci .pmcsr) (s.cfg.pciMask .powerState) = s.cfg.pciD0
    let barOk := barIs64BitMemory (pci .bar0Low) = true
    ¬ (idOk ∧ powerOk ∧ barOk ∧ s.p2v (barAddress (pci .bar0High) (pci .bar0Low)) windowSize ≠ none) →
    ∃ t, exec (.devOpen dev bdf) s = .next t ∧ t.answered 3 0 0 ∧ DeviceFrame s t dev bdf ∧ SameHandles s t ∧
      (¬ idOk → SameNics s t ∧ madeBetween s t [.pciRead bdf (s.cfg.pciOff .id) (pci .id)]) ∧
      (idOk → ¬ powerOk → SameNics s t ∧
        madeBetween s t [.pciRead bdf (s.cfg.pciOff .id) (pci .id), .pciRead bdf (s.cfg.pciOff .pmcsr) (pci .pmcsr)]) ∧
      (idOk → powerOk →
        (t.nic bdf).pciRead (s.cfg.pciOff .command) =
          pci .command ||| s.cfg.pciMask .busMasterEnable ||| s.cfg.pciMask .memoryAccessEnable |||
            s.cfg.pciMask .interruptDisable) ∧
      (idOk → powerOk → ¬ barOk → ∀ v, Access.pciRead bdf (s.cfg.pciOff .bar0High) v ∈ t.trace →
        Access.pciRead bdf (s.cfg.pciOff .bar0High) v ∈ s.trace)

/-! DEV_RESET. -/

/-- R159, R202 to R207, R209, R349, R403: on a device whose registers follow what is written (log 11, 39, 40), DEV_RESET
ends with `OK` and `Reset` after exactly the accesses of R202 in its order, where the master-enable status clears, where
its poll times out with nothing pending, and where a transaction is pending and the buffers are flushed: every queue
disabled, heads 0 (log 7), configuration space as before, memory, engine and every other NIC untouched. At least the
waits of the queues, of a master poll that times out (its gap is rounded up, log 18), of a flush and of the reset have
passed. -/
def Obligations.DevResetCompletes : Prop :=
  ∀ (s : State) (dev : BitVec 8), s.quiet → StandardConfig s.cfg → s.settled dev → s.prompt dev →
    accepts (.devReset dev) s → s.fieldOf dev .rst 0 = 0 →
    ∃ t, exec (.devReset dev) s = .next t ∧ t.answered 0 0 0 ∧
      t.handle dev = { s.handle dev with ls := .reset } ∧ DeviceFrame s t dev (s.handle dev).bdf ∧
      t.settled dev ∧ (t.nic (s.handle dev).bdf).pci = (s.nic (s.handle dev).bdf).pci ∧
      (∀ q, q < s.cfg.rxQueueCount → t.fieldOf dev .rxdctlEnable q = 0 ∧ (t.nic (s.handle dev).bdf).rxHead q = 0) ∧
      (∀ q, q < s.cfg.txQueueCount →
        t.fieldOf dev .txdctlEnable q = 0 ∧ ((t.nic (s.handle dev).bdf).txQueue q).head = 0) ∧
      madeBetween s t (resetAccesses s dev) ∧
      s.now + s.cfg.rxQueueCount * s.cfg.tRxqWait + (if s.masterStays dev then s.cfg.tPoll else 0) +
        (if s.flushDue dev then s.cfg.tFlush else 0) + s.cfg.tReset ≤ t.now

/-- R159, R202, R210, R373: whatever the device does, DEV_RESET ends: with `OK` and `Reset`, or with `HW_TIMEOUT`
and `Failed` after at least `T_POLL` (the poll's gap is rounded up, log 18); it never hangs. -/
def Obligations.DevResetAlwaysEnds : Prop :=
  ∀ (s : State) (dev : BitVec 8), s.cfg.legal = true → accepts (.devReset dev) s →
    ∃ t, exec (.devReset dev) s = .next t ∧ SameEngine s t ∧ SameHandlesBut s t dev ∧ t.blocks = s.blocks ∧
      ((t.answered 0 0 0 ∧ t.handle dev = { s.handle dev with ls := .reset }) ∨
        (t.answered 2 0 0 ∧ t.handle dev = { s.handle dev with ls := .failed } ∧ s.now + s.cfg.tPoll ≤ t.now))

/-- R210, R212: a device that does not answer the clearing of `RXDCTL[0].ENABLE` (log 40) makes DEV_RESET fail with
`HW_TIMEOUT` after `POLL_ATTEMPTS` reads with a sleep after each, and at least `T_POLL` (the gap is rounded up, the
model's choice, log 18); nothing else is accessed, so `CTRL` is not written, and no register or head of it changes. -/
def Obligations.DevResetTimesOut : Prop :=
  ∀ (s : State) (dev : BitVec 8), s.quiet → StandardConfig s.cfg → s.settled dev → ¬ s.prompt dev →
    accepts (.devReset dev) s → s.fieldOf dev .rxdctlEnable 0 ≠ 0 →
    let a := s.regAddr dev .rxdctl 0
    let old := s.regOf dev .rxdctl 0
    let cleared := insertField old (s.cfg.mask .rxdctlEnable) 0
    ∃ t, exec (.devReset dev) s = .next t ∧ t.answered 2 0 0 ∧
      t.handle dev = { s.handle dev with ls := .failed } ∧ DeviceFrame s t dev (s.handle dev).bdf ∧
      (SameRegistersBut s t (s.handle dev).bdf fun _ => False) ∧
      (∀ q, (t.nic (s.handle dev).bdf).rxHead q = (s.nic (s.handle dev).bdf).rxHead q) ∧
      s.now + s.cfg.tPoll ≤ t.now ∧
      madeBetween s t ([.mmioRead a old, .mmioWrite a cleared] ++
        (List.replicate s.cfg.pollAttempts
          [Access.mmioRead a old, .sleep (pollGap s.cfg s.cfg.tPoll)]).flatten)

/-- R200, R201, R202: the device_reset_fsm, run from `RXQ_CLEAR(0)`, makes the same micro-steps and ends as the
pseudocode, from every state and whatever the other agents do. -/
def Obligations.ResetFsmIsPseudocode : Prop :=
  ∀ (s : State) (dev : BitVec 8), 0 < s.cfg.rxQueueCount →
    resetFsm dev (resetFsmFuel s.cfg) (.rxqClear 0) s = resetDevice dev s

/-! DEV_INIT and SET_PROMISC. -/

/-- R231 to R241: on a device that reports the EEPROM read and present and the DMA ready, DEV_INIT ends with `OK` and
`Initialized` after exactly the accesses of R231 in its order, transmit being configured between the setting and the
clearing of the arbitration-disable bit: the filter table entries the configuration counts are zero, buffers, receive
control bits, flow control and transmit arbitration are as written, and every other register is as before. -/
def Obligations.DevInitCompletes : Prop :=
  ∀ (s : State) (dev : BitVec 8), s.quiet → StandardConfig s.cfg → s.settled dev → accepts (.devInit dev) s →
    s.fieldOf dev .autoRd 0 ≠ 0 → s.fieldOf dev .eePres 0 ≠ 0 → s.fieldOf dev .dmaIdone 0 ≠ 0 →
    let v := s.cfg.init
    let m := s.cfg.mask
    let old := s.regOf dev
    ∃ t, exec (.devInit dev) s = .next t ∧ t.answered 0 0 0 ∧ DeviceFrame s t dev (s.handle dev).bdf ∧
      t.handle dev = { s.handle dev with ls := .initialized } ∧ madeBetween s t (initAccesses s dev) ∧
      t.regOf dev .eimc 0 = v.eimcAll ∧
      (∀ n, n < v.nUnicast → t.regOf dev .pfuta n = 0) ∧ (∀ n, n < v.nVlan → t.regOf dev .pfvlvf n = 0) ∧
      (∀ n, n < v.nVlanBmp → t.regOf dev .pfvlvfb n = 0) ∧ (∀ n, n < v.nMulticast → t.regOf dev .mta n = 0) ∧
      (∀ n, n < v.n5tuple → t.regOf dev .ftqf n = 0) ∧
      t.regOf dev .rxpbsize 0 = insertField (old .rxpbsize 0) (m .rxpbSize) v.rxpb0 ∧
      (∀ n, 0 < n → n < 8 → t.regOf dev .rxpbsize n = insertField (old .rxpbsize n) (m .rxpbSize) 0) ∧
      t.regOf dev .fcrth 0 = insertField (old .fcrth 0) (m .rth) v.fcrth0 ∧
      t.regOf dev .rdrxctl 0 =
        (insertField (old .rdrxctl 0 ||| m .crcStrip) (m .rscFrstSize) 0 ||| m .rscAckc ||| m .fcoeWrfix) ∧
      t.regOf dev .mflcn 0 = old .mflcn 0 ||| m .rfce ∧
      t.regOf dev .rttdcs 0 = insertField (old .rttdcs 0 ||| m .arbDis) (m .arbDis) 0 ∧
      (∀ n, 0 < n → n < 8 → t.regOf dev .txpbsize n = insertField (old .txpbsize n) (m .txpbSize) 0) ∧
      t.regOf dev .txpbthresh 0 = insertField (old .txpbthresh 0) (m .txpbThresh) v.txpbthresh0 ∧
      t.regOf dev .dtxmxszrq 0 = insertField (old .dtxmxszrq 0) (m .maxBytesNumReq) v.maxBytesReq ∧
      SameRegistersBut s t (s.handle dev).bdf fun off =>
        (∃ r n, ((r = .pfuta ∧ n < v.nUnicast) ∨ (r = .pfvlvf ∧ n < v.nVlan) ∨ (r = .pfvlvfb ∧ n < v.nVlanBmp) ∨
            (r = .mta ∧ n < v.nMulticast) ∨ (r = .ftqf ∧ n < v.n5tuple) ∨ (r = .rxpbsize ∧ n < 8) ∨
            (r = .txpbsize ∧ 0 < n ∧ n < 8)) ∧ off = s.cfg.off r n) ∨
        off ∈ [s.cfg.off .eimc 0, s.cfg.off .fcrth 0, s.cfg.off .rdrxctl 0, s.cfg.off .mflcn 0, s.cfg.off .rttdcs 0,
          s.cfg.off .txpbthresh 0, s.cfg.off .dtxmxszrq 0]

/-- R233, R234, R242, R243, R373, R374: without EEPROM completion or DMA readiness DEV_INIT ends with `HW_TIMEOUT`
after at least `T_POLL` (the poll's gap is rounded up, log 18), without the EEPROM with `VALIDATION_FAIL`; the device
is `Failed`, and of its registers only the interrupt mask has been written. -/
def Obligations.DevInitFails : Prop :=
  ∀ (s : State) (dev : BitVec 8), s.quiet → StandardConfig s.cfg → s.settled dev → accepts (.devInit dev) s →
    let read := s.fieldOf dev .autoRd 0 ≠ 0
    let present := s.fieldOf dev .eePres 0 ≠ 0
    let ready := s.fieldOf dev .dmaIdone 0 ≠ 0
    ¬ (read ∧ present ∧ ready) →
    ∃ t, exec (.devInit dev) s = .next t ∧ t.handle dev = { s.handle dev with ls := .failed } ∧
      DeviceFrame s t dev (s.handle dev).bdf ∧
      (if read ∧ ¬ present then t.answered 3 0 0 else t.answered 2 0 0 ∧ s.now + s.cfg.tPoll ≤ t.now) ∧
      t.regOf dev .eimc 0 = s.cfg.init.eimcAll ∧
      SameRegistersBut s t (s.handle dev).bdf fun off => off = s.cfg.off .eimc 0

/-- R159, R231, R242: whatever the device does, DEV_INIT ends: with `OK` and `Initialized`, or with `HW_TIMEOUT` or
`VALIDATION_FAIL` and `Failed`. -/
def Obligations.DevInitAlwaysEnds : Prop :=
  ∀ (s : State) (dev : BitVec 8), s.cfg.legal = true → accepts (.devInit dev) s →
    ∃ t, exec (.devInit dev) s = .next t ∧ SameEngine s t ∧ SameHandlesBut s t dev ∧ t.blocks = s.blocks ∧
      ((t.answered 0 0 0 ∧ t.handle dev = { s.handle dev with ls := .initialized }) ∨
        ((t.answered 2 0 0 ∨ t.answered 3 0 0) ∧ t.handle dev = { s.handle dev with ls := .failed }))

/-- R250, R251: SET_PROMISC gives both filter bits the value asked for; if receive was enabled it is disabled before
and enabled again after; every other register is as before. -/
def Obligations.SetPromiscCompletes : Prop :=
  ∀ (s : State) (dev : BitVec 8) (enable : Bool), s.quiet → StandardConfig s.cfg → s.settled dev →
    accepts (.setPromisc dev enable) s →
    let v : W32 := if enable then 1 else 0
    let rxctrl := s.regOf dev .rxctrl 0
    let fctrl1 := insertField (s.regOf dev .fctrl 0) (s.cfg.mask .upe) v
    let fctrl2 := insertField fctrl1 (s.cfg.mask .mpe) v
    let was := s.fieldOf dev .rxen 0 ≠ 0
    ∃ t l, exec (.setPromisc dev enable) s = .next t ∧ t.answered 0 0 0 ∧ DeviceFrame s t dev (s.handle dev).bdf ∧
      SameHandles s t ∧ t.regOf dev .fctrl 0 = fctrl2 ∧ t.regOf dev .rxctrl 0 = rxctrl ∧
      (SameRegistersBut s t (s.handle dev).bdf fun off => off = s.cfg.off .fctrl 0) ∧
      madeBetween s t l ∧
      registerWrites l =
        (if was then [(s.regAddr dev .rxctrl 0, insertField rxctrl (s.cfg.mask .rxen) 0)] else []) ++
        [(s.regAddr dev .fctrl 0, fctrl1), (s.regAddr dev .fctrl 0, fctrl2)] ++
        (if was then [(s.regAddr dev .rxctrl 0, rxctrl)] else [])

/-- R250: SET_PROMISC cannot fail, whatever the device does. -/
def Obligations.SetPromiscCannotFail : Prop :=
  ∀ (s : State) (dev : BitVec 8) (enable : Bool), s.cfg.legal = true → accepts (.setPromisc dev enable) s →
    ∃ t, exec (.setPromisc dev enable) s = .next t ∧ t.answered 0 0 0 ∧ SameEngine s t ∧ SameHandles s t

/-! ENG_CONSTRUCT. -/

/-- R56, R57, R262, R264, R402: with six answers of the allocator that keep its contract construction succeeds: the
registers have the values of R56, every byte of the six blocks is zero, and nothing else changes. -/
def Obligations.ConstructCompletes : Prop :=
  ∀ (s : State) (g0 g1 g2 g3 g4 g5 : Grant) (rest : List (Option Grant)), Inv s → s.quiet →
    accepts .engConstruct s → s.grants = [g0, g1, g2, g3, g4, g5].map some ++ rest →
    GrantsOk s [g0, g1, g2, g3, g4, g5] →
    let blocks := ([g0, g1, g2, g3, g4, g5].zip (blockSizes s.cfg)).map fun p =>
      Block.mk p.1.base p.2 p.1.phys p.1.gaps
    ∃ t, exec .engConstruct s = .next t ∧ t.answered 0 0 0 ∧ t.es = .constructed ∧
      t.eng = { s.eng with pd := 0, fd := s.cfg.flushedNone, oc := 0, rtaV := false,
                           ring := #v[g0.base, g1.base, g2.base, g3.base], buf := g4.base, heads := g5.base } ∧
      t.blocks = blocks.reverse ++ s.blocks ∧ t.grants = rest ∧ t.handlerQ = s.handlerQ ∧
      (∀ a, Memory.read t.mem a =
        if blocks.any (fun b => b.holds a 1) then 0 else Memory.read s.mem a) ∧
      SameEnvironment s t ∧ SameHandles s t ∧ SameNics s t

/-- R262, R263, R265 (c), R372, R379: where allocation `k + 1` fails, after `k` that succeed, construction ends with
`ALLOC_FAIL`; exactly the `k` blocks obtained are freed, in reverse order, and no other. That the engine registers are
then as before (log 21) and that an allocator with no answer left fails (log 13) is the model's choice. -/
def Obligations.ConstructUnwinds : Prop :=
  ∀ (s : State) (gs : List Grant) (rest : List (Option Grant)), Inv s → s.quiet → accepts .engConstruct s →
    gs.length < 6 → (s.grants = gs.map some ++ none :: rest ∨ (s.grants = gs.map some ∧ rest = [])) → GrantsOk s gs →
    ∃ t, exec .engConstruct s = .next t ∧ t.answered 1 0 0 ∧ SameEngine s t ∧ t.blocks = s.blocks ∧ t.grants = rest ∧
      (∀ a, s.memExists a 1 = true → Memory.read t.mem a = Memory.read s.mem a) ∧
      SameEnvironment s t ∧ SameHandles s t ∧ SameNics s t ∧
      madeBetween s t
        (((gs.zip (blockSizes s.cfg)).map fun p => Access.alloc p.2 (some p.1.base)) ++
          [.alloc ((blockSizes s.cfg).getD gs.length 0) none] ++ gs.reverse.map fun g => .free g.base)

/-- R265: for every legal ring size construction succeeds exactly when every allocation it makes succeeds, whatever
the other agents do. -/
def Obligations.ConstructIffAllocated : Prop :=
  ∀ (s t : State) (l : List Access), s.cfg.legal = true → accepts .engConstruct s → exec .engConstruct s = .next t →
    madeBetween s t l →
    ((t.answered 0 0 0 ∧ t.es = .constructed) ↔ ∀ n, Access.alloc n none ∉ l)

/-! The binds. -/

/-- R270, R272 to R278, R131, R133, R134, R341: on a free queue, with the ring translated and the receive path drained,
BIND_INPUT ends with `OK` after exactly the accesses of R270 in its order: it records the tail address, marks the device,
and leaves the queue programmed; the first tail hands over every slot but one; memory and every other register are as
before. That the enable bit reads as written (R348), that the head is 0 from then on (log 11, 26, 40), and the length
register of a ring of 2^32 bytes or more (log 37), is the model's choice. -/
def Obligations.BindInputCompletes : Prop :=
  ∀ (s : State) (dev : BitVec 8) (p : W64), s.quiet → StandardConfig s.cfg → s.settled dev → s.prompt dev →
    accepts (.bindInput dev) s → s.eng.rtaV = false → s.fieldOf dev .rxdctlEnable s.cfg.rxQueue = 0 →
    s.v2p s.eng.ring[0] = some p → s.fieldOf dev .secrxRdy 0 ≠ 0 →
    let q := s.cfg.rxQueue
    let m := s.cfg.mask
    let old := s.regOf dev
    ∃ t, exec (.bindInput dev) s = .next t ∧ t.answered 0 0 0 ∧ t.es = s.es ∧
      t.eng = { s.eng with rta := s.regAddr dev .rdt q, rtaV := true } ∧
      t.handle dev = { s.handle dev with rxBound := true } ∧ SameHandlesBut s t dev ∧
      madeBetween s t (bindInputAccesses s dev p) ∧
      SameEnvironment s t ∧ SameMemory s t ∧ SameAnswers s t ∧ SameNicsBut s t (s.handle dev).bdf ∧
      t.regOf dev .rdbah q = highHalf p ∧ t.regOf dev .rdbal q = lowHalf p ∧
      t.regOf dev .rdlen q = BitVec.ofNat 32 (s.cfg.ringSize * 16) ∧
      t.regOf dev .srrctl q = (insertField (old .srrctl q) (m .bsizePacket)
        (BitVec.ofNat 32 ((s.cfg.bufSize + 1023) / 1024)) ||| m .dropEn) ∧
      t.regOf dev .rxdctl q = old .rxdctl q ||| m .rxdctlEnable ∧
      t.regOf dev .rdt q = BitVec.ofNat 32 (s.cfg.ringSize - 1) ∧ (t.nic (s.handle dev).bdf).rxHead q = 0 ∧
      t.regOf dev .secrxctrl 0 = insertField (old .secrxctrl 0 ||| m .rxDis) (m .rxDis) 0 ∧
      t.regOf dev .rxctrl 0 = old .rxctrl 0 ||| m .rxen ∧
      t.regOf dev .ctrlExt 0 = old .ctrlExt 0 ||| m .nsDis ∧
      t.regOf dev .dcarxctrl q = insertField (old .dcarxctrl q) (m .rsvdReq) s.cfg.rsvdReqValue ∧
      SameRegistersBut s t (s.handle dev).bdf fun off =>
        off ∈ [s.cfg.off .rdbah q, s.cfg.off .rdbal q, s.cfg.off .rdlen q, s.cfg.off .srrctl q, s.cfg.off .rxdctl q,
          s.cfg.off .rdt q, s.cfg.off .secrxctrl 0, s.cfg.off .rxctrl 0, s.cfg.off .ctrlExt 0,
          s.cfg.off .dcarxctrl q]

/-- R271 to R276, R279: BIND_INPUT with an input bound fails at once; with the queue in use it fails after one register
read; where the ring cannot be translated it fails with `ALLOC_FAIL` and has written no register. Where the queue's
enable bit does not answer (log 40), or the receive path never drains, it fails with `HW_TIMEOUT` after at least
`T_POLL` (log 18), and the registers written so far stay, the length of a ring of 2^32 bytes or more cut to 32 bits (the
model's choice, log 37). Nothing is bound. -/
def Obligations.BindInputRejects : Prop :=
  ∀ (s : State) (dev : BitVec 8), accepts (.bindInput dev) s →
    (s.eng.rtaV = true → exec (.bindInput dev) s = .next s.refusedWith4) ∧
    (s.quiet → StandardConfig s.cfg → s.settled dev → s.eng.rtaV = false →
      s.fieldOf dev .rxdctlEnable s.cfg.rxQueue ≠ 0 →
      ∃ t, exec (.bindInput dev) s = .next t ∧ t.answered 4 0 0 ∧ DeviceFrame s t dev (s.handle dev).bdf ∧
        SameHandles s t ∧ SameNics s t ∧
        madeBetween s t [.mmioRead (s.regAddr dev .rxdctl s.cfg.rxQueue) (s.regOf dev .rxdctl s.cfg.rxQueue)]) ∧
    (s.quiet → StandardConfig s.cfg → s.settled dev → s.eng.rtaV = false →
      s.fieldOf dev .rxdctlEnable s.cfg.rxQueue = 0 → s.v2p s.eng.ring[0] = none →
      ∃ t, exec (.bindInput dev) s = .next t ∧ t.answered 1 0 0 ∧ DeviceFrame s t dev (s.handle dev).bdf ∧
        SameHandles s t ∧ SameNics s t) ∧
    ∀ p : W64, s.quiet → StandardConfig s.cfg → s.settled dev → s.eng.rtaV = false →
      s.fieldOf dev .rxdctlEnable s.cfg.rxQueue = 0 → s.v2p s.eng.ring[0] = some p →
      (¬ s.prompt dev ∨ s.fieldOf dev .secrxRdy 0 = 0) →
      let q := s.cfg.rxQueue
      let m := s.cfg.mask
      let old := s.regOf dev
      ∃ t, exec (.bindInput dev) s = .next t ∧ t.answered 2 0 0 ∧ DeviceFrame s t dev (s.handle dev).bdf ∧
        SameHandles s t ∧ s.now + s.cfg.tPoll ≤ t.now ∧
        t.regOf dev .rdbah q = highHalf p ∧ t.regOf dev .rdbal q = lowHalf p ∧
        t.regOf dev .rdlen q = BitVec.ofNat 32 (s.cfg.ringSize * 16) ∧
        t.regOf dev .srrctl q = (insertField (old .srrctl q) (m .bsizePacket)
          (BitVec.ofNat 32 ((s.cfg.bufSize + 1023) / 1024)) ||| m .dropEn) ∧
        (s.prompt dev → t.regOf dev .rxdctl q = old .rxdctl q ||| m .rxdctlEnable ∧
          t.regOf dev .rdt q = BitVec.ofNat 32 (s.cfg.ringSize - 1) ∧
          t.regOf dev .secrxctrl 0 = old .secrxctrl 0 ||| m .rxDis) ∧
        SameRegistersBut s t (s.handle dev).bdf fun off =>
          off ∈ [s.cfg.off .rdbah q, s.cfg.off .rdbal q, s.cfg.off .rdlen q, s.cfg.off .srrctl q] ∨
          (s.prompt dev ∧ off ∈ [s.cfg.off .rxdctl q, s.cfg.off .rdt q, s.cfg.off .secrxctrl 0])

/-- R283 to R288, R290 to R294, R345: with every buffer, the ring and the head slot translated and the head slot
aligned, BIND_OUTPUT ends with `OK` after exactly the accesses of R280 in its order: output `OC` is bound, word 0 of every
slot of its ring is the physical address of the slot's buffer and no other byte changes, and the queue is programmed.
That the enable bit reads as written (R348), that the queue's tail and head are 0 on enabling (log 11, 26, 40), and the
length register of a ring of 2^32 bytes or more (log 37), is the model's choice. -/
def Obligations.BindOutputCompletes : Prop :=
  ∀ (s : State) (dev queue : BitVec 8) (n : Fin 4) (pa : Nat → W64) (p hp : W64), Inv s → s.quiet →
    StandardConfig s.cfg → s.settled dev → s.prompt dev → accepts (.bindOutput dev queue) s →
    s.eng.oc.toNat = n.val → queue.toNat < s.cfg.txQueueCount → s.fieldOf dev .txdctlEnable queue.toNat = 0 →
    BuffersTranslate s pa s.cfg.ringSize →
    s.v2p s.eng.ring[n] = some p → s.v2p (s.eng.headAddr s.cfg n) = some hp → hp.toNat % 16 = 0 →
    let q := queue.toNat
    let m := s.cfg.mask
    let old := s.regOf dev
    ∃ t, exec (.bindOutput dev queue) s = .next t ∧ t.answered 0 0 0 ∧ t.es = s.es ∧
      t.eng = { s.eng with tta := s.eng.tta.set n (s.regAddr dev .tdt q), oc := s.eng.oc + 1 } ∧
      t.handle dev = { s.handle dev with txBound := (s.handle dev).txBound + 1 } ∧ SameHandlesBut s t dev ∧
      madeBetween s t (bindOutputAccesses s dev q n pa p hp) ∧
      SameEnvironment s t ∧ SameAnswers s t ∧ SameNicsBut s t (s.handle dev).bdf ∧ t.blocks = s.blocks ∧
      RingFilled s t n pa s.cfg.ringSize ∧
      t.regOf dev .tdbah q = highHalf p ∧ t.regOf dev .tdbal q = lowHalf p ∧
      t.regOf dev .tdlen q = BitVec.ofNat 32 (s.cfg.ringSize * 16) ∧
      t.regOf dev .tdwbah q = highHalf hp ∧ t.regOf dev .tdwbal q = lowHalf hp ||| 1 ∧
      t.regOf dev .txdctl q = (insertField (insertField (old .txdctl q) (m .pthresh) s.cfg.txPthresh) (m .hthresh)
        s.cfg.txHthresh ||| m .txdctlEnable) ∧
      t.regOf dev .dcatxctrl q = insertField (old .dcatxctrl q) (m .txDescWbRoEn) 0 ∧
      t.regOf dev .dmatxctl 0 = old .dmatxctl 0 ||| m .te ∧ t.regOf dev .tdt q = 0 ∧
      ((t.nic (s.handle dev).bdf).txQueue q).head = 0 ∧
      SameRegistersBut s t (s.handle dev).bdf fun off =>
        off ∈ [s.cfg.off .tdbah q, s.cfg.off .tdbal q, s.cfg.off .tdlen q, s.cfg.off .tdwbah q, s.cfg.off .tdwbal q,
          s.cfg.off .txdctl q, s.cfg.off .dcatxctrl q, s.cfg.off .dmatxctl 0, s.cfg.off .tdt q]

/-- R283, R285 to R287, R289, R296: a head slot whose physical address is not a multiple of 16 makes BIND_OUTPUT fail with
`PRECONDITION_FAIL` before the write-back registers are written; the writes made before stay (the length of a ring of
2^32 bytes or more cut to 32 bits, the model's choice, log 37), and nothing is bound. -/
def Obligations.BindOutputRejectsMisalignedHead : Prop :=
  ∀ (s : State) (dev queue : BitVec 8) (n : Fin 4) (pa : Nat → W64) (p hp : W64), Inv s → s.quiet →
    StandardConfig s.cfg → s.settled dev → accepts (.bindOutput dev queue) s → s.eng.oc.toNat = n.val →
    queue.toNat < s.cfg.txQueueCount → s.fieldOf dev .txdctlEnable queue.toNat = 0 →
    BuffersTranslate s pa s.cfg.ringSize →
    s.v2p s.eng.ring[n] = some p → s.v2p (s.eng.headAddr s.cfg n) = some hp → hp.toNat % 16 ≠ 0 →
    let q := queue.toNat
    ∃ t, exec (.bindOutput dev queue) s = .next t ∧ t.answered 4 0 0 ∧ BindFrame s t (s.handle dev).bdf ∧
      (∀ l, madeBetween s t l → ∀ v, Access.mmioWrite (s.regAddr dev .tdwbah q) v ∉ l ∧
        Access.mmioWrite (s.regAddr dev .tdwbal q) v ∉ l) ∧
      t.regOf dev .tdwbah q = s.regOf dev .tdwbah q ∧ t.regOf dev .tdwbal q = s.regOf dev .tdwbal q ∧
      t.regOf dev .tdbah q = highHalf p ∧ t.regOf dev .tdbal q = lowHalf p ∧
      t.regOf dev .tdlen q = BitVec.ofNat 32 (s.cfg.ringSize * 16) ∧
      t.regOf dev .txdctl q = insertField (insertField (s.regOf dev .txdctl q) (s.cfg.mask .pthresh) s.cfg.txPthresh)
        (s.cfg.mask .hthresh) s.cfg.txHthresh ∧
      RingFilled s t n pa s.cfg.ringSize

/-- R281 to R283, R285 to R288, R293, R296: BIND_OUTPUT with every output bound or the queue out of range fails without
touching the device; with the queue in use it fails after one register read. Where buffer `k`, the ring or the head slot
cannot be translated it fails with `ALLOC_FAIL`, and where the queue's enable bit does not answer (log 40) with
`HW_TIMEOUT` after at least `T_POLL` (log 18): the memory and register writes made so far stay, and nothing is bound. That
an `OC` above 4 counts as every output bound (log 20), and the length register of a ring of 2^32 bytes or more (log 37),
is the model's choice. -/
def Obligations.BindOutputRejects : Prop :=
  ∀ (s : State) (dev queue : BitVec 8), accepts (.bindOutput dev queue) s →
    (outputsMax ≤ s.eng.oc.toNat ∨ s.cfg.txQueueCount ≤ queue.toNat →
      exec (.bindOutput dev queue) s = .next s.refusedWith4) ∧
    (s.quiet → StandardConfig s.cfg → s.settled dev → s.eng.oc.toNat < outputsMax →
      queue.toNat < s.cfg.txQueueCount → s.fieldOf dev .txdctlEnable queue.toNat ≠ 0 →
      ∃ t, exec (.bindOutput dev queue) s = .next t ∧ t.answered 4 0 0 ∧ DeviceFrame s t dev (s.handle dev).bdf ∧
        SameHandles s t ∧ SameNics s t ∧
        madeBetween s t [.mmioRead (s.regAddr dev .txdctl queue.toNat) (s.regOf dev .txdctl queue.toNat)]) ∧
    ∀ (n : Fin 4) (pa : Nat → W64), Inv s → s.quiet → StandardConfig s.cfg → s.settled dev →
      s.eng.oc.toNat = n.val → queue.toNat < s.cfg.txQueueCount → s.fieldOf dev .txdctlEnable queue.toNat = 0 →
      let q := queue.toNat
      let m := s.cfg.mask
      let old := s.regOf dev
      let bdf := (s.handle dev).bdf
      let programmed := fun (t : State) (p : W64) =>
        t.regOf dev .tdbah q = highHalf p ∧ t.regOf dev .tdbal q = lowHalf p ∧
        t.regOf dev .tdlen q = BitVec.ofNat 32 (s.cfg.ringSize * 16) ∧
        t.regOf dev .txdctl q = insertField (insertField (old .txdctl q) (m .pthresh) s.cfg.txPthresh) (m .hthresh)
          s.cfg.txHthresh
      (∀ k, k < s.cfg.ringSize → BuffersTranslate s pa k →
        s.v2p (s.eng.buf + BitVec.ofNat 64 (s.cfg.bufSize * k)) = none →
        ∃ t, exec (.bindOutput dev queue) s = .next t ∧ t.answered 1 0 0 ∧ BindFrame s t bdf ∧ SameNics s t ∧
          RingFilled s t n pa k) ∧
      (BuffersTranslate s pa s.cfg.ringSize → s.v2p s.eng.ring[n] = none →
        ∃ t, exec (.bindOutput dev queue) s = .next t ∧ t.answered 1 0 0 ∧ BindFrame s t bdf ∧ SameNics s t ∧
          RingFilled s t n pa s.cfg.ringSize) ∧
      (∀ p, BuffersTranslate s pa s.cfg.ringSize → s.v2p s.eng.ring[n] = some p →
        s.v2p (s.eng.headAddr s.cfg n) = none →
        ∃ t, exec (.bindOutput dev queue) s = .next t ∧ t.answered 1 0 0 ∧ BindFrame s t bdf ∧
          RingFilled s t n pa s.cfg.ringSize ∧ programmed t p ∧
          SameRegistersBut s t bdf fun off =>
            off ∈ [s.cfg.off .tdbah q, s.cfg.off .tdbal q, s.cfg.off .tdlen q, s.cfg.off .txdctl q]) ∧
      ∀ p hp, ¬ s.prompt dev → BuffersTranslate s pa s.cfg.ringSize → s.v2p s.eng.ring[n] = some p →
        s.v2p (s.eng.headAddr s.cfg n) = some hp → hp.toNat % 16 = 0 →
        ∃ t, exec (.bindOutput dev queue) s = .next t ∧ t.answered 2 0 0 ∧ BindFrame s t bdf ∧
          RingFilled s t n pa s.cfg.ringSize ∧ s.now + s.cfg.tPoll ≤ t.now ∧ programmed t p ∧
          t.regOf dev .tdwbah q = highHalf hp ∧ t.regOf dev .tdwbal q = lowHalf hp ||| 1 ∧
          t.regOf dev .dcatxctrl q = insertField (old .dcatxctrl q) (m .txDescWbRoEn) 0 ∧
          t.regOf dev .dmatxctl 0 = old .dmatxctl 0 ||| m .te ∧
          SameRegistersBut s t bdf fun off =>
            off ∈ [s.cfg.off .tdbah q, s.cfg.off .tdbal q, s.cfg.off .tdlen q, s.cfg.off .txdctl q,
              s.cfg.off .tdwbah q, s.cfg.off .tdwbal q, s.cfg.off .dcatxctrl q, s.cfg.off .dmatxctl 0]

/-- R295: BIND_OUTPUT never writes the transmit tail register of the queue it binds, however it ends and whatever
the other agents do. -/
def Obligations.BindOutputMakesNoTailWrite : Prop :=
  ∀ (s t : State) (dev queue : BitVec 8) (l : List Access), StandardConfig s.cfg →
    exec (.bindOutput dev queue) s = .next t → madeBetween s t l →
    ∀ v, Access.mmioWrite (s.regAddr dev .tdt queue.toNat) v ∉ l

/-! RECEIVE. -/

/-- R303, R304, R307, R114: with Descriptor-Done set RECEIVE reports the length and the buffer address of slot `PD`
after one read, and nothing else changes: not `PD`, not `FD`, no byte of memory, no register. -/
def Obligations.ReceiveReportsPacket : Prop :=
  ∀ s : State, s.quiet → s.cfg.legal = true → accepts .receive s →
    s.memExists (s.eng.wordAddr 0 s.eng.pd 1).toNat 8 = true → s.word1.getLsbD s.cfg.desc.dd = true →
    exec .receive s = .next
      { s with
        pc := Sequencer.idle
        resp := some ⟨0, 0x8000000000000000 ||| BitVec.ofNat 64 s.length1,
          s.eng.buf + BitVec.ofNat 64 (s.cfg.bufSize * s.eng.pd.toNat)⟩
        now := s.now + Config.microTime s.micros
        micros := s.micros + 1
        trace := .memRead true (s.eng.wordAddr 0 s.eng.pd 1) 8 s.word1 :: s.trace }

/-- R303, R305, R306, R309: with Descriptor-Done clear RECEIVE reports no packet, writes `PD` to the tail of every
bound output in ascending order if `FD` is a slot other than `PD` and to none otherwise, and records the sentinel
(with `IDLE_ALWAYS_SENTINEL` false, only after such a flush); no byte of memory changes, nor any NIC whose tail is not
written, and on a flush the tail registers of the bound outputs hold `PD`. -/
def Obligations.ReceiveFindsNone : Prop :=
  ∀ s : State, Inv s → s.quiet → accepts .receive s → s.word1.getLsbD s.cfg.desc.dd = false →
    ∃ t, exec .receive s = .next t ∧ t.answered 0 0 0 ∧ madeBetween s t (receiveAccesses s) ∧
      t.es = s.es ∧
      t.eng = (if s.cfg.idleAlwaysSentinel = true ∨ s.catchesUp then
        { s.eng with fd := s.cfg.flushedNone } else s.eng) ∧
      SameEnvironment s t ∧ SameMemory s t ∧ SameAnswers s t ∧ SameHandles s t ∧
      SameNicsButTails s t s.catchesUp False ∧
      (StandardConfig s.cfg → TailsResolve s → ∀ bdf, (s.nic bdf).settledAt s.now →
        (SameRegistersBut s t bdf fun off => tailTargets s s.catchesUp False bdf off) ∧
        ∀ off, tailTargets s s.catchesUp False bdf off →
          (t.nic bdf).reg s.cfg off = BitVec.ofNat 32 s.eng.pd.toNat)

/-- R308: RECEIVE again, without a TRANSMIT between and with no other agent moving, gives the same answer, `(0, 0, 0)`
where Descriptor-Done is clear; the second time it finds `FD` at the sentinel (where `IDLE_ALWAYS_SENTINEL` says so),
writes no register and leaves the engine as it is. -/
def Obligations.ReceiveIsIdempotent : Prop :=
  ∀ s t : State, Inv s → s.quiet → accepts .receive s → exec .receive s = .next t →
    (s.word1.getLsbD s.cfg.desc.dd = false →
      t.answered 0 0 0 ∧ (s.cfg.idleAlwaysSentinel = true → t.eng.fd = s.cfg.flushedNone)) ∧
    ∃ u, exec .receive t = .next u ∧ u.resp = t.resp ∧ SameEngine t u ∧ SameNics t u ∧ SameMemory t u ∧
      madeBetween t u [.memRead true (s.eng.wordAddr 0 s.eng.pd 1) 8 s.word1]

/-! TRANSMIT. -/

/-- R312 to R320, R334: TRANSMIT makes exactly the accesses of R316, in its order; `PD` advances by one, `FD` becomes
the new `PD` exactly when a flush is due; no other engine register, no handle, and no NIC that none of the tail addresses
it writes names changes. That a length wider than `LEN_BITS` below 16 is cut in word 1 is the model's choice (log 35). -/
def Obligations.TransmitFollowsItsSteps : Prop :=
  ∀ (s : State) (len : W16) (mask : BitVec 4), Inv s → s.quiet → accepts (.transmit len mask) s →
    let pd : W64 := BitVec.ofNat 64 ((s.eng.pd.toNat + 1) % s.cfg.ringSize)
    ∃ t, exec (.transmit len mask) s = .next t ∧ t.answered 0 0 0 ∧ madeBetween s t (transmitAccesses s len mask) ∧
      t.es = s.es ∧ t.eng = { s.eng with pd := pd, fd := if s.flushes then pd else s.eng.fd } ∧
      SameEnvironment s t ∧ SameAnswers s t ∧ SameHandles s t ∧ t.blocks = s.blocks ∧
      SameNicsButTails s t s.flushes s.rsDue

/-- R123, R124, R312, R323 (f): TRANSMIT gives word 1 of slot `PD` of every bound ring the length (its `LEN_BITS` low
bits, log 35) if the output is selected and 0 if not, End-Of-Packet and Insert-FCS, Report-Status exactly on the last slot of a period, and zero in
every other bit, Descriptor-Done among them; every other byte of memory is as before. -/
def Obligations.TransmitWritesDescriptors : Prop :=
  ∀ (s t : State) (len : W16) (mask : BitVec 4), Inv s → s.quiet → accepts (.transmit len mask) s →
    exec (.transmit len mask) s = .next t →
    let slot := fun n : Fin 4 => s.eng.ring[n].toNat + 16 * s.eng.pd.toNat + 8
    let word := fun n : Fin 4 => (BitVec.ofNat 64 (Memory.readLE t.mem (slot n) 8) : W64)
    let d := s.cfg.desc
    (∀ n : Fin 4, n.val < s.eng.oc.toNat →
      (word n).toNat / 2 ^ d.lenLo % 2 ^ s.cfg.lenBits =
        (if mask.getLsbD n.val then len.toNat % 2 ^ s.cfg.lenBits else 0) ∧
      (word n).getLsbD d.eop = true ∧ (word n).getLsbD d.ifcs = true ∧
      ((word n).getLsbD d.rs = true ↔ s.eng.pd.toNat % s.cfg.transmitPeriod = s.cfg.rsPhase) ∧
      (word n).getLsbD d.dd = false ∧
      ∀ b, ¬ (d.lenLo ≤ b ∧ b < d.lenLo + s.cfg.lenBits) → b ≠ d.eop → b ≠ d.ifcs → b ≠ d.rs → (word n).getLsbD b = false) ∧
    ∀ a, (∀ n : Fin 4, n.val < s.eng.oc.toNat → a < slot n ∨ slot n + 8 ≤ a) →
      Memory.read t.mem a = Memory.read s.mem a

/-- R313, R323 (a): after any number of TRANSMITs that ended with `OK` the processed delimiter has advanced by that
number, modulo the ring size, whatever the masks, the outputs and the other agents. -/
def Obligations.TransmitsAdvanceDelimiter : Prop :=
  ∀ (s t : State) (ops : List (W16 × BitVec 4)), Inv s → s.es = .constructed → runAll (transmits ops) s = some t →
    t.eng.pd.toNat = (s.eng.pd.toNat + ops.length) % s.cfg.ringSize

/-- R315, R323 (c): counted from a flush, TRANSMITs up to the process period make no flush and write no transmit tail,
and the one that reaches it flushes: `FD` is then the current `PD`, and the tail of every bound output has been written
exactly once in the batch, with that value, whatever the other agents do. -/
def Obligations.OneFlushPerBatch : Prop :=
  ∀ (s t : State) (ops : List (W16 × BitVec 4)) (l : List Access), Inv s → s.es = .constructed →
    s.eng.fd = s.eng.pd → (∀ n : Fin 4, n.val < s.eng.oc.toNat → s.eng.tta[n] ≠ s.eng.rta) →
    runAll (transmits ops) s = some t → madeBetween s t l →
    let tails := (registerWrites l).filter fun w => w.1 ≠ s.eng.rta
    (ops.length < s.cfg.processPeriod → t.eng.fd = s.eng.fd ∧ tails = []) ∧
    (ops.length = s.cfg.processPeriod → t.eng.fd = t.eng.pd ∧ t.eng.fd ≠ s.eng.fd ∧
      tails = s.outputs.map fun n => (s.eng.tta[n], BitVec.ofNat 32 t.eng.pd.toNat))

/-- R314, R320, R323 (b), R345: after a TRANSMIT that flushed, the transmit tail register of every bound output holds
the new `PD`; after one on a Report-Status slot the receive tail register holds the slot before the head kept by the
scan; no other register of a settled NIC changes. -/
def Obligations.TransmitLeavesTails : Prop :=
  ∀ (s t : State) (len : W16) (mask : BitVec 4), Inv s → s.quiet → StandardConfig s.cfg → TailsResolve s →
    accepts (.transmit len mask) s → exec (.transmit len mask) s = .next t →
    (∀ (n : Fin 4) (bdf : W16) (q : Nat), n.val < s.eng.oc.toNat → q < s.cfg.txQueueCount →
      s.windowAt s.eng.tta[n] = some (bdf, s.cfg.off .tdt q) → (s.nic bdf).settledAt s.now → s.flushes →
      (t.nic bdf).reg s.cfg (s.cfg.off .tdt q) = BitVec.ofNat 32 ((s.eng.pd.toNat + 1) % s.cfg.ringSize)) ∧
    (∀ bdf : W16, s.windowAt s.eng.rta = some (bdf, s.cfg.off .rdt s.cfg.rxQueue) → (s.nic bdf).settledAt s.now →
      s.rsDue →
      ((t.nic bdf).reg s.cfg (s.cfg.off .rdt s.cfg.rxQueue)).toNat =
        ((earliestHead t.eng.pd (s.outputs.map fun n => s.headOf n)).toNat + s.cfg.ringSize - 1) % s.cfg.ringSize) ∧
    ∀ bdf : W16, (s.nic bdf).settledAt s.now →
      SameRegistersBut s t bdf fun off => tailTargets s s.flushes s.rsDue bdf off

/-- R318, R319: of heads that are slot numbers the scan keeps one of least forward distance from the delimiter,
modulo the ring size; with no head it keeps the delimiter (R321). -/
def Obligations.ScanKeepsLeastDistance : Prop :=
  ∀ (c : Config) (pd : W64) (heads : List W64), c.legal = true → pd.toNat < c.ringSize →
    (∀ h ∈ heads, h.toNat < c.ringSize) →
    (heads = [] → earliestHead pd heads = pd) ∧
    (heads ≠ [] → earliestHead pd heads ∈ heads ∧ ∀ h ∈ heads,
      ((earliestHead pd heads).toNat + c.ringSize - pd.toNat) % c.ringSize ≤
        (h.toNat + c.ringSize - pd.toNat) % c.ringSize)

/-- R321: with no output bound TRANSMIT writes no descriptor and no transmit tail; `PD` advances, `FD` becomes `PD`
where a flush is due, and a Report-Status slot recycles the slot just processed. -/
def Obligations.TransmitWithoutOutputs : Prop :=
  ∀ (s : State) (len : W16) (mask : BitVec 4), Inv s → s.quiet → accepts (.transmit len mask) s → s.eng.oc = 0 →
    ∃ t, exec (.transmit len mask) s = .next t ∧ t.answered 0 0 0 ∧ SameMemory s t ∧
      t.eng.pd.toNat = (s.eng.pd.toNat + 1) % s.cfg.ringSize ∧
      t.eng.fd = (if s.flushes then t.eng.pd else s.eng.fd) ∧
      madeBetween s t (if s.rsDue then
        [.mmioWrite s.eng.rta (tailValue s.eng.pd)] else [])

/-! PROCESS. -/

/-- R119, R331, R333 (a), R137: whatever the other agents do, a PROCESS that finds no packet ends as a RECEIVE that
finds none, and one that finds a packet is RECEIVE, then the handler's one micro-step, then TRANSMIT with what the
handler answered. -/
def Obligations.ProcessIsReceiveHandleTransmit : Prop :=
  (∀ s t : State, accepts .process s → exec .receive s = .next t → t.answered 0 0 0 → exec .process s = .next t) ∧
  ∀ (s r h : State) (v w : W64) (len : W16) (sel : BitVec 4), accepts .process s → exec .receive s = .next r →
    r.answered 0 v w → v.getLsbD 63 = true → callHandler 3 (v.setWidth 16) w r = .ok (len, sel) h →
    (len.toNat ≤ s.cfg.bufSize → exec .process s = exec (.transmit len sel) h) ∧
    (s.cfg.bufSize < len.toNat → exec .process s = .refused .handlerBrokeContract)

/-- R303, R316, R331, R333: with a packet in slot `PD` and a handler that answers within its contract PROCESS ends with
`OK` after RECEIVE's read, the handler call and TRANSMIT's accesses with the answered length and selection; `PD`
advances by one, `FD` follows the flush, and no NIC changes that none of the tail addresses it writes names. That a
length wider than `LEN_BITS` below 16 is cut in word 1 is the model's choice (log 35). -/
def Obligations.ProcessForwardsPacket : Prop :=
  ∀ (s : State) (len : W16) (sel : BitVec 4) (writes : List (Nat × Byte)) (rest : List HandlerRun), Inv s →
    s.quiet → accepts .process s → s.word1.getLsbD s.cfg.desc.dd = true →
    s.handlerQ = .returns len sel writes :: rest → len.toNat ≤ s.cfg.bufSize → (∀ w ∈ writes, w.1 < s.cfg.bufSize) →
    let pd : W64 := BitVec.ofNat 64 ((s.eng.pd.toNat + 1) % s.cfg.ringSize)
    ∃ t, exec .process s = .next t ∧ t.answered 0 0 0 ∧
      madeBetween s t ([.memRead true (s.eng.wordAddr 0 s.eng.pd 1) 8 s.word1,
        .handler (BitVec.ofNat 16 s.length1)
          (s.eng.buf + BitVec.ofNat 64 (s.cfg.bufSize * s.eng.pd.toNat))] ++ transmitAccesses s len sel) ∧
      t.es = s.es ∧ t.eng = { s.eng with pd := pd, fd := if s.flushes then pd else s.eng.fd } ∧
      t.handlerQ = rest ∧ SameEnvironment s t ∧ SameHandles s t ∧ t.blocks = s.blocks ∧ t.grants = s.grants ∧
      SameNicsButTails s t s.flushes s.rsDue

/-- R332, R350: the handler is given the packet's length and address, may change the bytes of the one buffer and
nothing else, and its answer is taken as it is; a handler that never returns is stuck and one that writes outside
its buffer is refused (U7). -/
def Obligations.HandlerTouchesItsBuffer : Prop :=
  ∀ (s : State) (line : Nat) (len : W16) (addr : W64) (run : HandlerRun) (rest : List HandlerRun), s.quiet →
    s.handlerQ = run :: rest → s.memExists addr.toNat s.cfg.bufSize = true →
    (run = .never → ∃ t, callHandler line len addr s = .error (.fault .handlerNeverReturns) t) ∧
    ∀ len' sel writes, run = .returns len' sel writes →
      ((∃ w ∈ writes, s.cfg.bufSize ≤ w.1) → ∃ t, callHandler line len addr s = .error (.refuse .handlerBrokeContract) t) ∧
      ((∀ w ∈ writes, w.1 < s.cfg.bufSize) →
        ∃ t, callHandler line len addr s = .ok (len', sel) t ∧ t.handlerQ = rest ∧ SameEnvironment s t ∧
          SameEngine s t ∧ SameHandles s t ∧ SameNics s t ∧ t.blocks = s.blocks ∧
          madeBetween s t [.handler len addr] ∧
          ∀ a, (a < addr.toNat ∨ addr.toNat + s.cfg.bufSize ≤ a ∨ ∀ w ∈ writes, addr.toNat + w.1 ≠ a) →
            Memory.read t.mem a = Memory.read s.mem a)

/-! The other agents. -/

/-- R342, R343: a receive DMA step writes the packet at the physical address in word 0 of its slot, and word 1 with the
packet's length and Descriptor-Done, so that a RECEIVE of that slot reports it; word 0 and every other byte of memory
stay; the head advances by one; no engine register, handle, live block, other NIC or NIC register changes. That a tail
which is no slot number does not stop it is the model's choice (log 48). -/
def Obligations.DeliveredPacketIsReceived : Prop :=
  ∀ (s : State) (bdf : W16) (packet : List Byte) (other : W64) (va : Nat), Inv s → accepts .receive s →
    let n := s.nic bdf
    let q := s.cfg.rxQueue
    let slot := (n.pair s.cfg .rdbah .rdbal q).toNat + 16 * n.rxHead q
    let word0 := (s.eng.wordAddr 0 s.eng.pd 0).toNat
    let t := s.rxDeliver bdf q packet other
    n.field s.cfg .rxdctlEnable q ≠ 0 → n.field s.cfg .rxen 0 ≠ 0 →
    n.rxHead q ≠ (n.reg s.cfg (s.cfg.off .rdt q)).toNat →
    0 < packet.length → packet.length ≤ s.cfg.bufSize → packet.length < 2 ^ s.cfg.lenBits → s.quiet →
    (∀ k, k < 16 → s.physToVirt (slot + k) = some (word0 + k)) →
    (∀ k, k < packet.length → s.physToVirt (Memory.readLE s.mem word0 8 + k) = some (va + k)) →
    (va + packet.length ≤ word0 ∨ word0 + 16 ≤ va) →
    SameEngine s t ∧ SameHandles s t ∧ t.blocks = s.blocks ∧ SameNicsBut s t bdf ∧
    (SameRegistersBut s t bdf fun _ => False) ∧ (t.nic bdf).rxHead q = (n.rxHead q + 1) % s.cfg.ringSize ∧
    (∀ k b, packet[k]? = some b → Memory.read t.mem (va + k) = b) ∧
    (∀ a, (a < va ∨ va + packet.length ≤ a) → (a < word0 + 8 ∨ word0 + 16 ≤ a) →
      Memory.read t.mem a = Memory.read s.mem a) ∧
    ∃ u, exec .receive t = .next u ∧ u.answered 0 (0x8000000000000000 ||| BitVec.ofNat 64 packet.length)
      (s.eng.buf + BitVec.ofNat 64 (s.cfg.bufSize * s.eng.pd.toNat))

/-- R341, R342, R344: with a queue the NIC has not (log 36), the queue or the receiver disabled (the model's choice, log
28), no slot owned, or a packet that is empty or longer than a buffer (log 28), the packet is dropped and nothing
changes. -/
def Obligations.PacketIsDropped : Prop :=
  ∀ (s : State) (bdf : W16) (q : Nat) (packet : List Byte) (other : W64),
    let n := s.nic bdf
    (s.cfg.rxQueueCount ≤ q ∨ n.field s.cfg .rxdctlEnable q = 0 ∨ n.field s.cfg .rxen 0 = 0 ∨
      n.rxHead q = (n.reg s.cfg (s.cfg.off .rdt q)).toNat ∨ packet = [] ∨ s.cfg.bufSize < packet.length) →
    s.rxDeliver bdf q packet other = s

/-- R126, R341, R342, R345 to R348, R356: the moves of the other agents keep the engine, the handles, the live blocks and the
ports; a transmit DMA step writes no byte of memory, and a head write-back changes memory only inside the live
blocks' image of the four bytes of its slot, and only when a Report-Status descriptor was finished. The register side of
a NIC changes no memory and no other NIC; a register the block has written keeps all but the bits the block polls, a
transmit tail unless its queue comes to be enabled, and `PCI_COMMAND` once written is kept. Which bits are the NIC's
in RXDCTL, TXDCTL and RDRXCTL is log 11; what enabling a queue does is log 26; that a write-back past the end of the
physical address space does not wrap around is log 49. -/
def Obligations.AgentsKeepTheirBounds : Prop :=
  (∀ (act : AgentAct) (s : State), SameEngine s (act.apply s) ∧ SameHandles s (act.apply s) ∧
    (act.apply s).blocks = s.blocks ∧ (act.apply s).port = s.port ∧ (act.apply s).resp = s.resp ∧
    (act.apply s).pc = s.pc ∧ (act.apply s).trace = s.trace) ∧
  (∀ (s : State) (bdf : W16) (q : Nat), (s.txSend bdf q).mem = s.mem ∧ (s.txFetch bdf q).mem = s.mem ∧
    (((s.nic bdf).txQueue q).rsDone = false → s.txWriteBack bdf q = s)) ∧
  (∀ (s : State) (bdf : W16) (r : DevReg) (i : Nat) (v : W32), StandardConfig s.cfg →
    let t := (AgentAct.regSide bdf r i v).apply s
    t.mem = s.mem ∧ SameNicsBut s t bdf ∧ RegSideKeeps s.cfg (s.nic bdf) (t.nic bdf)) ∧
  (∀ (s : State) (bdf : W16) (r : PciReg) (v : W32), StandardConfig s.cfg →
    let t := (AgentAct.pciSide bdf r v).apply s
    t.mem = s.mem ∧ SameNicsBut s t bdf ∧ OnlyPciChanges s t bdf (s.cfg.pciOff r) ∧
    ((s.nic bdf).blockWrotePci (s.cfg.pciOff .command) →
      (t.nic bdf).pciRead (s.cfg.pciOff .command) = (s.nic bdf).pciRead (s.cfg.pciOff .command))) ∧
  ∀ (s : State) (bdf : W16) (q : Nat) (a : Nat),
    let n := s.nic bdf
    let pa := joinHalves (n.reg s.cfg (s.cfg.off .tdwbah q)) (n.reg s.cfg (s.cfg.off .tdwbal q) &&& ~~~(s.cfg.mask .headWbEn))
    (∀ k, k < 4 → s.physToVirt (pa.toNat + k) ≠ some a) →
    Memory.read (s.txWriteBack bdf q).mem a = Memory.read s.mem a

/-- R51, R123, R345, R346, R347, R126, R132: an enabled transmit DMA that owns more slots, from its head to the one
before the tail, than it has fetched may fetch the next one's descriptor, which changes nothing but what it has fetched;
beyond the tail, also one moved back, it fetches nothing. One that has fetched nothing sends the packet of
the descriptor at its head as one frame of its length, or nothing for length 0, and its head advances by one; a
descriptor fetched ahead is sent as it was fetched. A disabled one, and one whose head is the tail, does nothing. Once a
Report-Status descriptor was finished the write-back stores the current head, 32 bits, in the head slot, and no other
byte. The model's choice: which queues a NIC has (log 36), that a descriptor is fetched and sent whole in one move (log
27), what a tail that is no slot number does (log 48), and that the write-back needs neither enable and
ignores `TX_DESC_WB_RO_EN` (log 42). -/
def Obligations.TransmitDmaSendsAndWritesBack : Prop :=
  ∀ (s : State) (bdf : W16) (q : Nat), Inv s →
    let c := s.cfg
    let n := s.nic bdf
    let T := n.txQueue q
    let tail := (n.reg c (c.off .tdt q)).toNat
    let on := q < c.txQueueCount ∧ n.field c .txdctlEnable q ≠ 0 ∧ n.field c .te 0 ≠ 0
    let owned := (tail + c.ringSize - T.head) % c.ringSize
    let next := (T.head + T.fetched.length) % c.ringSize
    let slotHolds := fun (i : Nat) (w0 w1 : W64) => ∃ da, (∀ k, k < 16 →
        s.physToVirt ((n.pair c .tdbah .tdbal q).toNat + 16 * i + k) = some (da + k)) ∧
      Memory.readLE s.mem da 8 = w0.toNat ∧ Memory.readLE s.mem (da + 8) 8 = w1.toNat
    let frame := fun (w1 : W64) (bytes : List Byte) =>
      if w1.toNat / 2 ^ c.desc.lenLo % 2 ^ c.lenBits = 0 then []
      else [Frame.mk q bytes (w1.getLsbD c.desc.eop) (w1.getLsbD c.desc.ifcs)]
    ((¬ on ∨ owned ≤ T.fetched.length) → s.txFetch bdf q = s) ∧
    (on → T.fetched.length < owned → ∀ w0 w1 : W64, slotHolds next w0 w1 →
      let t := s.txFetch bdf q
      (t.nic bdf).txQueue q = { T with fetched := T.fetched ++ [(w0, w1)] } ∧
      (∀ q', q' ≠ q → (t.nic bdf).txQueue q' = n.txQueue q') ∧ (t.nic bdf).sent = n.sent ∧
      (SameRegistersBut s t bdf fun _ => False) ∧ SameNicsBut s t bdf ∧ t.mem = s.mem) ∧
    ((¬ on ∨ T.head = tail) → s.txSend bdf q = s) ∧
    (on → T.head ≠ tail →
      ∀ (w0 w1 : W64) (rest : List (W64 × W64)) (buffer : Nat),
        ((T.fetched = [] ∧ rest = [] ∧ slotHolds T.head w0 w1) ∨ T.fetched = (w0, w1) :: rest) →
        let len := w1.toNat / 2 ^ c.desc.lenLo % 2 ^ c.lenBits
        (∀ k, k < len → s.physToVirt (w0.toNat + k) = some (buffer + k)) →
        let t := s.txSend bdf q
        (t.nic bdf).sent = n.sent ++ frame w1 ((List.range len).map fun k => Memory.read s.mem (buffer + k)) ∧
        (t.nic bdf).txQueue q = ⟨(T.head + 1) % c.ringSize, rest, T.rsDone || w1.getLsbD c.desc.rs⟩ ∧
        (∀ q', q' ≠ q → (t.nic bdf).txQueue q' = n.txQueue q') ∧
        (SameRegistersBut s t bdf fun _ => False) ∧ SameNicsBut s t bdf ∧ t.mem = s.mem) ∧
    (q < c.txQueueCount → n.field c .headWbEn q ≠ 0 → T.rsDone = true →
      ∀ a, (∀ k, k < 4 → s.physToVirt
          ((joinHalves (n.reg c (c.off .tdwbah q)) (n.reg c (c.off .tdwbal q) &&& ~~~(c.mask .headWbEn))).toNat + k) =
            some (a + k)) →
        let t := s.txWriteBack bdf q
        Memory.readLE t.mem a 4 = T.head ∧ (t.nic bdf).txQueue q = { T with rsDone := false } ∧
        ∀ x, (x < a ∨ a + 4 ≤ x) → Memory.read t.mem x = Memory.read s.mem x)
end

