-- ==== Sys2Proof/Laws/State.lean ====
section
/-! SUPPORT. The fields of a state after each named update, one lemma for each field. -/

namespace Sys2Proof.Machine

variable (s : State)

/-! `State.setHandle`. -/

@[simp] theorem State.setHandle_cfg (dev : BitVec 8) (h : Handle) : (s.setHandle dev h).cfg = s.cfg := rfl
@[simp] theorem State.setHandle_es (dev : BitVec 8) (h : Handle) : (s.setHandle dev h).es = s.es := rfl
@[simp] theorem State.setHandle_eng (dev : BitVec 8) (h : Handle) : (s.setHandle dev h).eng = s.eng := rfl
@[simp] theorem State.setHandle_pc (dev : BitVec 8) (h : Handle) : (s.setHandle dev h).pc = s.pc := rfl
@[simp] theorem State.setHandle_handles (dev : BitVec 8) (h : Handle) :
    (s.setHandle dev h).handles = Store.put s.handles dev.toNat h := rfl
@[simp] theorem State.setHandle_mem (dev : BitVec 8) (h : Handle) : (s.setHandle dev h).mem = s.mem := rfl
@[simp] theorem State.setHandle_blocks (dev : BitVec 8) (h : Handle) :
    (s.setHandle dev h).blocks = s.blocks := rfl
@[simp] theorem State.setHandle_nics (dev : BitVec 8) (h : Handle) : (s.setHandle dev h).nics = s.nics := rfl
@[simp] theorem State.setHandle_port (dev : BitVec 8) (h : Handle) : (s.setHandle dev h).port = s.port := rfl
@[simp] theorem State.setHandle_resp (dev : BitVec 8) (h : Handle) : (s.setHandle dev h).resp = s.resp := rfl
@[simp] theorem State.setHandle_now (dev : BitVec 8) (h : Handle) : (s.setHandle dev h).now = s.now := rfl
@[simp] theorem State.setHandle_micros (dev : BitVec 8) (h : Handle) :
    (s.setHandle dev h).micros = s.micros := rfl
@[simp] theorem State.setHandle_trace (dev : BitVec 8) (h : Handle) :
    (s.setHandle dev h).trace = s.trace := rfl
@[simp] theorem State.setHandle_agenda (dev : BitVec 8) (h : Handle) :
    (s.setHandle dev h).agenda = s.agenda := rfl
@[simp] theorem State.setHandle_grants (dev : BitVec 8) (h : Handle) :
    (s.setHandle dev h).grants = s.grants := rfl
@[simp] theorem State.setHandle_maps (dev : BitVec 8) (h : Handle) : (s.setHandle dev h).maps = s.maps := rfl
@[simp] theorem State.setHandle_handlerQ (dev : BitVec 8) (h : Handle) :
    (s.setHandle dev h).handlerQ = s.handlerQ := rfl

/-! `State.setNic`. -/

@[simp] theorem State.setNic_cfg (bdf : W16) (n : Nic) : (s.setNic bdf n).cfg = s.cfg := rfl
@[simp] theorem State.setNic_es (bdf : W16) (n : Nic) : (s.setNic bdf n).es = s.es := rfl
@[simp] theorem State.setNic_eng (bdf : W16) (n : Nic) : (s.setNic bdf n).eng = s.eng := rfl
@[simp] theorem State.setNic_pc (bdf : W16) (n : Nic) : (s.setNic bdf n).pc = s.pc := rfl
@[simp] theorem State.setNic_handles (bdf : W16) (n : Nic) : (s.setNic bdf n).handles = s.handles := rfl
@[simp] theorem State.setNic_mem (bdf : W16) (n : Nic) : (s.setNic bdf n).mem = s.mem := rfl
@[simp] theorem State.setNic_blocks (bdf : W16) (n : Nic) : (s.setNic bdf n).blocks = s.blocks := rfl
@[simp] theorem State.setNic_nics (bdf : W16) (n : Nic) :
    (s.setNic bdf n).nics = Store.put s.nics bdf.toNat n := rfl
@[simp] theorem State.setNic_port (bdf : W16) (n : Nic) : (s.setNic bdf n).port = s.port := rfl
@[simp] theorem State.setNic_resp (bdf : W16) (n : Nic) : (s.setNic bdf n).resp = s.resp := rfl
@[simp] theorem State.setNic_now (bdf : W16) (n : Nic) : (s.setNic bdf n).now = s.now := rfl
@[simp] theorem State.setNic_micros (bdf : W16) (n : Nic) : (s.setNic bdf n).micros = s.micros := rfl
@[simp] theorem State.setNic_trace (bdf : W16) (n : Nic) : (s.setNic bdf n).trace = s.trace := rfl
@[simp] theorem State.setNic_agenda (bdf : W16) (n : Nic) : (s.setNic bdf n).agenda = s.agenda := rfl
@[simp] theorem State.setNic_grants (bdf : W16) (n : Nic) : (s.setNic bdf n).grants = s.grants := rfl
@[simp] theorem State.setNic_maps (bdf : W16) (n : Nic) : (s.setNic bdf n).maps = s.maps := rfl
@[simp] theorem State.setNic_handlerQ (bdf : W16) (n : Nic) : (s.setNic bdf n).handlerQ = s.handlerQ := rfl

/-! `State.postWrite`. -/

@[simp] theorem State.postWrite_cfg (bdf : W16) (off : Nat) (v : W32) :
    (s.postWrite bdf off v).cfg = s.cfg := rfl
@[simp] theorem State.postWrite_es (bdf : W16) (off : Nat) (v : W32) :
    (s.postWrite bdf off v).es = s.es := rfl
@[simp] theorem State.postWrite_eng (bdf : W16) (off : Nat) (v : W32) :
    (s.postWrite bdf off v).eng = s.eng := rfl
@[simp] theorem State.postWrite_pc (bdf : W16) (off : Nat) (v : W32) :
    (s.postWrite bdf off v).pc = s.pc := rfl
@[simp] theorem State.postWrite_handles (bdf : W16) (off : Nat) (v : W32) :
    (s.postWrite bdf off v).handles = s.handles := rfl
@[simp] theorem State.postWrite_mem (bdf : W16) (off : Nat) (v : W32) :
    (s.postWrite bdf off v).mem = s.mem := rfl
@[simp] theorem State.postWrite_blocks (bdf : W16) (off : Nat) (v : W32) :
    (s.postWrite bdf off v).blocks = s.blocks := rfl
@[simp] theorem State.postWrite_port (bdf : W16) (off : Nat) (v : W32) :
    (s.postWrite bdf off v).port = s.port := rfl
@[simp] theorem State.postWrite_resp (bdf : W16) (off : Nat) (v : W32) :
    (s.postWrite bdf off v).resp = s.resp := rfl
@[simp] theorem State.postWrite_now (bdf : W16) (off : Nat) (v : W32) :
    (s.postWrite bdf off v).now = s.now := rfl
@[simp] theorem State.postWrite_micros (bdf : W16) (off : Nat) (v : W32) :
    (s.postWrite bdf off v).micros = s.micros := rfl
@[simp] theorem State.postWrite_trace (bdf : W16) (off : Nat) (v : W32) :
    (s.postWrite bdf off v).trace = s.trace := rfl
@[simp] theorem State.postWrite_agenda (bdf : W16) (off : Nat) (v : W32) :
    (s.postWrite bdf off v).agenda = s.agenda := rfl
@[simp] theorem State.postWrite_grants (bdf : W16) (off : Nat) (v : W32) :
    (s.postWrite bdf off v).grants = s.grants := rfl
@[simp] theorem State.postWrite_maps (bdf : W16) (off : Nat) (v : W32) :
    (s.postWrite bdf off v).maps = s.maps := rfl
@[simp] theorem State.postWrite_handlerQ (bdf : W16) (off : Nat) (v : W32) :
    (s.postWrite bdf off v).handlerQ = s.handlerQ := rfl
@[simp] theorem State.postWrite_nics (bdf : W16) (off : Nat) (v : W32) :
    (s.postWrite bdf off v).nics =
      Store.put s.nics bdf.toNat ((s.nic bdf).post s.cfg ⟨s.micros, s.now, off, v⟩) := rfl

/-! `State.drainNic`. -/

@[simp] theorem State.drainNic_cfg (bdf : W16) : (s.drainNic bdf).cfg = s.cfg := by
  simp only [State.drainNic]; split <;> rfl
@[simp] theorem State.drainNic_es (bdf : W16) : (s.drainNic bdf).es = s.es := by
  simp only [State.drainNic]; split <;> rfl
@[simp] theorem State.drainNic_eng (bdf : W16) : (s.drainNic bdf).eng = s.eng := by
  simp only [State.drainNic]; split <;> rfl
@[simp] theorem State.drainNic_pc (bdf : W16) : (s.drainNic bdf).pc = s.pc := by
  simp only [State.drainNic]; split <;> rfl
@[simp] theorem State.drainNic_handles (bdf : W16) : (s.drainNic bdf).handles = s.handles := by
  simp only [State.drainNic]; split <;> rfl
@[simp] theorem State.drainNic_mem (bdf : W16) : (s.drainNic bdf).mem = s.mem := by
  simp only [State.drainNic]; split <;> rfl
@[simp] theorem State.drainNic_blocks (bdf : W16) : (s.drainNic bdf).blocks = s.blocks := by
  simp only [State.drainNic]; split <;> rfl
@[simp] theorem State.drainNic_port (bdf : W16) : (s.drainNic bdf).port = s.port := by
  simp only [State.drainNic]; split <;> rfl
@[simp] theorem State.drainNic_resp (bdf : W16) : (s.drainNic bdf).resp = s.resp := by
  simp only [State.drainNic]; split <;> rfl
@[simp] theorem State.drainNic_now (bdf : W16) : (s.drainNic bdf).now = s.now := by
  simp only [State.drainNic]; split <;> rfl
@[simp] theorem State.drainNic_micros (bdf : W16) : (s.drainNic bdf).micros = s.micros := by
  simp only [State.drainNic]; split <;> rfl
@[simp] theorem State.drainNic_trace (bdf : W16) : (s.drainNic bdf).trace = s.trace := by
  simp only [State.drainNic]; split <;> rfl
@[simp] theorem State.drainNic_agenda (bdf : W16) : (s.drainNic bdf).agenda = s.agenda := by
  simp only [State.drainNic]; split <;> rfl
@[simp] theorem State.drainNic_grants (bdf : W16) : (s.drainNic bdf).grants = s.grants := by
  simp only [State.drainNic]; split <;> rfl
@[simp] theorem State.drainNic_maps (bdf : W16) : (s.drainNic bdf).maps = s.maps := by
  simp only [State.drainNic]; split <;> rfl
@[simp] theorem State.drainNic_handlerQ (bdf : W16) : (s.drainNic bdf).handlerQ = s.handlerQ := by
  simp only [State.drainNic]; split <;> rfl

/-! `State.log`. -/

@[simp] theorem State.log_cfg (a : Access) : (s.log a).cfg = s.cfg := rfl
@[simp] theorem State.log_es (a : Access) : (s.log a).es = s.es := rfl
@[simp] theorem State.log_eng (a : Access) : (s.log a).eng = s.eng := rfl
@[simp] theorem State.log_pc (a : Access) : (s.log a).pc = s.pc := rfl
@[simp] theorem State.log_handles (a : Access) : (s.log a).handles = s.handles := rfl
@[simp] theorem State.log_mem (a : Access) : (s.log a).mem = s.mem := rfl
@[simp] theorem State.log_blocks (a : Access) : (s.log a).blocks = s.blocks := rfl
@[simp] theorem State.log_nics (a : Access) : (s.log a).nics = s.nics := rfl
@[simp] theorem State.log_port (a : Access) : (s.log a).port = s.port := rfl
@[simp] theorem State.log_resp (a : Access) : (s.log a).resp = s.resp := rfl
@[simp] theorem State.log_now (a : Access) : (s.log a).now = s.now := rfl
@[simp] theorem State.log_micros (a : Access) : (s.log a).micros = s.micros := rfl
@[simp] theorem State.log_trace (a : Access) : (s.log a).trace = a :: s.trace := rfl
@[simp] theorem State.log_agenda (a : Access) : (s.log a).agenda = s.agenda := rfl
@[simp] theorem State.log_grants (a : Access) : (s.log a).grants = s.grants := rfl
@[simp] theorem State.log_maps (a : Access) : (s.log a).maps = s.maps := rfl
@[simp] theorem State.log_handlerQ (a : Access) : (s.log a).handlerQ = s.handlerQ := rfl

/-! `State.respond`. -/

@[simp] theorem State.respond_cfg (res : BitVec 8) (v w : W64) : (s.respond res v w).cfg = s.cfg := rfl
@[simp] theorem State.respond_es (res : BitVec 8) (v w : W64) : (s.respond res v w).es = s.es := rfl
@[simp] theorem State.respond_eng (res : BitVec 8) (v w : W64) : (s.respond res v w).eng = s.eng := rfl
@[simp] theorem State.respond_pc (res : BitVec 8) (v w : W64) : (s.respond res v w).pc = Sequencer.idle := rfl
@[simp] theorem State.respond_handles (res : BitVec 8) (v w : W64) :
    (s.respond res v w).handles = s.handles := rfl
@[simp] theorem State.respond_mem (res : BitVec 8) (v w : W64) : (s.respond res v w).mem = s.mem := rfl
@[simp] theorem State.respond_blocks (res : BitVec 8) (v w : W64) :
    (s.respond res v w).blocks = s.blocks := rfl
@[simp] theorem State.respond_nics (res : BitVec 8) (v w : W64) : (s.respond res v w).nics = s.nics := rfl
@[simp] theorem State.respond_port (res : BitVec 8) (v w : W64) : (s.respond res v w).port = s.port := rfl
@[simp] theorem State.respond_resp (res : BitVec 8) (v w : W64) :
    (s.respond res v w).resp = some ⟨res, v, w⟩ := rfl
@[simp] theorem State.respond_now (res : BitVec 8) (v w : W64) : (s.respond res v w).now = s.now := rfl
@[simp] theorem State.respond_micros (res : BitVec 8) (v w : W64) :
    (s.respond res v w).micros = s.micros := rfl
@[simp] theorem State.respond_trace (res : BitVec 8) (v w : W64) : (s.respond res v w).trace = s.trace := rfl
@[simp] theorem State.respond_agenda (res : BitVec 8) (v w : W64) :
    (s.respond res v w).agenda = s.agenda := rfl
@[simp] theorem State.respond_grants (res : BitVec 8) (v w : W64) :
    (s.respond res v w).grants = s.grants := rfl
@[simp] theorem State.respond_maps (res : BitVec 8) (v w : W64) : (s.respond res v w).maps = s.maps := rfl
@[simp] theorem State.respond_handlerQ (res : BitVec 8) (v w : W64) :
    (s.respond res v w).handlerQ = s.handlerQ := rfl

/-! `State.takeFailure`. -/

@[simp] theorem State.takeFailure_cfg (f : Failure) : (s.takeFailure f).cfg = s.cfg := rfl
@[simp] theorem State.takeFailure_es (f : Failure) : (s.takeFailure f).es = s.es := rfl
@[simp] theorem State.takeFailure_eng (f : Failure) : (s.takeFailure f).eng = s.eng := rfl
@[simp] theorem State.takeFailure_pc (f : Failure) : (s.takeFailure f).pc = Sequencer.idle := rfl
@[simp] theorem State.takeFailure_handles (f : Failure) : (s.takeFailure f).handles = s.handles := rfl
@[simp] theorem State.takeFailure_mem (f : Failure) : (s.takeFailure f).mem = s.mem := rfl
@[simp] theorem State.takeFailure_blocks (f : Failure) : (s.takeFailure f).blocks = s.blocks := rfl
@[simp] theorem State.takeFailure_nics (f : Failure) : (s.takeFailure f).nics = s.nics := rfl
@[simp] theorem State.takeFailure_port (f : Failure) : (s.takeFailure f).port = s.port := rfl
@[simp] theorem State.takeFailure_resp (f : Failure) : (s.takeFailure f).resp = some ⟨f.res, 0, 0⟩ := rfl
@[simp] theorem State.takeFailure_now (f : Failure) : (s.takeFailure f).now = s.now := rfl
@[simp] theorem State.takeFailure_micros (f : Failure) : (s.takeFailure f).micros = s.micros := rfl
@[simp] theorem State.takeFailure_trace (f : Failure) : (s.takeFailure f).trace = s.trace := rfl
@[simp] theorem State.takeFailure_agenda (f : Failure) : (s.takeFailure f).agenda = s.agenda := rfl
@[simp] theorem State.takeFailure_grants (f : Failure) : (s.takeFailure f).grants = s.grants := rfl
@[simp] theorem State.takeFailure_maps (f : Failure) : (s.takeFailure f).maps = s.maps := rfl
@[simp] theorem State.takeFailure_handlerQ (f : Failure) : (s.takeFailure f).handlerQ = s.handlerQ := rfl

/-! `State.addBlock`. -/

@[simp] theorem State.addBlock_cfg (g : Grant) (n : Nat) : (s.addBlock g n).cfg = s.cfg := rfl
@[simp] theorem State.addBlock_es (g : Grant) (n : Nat) : (s.addBlock g n).es = s.es := rfl
@[simp] theorem State.addBlock_eng (g : Grant) (n : Nat) : (s.addBlock g n).eng = s.eng := rfl
@[simp] theorem State.addBlock_pc (g : Grant) (n : Nat) : (s.addBlock g n).pc = s.pc := rfl
@[simp] theorem State.addBlock_handles (g : Grant) (n : Nat) : (s.addBlock g n).handles = s.handles := rfl
@[simp] theorem State.addBlock_mem (g : Grant) (n : Nat) :
    (s.addBlock g n).mem = Memory.clear s.mem g.base.toNat n := rfl
@[simp] theorem State.addBlock_blocks (g : Grant) (n : Nat) :
    (s.addBlock g n).blocks = ⟨g.base, n, g.phys, g.gaps⟩ :: s.blocks := rfl
@[simp] theorem State.addBlock_nics (g : Grant) (n : Nat) : (s.addBlock g n).nics = s.nics := rfl
@[simp] theorem State.addBlock_port (g : Grant) (n : Nat) : (s.addBlock g n).port = s.port := rfl
@[simp] theorem State.addBlock_resp (g : Grant) (n : Nat) : (s.addBlock g n).resp = s.resp := rfl
@[simp] theorem State.addBlock_now (g : Grant) (n : Nat) : (s.addBlock g n).now = s.now := rfl
@[simp] theorem State.addBlock_micros (g : Grant) (n : Nat) : (s.addBlock g n).micros = s.micros := rfl
@[simp] theorem State.addBlock_trace (g : Grant) (n : Nat) : (s.addBlock g n).trace = s.trace := rfl
@[simp] theorem State.addBlock_agenda (g : Grant) (n : Nat) : (s.addBlock g n).agenda = s.agenda := rfl
@[simp] theorem State.addBlock_grants (g : Grant) (n : Nat) : (s.addBlock g n).grants = s.grants := rfl
@[simp] theorem State.addBlock_maps (g : Grant) (n : Nat) : (s.addBlock g n).maps = s.maps := rfl
@[simp] theorem State.addBlock_handlerQ (g : Grant) (n : Nat) : (s.addBlock g n).handlerQ = s.handlerQ := rfl

/-! `State.elapse`. -/

@[simp] theorem State.elapse_cfg (d : Nat) : (s.elapse d).cfg = s.cfg := rfl
@[simp] theorem State.elapse_es (d : Nat) : (s.elapse d).es = s.es := rfl
@[simp] theorem State.elapse_eng (d : Nat) : (s.elapse d).eng = s.eng := rfl
@[simp] theorem State.elapse_pc (d : Nat) : (s.elapse d).pc = s.pc := rfl
@[simp] theorem State.elapse_handles (d : Nat) : (s.elapse d).handles = s.handles := rfl
@[simp] theorem State.elapse_mem (d : Nat) : (s.elapse d).mem = s.mem := rfl
@[simp] theorem State.elapse_blocks (d : Nat) : (s.elapse d).blocks = s.blocks := rfl
@[simp] theorem State.elapse_nics (d : Nat) : (s.elapse d).nics = s.nics := rfl
@[simp] theorem State.elapse_port (d : Nat) : (s.elapse d).port = s.port := rfl
@[simp] theorem State.elapse_resp (d : Nat) : (s.elapse d).resp = s.resp := rfl
@[simp] theorem State.elapse_now (d : Nat) : (s.elapse d).now = s.now + d := rfl
@[simp] theorem State.elapse_micros (d : Nat) : (s.elapse d).micros = s.micros := rfl
@[simp] theorem State.elapse_trace (d : Nat) : (s.elapse d).trace = s.trace := rfl
@[simp] theorem State.elapse_agenda (d : Nat) : (s.elapse d).agenda = s.agenda := rfl
@[simp] theorem State.elapse_grants (d : Nat) : (s.elapse d).grants = s.grants := rfl
@[simp] theorem State.elapse_maps (d : Nat) : (s.elapse d).maps = s.maps := rfl
@[simp] theorem State.elapse_handlerQ (d : Nat) : (s.elapse d).handlerQ = s.handlerQ := rfl

/-! `State.takeCommand`. -/

@[simp] theorem State.takeCommand_cfg : (s.takeCommand).cfg = s.cfg := rfl
@[simp] theorem State.takeCommand_es : (s.takeCommand).es = s.es := rfl
@[simp] theorem State.takeCommand_eng : (s.takeCommand).eng = s.eng := rfl
@[simp] theorem State.takeCommand_pc : (s.takeCommand).pc = s.pc := rfl
@[simp] theorem State.takeCommand_handles : (s.takeCommand).handles = s.handles := rfl
@[simp] theorem State.takeCommand_mem : (s.takeCommand).mem = s.mem := rfl
@[simp] theorem State.takeCommand_blocks : (s.takeCommand).blocks = s.blocks := rfl
@[simp] theorem State.takeCommand_nics : (s.takeCommand).nics = s.nics := rfl
@[simp] theorem State.takeCommand_port : (s.takeCommand).port = s.port.tail := rfl
@[simp] theorem State.takeCommand_resp : (s.takeCommand).resp = s.resp := rfl
@[simp] theorem State.takeCommand_now : (s.takeCommand).now = s.now := rfl
@[simp] theorem State.takeCommand_micros : (s.takeCommand).micros = s.micros := rfl
@[simp] theorem State.takeCommand_trace : (s.takeCommand).trace = s.trace := rfl
@[simp] theorem State.takeCommand_agenda : (s.takeCommand).agenda = s.agenda := rfl
@[simp] theorem State.takeCommand_grants : (s.takeCommand).grants = s.grants := rfl
@[simp] theorem State.takeCommand_maps : (s.takeCommand).maps = s.maps := rfl
@[simp] theorem State.takeCommand_handlerQ : (s.takeCommand).handlerQ = s.handlerQ := rfl

/-! `State.present`. -/

@[simp] theorem State.present_cfg (w : Command) : (s.present w).cfg = s.cfg := rfl
@[simp] theorem State.present_es (w : Command) : (s.present w).es = s.es := rfl
@[simp] theorem State.present_eng (w : Command) : (s.present w).eng = s.eng := rfl
@[simp] theorem State.present_pc (w : Command) : (s.present w).pc = s.pc := rfl
@[simp] theorem State.present_handles (w : Command) : (s.present w).handles = s.handles := rfl
@[simp] theorem State.present_mem (w : Command) : (s.present w).mem = s.mem := rfl
@[simp] theorem State.present_blocks (w : Command) : (s.present w).blocks = s.blocks := rfl
@[simp] theorem State.present_nics (w : Command) : (s.present w).nics = s.nics := rfl
@[simp] theorem State.present_port (w : Command) : (s.present w).port = w :: s.port := rfl
@[simp] theorem State.present_resp (w : Command) : (s.present w).resp = s.resp := rfl
@[simp] theorem State.present_now (w : Command) : (s.present w).now = s.now := rfl
@[simp] theorem State.present_micros (w : Command) : (s.present w).micros = s.micros := rfl
@[simp] theorem State.present_trace (w : Command) : (s.present w).trace = s.trace := rfl
@[simp] theorem State.present_agenda (w : Command) : (s.present w).agenda = s.agenda := rfl
@[simp] theorem State.present_grants (w : Command) : (s.present w).grants = s.grants := rfl
@[simp] theorem State.present_maps (w : Command) : (s.present w).maps = s.maps := rfl
@[simp] theorem State.present_handlerQ (w : Command) : (s.present w).handlerQ = s.handlerQ := rfl

end Sys2Proof.Machine
end

