-- ==== Sys2Proof/Laws/Store.lean ====
section
/-! SUPPORT. Laws of stores and of memory: what is read after a write, and that every memory operation keeps the
canonical form. -/

namespace Sys2Proof.Machine

variable {β : Type}

/-! Stores. -/

@[simp] theorem Store.get?_nil (k : Nat) : Store.get? ([] : List (Nat × β)) k = none := rfl

@[simp] theorem Store.get?_put_self (l : List (Nat × β)) (k : Nat) (v : β) :
    Store.get? (Store.put l k v) k = some v := by
  induction l with
  | nil => simp [Store.put, Store.get?]
  | cons c rest ih =>
    obtain ⟨k', v'⟩ := c
    by_cases h1 : k < k'
    · simp [Store.put, Store.get?, h1]
    · by_cases h2 : k' = k
      · simp [Store.put, Store.get?, h2]
      · simp [Store.put, Store.get?, h1, h2, ih]

theorem Store.get?_put_ne (l : List (Nat × β)) {k j : Nat} (v : β) (h : j ≠ k) :
    Store.get? (Store.put l k v) j = Store.get? l j := by
  induction l with
  | nil => simp [Store.put, Store.get?, Ne.symm h]
  | cons c rest ih =>
    obtain ⟨k', v'⟩ := c
    by_cases h1 : k < k'
    · simp [Store.put, Store.get?, h1, Ne.symm h]
    · by_cases h2 : k' = k
      · subst h2
        simp [Store.put, Store.get?, Ne.symm h]
      · simp [Store.put, Store.get?, h1, h2, ih]

theorem Store.get?_put (l : List (Nat × β)) (k j : Nat) (v : β) :
    Store.get? (Store.put l k v) j = if j = k then some v else Store.get? l j := by
  by_cases h : j = k
  · simp [h]
  · simp [h, Store.get?_put_ne l v h]

theorem Store.get?_erase_ne (l : List (Nat × β)) {k j : Nat} (h : j ≠ k) :
    Store.get? (Store.erase l k) j = Store.get? l j := by
  induction l with
  | nil => rfl
  | cons c rest ih =>
    obtain ⟨k', v'⟩ := c
    by_cases h1 : k' = k
    · subst h1
      simp [Store.erase, Store.get?, Ne.symm h]
    · simp [Store.erase, Store.get?, h1, ih]

theorem Store.mem_of_get? {l : List (Nat × β)} {k : Nat} {v : β} (h : Store.get? l k = some v) : (k, v) ∈ l := by
  induction l with
  | nil => simp at h
  | cons c rest ih =>
    obtain ⟨k', v'⟩ := c
    by_cases h1 : k' = k
    · simp_all [Store.get?]
    · simp only [Store.get?, h1, if_false] at h
      exact List.mem_cons_of_mem _ (ih h)

theorem Store.get?_eq_none_of_lt {l : List (Nat × β)} {k : Nat} (h : ∀ c ∈ l, k < c.1) : Store.get? l k = none := by
  induction l with
  | nil => rfl
  | cons c rest ih =>
    obtain ⟨k', v'⟩ := c
    have h1 : k < k' := h (k', v') (by simp)
    simp [Store.get?, Nat.ne_of_gt h1, ih fun c hc => h c (List.mem_cons_of_mem _ hc)]

theorem Store.mem_put {l : List (Nat × β)} {k : Nat} {v : β} {c : Nat × β} (h : c ∈ Store.put l k v) :
    c = (k, v) ∨ c ∈ l := by
  induction l with
  | nil => simpa [Store.put] using h
  | cons d rest ih =>
    obtain ⟨k', v'⟩ := d
    simp only [Store.put] at h
    split at h
    · simpa using h
    · split at h
      · rcases List.mem_cons.1 h with h | h
        · exact .inl h
        · exact .inr (List.mem_cons_of_mem _ h)
      · rcases List.mem_cons.1 h with h | h
        · exact .inr (by simp [h])
        · exact (ih h).imp id (List.mem_cons_of_mem _)

theorem Store.mem_erase {l : List (Nat × β)} {k : Nat} {c : Nat × β} (h : c ∈ Store.erase l k) : c ∈ l := by
  induction l with
  | nil => simp [Store.erase] at h
  | cons d rest ih =>
    obtain ⟨k', v'⟩ := d
    simp only [Store.erase] at h
    split at h
    · exact List.mem_cons_of_mem _ h
    · rcases List.mem_cons.1 h with h | h
      · simp [h]
      · exact List.mem_cons_of_mem _ (ih h)

theorem Store.mem_put_of_ne {l : List (Nat × β)} {k : Nat} (v : β) {c : Nat × β} (h : c ∈ l) (hk : c.1 ≠ k) :
    c ∈ Store.put l k v := by
  induction l with
  | nil => simp at h
  | cons d rest ih =>
    obtain ⟨k', v'⟩ := d
    simp only [Store.put]
    split
    · exact List.mem_cons_of_mem _ h
    · split
      · rcases List.mem_cons.1 h with h | h
        · exact absurd (by simp_all) hk
        · exact List.mem_cons_of_mem _ h
      · rcases List.mem_cons.1 h with h | h
        · simp [h]
        · exact List.mem_cons_of_mem _ (ih h)

theorem Store.mem_put_self (l : List (Nat × β)) (k : Nat) (v : β) : (k, v) ∈ Store.put l k v :=
  Store.mem_of_get? (Store.get?_put_self l k v)

theorem Store.sorted_cons {k : Nat} {v : β} {l : List (Nat × β)} :
    Store.sorted ((k, v) :: l) = true ↔ (∀ c ∈ l, k < c.1) ∧ Store.sorted l = true := by
  simp [Store.sorted]

theorem Store.sorted_put {l : List (Nat × β)} (k : Nat) (v : β) (h : Store.sorted l = true) :
    Store.sorted (Store.put l k v) = true := by
  induction l with
  | nil => simp [Store.put, Store.sorted]
  | cons d rest ih =>
    obtain ⟨k', v'⟩ := d
    obtain ⟨h1, h2⟩ := Store.sorted_cons.1 h
    simp only [Store.put]
    split
    · rename_i hlt
      refine Store.sorted_cons.2 ⟨fun c hc => ?_, h⟩
      rcases List.mem_cons.1 hc with hc | hc
      · simpa [hc] using hlt
      · exact Nat.lt_trans hlt (h1 c hc)
    · split
      · rename_i heq
        subst heq
        exact Store.sorted_cons.2 ⟨h1, h2⟩
      · refine Store.sorted_cons.2 ⟨fun c hc => ?_, ih h2⟩
        rcases Store.mem_put hc with hc | hc
        · subst hc
          simp only
          omega
        · exact h1 c hc

theorem Store.sorted_erase {l : List (Nat × β)} (k : Nat) (h : Store.sorted l = true) :
    Store.sorted (Store.erase l k) = true := by
  induction l with
  | nil => rfl
  | cons d rest ih =>
    obtain ⟨k', v'⟩ := d
    obtain ⟨h1, h2⟩ := Store.sorted_cons.1 h
    simp only [Store.erase]
    split
    · exact h2
    · exact Store.sorted_cons.2 ⟨fun c hc => h1 c (Store.mem_erase hc), ih h2⟩

theorem Store.sorted_filter {l : List (Nat × β)} (p : Nat × β → Bool) (h : Store.sorted l = true) :
    Store.sorted (l.filter p) = true := by
  induction l with
  | nil => rfl
  | cons d rest ih =>
    obtain ⟨k', v'⟩ := d
    obtain ⟨h1, h2⟩ := Store.sorted_cons.1 h
    simp only [List.filter_cons]
    split
    · exact Store.sorted_cons.2 ⟨fun c hc => h1 c (List.mem_of_mem_filter hc), ih h2⟩
    · exact ih h2

theorem Store.get?_erase_self {l : List (Nat × β)} {k : Nat} (h : Store.sorted l = true) :
    Store.get? (Store.erase l k) k = none := by
  induction l with
  | nil => rfl
  | cons d rest ih =>
    obtain ⟨k', v'⟩ := d
    obtain ⟨h1, h2⟩ := Store.sorted_cons.1 h
    simp only [Store.erase]
    split
    · rename_i heq
      subst heq
      exact Store.get?_eq_none_of_lt h1
    · rename_i hne
      simp [Store.get?, hne, ih h2]

/-! Memory. -/

theorem Memory.wf_iff (m : List Host.Cell) :
    Memory.wf m = true ↔ Store.sorted m = true ∧ ∀ c ∈ m, c.2 ≠ Memory.unlisted := by
  simp [Memory.wf]

theorem Memory.wf_nil : Memory.wf [] = true := rfl

/-- A write keeps the canonical form. -/
theorem Memory.wf_write {m : List Host.Cell} (a : Nat) (b : Byte) (h : Memory.wf m = true) :
    Memory.wf (Memory.write m a b) = true := by
  obtain ⟨h1, h2⟩ := (Memory.wf_iff m).1 h
  simp only [Memory.write]
  split
  · exact (Memory.wf_iff _).2 ⟨Store.sorted_erase a h1, fun c hc => h2 c (Store.mem_erase hc)⟩
  · rename_i hb
    refine (Memory.wf_iff _).2 ⟨Store.sorted_put a b h1, fun c hc => ?_⟩
    rcases Store.mem_put hc with hc | hc
    · simpa [hc] using hb
    · exact h2 c hc

/-- Clearing a region keeps the canonical form. -/
theorem Memory.wf_clear {m : List Host.Cell} (base size : Nat) (h : Memory.wf m = true) :
    Memory.wf (Memory.clear m base size) = true := by
  obtain ⟨h1, h2⟩ := (Memory.wf_iff m).1 h
  exact (Memory.wf_iff _).2 ⟨Store.sorted_filter _ h1, fun c hc => h2 c (List.mem_of_mem_filter hc)⟩

/-- A wider write keeps the canonical form. -/
theorem Memory.wf_writeLE {m : List Host.Cell} (a n v : Nat) (h : Memory.wf m = true) :
    Memory.wf (Memory.writeLE m a n v) = true := by
  induction n generalizing m a v with
  | zero => exact h
  | succ n ih => exact ih _ _ (Memory.wf_write _ _ h)

theorem Memory.read_write_ne (m : List Host.Cell) {a x : Nat} (b : Byte) (h : x ≠ a) :
    Memory.read (Memory.write m a b) x = Memory.read m x := by
  simp only [Memory.write, Memory.read]
  split
  · rw [Store.get?_erase_ne m h]
  · rw [Store.get?_put_ne m b h]

theorem Memory.read_write_self {m : List Host.Cell} (a : Nat) (b : Byte) (h : Memory.wf m = true) :
    Memory.read (Memory.write m a b) a = b := by
  simp only [Memory.write, Memory.read]
  split
  · rename_i hb
    simp [Store.get?_erase_self ((Memory.wf_iff m).1 h).1, hb]
  · simp

/-- A byte after a write of one byte. -/
theorem Memory.read_write {m : List Host.Cell} (a x : Nat) (b : Byte) (h : Memory.wf m = true) :
    Memory.read (Memory.write m a b) x = if x = a then b else Memory.read m x := by
  by_cases hx : x = a
  · simp [hx, Memory.read_write_self a b h]
  · simp [hx, Memory.read_write_ne m b hx]

/-- A byte outside the stored ones is as before. -/
theorem Memory.read_writeLE_outside (m : List Host.Cell) (a n v : Nat) {x : Nat} (h : x < a ∨ a + n ≤ x) :
    Memory.read (Memory.writeLE m a n v) x = Memory.read m x := by
  induction n generalizing m a v with
  | zero => rfl
  | succ n ih =>
    rw [Memory.writeLE, ih _ _ _ (by omega), Memory.read_write_ne _ _ (by omega)]

/-- A stored byte. -/
theorem Memory.read_writeLE_inside {m : List Host.Cell} (a n v : Nat) {k : Nat} (hk : k < n)
    (h : Memory.wf m = true) :
    Memory.read (Memory.writeLE m a n v) (a + k) = BitVec.ofNat 8 (v / 256 ^ k) := by
  induction n generalizing m a v k with
  | zero => omega
  | succ n ih =>
    cases k with
    | zero =>
      rw [Memory.writeLE, Memory.read_writeLE_outside _ _ _ _ (by omega), Nat.add_zero,
        Memory.read_write_self _ _ h]
      simp
    | succ k =>
      have := ih (a + 1) (v / 256) (k := k) (by omega) (Memory.wf_write a (BitVec.ofNat 8 v) h)
      rw [Memory.writeLE, show a + (k + 1) = a + 1 + k by omega, this, Nat.div_div_eq_div_mul, Nat.pow_succ,
        Nat.mul_comm 256]

theorem Memory.readLE_congr {m m' : List Host.Cell} {a n : Nat}
    (h : ∀ x, a ≤ x → x < a + n → Memory.read m x = Memory.read m' x) :
    Memory.readLE m a n = Memory.readLE m' a n := by
  induction n generalizing a with
  | zero => rfl
  | succ n ih =>
    rw [Memory.readLE, Memory.readLE, h a (by omega) (by omega), ih fun x h1 h2 => h x (by omega) (by omega)]

theorem Memory.readLE_lt (m : List Host.Cell) (a n : Nat) : Memory.readLE m a n < 256 ^ n := by
  induction n generalizing a with
  | zero => simp [Memory.readLE]
  | succ n ih =>
    have h1 := (Memory.read m a).isLt
    have h2 := ih (a + 1)
    rw [Memory.readLE, Nat.pow_succ]
    omega

/-- A read of what was stored gives the stored number (R76). -/
theorem Memory.readLE_writeLE_self {m : List Host.Cell} (a n v : Nat) (h : Memory.wf m = true) :
    Memory.readLE (Memory.writeLE m a n v) a n = v % 256 ^ n := by
  induction n generalizing m a v with
  | zero => simp [Memory.readLE, Nat.mod_one]
  | succ n ih =>
    rw [Memory.readLE, Memory.writeLE, Memory.read_writeLE_outside _ _ _ _ (by omega),
      Memory.read_write_self _ _ h, ih _ _ (Memory.wf_write _ _ h), Nat.pow_succ, Nat.mul_comm (256 ^ n) 256,
      Nat.mod_mul]
    simp

/-- A read of bytes outside the stored ones is as before. -/
theorem Memory.readLE_writeLE_outside (m : List Host.Cell) (a n v : Nat) {b k : Nat} (h : b + k ≤ a ∨ a + n ≤ b) :
    Memory.readLE (Memory.writeLE m a n v) b k = Memory.readLE m b k :=
  Memory.readLE_congr fun _ _ _ => Memory.read_writeLE_outside m a n v (by omega)

/-- A byte after a region was cleared. -/
theorem Memory.read_clear (m : List Host.Cell) (base size x : Nat) :
    Memory.read (Memory.clear m base size) x =
      if base ≤ x ∧ x < base + size then Memory.unlisted else Memory.read m x := by
  simp only [Memory.read, Memory.clear]
  induction m with
  | nil => simp
  | cons c rest ih =>
    obtain ⟨k, v⟩ := c
    by_cases hk : base ≤ k ∧ k < base + size
    · rw [List.filter_cons_of_neg (by simpa using hk), ih]
      by_cases hx : base ≤ x ∧ x < base + size
      · simp [hx]
      · have hne : k ≠ x := fun e => hx (e ▸ hk)
        simp [hx, Store.get?, hne]
    · rw [List.filter_cons_of_pos (by simp only [Bool.not_eq_true', Bool.and_eq_false_iff, decide_eq_false_iff_not]; omega)]
      by_cases he : k = x
      · subst he
        simp [Store.get?, hk]
      · simpa [Store.get?, he] using ih

/-- The memory of the state right after power-on is in canonical form. -/
theorem reset_memory_wf : Memory.wf State.reset.mem = true := rfl

end Sys2Proof.Machine
end

