-- ==== Sys2Proof/Laws/Agents.lean ====
section
/-! SUPPORT. What the other agents leave alone: every field but memory, the NICs, the clock and the agenda; and the
state at the start of a micro-step. -/

namespace Sys2Proof.Machine

/-- The fields no other agent touches (R27, R340). -/
structure SameBlock (s t : State) : Prop where
  cfg : t.cfg = s.cfg
  es : t.es = s.es
  eng : t.eng = s.eng
  pc : t.pc = s.pc
  handles : t.handles = s.handles
  blocks : t.blocks = s.blocks
  port : t.port = s.port
  resp : t.resp = s.resp
  micros : t.micros = s.micros
  trace : t.trace = s.trace
  grants : t.grants = s.grants
  maps : t.maps = s.maps
  handlerQ : t.handlerQ = s.handlerQ
  now : s.now ≤ t.now

theorem SameBlock.refl (s : State) : SameBlock s s := by constructor <;> rfl

theorem SameBlock.trans {s t u : State} (h : SameBlock s t) (k : SameBlock t u) : SameBlock s u := by
  constructor
  case now => exact Nat.le_trans h.now k.now
  all_goals first
    | rw [k.cfg, h.cfg] | rw [k.es, h.es] | rw [k.eng, h.eng] | rw [k.pc, h.pc] | rw [k.handles, h.handles]
    | rw [k.blocks, h.blocks] | rw [k.port, h.port] | rw [k.resp, h.resp] | rw [k.micros, h.micros]
    | rw [k.trace, h.trace] | rw [k.grants, h.grants] | rw [k.maps, h.maps] | rw [k.handlerQ, h.handlerQ]

theorem SameBlock.setNic {s t : State} (h : SameBlock s t) (bdf : W16) (n : Nic) : SameBlock s (t.setNic bdf n) :=
  h.trans (by constructor <;> rfl)

theorem SameBlock.dmaWrite {s t : State} (h : SameBlock s t) (p : Nat) (bytes : List Byte) :
    SameBlock s (t.dmaWrite p bytes) := by
  induction bytes generalizing t p with
  | nil => exact h
  | cons b rest ih =>
    rw [State.dmaWrite]
    refine ih ?_ _
    split
    · exact h.trans (by constructor <;> rfl)
    · exact h

/-- One move of another agent. -/
theorem SameBlock.act (act : AgentAct) (s : State) : SameBlock s (act.apply s) := by
  have r := SameBlock.refl s
  cases act <;> simp only [AgentAct.apply]
  case rxDeliver bdf q packet other =>
    simp only [State.rxDeliver]
    split
    · exact r
    · exact ((r.dmaWrite _ _).dmaWrite _ _).setNic _ _
  case txFetch bdf q =>
    simp only [State.txFetch]
    split
    · exact r
    · exact r.setNic _ _
  case txSend bdf q =>
    simp only [State.txSend]
    split
    · exact r
    · exact r.setNic _ _
  case txWriteBack bdf q =>
    simp only [State.txWriteBack]
    split
    · exact r
    · exact (r.dmaWrite _ _).setNic _ _
  case regSide => exact r.setNic _ _
  case pciSide => exact r.setNic _ _
  case hold => exact r.setNic _ _
  case arrive => exact r.setNic _ _
  case lag => exact r.setNic _ _
  case elapse d => constructor <;> first | rfl | exact Nat.le_add_right _ _

theorem SameBlock.runDue (l : List Due) (s : State) : SameBlock s (runDue l s) := by
  induction l generalizing s with
  | nil => constructor <;> rfl
  | cons d rest ih =>
    obtain ⟨w, act⟩ := d
    cases w with
    | zero => exact (SameBlock.act act s).trans (ih _)
    | succ w => constructor <;> rfl

/-- What happens between two micro-steps. -/
theorem SameBlock.agents (s : State) : SameBlock s s.agents := SameBlock.runDue _ _

@[simp] theorem State.agents_cfg (s : State) : s.agents.cfg = s.cfg := (SameBlock.agents s).cfg
@[simp] theorem State.agents_es (s : State) : s.agents.es = s.es := (SameBlock.agents s).es
@[simp] theorem State.agents_eng (s : State) : s.agents.eng = s.eng := (SameBlock.agents s).eng
@[simp] theorem State.agents_pc (s : State) : s.agents.pc = s.pc := (SameBlock.agents s).pc
@[simp] theorem State.agents_handles (s : State) : s.agents.handles = s.handles := (SameBlock.agents s).handles
@[simp] theorem State.agents_blocks (s : State) : s.agents.blocks = s.blocks := (SameBlock.agents s).blocks
@[simp] theorem State.agents_port (s : State) : s.agents.port = s.port := (SameBlock.agents s).port
@[simp] theorem State.agents_resp (s : State) : s.agents.resp = s.resp := (SameBlock.agents s).resp
@[simp] theorem State.agents_micros (s : State) : s.agents.micros = s.micros := (SameBlock.agents s).micros
@[simp] theorem State.agents_trace (s : State) : s.agents.trace = s.trace := (SameBlock.agents s).trace
@[simp] theorem State.agents_grants (s : State) : s.agents.grants = s.grants := (SameBlock.agents s).grants
@[simp] theorem State.agents_maps (s : State) : s.agents.maps = s.maps := (SameBlock.agents s).maps
@[simp] theorem State.agents_handlerQ (s : State) : s.agents.handlerQ = s.handlerQ := (SameBlock.agents s).handlerQ

/-! The start of a micro-step. -/

@[simp] theorem State.boundary_cfg (s : State) (l : Nat) : (s.boundary l).cfg = s.cfg := (s.atStep l).agents_cfg
@[simp] theorem State.boundary_es (s : State) (l : Nat) : (s.boundary l).es = s.es := (s.atStep l).agents_es
@[simp] theorem State.boundary_eng (s : State) (l : Nat) : (s.boundary l).eng = s.eng := (s.atStep l).agents_eng
@[simp] theorem State.boundary_pc (s : State) (l : Nat) : (s.boundary l).pc = ⟨s.pc.cmd, l⟩ :=
  (s.atStep l).agents_pc
@[simp] theorem State.boundary_handles (s : State) (l : Nat) : (s.boundary l).handles = s.handles :=
  (s.atStep l).agents_handles
@[simp] theorem State.boundary_handle (s : State) (l : Nat) (dev : BitVec 8) :
    (s.boundary l).handle dev = s.handle dev := by simp [State.handle]
@[simp] theorem State.boundary_blocks (s : State) (l : Nat) : (s.boundary l).blocks = s.blocks :=
  (s.atStep l).agents_blocks
@[simp] theorem State.boundary_memExists (s : State) (l a n : Nat) :
    (s.boundary l).memExists a n = s.memExists a n := by simp [State.memExists]
@[simp] theorem State.boundary_v2p (s : State) (l : Nat) (a : W64) : (s.boundary l).v2p a = s.v2p a := by
  simp [State.v2p]
@[simp] theorem State.boundary_port (s : State) (l : Nat) : (s.boundary l).port = s.port := (s.atStep l).agents_port
@[simp] theorem State.boundary_resp (s : State) (l : Nat) : (s.boundary l).resp = s.resp := (s.atStep l).agents_resp
@[simp] theorem State.boundary_micros (s : State) (l : Nat) : (s.boundary l).micros = s.micros + 1 :=
  congrArg (· + 1) (s.atStep l).agents_micros
@[simp] theorem State.boundary_trace (s : State) (l : Nat) : (s.boundary l).trace = s.trace := (s.atStep l).agents_trace
@[simp] theorem State.boundary_grants (s : State) (l : Nat) : (s.boundary l).grants = s.grants :=
  (s.atStep l).agents_grants
@[simp] theorem State.boundary_maps (s : State) (l : Nat) : (s.boundary l).maps = s.maps := (s.atStep l).agents_maps
@[simp] theorem State.boundary_handlerQ (s : State) (l : Nat) : (s.boundary l).handlerQ = s.handlerQ :=
  (s.atStep l).agents_handlerQ

/-- The clock never goes back (R386). -/
theorem State.now_le_boundary (s : State) (l : Nat) : s.now ≤ (s.boundary l).now :=
  Nat.le_trans (SameBlock.agents (s.atStep l)).now (Nat.le_add_right _ _)

/-- Where no agent has a move coming, between two micro-steps nothing happens. -/
theorem State.agents_eq_self {s : State} (h : s.agenda = []) : s.agents = s := by
  obtain ⟨cfg, es, eng, pc, handles, mem, blocks, nics, port, resp, now, micros, trace, agenda, grants, maps, hq⟩ := s
  subst h
  rfl

/-- Where no agent has a move coming, a micro-step starts from the state itself. -/
theorem State.boundary_eq_self {s : State} (h : s.agenda = []) (line : Nat) :
    s.boundary line =
      { s with pc := ⟨s.pc.cmd, line⟩, micros := s.micros + 1, now := s.now + Config.microTime s.micros } := by
  rw [State.boundary, State.agents_eq_self (s := s.atStep line) h]
  rfl

/-! Memory stays in canonical form. -/

theorem Memory.wf_dmaWrite {s : State} (p : Nat) (bytes : List Byte) (h : Memory.wf s.mem = true) :
    Memory.wf (s.dmaWrite p bytes).mem = true := by
  induction bytes generalizing s p with
  | nil => exact h
  | cons b rest ih =>
    rw [State.dmaWrite]
    refine ih _ ?_
    split
    · exact Memory.wf_write _ _ h
    · exact h

theorem Memory.wf_act {s : State} (act : AgentAct) (h : Memory.wf s.mem = true) :
    Memory.wf (act.apply s).mem = true := by
  cases act <;> simp only [AgentAct.apply]
  case rxDeliver bdf q packet other =>
    simp only [State.rxDeliver]
    split
    · exact h
    · rw [State.setNic_mem]
      exact Memory.wf_dmaWrite _ _ (Memory.wf_dmaWrite _ _ h)
  case txFetch bdf q =>
    simp only [State.txFetch]
    split
    · exact h
    · rw [State.setNic_mem]
      exact h
  case txSend bdf q =>
    simp only [State.txSend]
    split
    · exact h
    · rw [State.setNic_mem]
      exact h
  case txWriteBack bdf q =>
    simp only [State.txWriteBack]
    split
    · exact h
    · rw [State.setNic_mem]
      exact Memory.wf_dmaWrite _ _ h
  case regSide => rw [State.setNic_mem]; exact h
  case pciSide => rw [State.setNic_mem]; exact h
  case hold => rw [State.setNic_mem]; exact h
  case arrive => rw [State.setNic_mem]; exact h
  case lag => rw [State.setNic_mem]; exact h
  case elapse => exact h

theorem Memory.wf_runDue {s : State} (l : List Due) (h : Memory.wf s.mem = true) :
    Memory.wf (runDue l s).mem = true := by
  induction l generalizing s with
  | nil => exact h
  | cons d rest ih =>
    obtain ⟨w, act⟩ := d
    cases w with
    | zero => exact ih (Memory.wf_act act h)
    | succ w => exact h

/-- The other agents' writes keep the canonical form. -/
theorem Memory.wf_boundary {s : State} (line : Nat) (h : Memory.wf s.mem = true) :
    Memory.wf (s.boundary line).mem = true := Memory.wf_runDue _ h

end Sys2Proof.Machine
end

