-- ==== Sys2Proof/Laws/Encoding.lean ====
section
/-! SUPPORT. The fields of a command word put together from fields, and the ids of registers and fields. -/

namespace Sys2Proof

variable (op dev a b : BitVec 8) (c : W16) (m : BitVec 4)

/-- One bit of a command word. -/
theorem cmdWord_bit (i : Nat) :
    (cmdWord op dev a b c m).getLsbD i =
      if i < 8 then op.getLsbD i else if i < 16 then dev.getLsbD (i - 8)
      else if i < 24 then a.getLsbD (i - 16) else if i < 32 then b.getLsbD (i - 24)
      else if i < 48 then c.getLsbD (i - 32) else if i < 52 then m.getLsbD (i - 48) else false := by
  change BitVec.getLsbD (w := 12 + 4 + 16 + 8 + 8 + 8 + 8) (0#12 ++ m ++ c ++ b ++ a ++ dev ++ op) i = _
  simp only [BitVec.getLsbD_append, BitVec.getLsbD_zero]
  repeat' split
  all_goals first | rfl | omega

theorem cmdWord_field {n lo : Nat} {v : BitVec n} (h : ∀ i, i < n → (cmdWord op dev a b c m).getLsbD (lo + i) = v.getLsbD i) :
    (cmdWord op dev a b c m).extractLsb' lo n = v := by
  apply BitVec.eq_of_getLsbD_eq
  intro i hi
  rw [BitVec.getLsbD_extractLsb']
  simp [hi, h i hi]

@[simp] theorem cmdWord_op : (cmdWord op dev a b c m).extractLsb' 0 8 = op :=
  cmdWord_field _ _ _ _ _ _ fun i hi => by simp [cmdWord_bit, hi]

@[simp] theorem cmdWord_dev : (cmdWord op dev a b c m).extractLsb' 8 8 = dev :=
  cmdWord_field _ _ _ _ _ _ fun i hi => by simp [cmdWord_bit, show 8 + i < 16 by omega]

@[simp] theorem cmdWord_a : (cmdWord op dev a b c m).extractLsb' 16 8 = a :=
  cmdWord_field _ _ _ _ _ _ fun i hi => by
    simp [cmdWord_bit, show ¬ 16 + i < 8 by omega, show 16 + i < 24 by omega]

@[simp] theorem cmdWord_b : (cmdWord op dev a b c m).extractLsb' 24 8 = b :=
  cmdWord_field _ _ _ _ _ _ fun i hi => by
    simp [cmdWord_bit, show ¬ 24 + i < 8 by omega, show ¬ 24 + i < 16 by omega, show 24 + i < 32 by omega]

@[simp] theorem cmdWord_c : (cmdWord op dev a b c m).extractLsb' 32 16 = c :=
  cmdWord_field _ _ _ _ _ _ fun i hi => by
    simp [cmdWord_bit, show ¬ 32 + i < 8 by omega, show ¬ 32 + i < 16 by omega, show ¬ 32 + i < 24 by omega,
      show 32 + i < 48 by omega]

@[simp] theorem cmdWord_m : (cmdWord op dev a b c m).extractLsb' 48 4 = m :=
  cmdWord_field _ _ _ _ _ _ fun i hi => by
    simp [cmdWord_bit, show ¬ 48 + i < 8 by omega, show ¬ 48 + i < 16 by omega, show ¬ 48 + i < 24 by omega,
      show ¬ 48 + i < 32 by omega, show 48 + i < 52 by omega]

/-! Register and field ids name what they were made from (R52 to R54, R113). -/

theorem find_devReg (r : DevReg) : (DevReg.all.find? fun x => x.id == r.id) = some r := by cases r <;> rfl

theorem find_devReg_pci (r : PciReg) : (DevReg.all.find? fun x => x.id == r.regId) = none := by cases r <;> rfl

theorem find_pciReg (r : PciReg) : (PciReg.all.find? fun x => x.regId == r.regId) = some r := by cases r <;> rfl

theorem find_devField (f : DevField) : (DevField.all.find? fun x => x.fid == f.fid) = some f := by cases f <;> rfl

theorem find_pciField (f : PciField) : (PciField.all.find? fun x => x.fid == f.fid) = some f := by cases f <;> rfl

theorem DevReg.id_lt (r : DevReg) : r.id < 256 := by cases r <;> decide

theorem PciReg.regId_lt (r : PciReg) : r.regId < 256 := by cases r <;> decide

theorem DevField.fid_range (f : DevField) : 0 < f.fid ∧ f.fid < 256 := by cases f <;> decide

theorem PciField.fid_range (f : PciField) : 0 < f.fid ∧ f.fid < 256 := by cases f <;> decide

end Sys2Proof
end

