-- ==== Sys2Proof/Laws/Micro.lean ====
section
/-! SUPPORT. How a sequence of micro-steps runs, and a way to reason about one part at a time: `Triple P m Q E F`
says that from a state with `P` the micro-steps `m` end in a value and a state with `Q`, in a failure and a state
with `E`, in a fault with `F`, or in a refusal. -/

namespace Sys2Proof.Machine

variable {α β : Type}

@[simp] theorem Micro.run_pure (a : α) (s : State) : (pure a : Micro α) s = .ok a s := rfl

theorem Micro.run_bind (x : Micro α) (f : α → Micro β) (s : State) :
    (x >>= f) s = match x s with
      | .ok a t => f a t
      | .error e t => .error e t := by
  cases h : x s <;> simp [bind, EStateM.bind, h]

theorem Micro.run_bind_ok {x : Micro α} {f : α → Micro β} {s t : State} {a : α} (h : x s = .ok a t) :
    (x >>= f) s = f a t := by rw [Micro.run_bind, h]

theorem Micro.run_bind_error {x : Micro α} {f : α → Micro β} {s t : State} {e : Stop} (h : x s = .error e t) :
    (x >>= f) s = .error e t := by rw [Micro.run_bind, h]

@[simp] theorem Micro.run_map (f : α → β) (x : Micro α) (s : State) :
    (f <$> x) s = match x s with
      | .ok a t => .ok (f a) t
      | .error e t => .error e t := by
  cases h : x s <;> simp [Functor.map, EStateM.map, h]

@[simp] theorem Micro.run_raise (f : Failure) (s : State) : (raise f : Micro α) s = .error (.raise f) s := rfl

@[simp] theorem Micro.run_refuse (r : Refusal) (s : State) : (refuse r : Micro α) s = .error (.refuse r) s := rfl

@[simp] theorem Micro.run_look (f : State → α) (s : State) : look f s = .ok (f s) s := rfl

@[simp] theorem Micro.run_change (f : State → State) (s : State) : change f s = .ok () (f s) := rfl

@[simp] theorem Micro.run_ite (p : Prop) [Decidable p] (x y : Micro α) (s : State) :
    (if p then x else y) s = if p then x s else y s := by split <;> rfl

@[simp] theorem Micro.look_bind (f : State → α) (k : α → Micro β) (s : State) : (look f >>= k) s = k (f s) s := by
  rw [Micro.run_bind_ok (Micro.run_look f s)]

@[simp] theorem Micro.change_bind (f : State → State) (k : Unit → Micro β) (s : State) :
    (change f >>= k) s = k () (f s) := by
  rw [Micro.run_bind_ok (Micro.run_change f s)]

@[simp] theorem Micro.raise_bind (f : Failure) (k : α → Micro β) (s : State) :
    ((raise f : Micro α) >>= k) s = .error (.raise f) s := by
  rw [Micro.run_bind_error (Micro.run_raise f s)]

@[simp] theorem Micro.refuse_bind (r : Refusal) (k : α → Micro β) (s : State) :
    ((refuse r : Micro α) >>= k) s = .error (.refuse r) s := by
  rw [Micro.run_bind_error (Micro.run_refuse r s)]

@[simp] theorem forEach_nil (body : α → Micro Unit) : forEach [] body = pure () := rfl

theorem forEach_cons (x : α) (rest : List α) (body : α → Micro Unit) :
    forEach (x :: rest) body = body x >>= fun _ => forEach rest body := rfl

/-- A loop in two parts. -/
theorem forEach_append (l r : List α) (body : α → Micro Unit) (s : State) :
    forEach (l ++ r) body s = (forEach l body >>= fun _ => forEach r body) s := by
  induction l generalizing s with
  | nil => rw [forEach_nil, Micro.run_bind_ok (Micro.run_pure () s)]; rfl
  | cons x rest ih =>
    rw [List.cons_append, forEach_cons, forEach_cons, Micro.run_bind, Micro.run_bind, Micro.run_bind]
    cases body x s with
    | ok a t => exact (ih t).trans (Micro.run_bind _ _ _)
    | error e t => rfl

/-! Reasoning about one part at a time. -/

/-- From a state with `P`, the micro-steps end in a value with `Q`, a failure with `E`, a fault with `F`, or a
refusal. -/
def Triple (P : State → Prop) (m : Micro α) (Q : α → State → Prop) (E : Failure → State → Prop)
    (F : Fault → Prop) : Prop :=
  ∀ s, P s → match m s with
    | .ok a t => Q a t
    | .error (.raise f) t => E f t
    | .error (.fault f) _ => F f
    | .error (.refuse _) _ => True

variable {P : State → Prop} {E : Failure → State → Prop} {F : Fault → Prop}

theorem Triple.pure {Q : α → State → Prop} {a : α} (h : ∀ s, P s → Q a s) : Triple P (pure a) Q E F :=
  fun s hs => h s hs

theorem Triple.bind {m : Micro α} {k : α → Micro β} {Q : α → State → Prop} {R : β → State → Prop}
    (h : Triple P m Q E F) (hk : ∀ a, Triple (Q a) (k a) R E F) : Triple P (m >>= k) R E F := by
  intro s hs
  have h1 := h s hs
  rw [Micro.run_bind]
  revert h1
  cases m s with
  | ok a t => exact fun h1 => hk a t h1
  | error e t => cases e <;> exact fun h1 => h1

theorem Triple.weaken {m : Micro α} {P' : State → Prop} {Q Q' : α → State → Prop}
    {E' : Failure → State → Prop} {F' : Fault → Prop} (h : Triple P' m Q' E' F') (hP : ∀ s, P s → P' s)
    (hQ : ∀ a s, Q' a s → Q a s) (hE : ∀ f s, E' f s → E f s) (hF : ∀ f, F' f → F f) : Triple P m Q E F := by
  intro s hs
  have h1 := h s (hP s hs)
  revert h1
  cases m s with
  | ok a t => exact hQ a t
  | error e t =>
    cases e with
    | raise f => exact hE f t
    | fault f => exact hF f
    | refuse r => exact id

theorem Triple.look {Q : α → State → Prop} {f : State → α} (h : ∀ s, P s → Q (f s) s) : Triple P (look f) Q E F :=
  fun s hs => h s hs

theorem Triple.change {Q : Unit → State → Prop} {f : State → State} (h : ∀ s, P s → Q () (f s)) :
    Triple P (change f) Q E F := fun s hs => h s hs

theorem Triple.raise {Q : α → State → Prop} {f : Failure} (h : ∀ s, P s → E f s) : Triple P (raise f) Q E F :=
  fun s hs => h s hs

theorem Triple.refuse {Q : α → State → Prop} {r : Refusal} : Triple P (refuse r : Micro α) Q E F :=
  fun _ _ => trivial

/-- A loop whose body keeps `P`. -/
theorem Triple.forEach {l : List α} {body : α → Micro Unit}
    (h : ∀ x ∈ l, Triple P (body x) (fun _ => P) E F) : Triple P (forEach l body) (fun _ => P) E F := by
  induction l with
  | nil => exact Triple.pure fun _ hs => hs
  | cons x rest ih =>
    exact Triple.bind (h x (by simp)) fun _ => ih fun y hy => h y (List.mem_cons_of_mem _ hy)

end Sys2Proof.Machine
end

