-- ==== Sys2Proof/Laws/Ops.lean ====
section
/-! SUPPORT. The named operations: for each, everything it can do, said once; and what all of them keep. -/

namespace Sys2Proof.Machine

/-! Shared memory. -/

/-- A read of memory that exists gives the bytes there and changes nothing but the micro-step. -/
theorem memRead_run {s : State} {a : W64} {n : Nat} (line : Nat) (acq : Bool) (h : s.memExists a.toNat n = true) :
    memRead line acq a n s =
      .ok (BitVec.ofNat 64 (Memory.readLE (s.boundary line).mem a.toNat n))
        ((s.boundary line).log
          (.memRead acq a n (BitVec.ofNat 64 (Memory.readLE (s.boundary line).mem a.toNat n)))) := by
  simp [memRead, h]

theorem memRead_fault {s : State} {a : W64} {n : Nat} (line : Nat) (acq : Bool)
    (h : s.memExists a.toNat n = false) :
    memRead line acq a n s = .error (.fault (.unmappedMemory a)) (s.boundary line) := by
  simp [memRead, h]

/-- A write to memory that exists stores the bytes and changes nothing but the micro-step. -/
theorem memWrite_run {s : State} {a : W64} {n : Nat} (line : Nat) (rel : Bool) (v : W64)
    (h : s.memExists a.toNat n = true) :
    memWrite line rel a n v s =
      .ok () ({ s.boundary line with mem := Memory.writeLE (s.boundary line).mem a.toNat n v.toNat }.log
        (.memWrite rel a n v)) := by
  simp [memWrite, h]

theorem memWrite_fault {s : State} {a : W64} {n : Nat} (line : Nat) (rel : Bool) (v : W64)
    (h : s.memExists a.toNat n = false) :
    memWrite line rel a n v s = .error (.fault (.unmappedMemory a)) (s.boundary line) := by
  simp [memWrite, h]

/-! Device registers. -/

/-- A register read on a mapped device gives what the NIC presents once every posted write has arrived. -/
theorem mmioRead32_run {s : State} {dev : BitVec 8} {off : Nat} (line : Nat)
    (hm : (s.handle dev).mapped = true) (ho : regOffOk off = true) :
    mmioRead32 line dev off s =
      let t := (s.boundary line).drainNic (s.handle dev).bdf
      let v := (t.nic (s.handle dev).bdf).read s.cfg (s.micros + 1) t.now off
      .ok v (t.log (.mmioRead ((s.handle dev).base + BitVec.ofNat 64 off) v)) := by
  simp [mmioRead32, hm, ho]

/-- A register write on a mapped device leaves the block for the NIC. -/
theorem mmioWrite32_run {s : State} {dev : BitVec 8} {off : Nat} (line : Nat) (v : W32)
    (hm : (s.handle dev).mapped = true) (ho : regOffOk off = true) :
    mmioWrite32 line dev off v s =
      .ok () (((s.boundary line).postWrite (s.handle dev).bdf off v).log
        (.mmioWrite ((s.handle dev).base + BitVec.ofNat 64 off) v)) := by
  simp [mmioWrite32, hm, ho]

@[simp] theorem State.boundary_windowAt (s : State) (l : Nat) (a : W64) :
    (s.boundary l).windowAt a = s.windowAt a := by simp [State.windowAt]

/-- The address of a register in a mapped window names a register, of that window or of one before it that overlaps
it (R72; log 23). -/
theorem State.windowAt_of_register {s : State} {e : Nat × Handle} {off : Nat} (he : e ∈ s.handles)
    (hm : e.2.mapped = true) (ho : regOffOk off = true) :
    ∃ bdf o, s.windowAt (e.2.base + BitVec.ofNat 64 off) = some (bdf, o) := by
  have hlt : off < windowSize := by simp only [regOffOk, Bool.and_eq_true, decide_eq_true_eq] at ho; exact ho.2
  have hmod : off % 18446744073709551616 = off := Nat.mod_eq_of_lt (Nat.lt_trans hlt (by decide))
  have h : (s.windowAt (e.2.base + BitVec.ofNat 64 off)).isSome = true :=
    List.findSome?_isSome_iff.2 ⟨e, he, by simp [Handle.offsetOf, hm, hmod, ho]⟩
  obtain ⟨p, hp⟩ := Option.isSome_iff_exists.1 h
  exact ⟨p.1, p.2, hp⟩

/-- A register write at an address inside a mapped window (R72). -/
theorem mmioWriteAt_run {s : State} {a : W64} {bdf : W16} {off : Nat} (line : Nat) (v : W32)
    (hw : s.windowAt a = some (bdf, off)) :
    mmioWriteAt line a v s = .ok () (((s.boundary line).postWrite bdf off v).log (.mmioWrite a v)) := by
  simp [mmioWriteAt, hw]

theorem regRead_eq (line : Nat) (dev : BitVec 8) (r : DevReg) (idx : Nat) (s : State) :
    regRead line dev r idx s = mmioRead32 line dev (s.cfg.off r idx) s := by simp [regRead]

theorem regWrite_eq (line : Nat) (dev : BitVec 8) (r : DevReg) (idx : Nat) (v : W32) (s : State) :
    regWrite line dev r idx v s = mmioWrite32 line dev (s.cfg.off r idx) v s := by simp [regWrite]

/-! What every operation keeps. -/

/-- Nothing an operation of a command can change, and what only grows: the configuration, the mappings, the ports
and the command in progress stay; the clock, the number of micro-steps and the trace grow. -/
structure Keeps (s t : State) : Prop where
  cfg : t.cfg = s.cfg
  maps : t.maps = s.maps
  port : t.port = s.port
  resp : t.resp = s.resp
  cmd : t.pc.cmd = s.pc.cmd
  now : s.now ≤ t.now
  micros : s.micros ≤ t.micros
  trace : s.trace <:+ t.trace

theorem Keeps.refl (s : State) : Keeps s s :=
  ⟨rfl, rfl, rfl, rfl, rfl, Nat.le_refl _, Nat.le_refl _, List.suffix_refl _⟩

theorem Keeps.trans {s t u : State} (h : Keeps s t) (k : Keeps t u) : Keeps s u :=
  ⟨k.cfg.trans h.cfg, k.maps.trans h.maps, k.port.trans h.port, k.resp.trans h.resp, k.cmd.trans h.cmd,
    Nat.le_trans h.now k.now, Nat.le_trans h.micros k.micros, h.trace.trans k.trace⟩

theorem Keeps.boundary (s : State) (line : Nat) : Keeps s (s.boundary line) := by
  refine ⟨by simp, by simp, by simp, by simp, by simp, s.now_le_boundary line, by simp, by simp⟩

theorem Keeps.log {s t : State} (h : Keeps s t) (a : Access) : Keeps s (t.log a) :=
  ⟨h.cfg, h.maps, h.port, h.resp, h.cmd, h.now, h.micros, h.trace.trans (List.suffix_cons _ _)⟩

theorem Keeps.setNic {s t : State} (h : Keeps s t) (bdf : W16) (n : Nic) : Keeps s (t.setNic bdf n) :=
  ⟨h.cfg, h.maps, h.port, h.resp, h.cmd, h.now, h.micros, h.trace⟩

theorem Keeps.drainNic {s t : State} (h : Keeps s t) (bdf : W16) : Keeps s (t.drainNic bdf) := by
  rw [State.drainNic]
  split
  · exact h
  · exact h.setNic _ _

/-- Keeping does not depend on the fields that are not kept. -/
theorem Keeps.same {s t u : State} (h : Keeps s t) (cfg : u.cfg = t.cfg) (maps : u.maps = t.maps)
    (port : u.port = t.port) (resp : u.resp = t.resp) (cmd : u.pc.cmd = t.pc.cmd) (now : t.now ≤ u.now)
    (micros : u.micros = t.micros) (trace : t.trace <:+ u.trace) : Keeps s u :=
  h.trans ⟨cfg, maps, port, resp, cmd, now, Nat.le_of_eq micros.symm, trace⟩

variable {α β : Type}

/-- The state in which micro-steps end, however they end. -/
def Micro.after : EStateM.Result Stop State α → State
  | .ok _ t => t
  | .error _ t => t

/-- `m` keeps what every operation keeps, however it ends. -/
def AlwaysKeeps (m : Micro α) : Prop := ∀ s, Keeps s (Micro.after (m s))

theorem AlwaysKeeps.pure (a : α) : AlwaysKeeps (pure a : Micro α) := fun s => Keeps.refl s

theorem AlwaysKeeps.bind {m : Micro α} {k : α → Micro β} (h : AlwaysKeeps m) (hk : ∀ a, AlwaysKeeps (k a)) :
    AlwaysKeeps (m >>= k) := by
  intro s
  have h1 := h s
  rw [Micro.run_bind]
  revert h1
  cases m s with
  | ok a t => exact fun h1 => h1.trans (hk a t)
  | error e t => exact id

theorem AlwaysKeeps.look (f : State → α) : AlwaysKeeps (look f) := fun s => Keeps.refl s

theorem AlwaysKeeps.raise (f : Failure) : AlwaysKeeps (raise f : Micro α) := fun s => Keeps.refl s

theorem AlwaysKeeps.refuse (r : Refusal) : AlwaysKeeps (refuse r : Micro α) := fun s => Keeps.refl s

theorem AlwaysKeeps.ite {p : Prop} [Decidable p] {x y : Micro α} (hx : AlwaysKeeps x) (hy : AlwaysKeeps y) :
    AlwaysKeeps (if p then x else y) := by split <;> assumption

theorem AlwaysKeeps.forEach {body : α → Micro Unit} (h : ∀ x, AlwaysKeeps (body x)) (l : List α) :
    AlwaysKeeps (forEach l body) := by
  induction l with
  | nil => exact .pure ()
  | cons x rest ih => exact .bind (h x) fun _ => ih

theorem AlwaysKeeps.memRead (line : Nat) (acq : Bool) (a : W64) (n : Nat) : AlwaysKeeps (memRead line acq a n) := by
  intro s
  simp only [Machine.memRead]
  split
  · exact (Keeps.boundary s line).log _
  · exact Keeps.boundary s line

theorem AlwaysKeeps.memWrite (line : Nat) (rel : Bool) (a : W64) (n : Nat) (v : W64) :
    AlwaysKeeps (memWrite line rel a n v) := by
  intro s
  simp only [Machine.memWrite]
  split
  · exact (Keeps.boundary s line).same rfl rfl rfl rfl rfl (Nat.le_refl _) rfl (List.suffix_cons _ _)
  · exact Keeps.boundary s line

theorem AlwaysKeeps.mmioRead32 (line : Nat) (dev : BitVec 8) (off : Nat) : AlwaysKeeps (mmioRead32 line dev off) := by
  intro s
  simp only [Machine.mmioRead32]
  split
  · exact ((Keeps.boundary s line).drainNic _).log _
  · exact Keeps.boundary s line

theorem AlwaysKeeps.mmioWrite32 (line : Nat) (dev : BitVec 8) (off : Nat) (v : W32) :
    AlwaysKeeps (mmioWrite32 line dev off v) := by
  intro s
  simp only [Machine.mmioWrite32]
  split
  · exact ((Keeps.boundary s line).setNic _ _).log _
  · exact Keeps.boundary s line

theorem AlwaysKeeps.mmioWriteAt (line : Nat) (a : W64) (v : W32) : AlwaysKeeps (mmioWriteAt line a v) := by
  intro s
  simp only [Machine.mmioWriteAt]
  split
  · exact ((Keeps.boundary s line).setNic _ _).log _
  · exact Keeps.boundary s line

theorem AlwaysKeeps.regRead (line : Nat) (dev : BitVec 8) (r : DevReg) (idx : Nat) :
    AlwaysKeeps (regRead line dev r idx) := .bind (.look _) fun _ => .mmioRead32 _ _ _

theorem AlwaysKeeps.regWrite (line : Nat) (dev : BitVec 8) (r : DevReg) (idx : Nat) (v : W32) :
    AlwaysKeeps (regWrite line dev r idx v) := .bind (.look _) fun _ => .mmioWrite32 _ _ _ _

theorem AlwaysKeeps.regReadField (line : Nat) (dev : BitVec 8) (f : DevField) (idx : Nat) :
    AlwaysKeeps (regReadField line dev f idx) :=
  .bind (.regRead _ _ _ _) fun _ => .bind (.look _) fun _ => .pure _

theorem AlwaysKeeps.regWriteField (line : Nat) (dev : BitVec 8) (f : DevField) (idx : Nat) (v : W32) :
    AlwaysKeeps (regWriteField line dev f idx v) :=
  .bind (.regRead _ _ _ _) fun _ => .bind (.look _) fun _ => .regWrite _ _ _ _ _

theorem AlwaysKeeps.regSet (line : Nat) (dev : BitVec 8) (f : DevField) (idx : Nat) :
    AlwaysKeeps (regSet line dev f idx) := .bind (.look _) fun _ => .regWriteField _ _ _ _ _

theorem AlwaysKeeps.regClear (line : Nat) (dev : BitVec 8) (f : DevField) (idx : Nat) :
    AlwaysKeeps (regClear line dev f idx) := .regWriteField _ _ _ _ _

theorem AlwaysKeeps.regIsCleared (line : Nat) (dev : BitVec 8) (f : DevField) (idx : Nat) :
    AlwaysKeeps (regIsCleared line dev f idx) := .bind (.regReadField _ _ _ _) fun _ => .pure _

/-! Time. -/

theorem AlwaysKeeps.sleepUs (line n : Nat) : AlwaysKeeps (sleepUs line n) := fun s =>
  (Keeps.boundary s line).same rfl rfl rfl rfl rfl
    (Nat.le_trans (Nat.le_add_right _ _) (Nat.le_add_right _ _)) rfl (List.suffix_cons _ _)

/-- A sleep of `n` microseconds lasts at least `n` (R24, R386). -/
theorem sleepUs_now {line n : Nat} {s t : State} (h : sleepUs line n s = .ok () t) : s.now + n ≤ t.now := by
  simp only [sleepUs, EStateM.Result.ok.injEq, true_and] at h
  subst h
  have := s.now_le_boundary line
  simp only [State.log]
  omega

theorem AlwaysKeeps.pollLoop (line : Nat) (dev : BitVec 8) (f : DevField) (idx : Nat) (w : Bool) (gap n : Nat) :
    AlwaysKeeps (pollLoop line dev f idx w gap n) := by
  induction n with
  | zero => exact .pure _
  | succ n ih =>
    refine .bind (.regIsCleared _ _ _ _) fun _ => ?_
    exact .ite (.pure _) (.bind (.sleepUs _ _) fun _ => ih)

theorem AlwaysKeeps.poll (line : Nat) (dev : BitVec 8) (f : DevField) (idx : Nat) (w : Bool) :
    AlwaysKeeps (poll line dev f idx w) := .bind (.look _) fun _ => .pollLoop _ _ _ _ _ _ _

/-! PCI configuration space. -/

theorem AlwaysKeeps.pciRead (line : Nat) (bdf : W16) (off : Nat) : AlwaysKeeps (pciRead line bdf off) :=
  fun s => (Keeps.boundary s line).log _

theorem AlwaysKeeps.pciWrite (line : Nat) (bdf : W16) (off : Nat) (v : W32) :
    AlwaysKeeps (pciWrite line bdf off v) := fun s => ((Keeps.boundary s line).setNic _ _).log _

theorem AlwaysKeeps.pciRegRead (line : Nat) (bdf : W16) (r : PciReg) : AlwaysKeeps (pciRegRead line bdf r) :=
  .bind (.look _) fun _ => .pciRead _ _ _

theorem AlwaysKeeps.pciReadField (line : Nat) (bdf : W16) (f : PciField) : AlwaysKeeps (pciReadField line bdf f) :=
  .bind (.pciRegRead _ _ _) fun _ => .bind (.look _) fun _ => .pure _

theorem AlwaysKeeps.pciWriteField (line : Nat) (bdf : W16) (f : PciField) (v : W32) :
    AlwaysKeeps (pciWriteField line bdf f v) :=
  .bind (.pciRegRead _ _ _) fun _ => .bind (.look _) fun _ => .bind (.look _) fun _ => .pciWrite _ _ _ _

theorem AlwaysKeeps.pciSet (line : Nat) (bdf : W16) (f : PciField) : AlwaysKeeps (pciSet line bdf f) :=
  .bind (.look _) fun _ => .pciWriteField _ _ _ _

theorem AlwaysKeeps.pciIsCleared (line : Nat) (bdf : W16) (f : PciField) : AlwaysKeeps (pciIsCleared line bdf f) :=
  .bind (.pciReadField _ _ _) fun _ => .pure _

/-! The allocator. -/

/-- Everything an allocation can answer: a failure, or a block that keeps the allocator's contract, live and zero
from then on (R352). -/
theorem alloc_ok {line size : Nat} {site : AllocSite} {s t : State} {r : Option W64}
    (h : alloc line size site s = .ok r t) :
    (r = none ∧ t.blocks = s.blocks ∧ t.mem = (s.boundary line).mem) ∨
    ∃ g rest, s.grants = some g :: rest ∧ r = some g.base ∧ g.aligned site = true ∧
      (s.boundary line).grantOk g size = true ∧ t.grants = rest ∧
      t.blocks = ⟨g.base, size, g.phys, g.gaps⟩ :: s.blocks ∧
      t.mem = Memory.clear (s.boundary line).mem g.base.toNat size := by
  simp only [alloc, State.boundary_grants] at h
  split at h
  · cases h; exact .inl ⟨rfl, by simp, rfl⟩
  · cases h; exact .inl ⟨rfl, by simp, rfl⟩
  · rename_i g rest hg
    split at h
    · cases h
    · rename_i ha
      split at h
      · rename_i hk
        cases h
        exact .inr ⟨g, rest, hg, rfl, by simpa using ha, hk, rfl, by simp, rfl⟩
      · cases h

theorem AlwaysKeeps.alloc (line n : Nat) (site : AllocSite) : AlwaysKeeps (alloc line n site) := by
  intro s
  have k := Keeps.boundary s line
  simp only [Machine.alloc]
  split
  · exact k.log _
  · exact k.same rfl rfl rfl rfl rfl (Nat.le_refl _) rfl (List.suffix_cons _ _)
  · split
    · exact k
    · split
      · exact k.same rfl rfl rfl rfl rfl (Nat.le_refl _) rfl (List.suffix_cons _ _)
      · exact k

theorem AlwaysKeeps.free (line : Nat) (a : W64) : AlwaysKeeps (free line a) := fun s =>
  (Keeps.boundary s line).same rfl rfl rfl rfl rfl (Nat.le_refl _) rfl (List.suffix_cons _ _)

theorem AlwaysKeeps.v2p (line : Nat) (a : W64) : AlwaysKeeps (v2p line a) :=
  fun s => (Keeps.boundary s line).log _

theorem AlwaysKeeps.v2pOrRaise (line : Nat) (a : W64) (site : AllocSite) :
    AlwaysKeeps (v2pOrRaise line a site) := by
  refine .bind (.v2p _ _) fun r => ?_
  cases r
  · exact .raise _
  · exact .pure _

theorem AlwaysKeeps.p2v (line : Nat) (p : W64) (n : Nat) : AlwaysKeeps (p2v line p n) :=
  fun s => (Keeps.boundary s line).log _

theorem AlwaysKeeps.flushTails (line : Nat) : AlwaysKeeps (flushTails line) :=
  .bind (.look _) fun _ => .forEach (fun _ => .mmioWriteAt _ _ _) _

/-! The two ends of a command. -/

/-- A command whose precondition does not hold changes nothing but the response (R376, R378). -/
theorem runCommand_precondition {i : Instr} {pre : State → Bool} {body : Micro (W64 × W64)} {s : State}
    (h : pre s = false) :
    runCommand i pre body s = .next (s.takeFailure (.preconditionFail .lifecycle)) := by simp [runCommand, h]

/-- A command that returns (R370). -/
theorem runCommand_ok {i : Instr} {pre : State → Bool} {body : Micro (W64 × W64)} {s t : State} {v : W64 × W64}
    (h : pre s = true) (hb : body { s with pc := ⟨some i, 1⟩ } = .ok v t) :
    runCommand i pre body s = .next (t.respond resOk v.1 v.2) := by simp [runCommand, h, hb]

/-- A command that raises a failure (R370, R379). -/
theorem runCommand_raise {i : Instr} {pre : State → Bool} {body : Micro (W64 × W64)} {s t : State} {f : Failure}
    (h : pre s = true) (hb : body { s with pc := ⟨some i, 1⟩ } = .error (.raise f) t) :
    runCommand i pre body s = .next (t.takeFailure f) := by simp [runCommand, h, hb]

/-- Everything a command can end in as a next state. -/
theorem runCommand_next {i : Instr} {pre : State → Bool} {body : Micro (W64 × W64)} {s t : State}
    (h : runCommand i pre body s = .next t) :
    (pre s = false ∧ t = s.takeFailure (.preconditionFail .lifecycle)) ∨
    (pre s = true ∧ ∃ v u, body { s with pc := ⟨some i, 1⟩ } = .ok v u ∧ t = u.respond resOk v.1 v.2) ∨
    (pre s = true ∧ ∃ f u, body { s with pc := ⟨some i, 1⟩ } = .error (.raise f) u ∧ t = u.takeFailure f) := by
  simp only [runCommand] at h
  split at h
  · rename_i hp
    split at h <;> simp_all
  · rename_i hp
    exact .inl ⟨by simpa using hp, by simp_all⟩

end Sys2Proof.Machine
end

