-- ==== Sys2Proof/Laws/PerInstr.lean ====
section
/-! SUPPORT. Per-instruction laws, one lemma for each constructor of `Instr`. -/

namespace Sys2Proof.Laws

-- One theorem at a time: a thread for each does not fit the memory limit the package is compiled under.
set_option Elab.async false

/-- The words of an instruction keep to its row of the opcode map (R111, R112): the fixed bits of `CMD` read as the
row says, every bit its format does not use is zero, and `DATA` is zero but where the format uses it. -/
def KeepsToRow.Statement (i : Instr) : Prop :=
  ∃ row, opRow ((encode i).cmd.extractLsb' 0 8).toNat = some row ∧
    (encode i).cmd &&& row.mask = ((encode i).cmd.extractLsb' 0 8).setWidth 64 ∧
    (row.hasData = false → (encode i).data = 0)

/-- The bits a mask selects of a command word are its opcode, where the mask selects the opcode and otherwise only
zero bits. -/
theorem cmdWord_and_mask {op dev a b : BitVec 8} {c : W16} {m : BitVec 4} {mask : W64}
    (hop : mask.extractLsb' 0 8 = 0xFF) (hdev : dev &&& mask.extractLsb' 8 8 = 0)
    (ha : a &&& mask.extractLsb' 16 8 = 0) (hb : b &&& mask.extractLsb' 24 8 = 0)
    (hc : c &&& mask.extractLsb' 32 16 = 0) (hm : m &&& mask.extractLsb' 48 4 = 0) :
    cmdWord op dev a b c m &&& mask = op.setWidth 64 := by
  have bit {n : Nat} {x y : BitVec n} (h : x &&& y = 0) (i : Nat) : (x.getLsbD i && y.getLsbD i) = false := by
    rw [← BitVec.getLsbD_and, h]; simp
  apply BitVec.eq_of_getLsbD_eq
  intro i hi
  rw [BitVec.getLsbD_and, cmdWord_bit, BitVec.getLsbD_setWidth]
  have part {lo n : Nat} (h1 : lo ≤ i) (h2 : i < lo + n) : mask.getLsbD i = (mask.extractLsb' lo n).getLsbD (i - lo) := by
    rw [BitVec.getLsbD_extractLsb']
    simp [show i - lo < n by omega, show lo + (i - lo) = i by omega]
  by_cases h0 : i < 8
  · have h8 : mask.getLsbD i = true := by
      rw [part (lo := 0) (n := 8) (by omega) (by omega), hop]
      have : ∀ j, j < 8 → (0xFF : BitVec 8).getLsbD j = true := by decide
      exact this _ (by omega)
    simp [h0, h8, hi]
  · have hz : op.getLsbD i = false := BitVec.getLsbD_of_ge _ _ (by omega)
    simp only [h0, if_false, hz, Bool.and_false]
    by_cases h1 : i < 16
    · simpa [h1, part (lo := 8) (n := 8) (by omega) (by omega)] using bit hdev (i - 8)
    by_cases h2 : i < 24
    · simpa [h1, h2, part (lo := 16) (n := 8) (by omega) (by omega)] using bit ha (i - 16)
    by_cases h3 : i < 32
    · simpa [h1, h2, h3, part (lo := 24) (n := 8) (by omega) (by omega)] using bit hb (i - 24)
    by_cases h4 : i < 48
    · simpa [h1, h2, h3, h4, part (lo := 32) (n := 16) (by omega) (by omega)] using bit hc (i - 32)
    by_cases h5 : i < 52
    · simpa [h1, h2, h3, h4, h5, part (lo := 48) (n := 4) (by omega) (by omega)] using bit hm (i - 48)
    · simp [h1, h2, h3, h4, h5]

theorem KeepsToRow.devOpen (dev : BitVec 8) (bdf : W16) : KeepsToRow.Statement (.devOpen dev bdf) := by
  refine ⟨⟨0xFFFF0000FFFF00FF, true, false⟩, by simp [encode, opRow], ?_, fun _ => rfl⟩
  simp only [encode, cmdWord_op]
  apply cmdWord_and_mask <;> simp

theorem KeepsToRow.devReset (dev : BitVec 8) : KeepsToRow.Statement (.devReset dev) := by
  refine ⟨⟨0xFFFFFFFFFFFF00FF, true, false⟩, by simp [encode, opRow], ?_, fun _ => rfl⟩
  simp only [encode, cmdWord_op]
  apply cmdWord_and_mask <;> simp

theorem KeepsToRow.devInit (dev : BitVec 8) : KeepsToRow.Statement (.devInit dev) := by
  refine ⟨⟨0xFFFFFFFFFFFF00FF, true, false⟩, by simp [encode, opRow], ?_, fun _ => rfl⟩
  simp only [encode, cmdWord_op]
  apply cmdWord_and_mask <;> simp

theorem KeepsToRow.setPromisc (dev : BitVec 8) (enable : Bool) : KeepsToRow.Statement (.setPromisc dev enable) := by
  refine ⟨⟨0xFFFFFFFFFFFE00FF, true, false⟩, by simp [encode, opRow], ?_, fun _ => rfl⟩
  simp only [encode, cmdWord_op]
  apply cmdWord_and_mask <;> cases enable <;> simp

theorem KeepsToRow.regRead (dev : BitVec 8) (sel : RegSel) (index : W16) : KeepsToRow.Statement (.regRead dev sel index) := by
  refine ⟨⟨0xFFFF0000000000FF, true, false⟩, by simp [encode, opRow], ?_, fun _ => rfl⟩
  simp only [encode, cmdWord_op]
  apply cmdWord_and_mask <;> simp

theorem KeepsToRow.regWrite (dev : BitVec 8) (sel : RegSel) (index : W16) (value : W32) : KeepsToRow.Statement (.regWrite dev sel index value) := by
  refine ⟨⟨0xFFFF0000000000FF, true, true⟩, by simp [encode, opRow], ?_, fun h => nomatch h⟩
  simp only [encode, cmdWord_op]
  apply cmdWord_and_mask <;> simp

theorem KeepsToRow.engConstruct : KeepsToRow.Statement .engConstruct := by
  refine ⟨⟨0xFFFFFFFFFFFFFFFF, false, false⟩, by simp [encode, opRow], ?_, fun _ => rfl⟩
  simp only [encode, cmdWord_op]
  apply cmdWord_and_mask <;> simp

theorem KeepsToRow.bindInput (dev : BitVec 8) : KeepsToRow.Statement (.bindInput dev) := by
  refine ⟨⟨0xFFFFFFFFFFFF00FF, true, false⟩, by simp [encode, opRow], ?_, fun _ => rfl⟩
  simp only [encode, cmdWord_op]
  apply cmdWord_and_mask <;> simp

theorem KeepsToRow.bindOutput (dev : BitVec 8) (queue : BitVec 8) : KeepsToRow.Statement (.bindOutput dev queue) := by
  refine ⟨⟨0xFFFFFFFFFF0000FF, true, false⟩, by simp [encode, opRow], ?_, fun _ => rfl⟩
  simp only [encode, cmdWord_op]
  apply cmdWord_and_mask <;> simp

theorem KeepsToRow.receive : KeepsToRow.Statement .receive := by
  refine ⟨⟨0xFFFFFFFFFFFFFFFF, false, false⟩, by simp [encode, opRow], ?_, fun _ => rfl⟩
  simp only [encode, cmdWord_op]
  apply cmdWord_and_mask <;> simp

theorem KeepsToRow.transmit (length : W16) (mask : BitVec 4) : KeepsToRow.Statement (.transmit length mask) := by
  refine ⟨⟨0xFFF00000FFFFFFFF, false, false⟩, by simp [encode, opRow], ?_, fun _ => rfl⟩
  simp only [encode, cmdWord_op]
  apply cmdWord_and_mask <;> simp

theorem KeepsToRow.process : KeepsToRow.Statement .process := by
  refine ⟨⟨0xFFFFFFFFFFFFFFFF, false, false⟩, by simp [encode, opRow], ?_, fun _ => rfl⟩
  simp only [encode, cmdWord_op]
  apply cmdWord_and_mask <;> simp

end Sys2Proof.Laws
end

