-- ==== Sys2Proof/Laws/Registers.lean ====
section
/-! SUPPORT. Register offsets and the NIC's registers: with the default register map no two registers share an
offset, and what a register reads as after a write. -/

namespace Sys2Proof.Machine

/-! Offsets. -/

theorem DevReg.mem_all (r : DevReg) : r ∈ DevReg.all := by cases r <;> decide

theorem DevReg.indexCount_isSome (c d : Config) (r : DevReg) :
    (r.indexCount c).isSome = (r.indexCount d).isSome := by cases r <;> rfl

/-- The most indices a register has in a standard configuration. -/
def maxCount (r : DevReg) : Nat := (r.indexCount Config.spec).getD 1

/-- The offset `off` is one of `n` that rise from `lo` in steps of `stride`. -/
def inRun (lo stride n off : Nat) : Bool :=
  Nat.ble lo off && (Nat.blt off (lo + stride * n) && Nat.beq ((off - lo) % stride) 0)

/-- The offset `off` is one of the first `n` of a row. -/
def inRow (row : OffRow) (n off : Nat) : Bool :=
  match row.split with
  | none => cond (Nat.beq row.stride 0) (Nat.beq off row.lo) (inRun row.lo row.stride n off)
  | some (thr, hi) => inRun row.lo row.stride thr off || inRun hi row.stride (n - thr) off

/-- No offset of `r` is one of a register that comes after it. -/
def apartFrom (r : DevReg) : List DevReg → Bool
  | [] => true
  | r' :: rest =>
    (List.range (maxCount r)).all (fun i => !inRow r'.specRow (maxCount r') (r.specRow.off i)) && apartFrom r rest

/-- No two registers of a list share an offset. -/
def allApart : List DevReg → Bool
  | [] => true
  | r :: rest => apartFrom r rest && allApart rest

set_option maxRecDepth 100000 in
/-- No two registers of the default map share an offset. -/
theorem allApart_spec : allApart DevReg.all = true := by decide +kernel

theorem inRun_self {lo stride n i : Nat} (hs : 0 < stride) (h : i < n) : inRun lo stride n (lo + stride * i) = true := by
  have h1 : stride * i < stride * n := Nat.mul_lt_mul_of_pos_left h hs
  simp [inRun, h1, Nat.blt]

theorem inRow_self {row : OffRow} {n i : Nat} (h : i < n) (hs : row.stride = 0 → row.split = none) :
    inRow row n (row.off i) = true := by
  obtain ⟨lo, stride, split⟩ := row
  cases split with
  | none =>
    cases hz : Nat.beq stride 0
    · simp only [inRow, OffRow.off, hz, cond_false]
      exact inRun_self (Nat.pos_of_ne_zero (Nat.ne_of_beq_eq_false hz)) h
    · simp [inRow, OffRow.off, Nat.eq_of_beq_eq_true hz]
  | some p =>
    obtain ⟨thr, hi⟩ := p
    have hpos : 0 < stride := Nat.pos_of_ne_zero fun e => by simpa using hs e
    simp only [inRow, OffRow.off]
    split
    · rename_i hi'
      simp [inRun_self hpos hi']
    · rename_i hi'
      simp [inRun_self (lo := hi) hpos (show i - thr < n - thr by omega)]

theorem DevReg.specRow_stride (r : DevReg) : r.specRow.stride = 0 → r.specRow.split = none := by
  cases r <;> simp [DevReg.specRow, OffRow.one, OffRow.arr, OffRow.rxQ]

theorem off_ne_of_apartFrom {r r' : DevReg} {l : List DevReg} (h : apartFrom r l = true) (hr : r' ∈ l) {i j : Nat}
    (hi : i < maxCount r) (hj : j < maxCount r') : r.specRow.off i ≠ r'.specRow.off j := by
  induction l with
  | nil => simp at hr
  | cons x rest ih =>
    simp only [apartFrom, Bool.and_eq_true, List.all_eq_true, List.mem_range] at h
    rcases List.mem_cons.1 hr with hr | hr
    · subst hr
      intro he
      have := h.1 i hi
      rw [he, inRow_self hj (DevReg.specRow_stride _)] at this
      simp at this
    · exact ih h.2 hr

theorem off_ne_of_allApart {l : List DevReg} (h : allApart l = true) {r r' : DevReg} (hr : r ∈ l) (hr' : r' ∈ l)
    (hne : r ≠ r') {i j : Nat} (hi : i < maxCount r) (hj : j < maxCount r') : r.specRow.off i ≠ r'.specRow.off j := by
  induction l with
  | nil => simp at hr
  | cons x rest ih =>
    simp only [allApart, Bool.and_eq_true] at h
    rcases List.mem_cons.1 hr with h1 | h1 <;> rcases List.mem_cons.1 hr' with h2 | h2
    · exact absurd (h1.trans h2.symm) hne
    · subst h1
      exact off_ne_of_apartFrom h.1 h2 hi hj
    · subst h2
      exact (off_ne_of_apartFrom h.1 h1 hj hi).symm
    · exact ih h.2 h1 h2

/-- `Off` with the default register map, by the row of the register. -/
theorem Config.off_spec {c : Config} (h : c.regmap = RegMap.spec) (r : DevReg) (i : Nat) :
    c.off r i = r.specRow.off (if (r.indexCount Config.spec).isSome then i else 0) := by
  rw [Config.off, h, DevReg.indexCount_isSome c Config.spec]
  cases r <;> rfl

theorem indexCount_le {c : Config} (h : StandardConfig c) (r : DevReg) : (r.indexCount c).getD 1 ≤ maxCount r := by
  obtain ⟨-, -, h1, h2⟩ := h
  cases r <;> simp [DevReg.indexCount, maxCount, Config.spec] <;> assumption

theorem lt_maxCount {c : Config} (h : StandardConfig c) {r : DevReg} {i : Nat} (hi : r.indexOk c i = true) :
    (if (r.indexCount Config.spec).isSome then i else 0) < maxCount r := by
  have hle := indexCount_le h r
  have hs := DevReg.indexCount_isSome c Config.spec r
  rw [← hs]
  simp only [DevReg.indexOk] at hi
  cases hc : r.indexCount c with
  | none =>
    rw [hc] at hle
    simp only [Option.getD_none] at hle
    simp only [Option.isSome_none, Bool.false_eq_true, if_false]
    omega
  | some n =>
    rw [hc] at hi hle
    simp only [Option.getD_some, decide_eq_true_eq, Option.isSome_some, if_true] at hi hle ⊢
    omega

/-- Two different registers never share an offset. -/
theorem Config.off_ne {c : Config} (h : StandardConfig c) {r r' : DevReg} (hne : r ≠ r') {i j : Nat}
    (hi : r.indexOk c i = true) (hj : r'.indexOk c j = true) : c.off r i ≠ c.off r' j := by
  rw [Config.off_spec h.2.1, Config.off_spec h.2.1]
  exact off_ne_of_allApart allApart_spec (DevReg.mem_all r) (DevReg.mem_all r') hne (lt_maxCount h hi)
    (lt_maxCount h hj)

theorem DevReg.specRow_off_inj (r : DevReg) (hs : (r.indexCount Config.spec).isSome = true) {i j : Nat}
    (hi : i < maxCount r) (hj : j < maxCount r) (h : r.specRow.off i = r.specRow.off j) : i = j := by
  revert hs hi hj h
  cases r <;>
    simp only [DevReg.indexCount, maxCount, Config.spec, DevReg.specRow, OffRow.one, OffRow.arr, OffRow.rxQ, OffRow.off,
      Option.isSome_none, Option.isSome_some, Option.getD_some, Bool.false_eq_true, IsEmpty.forall_iff,
      forall_true_left] <;> intro hi hj h <;> first | omega | (split at h <;> split at h <;> omega)

/-- A register with an index has one offset for each index. -/
theorem Config.off_inj {c : Config} (h : StandardConfig c) {r : DevReg} (hs : (r.indexCount c).isSome = true)
    {i j : Nat} (hi : r.indexOk c i = true) (hj : r.indexOk c j = true) (he : c.off r i = c.off r j) : i = j := by
  have hi' := lt_maxCount h hi
  have hj' := lt_maxCount h hj
  rw [Config.off_spec h.2.1, Config.off_spec h.2.1] at he
  rw [DevReg.indexCount_isSome c Config.spec] at hs
  simp only [hs, if_true] at hi' hj' he
  exact DevReg.specRow_off_inj r hs hi' hj' he

/-- A legal offset is a multiple of 4 inside the window (R52). -/
theorem regOffOk_off {c : Config} (h : c.legal = true) (r : DevReg) {i : Nat} (hi : r.indexOk c i = true) :
    regOffOk (c.off r i) = true := by
  have hr : c.regOk r = true := by
    simp only [Config.legal, Bool.and_eq_true, List.all_eq_true] at h
    exact h.1.1.2 r (DevReg.mem_all r)
  simp only [Config.regOk, List.all_eq_true, List.mem_range] at hr
  simp only [DevReg.indexOk] at hi
  cases hc : r.indexCount c with
  | none =>
    rw [hc] at hr
    have := hr 0 (by simp)
    simpa [regOffOk, Config.off, hc] using this
  | some n =>
    rw [hc] at hr hi
    simpa [regOffOk] using hr i (by simpa using hi)

theorem regmask_legal {c : Config} (h : c.legal = true) (f : DevField) : maskOk (c.mask f) = true := by
  simp only [Config.legal, Bool.and_eq_true, List.all_eq_true] at h
  exact h.1.2 f (by cases f <;> decide)

/-! Registers. -/

theorem Nic.reg_putReg (c : Config) (n : Nic) (off off' : Nat) (v : W32) :
    (n.putReg off v).reg c off' = if off' = off then v else n.reg c off' := by
  simp only [Nic.reg, Nic.putReg, Store.get?_put]
  by_cases h : off' = off
  · simp [h]
  · simp only [h, if_false]
    rfl

@[simp] theorem Nic.reg_putReg_self (c : Config) (n : Nic) (off : Nat) (v : W32) :
    (n.putReg off v).reg c off = v := by simp [Nic.reg_putReg]

theorem Nic.reg_putReg_ne (c : Config) (n : Nic) {off off' : Nat} (v : W32) (h : off' ≠ off) :
    (n.putReg off v).reg c off' = n.reg c off' := by simp [Nic.reg_putReg, h]

/-- The NIC of a PCI identity after a NIC got new contents. -/
theorem State.nic_setNic (s : State) (bdf bdf' : W16) (n : Nic) :
    (s.setNic bdf n).nic bdf' = if bdf' = bdf then n else s.nic bdf' := by
  simp only [State.nic, State.setNic_nics, Store.get?_put]
  by_cases h : bdf' = bdf
  · simp [h]
  · have : bdf'.toNat ≠ bdf.toNat := fun e => h (BitVec.eq_of_toNat_eq e)
    simp [h, this]

@[simp] theorem State.nic_setNic_self (s : State) (bdf : W16) (n : Nic) : (s.setNic bdf n).nic bdf = n := by
  simp [State.nic_setNic]

/-! The register side and configuration space. -/

/-- Where a register has no such index the register side changes nothing (R348). -/
theorem Nic.regSide_of_no_index (c : Config) (n : Nic) {r : DevReg} {idx : Nat} (v : W32)
    (h : r.indexOk c idx = false) : n.regSide c r idx v = n := by simp [Nic.regSide, h]

/-- A configuration write changes configuration space only. -/
theorem Nic.pciWrite_eq (c : Config) (k : Nat) (n : Nic) (off : Nat) (v : W32) :
    n.pciWrite c k off v = { n with pci := (n.pciWrite c k off v).pci } := by
  unfold Nic.pciWrite
  split
  · split <;> rfl
  · rfl

/-- A configuration write leaves every other configuration register as it is. -/
theorem Nic.pciRead_pciWrite_ne (c : Config) (k : Nat) (n : Nic) {off o : Nat} (v : W32) (h : o ≠ off) :
    (n.pciWrite c k off v).pciRead o = n.pciRead o := by
  unfold Nic.pciWrite Nic.pciRead
  split
  · split <;> simp [Store.get?_put_ne _ _ h]
  · simp [Store.get?_put_ne _ _ h]

/-- The device presents configuration registers only. -/
theorem Nic.pciSide_eq (c : Config) (n : Nic) (r : PciReg) (v : W32) :
    n.pciSide c r v = { n with pci := (n.pciSide c r v).pci } := by
  unfold Nic.pciSide
  split <;> rfl

/-- `PCI_COMMAND` once the block has written it is not the device's (R356). -/
theorem Nic.pciSide_command (c : Config) (n : Nic) {v : W32} (w : W32)
    (h : Store.get? n.pci (c.pciOff .command) = some ⟨true, v⟩) : n.pciSide c .command w = n := by
  simp [Nic.pciSide, h]

/-! Writes on their way (R51). -/

@[simp] theorem Nic.drain_of_posted_nil (c : Config) {n : Nic} (h : n.posted = []) : n.drain c = n := by
  obtain ⟨regs, pci, era, usable, posted, hold, lag, rxHeads, txQueues, sent⟩ := n
  subst h
  rfl

/-- To a settled NIC a write arrives at once. -/
theorem Nic.post_of_settled (c : Config) {n : Nic} {now : Nat} (h : n.settledAt now) (w : RegWrite) :
    n.post c w = n.write c w := by simp [Nic.post, h.2.1, h.2.2]

/-- To a NIC whose writes wait it arrives behind those posted before. -/
theorem Nic.post_of_hold (c : Config) {n : Nic} (h : n.hold = true) (w : RegWrite) :
    n.post c w = { n with posted := n.posted ++ [w] } := by simp [Nic.post, h]

/-- The NICs after a register write left the block. -/
theorem State.nic_postWrite (s : State) (bdf bdf' : W16) (off : Nat) (v : W32) :
    (s.postWrite bdf off v).nic bdf' =
      if bdf' = bdf then (s.nic bdf).post s.cfg ⟨s.micros, s.now, off, v⟩ else s.nic bdf' :=
  s.nic_setNic _ _ _

/-- The NICs once the writes posted toward one of them have arrived. -/
theorem State.nic_drainNic (s : State) (bdf bdf' : W16) :
    (s.drainNic bdf).nic bdf' = if bdf' = bdf then (s.nic bdf).drain s.cfg else s.nic bdf' := by
  rw [State.drainNic]
  split
  · rename_i h
    split
    · rename_i e
      rw [e, Nic.drain_of_posted_nil _ h]
    · rfl
  · exact s.nic_setNic _ _ _

/-- With no write on its way a read changes nothing of the NIC. -/
theorem State.drainNic_of_posted_nil {s : State} {bdf : W16} (h : (s.nic bdf).posted = []) : s.drainNic bdf = s := by
  simp [State.drainNic, h]

/-! Handles. -/

/-- The handle of a device after a handle got new contents. -/
theorem State.handle_setHandle (s : State) (dev dev' : BitVec 8) (h : Handle) :
    (s.setHandle dev h).handle dev' = if dev' = dev then h else s.handle dev' := by
  simp only [State.handle, State.setHandle_handles, Store.get?_put]
  by_cases e : dev' = dev
  · simp [e]
  · have : dev'.toNat ≠ dev.toNat := fun he => e (BitVec.eq_of_toNat_eq he)
    simp [e, this]

@[simp] theorem State.handle_setHandle_self (s : State) (dev : BitVec 8) (h : Handle) :
    (s.setHandle dev h).handle dev = h := by simp [State.handle_setHandle]

@[simp] theorem State.nic_setHandle (s : State) (dev : BitVec 8) (h : Handle) (bdf : W16) :
    (s.setHandle dev h).nic bdf = s.nic bdf := rfl

@[simp] theorem State.handle_setNic (s : State) (bdf : W16) (n : Nic) (dev : BitVec 8) :
    (s.setNic bdf n).handle dev = s.handle dev := rfl

@[simp] theorem State.nic_log (s : State) (a : Access) (bdf : W16) : (s.log a).nic bdf = s.nic bdf := rfl

@[simp] theorem State.handle_log (s : State) (a : Access) (dev : BitVec 8) : (s.log a).handle dev = s.handle dev := rfl

end Sys2Proof.Machine
end

