-- ==== Sys2Proof/Tests/Slice0.lean ====
section
/-! SUPPORT. Tests: what `WellFormed` refuses, the command words of `95_test_vectors.md` V1.1 to V1.24, one or two
one-step tests for each command with expected values from that file or computed by hand from the rules, and for
each statement with hypotheses a state that meets them. -/

namespace Sys2Proof.Machine

-- One theorem at a time: a thread for each does not fit the memory limit the package is compiled under.
set_option Elab.async false

/-! States. -/

/-- A small legal configuration with the default register map. -/
def tiny : Config :=
  { Config.spec with
    ringSize := 128, bufSize := 64, transmitPeriod := 4, processPeriod := 2, headStride := 64, rxQueueCount := 2,
    txQueueCount := 2, pollAttempts := 2, nDev := 2, rsPhase := 3
    init := { InitValues.spec 64 with nUnicast := 2, nVlan := 2, nVlanBmp := 2, nMulticast := 2, n5tuple := 2 } }

/-- A block whose physical place is `0x100000000` above its address (the fixture of `95_test_vectors.md` 2.0). -/
def blockAt (b size : Nat) : Block := ⟨BitVec.ofNat 64 b, size, BitVec.ofNat 64 (b + 0x100000000), []⟩

/-- The allocator's answer for such a block. -/
def grantAt (b : Nat) : Grant := ⟨(blockAt b 0).base, (blockAt b 0).phys, []⟩

/-- The sentinel of the flushed delimiter, in both configurations. -/
abbrev unflushed : W64 := 0xFFFFFFFFFFFFFFFF

/-- The handles of the fixture: `dev 0` at `03:00.0`, `dev 1` at `04:00.0`. -/
def twoDevices (ls : DevLife) : List (Nat × Handle) :=
  [(0, ⟨ls, 0x0300, 0x7F0000000000, false, 0⟩), (1, ⟨ls, 0x0400, 0x7F0000020000, false, 0⟩)]

/-- Both devices of the fixture in one lifecycle state. -/
def devices (c : Config) (ls : DevLife) : State := { State.reset with cfg := c, handles := twoDevices ls }

/-- Registers written by the block, by register, index and value. -/
def regsAt (c : Config) (l : List (DevReg × Nat × W32)) : List (Nat × RegCell) :=
  l.foldl (fun m x => Store.put m (c.off x.1 x.2.1) ⟨true, x.2.2⟩) []

/-- The state with these register values in the NIC of a PCI identity. -/
def withRegs (s : State) (bdf : W16) (l : List (DevReg × Nat × W32)) : State :=
  s.setNic bdf { Nic.powerOn with regs := regsAt s.cfg l }

/-- The state with these PCI configuration registers in the NIC of a PCI identity. -/
def withPci (s : State) (bdf : W16) (l : List (Nat × W32)) : State :=
  s.setNic bdf { Nic.powerOn with pci := l.map fun x => (x.1, ⟨false, x.2⟩) }

/-- The state with `n` bytes of memory at `a` holding `v`. -/
def withBytes (s : State) (a n v : Nat) : State := { s with mem := Memory.writeLE s.mem a n v }

/-- The six blocks of the default configuration, the newest first. -/
def specBlocks : List Block :=
  [blockAt 0x400000 1024, blockAt 0x200000 2097152, blockAt 0x10C000 16384, blockAt 0x108000 16384,
    blockAt 0x104000 16384, blockAt 0x100000 16384]

/-- The six blocks of the small configuration, the newest first. -/
def tinyBlocks : List Block :=
  [blockAt 0x30000 256, blockAt 0x20000 8192, blockAt 0x11800 2048, blockAt 0x11000 2048, blockAt 0x10800 2048,
    blockAt 0x10000 2048]

/-- The engine of the fixture with the default configuration, `oc` outputs bound and an input. -/
def specEngine (pd fd : W64) (oc : Nat) : State :=
  { devices Config.spec .initialized with
    es := .constructed
    blocks := specBlocks
    eng := ⟨pd, fd, BitVec.ofNat 64 oc, 0x7F0000001018, true, #v[0x7F0000026018, 0x7F0000026158, 0, 0],
      #v[0x100000, 0x104000, 0x108000, 0x10C000], 0x200000, 0x400000⟩ }

/-- An engine of the small configuration, `oc` outputs bound, and an input bound if `rtaV`. -/
def tinyEngine (pd fd : W64) (oc : Nat) (rtaV : Bool) : State :=
  { devices tiny .initialized with
    es := .constructed
    blocks := tinyBlocks
    eng := ⟨pd, fd, BitVec.ofNat 64 oc, 0x7F0000001018, rtaV, #v[0x7F0000026018, 0x7F0000026058, 0, 0],
      #v[0x10000, 0x10800, 0x11000, 0x11800], 0x20000, 0x30000⟩ }

/-- The small engine with a 32-byte packet in slot 2 (word 1 = `0x100000020`). -/
def tinyPacket : State := withBytes (tinyEngine 2 1 2 true) 0x10028 8 0x100000020

/-! Outcomes. -/

/-- The state of an outcome; the power-on state where there is none. -/
def after (o : Host.Outcome State Fault Refusal) : State :=
  match o with
  | .next s => s
  | .fault _ => State.reset
  | .refused _ => State.reset

/-- The outcome is a next state. -/
def isNext (o : Host.Outcome State Fault Refusal) : Bool :=
  match o with
  | .next _ => true
  | .fault _ => false
  | .refused _ => false

theorem next_after {o : Host.Outcome State Fault Refusal} (h : isNext o = true) : o = .next (after o) := by
  cases o <;> first | rfl | cases h

/-- The response of a command: result code and values. -/
def answer (o : Host.Outcome State Fault Refusal) : Option (Nat × Nat × Nat) :=
  match o with
  | .next s => s.resp.map fun r => (r.res.toNat, r.val0.toNat, r.val1.toNat)
  | .fault _ => none
  | .refused _ => none

/-- The register reads and writes of a command, in order: whether it wrote, the address, the value. -/
def registerAccesses (o : Host.Outcome State Fault Refusal) : List (Bool × Nat × Nat) :=
  (after o).trace.reverse.filterMap fun a =>
    match a with
    | .mmioRead a v => some (false, a.toNat, v.toNat)
    | .mmioWrite a v => some (true, a.toNat, v.toNat)
    | _ => none

/-- The stop of an outcome, if it is one. -/
def stop (o : Host.Outcome State Fault Refusal) : Option (Fault ⊕ Refusal) :=
  match o with
  | .next _ => none
  | .fault f => some (.inl f)
  | .refused r => some (.inr r)

/-! WellFormed refuses: a device index that is not below `N_DEV` (2 here), for every command that has one; a field of
another register; an index past the end of a register array. -/

theorem test_wellFormed_devOpen : (Instr.devOpen 2 0).wellFormed tiny = false := by decide
theorem test_wellFormed_devReset : (Instr.devReset 2).wellFormed tiny = false := by decide
theorem test_wellFormed_devInit : (Instr.devInit 255).wellFormed tiny = false := by decide
theorem test_wellFormed_setPromisc : (Instr.setPromisc 2 true).wellFormed tiny = false := by decide
theorem test_wellFormed_regRead_dev : (Instr.regRead 2 (.dev .ctrl none) 0).wellFormed tiny = false := by decide
theorem test_wellFormed_regRead_field :
    (Instr.regRead 0 (.dev .ctrl (some .rxen)) 0).wellFormed Config.spec = false := by decide
theorem test_wellFormed_regRead_index : (Instr.regRead 0 (.dev .rdt none) 128).wellFormed Config.spec = false := by decide
theorem test_wellFormed_regRead_pciField :
    (Instr.regRead 0 (.pci .id (some .powerState)) 0).wellFormed Config.spec = false := by decide
theorem test_wellFormed_regWrite_dev : (Instr.regWrite 2 (.dev .ctrl none) 0 0).wellFormed tiny = false := by decide
theorem test_wellFormed_regWrite_field :
    (Instr.regWrite 0 (.dev .status (some .rst)) 0 1).wellFormed Config.spec = false := by decide
theorem test_wellFormed_regWrite_index :
    (Instr.regWrite 0 (.dev .pfvlvf none) 64 0).wellFormed Config.spec = false := by decide
theorem test_wellFormed_bindInput : (Instr.bindInput 2).wellFormed tiny = false := by decide
theorem test_wellFormed_bindOutput : (Instr.bindOutput 2 0).wellFormed tiny = false := by decide

/-! The words V1.1 to V1.19: at least one for every constructor. -/

theorem test_decode_devOpen :
    decode Config.spec ⟨0x0000030000000001, 0⟩ = .ok (.devOpen 0 0x0300) ∧
    decode Config.spec ⟨0x0000040000000101, 0⟩ = .ok (.devOpen 1 0x0400) := ⟨rfl, rfl⟩
theorem test_decode_devReset : decode Config.spec ⟨0x0000000000000102, 0⟩ = .ok (.devReset 1) := rfl
theorem test_decode_devInit : decode Config.spec ⟨0x0000000000000003, 0⟩ = .ok (.devInit 0) := rfl
theorem test_decode_setPromisc :
    decode Config.spec ⟨0x0000000000010004, 0⟩ = .ok (.setPromisc 0 true) ∧
    decode Config.spec ⟨0x0000000000000004, 0⟩ = .ok (.setPromisc 0 false) := ⟨rfl, rfl⟩
theorem test_decode_regRead :
    decode Config.spec ⟨0x00000000140C0008, 0⟩ = .ok (.regRead 0 (.dev .rxdctl (some .rxdctlEnable)) 0) ∧
    decode Config.spec ⟨0x0000000300170108, 0⟩ = .ok (.regRead 1 (.dev .tdt none) 3) ∧
    decode Config.spec ⟨0x0000000000800008, 0⟩ = .ok (.regRead 0 (.pci .id none) 0) := ⟨rfl, rfl, rfl⟩
theorem test_decode_regWrite :
    decode Config.spec ⟨0x0000000016110009, 1⟩ = .ok (.regWrite 0 (.dev .srrctl (some .dropEn)) 0 1) := rfl
theorem test_decode_engConstruct : decode Config.spec ⟨0x0000000000000010, 0⟩ = .ok .engConstruct := rfl
theorem test_decode_bindInput : decode Config.spec ⟨0x0000000000000011, 0⟩ = .ok (.bindInput 0) := rfl
theorem test_decode_bindOutput :
    decode Config.spec ⟨0x0000000000000112, 0⟩ = .ok (.bindOutput 1 0) ∧
    decode Config.spec ⟨0x0000000000050112, 0⟩ = .ok (.bindOutput 1 5) := ⟨rfl, rfl⟩
theorem test_decode_receive : decode Config.spec ⟨0x0000000000000018, 0⟩ = .ok .receive := rfl
theorem test_decode_transmit :
    decode Config.spec ⟨0x0001004000000019, 0⟩ = .ok (.transmit 64 0b0001) ∧
    decode Config.spec ⟨0x0002004000000019, 0⟩ = .ok (.transmit 64 0b0010) ∧
    decode Config.spec ⟨0x000305DC00000019, 0⟩ = .ok (.transmit 1500 0b0011) := ⟨rfl, rfl, rfl⟩
theorem test_decode_process : decode Config.spec ⟨0x000000000000001A, 0⟩ = .ok .process := rfl

/-- V1.20 to V1.24, and a device index past the table. -/
theorem test_decode_refuses :
    decode Config.spec ⟨0x05, 0⟩ = .error .unknownOpcode ∧
    decode Config.spec ⟨0x0010000000000018, 0⟩ = .error .reservedBits ∧
    decode Config.spec ⟨0x0118, 0⟩ = .error .reservedBits ∧ decode Config.spec ⟨0x0018, 1⟩ = .error .reservedBits ∧
    decode Config.spec ⟨0x0000000000020004, 0⟩ = .error .reservedBits ∧
    decode tiny ⟨0x0000000000000202, 0⟩ = .error .deviceRange := ⟨rfl, rfl, rfl, rfl, rfl, rfl⟩

/-- The words of the opcode table's rows with every operand bit 0 decode (R112). -/
theorem test_decodeTableWord :
    decodeTableWord 64 0x08 = some (.regRead 0 (.dev .ctrl none) 0) ∧
    decodeTableWord 96 0x000000010000000016110009 = some (.regWrite 0 (.dev .srrctl (some .dropEn)) 0 1) :=
  ⟨rfl, rfl⟩

/-! One step of each command. -/

/-- V3.0: the example of R191. -/
def answersOpen : State :=
  withPci (devices Config.spec .unmapped) 0x0300
    [(0x00, 0x10FB8086), (0x04, 0), (0x10, 0xF7E0000C), (0x14, 0), (0x44, 0x00002008)]

/-- The mapping of the window of `dev 0`. -/
def withWindow (s : State) : State := { s with maps := [⟨0xF7E00000, 131072, 0x7F0000000000⟩] }

/-- V3.0. -/
theorem test_devOpen_passes :
    let o := exec (.devOpen 0 0x0300) (withWindow answersOpen)
    answer o = some (0, 0, 0) ∧ (after o).handle 0 = ⟨.validated, 0x0300, 0x7F0000000000, false, 0⟩ ∧
    (after o).micros = 11 ∧ ((after o).nic 0x0300).pciRead 0x04 = 0x0406 := by decide +kernel

/-- R181: the encoding of D0 is the configuration's: `POWER_STATE` 0 is rejected where it is 3. -/
theorem test_devOpen_other_d0_encoding :
    answer (exec (.devOpen 0 0x0300) { withWindow answersOpen with cfg := { Config.spec with pciD0 := 3 } }) =
      some (3, 0, 0) := by decide +kernel

/-- R72: a window that starts two bytes into another has no register at that one's register addresses. -/
theorem test_windowAt_unaligned_overlap :
    ({ devices Config.spec .initialized with
      handles := [(0, ⟨.initialized, 0x0300, 0x7F0000020002, false, 0⟩),
        (1, ⟨.initialized, 0x0400, 0x7F0000020000, false, 0⟩)] } : State).windowAt 0x7F0000026018 =
      some (0x0400, 0x6018) := by decide +kernel

/-- R348: `RXDCTL[152]`, whose offset would be that of `FTQF[10]`, is no register the NIC may change. -/
theorem test_regSide_outside_index_range :
    let n := (withRegs (devices Config.spec .initialized) 0x0300 [(.ftqf, 10, 7)]).nic 0x0300
    Config.spec.off .rxdctl 152 = Config.spec.off .ftqf 10 ∧
    n.regSide Config.spec .rxdctl 152 0xFFFFFFFF = n := by decide +kernel

/-- V3.0d: an I/O BAR is rejected with the high half unread; the command register stays set. -/
theorem test_devOpen_rejects_io_bar :
    let o := exec (.devOpen 0 0x0300)
      (withPci (devices Config.spec .unmapped) 0x0300 [(0x00, 0x10FB8086), (0x10, 0x0000E001), (0x44, 0x2008)])
    answer o = some (3, 0, 0) ∧ ((after o).handle 0).ls = .unmapped ∧ (after o).micros = 9 ∧
    ((after o).nic 0x0300).pciRead 0x04 = 0x0406 := by decide +kernel

/-- V3.1, with two receive queues: the queue loop, the master disable and the device reset. -/
theorem test_devReset_accesses :
    let o := exec (.devReset 0) (devices tiny .validated)
    answer o = some (0, 0, 0) ∧ ((after o).handle 0).ls = .reset ∧
    registerAccesses o =
      [(false, 0x7F0000001028, 0), (true, 0x7F0000001028, 0), (false, 0x7F0000001028, 0),
       (false, 0x7F0000001068, 0), (true, 0x7F0000001068, 0), (false, 0x7F0000001068, 0),
       (false, 0x7F0000000000, 0), (true, 0x7F0000000000, 0x4), (false, 0x7F0000000008, 0),
       (false, 0x7F0000000000, 0x4), (true, 0x7F0000000000, 0x04000004)] := by decide +kernel

/-- The small machine before DEV_RESET, `STATUS` and `PCI_DEVICESTATUS` of `dev 0` having these values. -/
def beforeReset (status pending : W32) : State :=
  let s := withRegs (devices tiny .validated) 0x0300 [(.status, 0, status)]
  s.setNic 0x0300 { s.nic 0x0300 with pci := [(0xAA, ⟨false, pending⟩)] }

/-- V3.5, with two polls: `STATUS` bit 19 stays set and a transaction is pending, so that the buffers are flushed. -/
theorem test_devReset_flushes :
    let o := exec (.devReset 0) (beforeReset 0x80000 0x20)
    answer o = some (0, 0, 0) ∧
    (registerAccesses o).drop 8 =
      [(false, 0x7F0000000008, 0x80000), (false, 0x7F0000000008, 0x80000),
       (false, 0x7F0000004240, 0), (true, 0x7F0000004240, 0x8000),
       (false, 0x7F0000011050, 0), (true, 0x7F0000011050, 0x40000000),
       (false, 0x7F0000004240, 0x8000), (true, 0x7F0000004240, 0),
       (false, 0x7F0000011050, 0x40000000), (true, 0x7F0000011050, 0),
       (false, 0x7F0000000000, 0x4), (true, 0x7F0000000000, 0x04000004)] := by decide +kernel

/-- The registers DEV_INIT waits for (V4.1). -/
def readyForInit : State := withRegs (devices tiny .reset) 0x0300 [(.eec, 0, 0x300), (.rdrxctl, 0, 0x8)]

/-- V4.1 from step I10 on. -/
theorem test_devInit_accesses :
    let o := exec (.devInit 0) readyForInit
    answer o = some (0, 0, 0) ∧ ((after o).handle 0).ls = .initialized ∧
    ((registerAccesses o).drop 14).filter (fun a => a.1 && a.2.2 != 0) =
      [(true, 0x7F0000003C00, 0x80000), (true, 0x7F0000003260, 0x7A000), (true, 0x7F0000002F00, 0xA),
       (true, 0x7F0000002F00, 0xA), (true, 0x7F0000002F00, 0x0200000A), (true, 0x7F0000002F00, 0x0600000A),
       (true, 0x7F0000004294, 0x8), (true, 0x7F0000004900, 0x40), (true, 0x7F0000004950, 0x9F),
       (true, 0x7F0000008100, 0xFFF)] := by decide +kernel

/-- V4.3: the EEPROM is read and not present. -/
theorem test_devInit_without_eeprom :
    let o := exec (.devInit 0) (withRegs (devices tiny .reset) 0x0300 [(.eec, 0, 0x200)])
    answer o = some (3, 0, 0) ∧ ((after o).handle 0).ls = .failed ∧
    (registerAccesses o).filter (fun a => a.1) = [(true, 0x7F0000000888, 0x7FFFFFFF)] := by decide +kernel

/-- V4.6. -/
theorem test_setPromisc_brackets_receive :
    let o := exec (.setPromisc 0 true)
      (withRegs (devices Config.spec .initialized) 0x0300 [(.rxctrl, 0, 1), (.fctrl, 0, 0x400)])
    answer o = some (0, 0, 0) ∧
    registerAccesses o =
      [(false, 0x7F0000003000, 1), (false, 0x7F0000003000, 1), (true, 0x7F0000003000, 0),
       (false, 0x7F0000005080, 0x400), (true, 0x7F0000005080, 0x600),
       (false, 0x7F0000005080, 0x600), (true, 0x7F0000005080, 0x700),
       (false, 0x7F0000003000, 0), (true, 0x7F0000003000, 1)] := by decide +kernel

/-- V4.8. -/
theorem test_setPromisc_off :
    let o := exec (.setPromisc 0 false) (withRegs (devices Config.spec .initialized) 0x0300 [(.fctrl, 0, 0x700)])
    answer o = some (0, 0, 0) ∧
    registerAccesses o =
      [(false, 0x7F0000003000, 0), (false, 0x7F0000005080, 0x700), (true, 0x7F0000005080, 0x500),
       (false, 0x7F0000005080, 0x500), (true, 0x7F0000005080, 0x400)] := by decide +kernel

/-- V2.20. -/
theorem test_regRead_field :
    answer (exec (.regRead 0 (.dev .rxdctl (some .rxdctlEnable)) 0)
      (withRegs (devices Config.spec .validated) 0x0300 [(.rxdctl, 0, 0x02000000)])) = some (0, 1, 0) := by
  decide +kernel

/-- V2.24. -/
theorem test_regRead_unmapped :
    let o := exec (.regRead 2 (.dev .ctrl none) 0) (devices Config.spec .initialized)
    answer o = some (4, 0, 0) ∧ registerAccesses o = [] := by decide +kernel

/-- R378: a register id that names nothing, of a device that is not mapped, and of one that is. -/
theorem test_regRead_illegal_operand :
    let s := fun cmd => { devices Config.spec .validated with port := [⟨cmd, 0⟩] }
    answer (step (s 0x0000000000280508)) = some (4, 0, 0) ∧
    stop (step (s 0x0000000000280008)) = some (.inr .badRegisterOperand) := by decide +kernel

/-- R51: `RXEN` is cleared, the write waits, a packet is delivered to slot 2 before it arrives, and RECEIVE reports
it. -/
theorem test_posted_write_waits :
    let s := withRegs (tinyEngine 2 2 1 true) 0x0300
      [(.rdbah, 0, 1), (.rdbal, 0, 0x10000), (.rdt, 0, 127), (.rxdctl, 0, 0x02000000), (.rxctrl, 0, 1)]
    let s := withBytes (s.setNic 0x0300 { s.nic 0x0300 with rxHeads := [(0, 2)], hold := true }) 0x10020 8 0x100020080
    let t := after (exec (.regWrite 0 (.dev .rxctrl none) 0 0) s)
    let u := { t with agenda := [⟨0, .rxDeliver 0x0300 0 [7, 8] 0⟩] }
    let v := (AgentAct.arrive 0x0300).apply
      (s.setNic 0x0300 { s.nic 0x0300 with posted := [⟨0, 0, 0x3000, 0⟩] })
    answer (exec .receive u) = some (0, 0x8000000000000002, 0x20080) ∧
    v.rxDeliver 0x0300 0 [7, 8] 0 = v := by decide +kernel

/-- V2.22. -/
theorem test_regWrite_field :
    registerAccesses (exec (.regWrite 0 (.dev .srrctl (some .dropEn)) 0 1)
      (withRegs (devices Config.spec .validated) 0x0300 [(.srrctl, 0, 0x402)])) =
      [(false, 0x7F0000001014, 0x402), (true, 0x7F0000001014, 0x10000402)] := by decide +kernel

/-- V2.25. -/
theorem test_regWrite_pciField :
    ((after (exec (.regWrite 0 (.pci .command (some .interruptDisable)) 0 1)
      (withPci (devices Config.spec .validated) 0x0300 [(4, 6)]))).nic 0x0300).pciRead 4 = 0x406 := by decide +kernel

/-- The allocator's answers of the fixture. -/
def specGrants : List (Option Grant) := specBlocks.reverse.map fun b => some ⟨b.base, b.phys, b.gaps⟩

/-- V5.1. -/
theorem test_engConstruct_passes :
    let t := after (exec .engConstruct { State.reset with grants := specGrants })
    t.es = .constructed ∧ t.eng.pd = 0 ∧ t.eng.fd = 0xFFFFFFFFFFFFFFFF ∧ t.eng.oc = 0 ∧ t.eng.rtaV = false ∧
    t.eng.heads = 0x400000 := by decide +kernel

/-- V5.3: the fifth call fails. -/
theorem test_engConstruct_unwinds :
    let o := exec .engConstruct { State.reset with grants := specGrants.take 4 ++ [none] }
    answer o = some (1, 0, 0) ∧ (after o).es = .unconstructed ∧ (after o).blocks = [] ∧
    (after o).trace.take 5 = [.free 0x100000, .free 0x104000, .free 0x108000, .free 0x10C000, .alloc 2097152 none] := by
  decide +kernel

/-- R265 (b), R77: the pool and the head array are misaligned both ways. -/
theorem test_engConstruct_accepts_any_placement :
    answer (exec .engConstruct { State.reset with
      grants := specGrants.take 4 ++ [some ⟨0x200001, 0x300000003, []⟩, some ⟨0x500005, 0x400000007, []⟩] }) =
      some (0, 0, 0) := by decide +kernel

/-- R78, U13: the third ring is misaligned physically. -/
theorem test_engConstruct_refuses_misaligned :
    stop (exec .engConstruct
      { State.reset with grants := specGrants.take 2 ++ [some ⟨0x108000, 0x100108040, []⟩] }) =
      some (.inr .misalignedBlock) := by decide +kernel

/-- V6.1. -/
theorem test_bindInput_accesses :
    let s := withRegs { specEngine 0 0 0 with eng := { (specEngine 0 0 0).eng with rtaV := false } } 0x0300
      [(.secrxstat, 0, 1)]
    let o := exec (.bindInput 0) s
    answer o = some (0, 0, 0) ∧ (after o).eng.rta = 0x7F0000001018 ∧ (after o).eng.rtaV = true ∧
    (registerAccesses o).filter (fun a => a.1) =
      [(true, 0x7F0000001004, 1), (true, 0x7F0000001000, 0x100000), (true, 0x7F0000001008, 0x4000),
       (true, 0x7F0000001014, 2), (true, 0x7F0000001014, 0x10000002), (true, 0x7F0000001028, 0x02000000),
       (true, 0x7F0000001018, 0x3FF), (true, 0x7F0000008D00, 2), (true, 0x7F0000003000, 1),
       (true, 0x7F0000008D00, 0), (true, 0x7F0000000018, 0x10000), (true, 0x7F000000100C, 0x1000)] := by
  decide +kernel

/-- V6.2d: the receive path never drains. -/
theorem test_bindInput_never_drains :
    let o := exec (.bindInput 0) (devices tiny .initialized |> fun s => { s with
      es := .constructed, blocks := tinyBlocks, eng := (tinyEngine 0 unflushed 0 false).eng })
    answer o = some (2, 0, 0) ∧ (after o).eng.rtaV = false ∧
    ((after o).nic 0x0300).reg tiny 0x08D00 = 2 := by decide +kernel

/-- V6.3, with 128 slots of 64 bytes: slot 127 lies at physical `0x100020000 + 64 * 127`. -/
theorem test_bindOutput_passes :
    let o := exec (.bindOutput 1 0) (withRegs (tinyEngine 0 unflushed 0 false) 0x0400 [(.dcatxctrl, 0, 0x0A00)])
    answer o = some (0, 0, 0) ∧ (after o).eng.oc = 1 ∧ (after o).eng.tta[0] = 0x7F0000026018 ∧
    Access.memWrite false 0x107F0 8 0x100021FC0 ∈ (after o).trace ∧
    (registerAccesses o).filter (fun a => a.1) =
      [(true, 0x7F0000026004, 1), (true, 0x7F0000026000, 0x10000), (true, 0x7F0000026008, 2048),
       (true, 0x7F0000026028, 0x3C), (true, 0x7F0000026028, 0x43C), (true, 0x7F000002603C, 1),
       (true, 0x7F0000026038, 0x30001), (true, 0x7F000002600C, 0x200), (true, 0x7F0000024A80, 1),
       (true, 0x7F0000026028, 0x0200043C)] := by decide +kernel

/-- The small engine, its head array at a physical address that is not a multiple of 16. -/
def oddHeads : State :=
  { tinyEngine 0 unflushed 0 false with
    blocks := ⟨0x30000, 256, 0x100030008, []⟩ :: tinyBlocks.tail }

/-- V6.4. -/
theorem test_bindOutput_odd_head :
    let o := exec (.bindOutput 1 0) oddHeads
    answer o = some (4, 0, 0) ∧ (after o).eng.oc = 0 ∧
    (registerAccesses o).filter (fun a => a.1) =
      [(true, 0x7F0000026004, 1), (true, 0x7F0000026000, 0x10000), (true, 0x7F0000026008, 2048),
       (true, 0x7F0000026028, 0x3C), (true, 0x7F0000026028, 0x43C)] := by decide +kernel

/-- V7.6, V1.25. -/
theorem test_receive_reports :
    answer (exec .receive (withBytes (specEngine 1023 1 2) 0x103FF8 8 0x00000003800005EA)) =
      some (0, 0x80000000000005EA, 0x3FF800) := by decide +kernel

/-- V7.2. -/
theorem test_receive_flushes :
    let o := exec .receive (specEngine 5 1 2)
    answer o = some (0, 0, 0) ∧ (after o).eng.fd = unflushed ∧ (after o).eng.pd = 5 ∧
    registerAccesses o = [(true, 0x7F0000026018, 5), (true, 0x7F0000026158, 5)] := by decide +kernel

/-- V8.7, the example of R324. -/
theorem test_transmit_rs_slot :
    let o := exec (.transmit 64 0b10) (withBytes (withBytes (specEngine 63 57 2) 0x400000 4 60) 0x400100 4 3)
    Memory.readLE (after o).mem 0x1003F8 8 = 0x0B000000 ∧ Memory.readLE (after o).mem 0x1043F8 8 = 0x0B000040 ∧
    (after o).eng.pd = 64 ∧ (after o).eng.fd = 57 ∧ registerAccesses o = [(true, 0x7F0000001018, 2)] := by
  decide +kernel

/-- V8.18: the wrap, a flush and the scan. -/
theorem test_transmit_wraps :
    let o := exec (.transmit 100 1) (withBytes (specEngine 1023 1016 1) 0x400000 4 960)
    Memory.readLE (after o).mem 0x103FF8 8 = 0x0B000064 ∧ (after o).eng.pd = 0 ∧ (after o).eng.fd = 0 ∧
    (after o).micros = 4 ∧ registerAccesses o = [(true, 0x7F0000026018, 0), (true, 0x7F0000001018, 959)] := by
  decide +kernel

/-- V9.3: the handler shortens the packet. -/
theorem test_process_forwards :
    let o := exec .process
      { withBytes (specEngine 0 unflushed 1) 0x100008 8 0x100000040 with handlerQ := [.returns 60 1 []] }
    answer o = some (0, 0, 0) ∧ Memory.readLE (after o).mem 0x100008 8 = 0x0300003C ∧ (after o).eng.pd = 1 ∧
    (after o).eng.fd = 1 ∧ registerAccesses o = [(true, 0x7F0000026018, 1)] := by decide +kernel

/-- V9.5: the handler returns more than a buffer. -/
theorem test_process_refuses_long_answer :
    stop (exec .process
      { withBytes (specEngine 0 unflushed 1) 0x100008 8 0x100000040 with handlerQ := [.returns 4000 1 []] }) =
      some (.inr .handlerBrokeContract) := by decide +kernel

/-! For every statement with hypotheses, a state and operands that meet all of them, for each of its cases. -/

theorem tiny_standard : StandardConfig tiny := ⟨by decide +kernel, rfl, by decide, by decide⟩

theorem spec_standard : StandardConfig Config.spec := ⟨by decide +kernel, rfl, by decide, by decide⟩

theorem settled_of {s : State} {dev : BitVec 8}
    (h : (s.nic (s.handle dev).bdf).usable ≤ s.now ∧ (s.nic (s.handle dev).bdf).hold = false ∧
      (s.nic (s.handle dev).bdf).posted = []) : s.settled dev := h

theorem not_prompt_of {s : State} {dev : BitVec 8} (h : ¬ (s.nic (s.handle dev).bdf).lag = false) : ¬ s.prompt dev := h

theorem prompt_of {s : State} {dev : BitVec 8} (h : (s.nic (s.handle dev).bdf).lag = false) : s.prompt dev := h

/-- What `EngineOk` says, as something to decide. -/
theorem engineOk_of {s : State}
    (h : s.eng.pd.toNat < s.cfg.ringSize ∧ (s.eng.fd = s.cfg.flushedNone ∨ s.eng.fd.toNat < s.cfg.ringSize) ∧
      s.eng.oc.toNat ≤ outputsMax ∧ (∀ r ∈ engineRegions s, ∃ b ∈ s.blocks, b.base = r.1 ∧ b.size = r.2) ∧
      (∀ n : Fin 4, s.eng.ring[n].toNat % ringAlign = 0 ∧
        ∀ b ∈ s.blocks, b.base = s.eng.ring[n] → b.phys.toNat % ringAlign = 0) ∧
      (engineRegions s).Pairwise (fun a b => overlap a.1.toNat a.2 b.1.toNat b.2 = false) ∧
      (s.eng.rtaV = true → ∃ e ∈ s.handles, e.2.ls = .initialized ∧
        s.eng.rta = e.2.base + BitVec.ofNat 64 (s.cfg.off .rdt s.cfg.rxQueue)) ∧
      ∀ n : Fin 4, n.val < s.eng.oc.toNat → ∃ e ∈ s.handles, e.2.ls = .initialized ∧
        ∃ q, q < s.cfg.txQueueCount ∧ s.eng.tta[n] = e.2.base + BitVec.ofNat 64 (s.cfg.off .tdt q)) :
    EngineOk s :=
  ⟨h.1, h.2.1, h.2.2.1, h.2.2.2.1, h.2.2.2.2.1, h.2.2.2.2.2.1, h.2.2.2.2.2.2.1, h.2.2.2.2.2.2.2⟩

/-- What `Inv` says, as something to decide. -/
theorem inv_of {s : State}
    (h : s.cfg.legal = true ∧ s.pc = Sequencer.idle ∧ Memory.wf s.mem = true ∧ Store.sorted s.handles = true ∧
      (∀ b ∈ s.blocks, 0 < b.size ∧ b.base.toNat + b.size ≤ 2 ^ 64 ∧ b.phys.toNat + b.size ≤ 2 ^ 64) ∧
      s.blocks.Pairwise (fun a b => overlap a.base.toNat a.size b.base.toNat b.size = false ∧
        overlap a.phys.toNat a.size b.phys.toNat b.size = false) ∧
      ∀ e ∈ s.nics, (∀ p ∈ e.2.rxHeads, p.2 < s.cfg.ringSize) ∧ ∀ p ∈ e.2.txQueues, p.2.head < s.cfg.ringSize)
    (he : s.es = .constructed → EngineOk s) : Inv s :=
  ⟨h.1, h.2.1, h.2.2.1, h.2.2.2.1, h.2.2.2.2.1, h.2.2.2.2.2.1, h.2.2.2.2.2.2, he⟩

/-- Two bound outputs, an input, a packet in the slot `PD`. -/
theorem inv_tinyPacket : Inv tinyPacket := inv_of (by decide +kernel) fun _ => engineOk_of (by decide +kernel)

/-- The last slot of a period and of the ring, with a flush due and heads written. -/
def tinyLast : State := withBytes (tinyEngine 127 126 2 true) 0x30000 4 3

theorem inv_tinyLast : Inv tinyLast := inv_of (by decide +kernel) fun _ => engineOk_of (by decide +kernel)

/-- No input, no output, the flushed delimiter at its sentinel. -/
def tinyFresh : State := tinyEngine 0 unflushed 0 false

theorem inv_tinyFresh : Inv tinyFresh := inv_of (by decide +kernel) fun _ => engineOk_of (by decide +kernel)

theorem witness_DecodeOfEncode :
    (Instr.regRead 255 (.dev .rxdctl (some .rxdctlEnable)) 127).wellFormed Config.spec = true := by decide

theorem witness_EncodeOfDecode : decode Config.spec ⟨0x0000007F140CFF08, 0⟩ =
    .ok (.regRead 255 (.dev .rxdctl (some .rxdctlEnable)) 127) := rfl

/-- Opcodes next to the ones that exist; a reserved bit; `DATA` where there is none; the first index out of range. -/
theorem witness_ReservedWordsRefused :
    let s := fun cmd data => { tinyPacket with port := [⟨cmd, data⟩] }
    let op := fun w : Command => (w.cmd.extractLsb' 0 8).toNat
    let ops := [0x01, 0x02, 0x03, 0x04, 0x08, 0x09, 0x10, 0x11, 0x12, 0x18, 0x19, 0x1A]
    ([0x00, 0x05, 0x07, 0x0A, 0x0F, 0x13, 0x17, 0x1B, 0xFF].all fun x =>
      (s x 0).port == ⟨x, 0⟩ :: [] && !ops.contains (op ⟨x, 0⟩)) = true ∧
    ((s 0x20004 0).port = ⟨0x20004, 0⟩ :: [] ∧ ∃ row, opRow (op ⟨0x20004, 0⟩) = some row ∧
      0x20004#64 &&& row.mask ≠ ((0x20004#64).extractLsb' 0 8).setWidth 64) ∧
    ((s 0x18 1).port = ⟨0x18, 1⟩ :: [] ∧ ∃ row, opRow (op ⟨0x18, 1⟩) = some row ∧ row.hasData = false ∧
      (1 : W32) ≠ 0) ∧
    ((s 0x0202 0).port = ⟨0x0202, 0⟩ :: [] ∧ ∃ row, opRow (op ⟨0x0202, 0⟩) = some row ∧ row.hasDev = true ∧
      (s 0x0202 0).cfg.nDev ≤ ((0x0202#64).extractLsb' 8 8).toNat) :=
  ⟨by decide +kernel, ⟨rfl, _, rfl, by decide +kernel⟩, ⟨rfl, _, rfl, rfl, by decide⟩, rfl, _, rfl, rfl, by decide⟩

/-- A register id that names nothing, a field of another register (on a device that is not mapped), the first index out
of range, and the two commands. -/
theorem witness_IllegalRegisterRefused :
    let s := fun cmd => { devices Config.spec .validated with port := [⟨cmd, 0⟩] }
    let refusedWord := fun (cmd : W64) (row : OpRow) => (s cmd).port = ⟨cmd, 0⟩ :: [] ∧
      opRow (cmd.extractLsb' 0 8).toNat = some row ∧ cmd.extractLsb' 0 8 = 0x08 ∧
      cmd &&& row.mask = (cmd.extractLsb' 0 8).setWidth 64 ∧ (cmd.extractLsb' 8 8).toNat < (s cmd).cfg.nDev
    (∃ row, refusedWord 0x0000000000280008 row ∧
      ∀ sel, regSelOf 0x28 0x00 = some sel → sel.legal Config.spec 0 = false) ∧
    (∃ row, refusedWord 0x000000000F0CFF08 row ∧
      ∀ sel, regSelOf 0x0C 0x0F = some sel → sel.legal Config.spec 0 = false) ∧
    (∃ row, refusedWord 0x00000080000C0008 row ∧
      ∀ sel, regSelOf 0x0C 0x00 = some sel → sel.legal Config.spec 128 = false) ∧
    (((s 0).handle 0).ls = .validated ∧ ((s 0).handle 0xFF).ls = .unmapped) ∧
    (accepts (.regRead 0 (.dev .rxdctl none) 128) (s 0) ∧ (RegSel.dev .rxdctl none).legal Config.spec 128 = false) ∧
    accepts (.regWrite 1 (.dev .rxdctl (some .rxen)) 0 1) (s 0) ∧
    (RegSel.dev .rxdctl (some .rxen)).legal Config.spec 0 = false := by
  refine ⟨⟨_, ⟨rfl, rfl, rfl, rfl, by decide +kernel⟩, ?_⟩, ⟨_, ⟨rfl, rfl, rfl, rfl, by decide +kernel⟩, ?_⟩,
    ⟨_, ⟨rfl, rfl, rfl, rfl, by decide +kernel⟩, ?_⟩, ⟨by decide, by decide⟩,
    ⟨⟨by decide, by decide, by decide⟩, rfl⟩, ⟨by decide, by decide, by decide⟩, rfl⟩
  · intro sel h; rw [show regSelOf 0x28 0x00 = none by decide +kernel] at h; cases h
  · intro sel h; rw [show regSelOf 0x0C 0x0F = some (.dev .rxdctl (some .rxen)) by decide +kernel] at h; cases h; rfl
  · intro sel h; rw [show regSelOf 0x0C 0x00 = some (.dev .rxdctl none) by decide +kernel] at h; cases h; rfl

theorem witness_StepRunsCommand :
    let s : State := { tinyPacket with port := [⟨0x18, 0⟩] }
    s.port = ⟨0x18, 0⟩ :: [] ∧ decode s.cfg ⟨0x18, 0⟩ = .ok .receive ∧ tinyPacket.port = [] ∧ tinyPacket.quiet :=
  ⟨rfl, rfl, rfl, rfl⟩

theorem witness_InvKeptByEveryStep :
    let s : State := { tinyPacket with port := [⟨0x0003002000000019, 0⟩] }
    Inv s ∧ step s = .next (after (step s)) ∧ (after (step s)).eng.pd = 3 :=
  ⟨inv_of (by decide +kernel) fun _ => engineOk_of (by decide +kernel), next_after (by decide +kernel),
    by decide +kernel⟩

theorem witness_NoAccessFault :
    let s : State := { tinyPacket with port := [⟨0x1A, 0⟩], handlerQ := [.never] }
    Inv s ∧ step s = .fault .handlerNeverReturns := by
  refine ⟨inv_of (by decide +kernel) fun _ => engineOk_of (by decide +kernel), ?_⟩
  generalize ho : step _ = o
  have h : stop o = some (.inl .handlerNeverReturns) := by subst ho; decide +kernel
  cases o <;> simp_all [stop]

/-- The largest mask, and PROCESS in each of its ends. -/
theorem witness_EveryCommandEnds :
    Inv tinyPacket ∧ (Instr.transmit 0xFFFF 0b1111).wellFormed tiny = true ∧
    isNext (exec (.transmit 0xFFFF 0b1111) tinyPacket) = true ∧ Inv { tinyPacket with handlerQ := [.never] } ∧
    stop (exec .process { tinyPacket with handlerQ := [.never] }) = some (.inl .handlerNeverReturns) :=
  ⟨inv_tinyPacket, rfl, by decide +kernel,
    inv_of (by decide +kernel) fun _ => engineOk_of (by decide +kernel), by decide +kernel⟩

/-- An answer at both bounds: a full buffer, and a write to its last byte. -/
theorem witness_HotPathEndsInBoundedSteps :
    let s : State := { tinyPacket with handlerQ := [.returns 64 0b10 [(63, 1)]] }
    Inv s ∧ accepts .receive s ∧ accepts (.transmit 64 0b10) s ∧ accepts .process s ∧ s.handlerOk :=
  ⟨inv_of (by decide +kernel) fun _ => engineOk_of (by decide +kernel), rfl, ⟨rfl, .inl rfl⟩, ⟨rfl, .inl rfl⟩,
    64, 0b10, [(63, 1)], [], rfl, by decide, by decide⟩

theorem witness_EveryCommandResponds : exec .receive tinyPacket = .next (after (exec .receive tinyPacket)) :=
  next_after (by decide +kernel)

/-- Not constructed; a Report-Status slot with no input bound; the wrong lifecycle state. -/
theorem witness_NotAcceptedChangesNothing :
    ¬ accepts .receive State.reset ∧ ¬ accepts (.transmit 64 1) (tinyEngine 3 1 0 false) ∧
    ¬ accepts (.devOpen 0 0x0300) (devices tiny .validated) ∧ ¬ accepts (.devReset 2) (devices tiny .validated) := by
  refine ⟨fun h => ?_, fun h => ?_, fun h => ?_, fun h => ?_⟩
  · cases (h : EngineLife.unconstructed = .constructed)
  · exact absurd h.2 (by decide)
  · exact absurd h.2 (by decide)
  · exact absurd h.1 (by decide)

theorem witness_ClockAndTraceOnlyGrow :
    let s : State := { tinyLast with port := [⟨0x0003002000000019, 0⟩] }
    step s = .next (after (step s)) := next_after (by decide +kernel)

theorem witness_WhoWritesTheEngine :
    exec (.transmit 64 3) tinyLast = .next (after (exec (.transmit 64 3) tinyLast)) ∧
    (after (exec (.transmit 64 3) tinyLast)).eng.pd = 0 := ⟨next_after (by decide +kernel), by decide +kernel⟩

theorem witness_LifecycleFollowsItsPath :
    let s := devices tiny .validated
    exec (.devReset 1) s = .next (after (exec (.devReset 1) s)) ∧
    ((after (exec (.devReset 1) s)).handle 1).ls = .reset := ⟨next_after (by decide +kernel), by decide +kernel⟩

/-- A field, its largest value, the first that does not fit, and the whole word as a field. -/
theorem witness_FieldInsertThenExtract :
    maskOk 0x7F00 = true ∧ (0x7F : W32).toNat ≤ (fieldOnes 0x7F00).toNat ∧
    ¬ (0x80 : W32).toNat ≤ (fieldOnes 0x7F00).toNat ∧ maskOk 0xFFFFFFFF = true := by decide +kernel

/-- The state, `dev 0`'s register writes waiting to arrive, these the ones on their way. -/
def holding (s : State) (l : List RegWrite) : State :=
  s.setNic 0x0300 { s.nic 0x0300 with hold := true, posted := l }

/-- The state, `dev 0` answering enable bits later. -/
def lagging (s : State) : State := s.setNic 0x0300 { s.nic 0x0300 with lag := true }

/-- With a write on its way, and with none. -/
theorem witness_RegReadReturnsRegister :
    let s := holding (devices Config.spec .validated) [⟨0, 0, 0x04240, 7⟩]
    s.quiet ∧ s.cfg.legal = true ∧ StandardConfig s.cfg ∧
    ((s.drainNic 0x0300).nic (s.handle 0).bdf).usable ≤ s.now ∧ (s.nic (s.handle 1).bdf).posted = [] ∧
    accepts (.regRead 0 (.dev .rxdctl (some .rxdctlEnable)) 127) s ∧
    (RegSel.dev .rxdctl (some .rxdctlEnable)).legal s.cfg 127 = true ∧
    accepts (.regRead 1 (.pci .pmcsr (some .powerState)) 0) s ∧
    (RegSel.pci .pmcsr (some .powerState)).legal s.cfg 0 = true :=
  ⟨rfl, by decide +kernel, spec_standard, by decide +kernel, by decide +kernel, ⟨by decide, by decide, by decide⟩, rfl,
    ⟨by decide, by decide, by decide⟩, rfl⟩

theorem witness_RegWriteWritesOnce :
    let s := devices Config.spec .initialized
    s.quiet ∧ s.cfg.legal = true ∧ StandardConfig s.cfg ∧ accepts (.regWrite 0 (.dev .tdt none) 127 9) s ∧
    (RegSel.dev .tdt none).legal s.cfg 127 = true ∧ (RegSel.dev .srrctl (some .dropEn)).legal s.cfg 0 = true ∧
    (RegSel.pci .command none).legal s.cfg 0 = true ∧
    (RegSel.pci .command (some .interruptDisable)).legal s.cfg 0 = true :=
  ⟨rfl, by decide +kernel, spec_standard, ⟨by decide, by decide, by decide⟩, rfl, rfl, rfl, rfl⟩

/-- A write that enables a transmit queue, and one of `CTRL` that sets no reset. -/
theorem witness_RegWriteThenReads :
    let s := devices tiny .initialized
    let m := tiny.mask .rst
    s.quiet ∧ StandardConfig s.cfg ∧ s.settled 1 ∧ s.prompt 1 ∧ DevReg.txdctl.access = .rw ∧
    s.regOf 1 .txdctl 1 &&& tiny.mask .txdctlEnable = 0 ∧ tiny.mask .txdctlEnable &&& tiny.mask .txdctlEnable ≠ 0 ∧
    accepts (.regWrite 1 (.dev .txdctl (some .txdctlEnable)) 1 1) s ∧
    (RegSel.dev .txdctl (some .txdctlEnable)).legal s.cfg 1 = true ∧
    isNext (exec (.regWrite 1 (.dev .txdctl (some .txdctlEnable)) 1 1) s) = true ∧
    (RegSel.dev .ctrl (some .masterDisable)).legal s.cfg 0 = true ∧
    insertField (s.regOf 1 .ctrl 0) (s.cfg.mask .masterDisable) 1 &&& m = 0 ∧
    isNext (exec (.regWrite 1 (.dev .ctrl (some .masterDisable)) 0 1) s) = true :=
  ⟨rfl, tiny_standard, settled_of (by decide +kernel), prompt_of (by decide +kernel), rfl, by decide +kernel,
    by decide +kernel, ⟨by decide, by decide, by decide⟩, rfl, by decide +kernel, rfl, by decide +kernel,
    by decide +kernel⟩

/-- The last index of a queue's tail, behind another write and with none before it. -/
theorem witness_PostedWriteArrivesBeforeRead :
    let s := holding (devices tiny .initialized) []
    let u := holding (devices tiny .initialized) [⟨0, 0, 0x04240, 7⟩]
    s.quiet ∧ StandardConfig s.cfg ∧ accepts (.regWrite 0 (.dev .tdt none) 1 9) s ∧
    (RegSel.dev .tdt none).legal s.cfg 1 = true ∧ (s.nic (s.handle 0).bdf).hold = true ∧
    (s.nic (s.handle 0).bdf).posted = [] ∧ (s.nic (s.handle 0).bdf).usable ≤ s.now ∧ DevReg.tdt.access = .rw ∧
    s.prompt 0 ∧ u.quiet ∧ accepts (.regWrite 0 (.dev .tdt none) 1 9) u ∧ (u.nic (u.handle 0).bdf).hold = true :=
  ⟨rfl, tiny_standard, ⟨by decide, by decide, by decide⟩, rfl, by decide +kernel, by decide +kernel, by decide +kernel,
    rfl, prompt_of (by decide +kernel), rfl, ⟨by decide, by decide, by decide⟩, by decide +kernel⟩

theorem witness_DeviceResetEffects :
    let s := devices tiny .validated
    s.quiet ∧ StandardConfig s.cfg ∧ s.settled 0 ∧ accepts (.regWrite 0 (.dev .ctrl (some .rst)) 0 1) s :=
  ⟨rfl, tiny_standard, settled_of (by decide +kernel), by decide, by decide, by decide⟩

theorem witness_DevOpenCompletes :
    let s := withWindow answersOpen
    let pci := fun r => (s.nic 0x0300).pciRead (s.cfg.pciOff r)
    s.quiet ∧ StandardConfig s.cfg ∧ accepts (.devOpen 0 0x0300) s ∧ pci .id = s.cfg.pciExpectId ∧
    extract (pci .pmcsr) (s.cfg.pciMask .powerState) = s.cfg.pciD0 ∧ barIs64BitMemory (pci .bar0Low) = true ∧
    s.p2v (barAddress (pci .bar0High) (pci .bar0Low)) windowSize = some 0x7F0000000000 :=
  ⟨rfl, spec_standard, ⟨by decide, rfl⟩, by decide +kernel, by decide +kernel, by decide +kernel, by decide +kernel⟩

/-- V3.0a, V3.0b, V3.0c, V3.0e: one check fails and those before it pass. -/
theorem witness_DevOpenRejects :
    let dev := fun id pm low => withPci (devices Config.spec .unmapped) 0x0300 [(0x00, id), (0x10, low), (0x44, pm)]
    let idOk := fun s : State => (s.nic 0x0300).pciRead (s.cfg.pciOff .id) = s.cfg.pciExpectId
    let powerOk := fun s : State =>
      extract ((s.nic 0x0300).pciRead (s.cfg.pciOff .pmcsr)) (s.cfg.pciMask .powerState) = s.cfg.pciD0
    let barOk := fun s : State => barIs64BitMemory ((s.nic 0x0300).pciRead (s.cfg.pciOff .bar0Low)) = true
    accepts (.devOpen 0 0x0300) (dev 0x15218086 0x2008 0xF7E0000C) ∧ ¬ idOk (dev 0x15218086 0x2008 0xF7E0000C) ∧
    idOk (dev 0x10FB8086 3 0xF7E0000C) ∧ ¬ powerOk (dev 0x10FB8086 3 0xF7E0000C) ∧
    powerOk (dev 0x10FB8086 0x2008 0xF7E00000) ∧ ¬ barOk (dev 0x10FB8086 0x2008 0xF7E00000) ∧
    barOk (dev 0x10FB8086 0x2008 0xF7E0000C) ∧
    (dev 0x10FB8086 0x2008 0xF7E0000C).p2v (barAddress 0 0xF7E0000C) windowSize = none := by
  refine ⟨⟨by decide, rfl⟩, ?_⟩
  decide +kernel

/-- `STATUS` clear; its poll times out with nothing pending; with a transaction pending. -/
theorem witness_DevResetCompletes :
    (∀ x ∈ [(0, 0), (0x80000, 0), (0x80000, 0x20)], let s := beforeReset x.1 x.2
      s.quiet ∧ StandardConfig s.cfg ∧ s.settled 0 ∧ s.prompt 0 ∧ accepts (.devReset 0) s ∧ s.fieldOf 0 .rst 0 = 0) ∧
    ¬ (beforeReset 0 0).masterStays 0 ∧ (beforeReset 0x80000 0).masterStays 0 ∧ ¬ (beforeReset 0x80000 0).flushDue 0 ∧
    (beforeReset 0x80000 0x20).flushDue 0 := by
  refine ⟨fun x hx => ?_, by decide +kernel⟩
  simp only [List.mem_cons, List.not_mem_nil, or_false] at hx
  rcases hx with rfl | rfl | rfl <;>
    exact ⟨rfl, tiny_standard, settled_of (by decide +kernel), prompt_of (by decide +kernel), ⟨by decide, rfl⟩,
      by decide +kernel⟩

/-- A device that keeps a queue enabled, and one whose receive DMA is still at work. -/
theorem witness_DevResetAlwaysEnds :
    let s : State := { devices tiny .validated with agenda := [⟨2, .regSide 0x0300 .rxdctl 0 0x02000000⟩] }
    s.cfg.legal = true ∧ accepts (.devReset 0) s ∧ answer (exec (.devReset 0) s) = some (2, 0, 0) ∧
    accepts (.devReset 1) s ∧ answer (exec (.devReset 1) s) = some (0, 0, 0) :=
  ⟨by decide +kernel, ⟨by decide, rfl⟩, by decide +kernel, ⟨by decide, rfl⟩, by decide +kernel⟩

theorem witness_DevResetTimesOut :
    let s := lagging (withRegs (devices tiny .validated) 0x0300 [(.rxdctl, 0, 0x02000000)])
    s.quiet ∧ StandardConfig s.cfg ∧ s.settled 0 ∧ ¬ s.prompt 0 ∧ accepts (.devReset 0) s ∧
    s.fieldOf 0 .rxdctlEnable 0 ≠ 0 :=
  ⟨rfl, tiny_standard, settled_of (by decide +kernel), not_prompt_of (by decide +kernel), ⟨by decide, rfl⟩,
    by decide +kernel⟩

theorem witness_ResetFsmIsPseudocode : 0 < (devices tiny .validated).cfg.rxQueueCount := by decide

theorem witness_DevInitCompletes :
    readyForInit.quiet ∧ StandardConfig readyForInit.cfg ∧ readyForInit.settled 0 ∧
    accepts (.devInit 0) readyForInit ∧ readyForInit.fieldOf 0 .autoRd 0 ≠ 0 ∧
    readyForInit.fieldOf 0 .eePres 0 ≠ 0 ∧ readyForInit.fieldOf 0 .dmaIdone 0 ≠ 0 :=
  ⟨rfl, tiny_standard, settled_of (by decide +kernel), ⟨by decide, rfl⟩, by decide +kernel, by decide +kernel, by decide +kernel⟩

/-- V4.2 to V4.4. -/
theorem witness_DevInitFails :
    let dev := fun eec rdrxctl => withRegs (devices tiny .reset) 0x0300 [(.eec, 0, eec), (.rdrxctl, 0, rdrxctl)]
    let read := fun s : State => s.fieldOf 0 .autoRd 0 ≠ 0
    let present := fun s : State => s.fieldOf 0 .eePres 0 ≠ 0
    let ready := fun s : State => s.fieldOf 0 .dmaIdone 0 ≠ 0
    (dev 0 8).quiet ∧ StandardConfig (dev 0 8).cfg ∧ (dev 0 8).settled 0 ∧ accepts (.devInit 0) (dev 0 8) ∧
    ¬ read (dev 0 8) ∧ (read (dev 0x200 8) ∧ ¬ present (dev 0x200 8)) ∧
    read (dev 0x300 0) ∧ present (dev 0x300 0) ∧ ¬ ready (dev 0x300 0) := by
  refine ⟨rfl, tiny_standard, settled_of (by decide +kernel), ⟨by decide, rfl⟩, ?_⟩
  decide +kernel

theorem witness_DevInitAlwaysEnds :
    readyForInit.cfg.legal = true ∧ accepts (.devInit 0) readyForInit ∧ accepts (.devInit 1) readyForInit ∧
    answer (exec (.devInit 1) readyForInit) = some (2, 0, 0) :=
  ⟨by decide +kernel, ⟨by decide, rfl⟩, ⟨by decide, rfl⟩, by decide +kernel⟩

/-- Receive enabled (`dev 0`) and disabled (`dev 1`). -/
theorem witness_SetPromiscCompletes :
    let s := withRegs (devices tiny .initialized) 0x0300 [(.rxctrl, 0, 1)]
    s.quiet ∧ StandardConfig s.cfg ∧ s.settled 0 ∧ accepts (.setPromisc 0 true) s ∧ s.fieldOf 0 .rxen 0 ≠ 0 ∧
    s.settled 1 ∧ accepts (.setPromisc 1 false) s ∧ s.fieldOf 1 .rxen 0 = 0 :=
  ⟨rfl, tiny_standard, settled_of (by decide +kernel), ⟨by decide, rfl⟩, by decide +kernel, settled_of (by decide +kernel),
    ⟨by decide, rfl⟩, by decide +kernel⟩

theorem witness_SetPromiscCannotFail :
    let s : State := { devices tiny .initialized with agenda := [⟨1, .regSide 0x0300 .rxctrl 0 1⟩] }
    s.cfg.legal = true ∧ accepts (.setPromisc 0 true) s := ⟨by decide +kernel, by decide, rfl⟩

/-- The six answers of the small configuration. -/
def tinyGrants : List Grant :=
  [grantAt 0x10000, grantAt 0x10800, grantAt 0x11000, grantAt 0x11800, grantAt 0x20000, grantAt 0x30000]

/-- The machine before construction, with coming answers of the allocator. -/
def beforeConstruct (l : List (Option Grant)) : State := { devices tiny .initialized with grants := l }

theorem grantsOk_tiny (l : List (Option Grant)) (k : Nat) (hk : k ≤ 6) :
    GrantsOk (beforeConstruct l) (tinyGrants.take k) := by
  have h : ∀ k, k < 7 → GrantsOk (beforeConstruct []) (tinyGrants.take k) := by
    unfold GrantsOk apart
    decide +kernel
  exact h k (by omega)

theorem inv_beforeConstruct (l : List (Option Grant)) : Inv (beforeConstruct l) :=
  have h : Inv (beforeConstruct []) := inv_of (by decide +kernel) (fun h => absurd h (by decide))
  ⟨h.legal, h.idle, h.memory, h.handles, h.blocks, h.blocksApart, h.heads,
    fun h => absurd h (by simp [beforeConstruct, devices, State.reset])⟩

theorem witness_ConstructCompletes :
    let s := beforeConstruct (tinyGrants.map some ++ [none])
    Inv s ∧ s.quiet ∧ accepts .engConstruct s ∧ s.grants = tinyGrants.map some ++ [none] ∧
    GrantsOk s tinyGrants := ⟨inv_beforeConstruct _, rfl, rfl, rfl, grantsOk_tiny _ 6 (by decide)⟩

/-- The first call fails; the sixth fails, by an answer and because no answer is left. -/
theorem witness_ConstructUnwinds :
    let s0 := beforeConstruct [none]
    let s5 := beforeConstruct ((tinyGrants.take 5).map some ++ [none, none])
    let s6 := beforeConstruct ((tinyGrants.take 5).map some)
    (Inv s0 ∧ s0.quiet ∧ accepts .engConstruct s0 ∧ s0.grants = ([] : List Grant).map some ++ none :: [] ∧
      GrantsOk s0 []) ∧
    (Inv s5 ∧ s5.grants = (tinyGrants.take 5).map some ++ none :: [none] ∧ GrantsOk s5 (tinyGrants.take 5)) ∧
    Inv s6 ∧ s6.grants = (tinyGrants.take 5).map some ∧ GrantsOk s6 (tinyGrants.take 5) :=
  ⟨⟨inv_beforeConstruct _, rfl, rfl, rfl, grantsOk_tiny _ 0 (by decide)⟩,
    ⟨inv_beforeConstruct _, rfl, grantsOk_tiny _ 5 (by decide)⟩,
    inv_beforeConstruct _, rfl, grantsOk_tiny _ 5 (by decide)⟩

/-- Both directions: all succeed, and the last fails. -/
theorem witness_ConstructIffAllocated :
    let s := beforeConstruct (tinyGrants.map some)
    let f := beforeConstruct ((tinyGrants.take 5).map some)
    s.cfg.legal = true ∧ accepts .engConstruct s ∧ answer (exec .engConstruct s) = some (0, 0, 0) ∧
    madeBetween s (after (exec .engConstruct s)) (after (exec .engConstruct s)).trace.reverse ∧
    accepts .engConstruct f ∧ answer (exec .engConstruct f) = some (1, 0, 0) :=
  ⟨by decide +kernel, rfl, by decide +kernel, by simp [madeBetween, beforeConstruct, devices, State.reset], rfl,
    by decide +kernel⟩

/-- The small engine before its input is bound, the receive path drained. -/
def beforeInput : State := withRegs tinyFresh 0x0300 [(.secrxstat, 0, 1)]

theorem witness_BindInputCompletes :
    beforeInput.quiet ∧ StandardConfig beforeInput.cfg ∧ beforeInput.settled 0 ∧ beforeInput.prompt 0 ∧
    accepts (.bindInput 0) beforeInput ∧ beforeInput.eng.rtaV = false ∧
    beforeInput.fieldOf 0 .rxdctlEnable beforeInput.cfg.rxQueue = 0 ∧
    beforeInput.v2p beforeInput.eng.ring[0] = some 0x100010000 ∧ beforeInput.fieldOf 0 .secrxRdy 0 ≠ 0 :=
  ⟨rfl, tiny_standard, settled_of (by decide +kernel), prompt_of (by decide +kernel), ⟨rfl, by decide, rfl⟩, rfl,
    by decide +kernel, by decide +kernel, by decide +kernel⟩

/-- V6.2, V6.2a to V6.2d. -/
theorem witness_BindInputRejects :
    let used := withRegs tinyFresh 0x0300 [(.rxdctl, 0, 0x02000000)]
    let lost : State := { tinyFresh with blocks := [⟨0x10000, 2048, 0x100010000, [⟨0, 2048⟩]⟩] }
    (accepts (.bindInput 0) tinyPacket ∧ tinyPacket.eng.rtaV = true) ∧
    (accepts (.bindInput 0) used ∧ used.quiet ∧ StandardConfig used.cfg ∧ used.settled 0 ∧ used.eng.rtaV = false ∧
      used.fieldOf 0 .rxdctlEnable used.cfg.rxQueue ≠ 0) ∧
    accepts (.bindInput 0) lost ∧ lost.quiet ∧ StandardConfig lost.cfg ∧ lost.settled 0 ∧ lost.eng.rtaV = false ∧
    lost.fieldOf 0 .rxdctlEnable lost.cfg.rxQueue = 0 ∧ lost.v2p lost.eng.ring[0] = none ∧
    ∀ s ∈ [lagging beforeInput, tinyFresh], accepts (.bindInput 0) s ∧ s.quiet ∧ StandardConfig s.cfg ∧ s.settled 0 ∧
      s.eng.rtaV = false ∧ s.fieldOf 0 .rxdctlEnable s.cfg.rxQueue = 0 ∧ s.v2p s.eng.ring[0] = some 0x100010000 ∧
      (¬ s.prompt 0 ∨ s.fieldOf 0 .secrxRdy 0 = 0) := by
  refine
  ⟨⟨⟨rfl, by decide, rfl⟩, rfl⟩,
    ⟨⟨rfl, by decide, rfl⟩, rfl, tiny_standard, settled_of (by decide +kernel), rfl, by decide +kernel⟩,
    ⟨rfl, by decide, rfl⟩, rfl, tiny_standard, settled_of (by decide +kernel), rfl, by decide +kernel,
    by decide +kernel, fun s hs => ?_⟩
  simp only [List.mem_cons, List.not_mem_nil, or_false] at hs
  rcases hs with rfl | rfl
  · exact ⟨⟨rfl, by decide, rfl⟩, rfl, tiny_standard, settled_of (by decide +kernel), rfl, by decide +kernel,
      by decide +kernel, .inl (not_prompt_of (by decide +kernel))⟩
  · exact ⟨⟨rfl, by decide, rfl⟩, rfl, tiny_standard, settled_of (by decide +kernel), rfl, by decide +kernel,
      by decide +kernel, .inr (by decide +kernel)⟩

/-- The physical addresses of the small engine's buffers. -/
def tinyPhys (i : Nat) : W64 := BitVec.ofNat 64 (0x100020000 + 64 * i)

theorem buffers_of {s : State} {k : Nat}
    (h : ∀ i, i < k → s.v2p (s.eng.buf + BitVec.ofNat 64 (s.cfg.bufSize * i)) = some (tinyPhys i)) :
    BuffersTranslate s tinyPhys k := h

/-- The last free output and the last queue. -/
theorem witness_BindOutputCompletes :
    let s := tinyEngine 0 unflushed 0 false
    let s3 : State := { s with eng := { s.eng with oc := 3, tta := #v[0x7F0000026018, 0x7F0000026058, 0x7F0000026018, 0] } }
    Inv s3 ∧ s3.quiet ∧ StandardConfig s3.cfg ∧ s3.settled 1 ∧ s3.prompt 1 ∧ accepts (.bindOutput 1 1) s3 ∧
    s3.eng.oc.toNat = (3 : Fin 4).val ∧ (1#8).toNat < s3.cfg.txQueueCount ∧ s3.fieldOf 1 .txdctlEnable 1 = 0 ∧
    BuffersTranslate s3 tinyPhys s3.cfg.ringSize ∧
    s3.v2p s3.eng.ring[3] = some 0x100011800 ∧ s3.v2p (s3.eng.headAddr s3.cfg 3) = some 0x1000300C0 ∧
    (0x1000300C0 : W64).toNat % 16 = 0 :=
  ⟨inv_of (by decide +kernel) fun _ => engineOk_of (by decide +kernel), rfl, tiny_standard, settled_of (by decide +kernel),
    prompt_of (by decide +kernel), ⟨rfl, by decide, rfl⟩, rfl, by decide, by decide +kernel, buffers_of (by decide +kernel),
    by decide +kernel, by decide +kernel, by decide⟩

/-- V6.4. -/
theorem witness_BindOutputRejectsMisalignedHead :
    Inv oddHeads ∧ oddHeads.quiet ∧ StandardConfig oddHeads.cfg ∧ oddHeads.settled 1 ∧
    accepts (.bindOutput 1 0) oddHeads ∧ oddHeads.eng.oc.toNat = (0 : Fin 4).val ∧
    (0#8).toNat < oddHeads.cfg.txQueueCount ∧ oddHeads.fieldOf 1 .txdctlEnable 0 = 0 ∧
    BuffersTranslate oddHeads tinyPhys oddHeads.cfg.ringSize ∧
    oddHeads.v2p oddHeads.eng.ring[0] = some 0x100010000 ∧
    oddHeads.v2p (oddHeads.eng.headAddr oddHeads.cfg 0) = some 0x100030008 ∧ (0x100030008 : W64).toNat % 16 ≠ 0 :=
  ⟨inv_of (by decide +kernel) fun _ => engineOk_of (by decide +kernel), rfl, tiny_standard, settled_of (by decide +kernel),
    ⟨rfl, by decide, rfl⟩, rfl, by decide, by decide +kernel, buffers_of (by decide +kernel), by decide +kernel,
    by decide +kernel, by decide⟩

/-- The small engine, the pool's physical places known for its first 7 buffers only. -/
def lostBuffer : State :=
  { tinyEngine 0 unflushed 0 false with
    blocks := blockAt 0x30000 256 :: ⟨0x20000, 8192, 0x100020000, [⟨448, 7744⟩]⟩ :: tinyBlocks.tail.tail }

/-- The small engine, some addresses of its first ring or of its head array without a translation. -/
def lostRing : State :=
  { tinyEngine 0 unflushed 0 false with
    blocks := tinyBlocks.dropLast ++ [⟨0x10000, 2048, 0x100010000, [⟨0, 1⟩]⟩] }

def lostHeads : State :=
  { tinyEngine 0 unflushed 0 false with blocks := ⟨0x30000, 256, 0x100030000, [⟨0, 1⟩]⟩ :: tinyBlocks.tail }

/-- The small engine, the NIC of its outputs answering enable bits later. -/
def slowOutput : State :=
  let s := tinyEngine 0 unflushed 0 false
  s.setNic 0x0400 { s.nic 0x0400 with lag := true }

/-- V6.5 to V6.5e: `OC` at its bound, the first queue out of range, a queue in use, buffer 7, the ring, the head slot,
the enable bit. -/
theorem witness_BindOutputRejects :
    let s := tinyEngine 0 unflushed 0 false
    let full : State := { s with eng := { s.eng with oc := 4 } }
    let used := withRegs s 0x0400 [(.txdctl, 1, 0x02000000)]
    (accepts (.bindOutput 1 0) full ∧ outputsMax ≤ full.eng.oc.toNat) ∧
    (accepts (.bindOutput 1 2) s ∧ s.cfg.txQueueCount ≤ (2#8).toNat) ∧
    (accepts (.bindOutput 1 1) used ∧ used.quiet ∧ StandardConfig used.cfg ∧ used.settled 1 ∧
      used.eng.oc.toNat < outputsMax ∧ (1#8).toNat < used.cfg.txQueueCount ∧ used.fieldOf 1 .txdctlEnable 1 ≠ 0) ∧
    (∀ u ∈ [lostBuffer, lostRing, lostHeads, slowOutput], accepts (.bindOutput 1 0) u ∧ Inv u ∧ u.quiet ∧
      StandardConfig u.cfg ∧ u.settled 1 ∧ u.eng.oc.toNat = (0 : Fin 4).val ∧ u.fieldOf 1 .txdctlEnable 0 = 0) ∧
    (BuffersTranslate lostBuffer tinyPhys 7 ∧
      lostBuffer.v2p (lostBuffer.eng.buf + BitVec.ofNat 64 (lostBuffer.cfg.bufSize * 7)) = none) ∧
    (BuffersTranslate lostRing tinyPhys 128 ∧ lostRing.v2p lostRing.eng.ring[0] = none) ∧
    (BuffersTranslate lostHeads tinyPhys 128 ∧ lostHeads.v2p lostHeads.eng.ring[0] = some 0x100010000 ∧
      lostHeads.v2p (lostHeads.eng.headAddr lostHeads.cfg 0) = none) ∧
    ¬ slowOutput.prompt 1 ∧ BuffersTranslate slowOutput tinyPhys 128 ∧
    slowOutput.v2p slowOutput.eng.ring[0] = some 0x100010000 ∧
    slowOutput.v2p (slowOutput.eng.headAddr slowOutput.cfg 0) = some 0x100030000 ∧ (0x100030000 : W64).toNat % 16 = 0 := by
  refine ⟨⟨⟨rfl, by decide, rfl⟩, by decide⟩, ⟨⟨rfl, by decide, rfl⟩, by decide⟩,
    ⟨⟨rfl, by decide, rfl⟩, rfl, tiny_standard, settled_of (by decide +kernel), by decide, by decide, by decide +kernel⟩,
    fun u hu => ?_, ⟨buffers_of (by decide +kernel), by decide +kernel⟩,
    ⟨buffers_of (by decide +kernel), by decide +kernel⟩,
    ⟨buffers_of (by decide +kernel), by decide +kernel, by decide +kernel⟩, not_prompt_of (by decide +kernel),
    buffers_of (by decide +kernel), by decide +kernel, by decide +kernel, by decide⟩
  simp only [List.mem_cons, List.not_mem_nil, or_false] at hu
  rcases hu with rfl | rfl | rfl | rfl <;>
    exact ⟨⟨rfl, by decide, rfl⟩, inv_of (by decide +kernel) fun _ => engineOk_of (by decide +kernel), rfl, tiny_standard,
      settled_of (by decide +kernel), rfl, by decide +kernel⟩

theorem witness_BindOutputMakesNoTailWrite :
    let t := after (exec (.bindOutput 1 0) oddHeads)
    StandardConfig oddHeads.cfg ∧ exec (.bindOutput 1 0) oddHeads = .next t ∧
    madeBetween oddHeads t t.trace.reverse :=
  ⟨tiny_standard, next_after (by decide +kernel),
    by simp [madeBetween, oddHeads, tinyEngine, devices, State.reset]⟩

theorem witness_ReceiveReportsPacket :
    tinyPacket.quiet ∧ tinyPacket.cfg.legal = true ∧ accepts .receive tinyPacket ∧
    tinyPacket.memExists (tinyPacket.eng.wordAddr 0 tinyPacket.eng.pd 1).toNat 8 = true ∧
    tinyPacket.word1.getLsbD tinyPacket.cfg.desc.dd = true :=
  ⟨rfl, by decide +kernel, rfl, by decide +kernel, by decide +kernel⟩

/-- The tail addresses of the small engine name tail registers. -/
theorem tails_tinyLast : TailsResolve tinyLast := by
  have h : ∀ n : Fin 4, n.val < tinyLast.eng.oc.toNat → ∃ q, q < tinyLast.cfg.txQueueCount ∧
      tinyLast.windowAt tinyLast.eng.tta[n] = some (0x0400, tinyLast.cfg.off .tdt q) := by decide +kernel
  exact ⟨fun n hn => ⟨0x0400, h n hn⟩, fun _ => ⟨0x0300, by decide +kernel⟩⟩

theorem settledAt_of {n : Nic} {now : Nat} (h : n.usable ≤ now ∧ n.hold = false ∧ n.posted = []) : n.settledAt now := h

/-- With a catch-up flush, without one because all is flushed, with the sentinel, and with no output. -/
theorem witness_ReceiveFindsNone :
    (Inv tinyLast ∧ tinyLast.quiet ∧ accepts .receive tinyLast ∧
      tinyLast.word1.getLsbD tinyLast.cfg.desc.dd = false ∧ tinyLast.catchesUp ∧
      StandardConfig tinyLast.cfg ∧ TailsResolve tinyLast ∧ (tinyLast.nic 0x0400).settledAt tinyLast.now ∧
      tailTargets tinyLast tinyLast.catchesUp False 0x0400 (tiny.off .tdt 1)) ∧
    (let s := tinyEngine 5 5 2 true; Inv s ∧ s.word1.getLsbD s.cfg.desc.dd = false ∧ s.eng.fd = s.eng.pd) ∧
    Inv tinyFresh ∧ tinyFresh.word1.getLsbD tinyFresh.cfg.desc.dd = false ∧ tinyFresh.eng.fd = unflushed ∧
    tinyFresh.eng.oc = 0 :=
  ⟨⟨inv_tinyLast, rfl, rfl, by decide +kernel, by decide, tiny_standard, tails_tinyLast,
      settledAt_of (by decide +kernel), .inl ⟨by decide, 1, by decide, by decide +kernel⟩⟩,
    ⟨inv_of (by decide +kernel) fun _ => engineOk_of (by decide +kernel), by decide +kernel, rfl⟩,
    inv_tinyFresh, by decide +kernel, rfl, rfl⟩

theorem witness_ReceiveIsIdempotent :
    Inv tinyLast ∧ tinyLast.quiet ∧ accepts .receive tinyLast ∧
    exec .receive tinyLast = .next (after (exec .receive tinyLast)) :=
  ⟨inv_tinyLast, rfl, rfl, next_after (by decide +kernel)⟩

/-- A Report-Status slot with the wrap; and a slot with no flush and no Report-Status. -/
theorem witness_TransmitFollowsItsSteps :
    (Inv tinyLast ∧ tinyLast.quiet ∧ accepts (.transmit 0xFFFF 0b1111) tinyLast) ∧
    (let s := tinyEngine 1 1 2 true
     Inv s ∧ s.quiet ∧ accepts (.transmit 0 0) s ∧
      ¬ s.flushes ∧ ¬ s.rsDue) :=
  ⟨⟨inv_tinyLast, rfl, rfl, .inl rfl⟩,
    inv_of (by decide +kernel) fun _ => engineOk_of (by decide +kernel), rfl, ⟨rfl, .inl rfl⟩, by decide, by decide⟩

theorem witness_TransmitWritesDescriptors :
    Inv tinyLast ∧ tinyLast.quiet ∧ accepts (.transmit 64 0b10) tinyLast ∧
    exec (.transmit 64 0b10) tinyLast = .next (after (exec (.transmit 64 0b10) tinyLast)) :=
  ⟨inv_tinyLast, rfl, ⟨rfl, .inl rfl⟩, next_after (by decide +kernel)⟩

/-- The state after commands that all end with `OK`. -/
theorem runAll_after {ops : List Instr} {s : State} (h : (runAll ops s).isSome = true) :
    runAll ops s = some ((runAll ops s).getD State.reset) := by
  cases hr : runAll ops s <;> simp_all

/-- Two TRANSMITs across the wrap. -/
theorem witness_TransmitsAdvanceDelimiter :
    let ops := [((64 : W16), (1#4)), (64, 2)]
    Inv tinyLast ∧ tinyLast.es = .constructed ∧
    runAll (transmits ops) tinyLast = some ((runAll (transmits ops) tinyLast).getD State.reset) :=
  ⟨inv_tinyLast, rfl, runAll_after (by decide +kernel)⟩

/-- One TRANSMIT short of the period, and the whole period. -/
theorem witness_OneFlushPerBatch :
    let s := tinyEngine 127 127 2 true
    let ops := [((64 : W16), (1#4)), (64, 2)]
    Inv s ∧ s.es = .constructed ∧ s.eng.fd = s.eng.pd ∧
    runAll (transmits (ops.take 1)) s = some ((runAll (transmits (ops.take 1)) s).getD State.reset) ∧
    (ops.take 1).length < s.cfg.processPeriod ∧
    (runAll (transmits ops) s = some ((runAll (transmits ops) s).getD State.reset) ∧
      ops.length = s.cfg.processPeriod) ∧ (∀ n : Fin 4, n.val < s.eng.oc.toNat → s.eng.tta[n] ≠ s.eng.rta) ∧
    let t := (runAll (transmits ops) s).getD State.reset
    madeBetween s t t.trace.reverse :=
  ⟨inv_of (by decide +kernel) fun _ => engineOk_of (by decide +kernel), rfl, rfl,
    runAll_after (by decide +kernel), by decide, ⟨runAll_after (by decide +kernel), rfl⟩, by decide +kernel,
    by simp [madeBetween, tinyEngine, devices, State.reset]⟩

/-- A flush on a Report-Status slot, with tail addresses that name tail registers. -/
theorem witness_TransmitLeavesTails :
    Inv tinyLast ∧ tinyLast.quiet ∧ StandardConfig tinyLast.cfg ∧ TailsResolve tinyLast ∧
    accepts (.transmit 64 1) tinyLast ∧
    exec (.transmit 64 1) tinyLast = .next (after (exec (.transmit 64 1) tinyLast)) ∧
    tinyLast.windowAt tinyLast.eng.tta[1] = some (0x0400, tinyLast.cfg.off .tdt 1) ∧
    (tinyLast.nic 0x0400).settledAt tinyLast.now ∧ tinyLast.flushes ∧
    tinyLast.windowAt tinyLast.eng.rta = some (0x0300, tinyLast.cfg.off .rdt tinyLast.cfg.rxQueue) ∧
    (tinyLast.nic 0x0300).settledAt tinyLast.now ∧ tinyLast.rsDue :=
  ⟨inv_tinyLast, rfl, tiny_standard, tails_tinyLast, ⟨rfl, .inl rfl⟩, next_after (by decide +kernel),
    by decide +kernel, settledAt_of (by decide +kernel), by decide, by decide +kernel, settledAt_of (by decide +kernel),
    by decide⟩

/-- No head; and heads behind, at and ahead of the delimiter. -/
theorem witness_ScanKeepsLeastDistance :
    tiny.legal = true ∧ (64 : W64).toNat < tiny.ringSize ∧ (∀ h ∈ ([] : List W64), h.toNat < tiny.ringSize) ∧
    (∀ h ∈ [(63 : W64), 64, 65, 0, 127], h.toNat < tiny.ringSize) ∧ [(63 : W64), 64, 65, 0, 127] ≠ [] := by
  refine ⟨by decide +kernel, by decide, by simp, ?_, by simp⟩
  simp [tiny]

/-- A Report-Status slot and a flush; and neither. -/
theorem witness_TransmitWithoutOutputs :
    let s := tinyEngine 3 unflushed 0 true
    let u := tinyEngine 0 0 0 false
    (Inv s ∧ s.quiet ∧ accepts (.transmit 64 1) s ∧ s.eng.oc = 0 ∧
      s.eng.pd.toNat % s.cfg.transmitPeriod = s.cfg.rsPhase) ∧
    Inv u ∧ u.quiet ∧ accepts (.transmit 64 1) u ∧ u.eng.oc = 0 ∧
    u.eng.pd.toNat % u.cfg.transmitPeriod ≠ u.cfg.rsPhase :=
  ⟨⟨inv_of (by decide +kernel) fun _ => engineOk_of (by decide +kernel), rfl, ⟨rfl, .inl rfl⟩, rfl, by decide⟩,
    inv_of (by decide +kernel) fun _ => engineOk_of (by decide +kernel), rfl, ⟨rfl, .inr (by decide)⟩, rfl,
    by decide⟩

/-- The result of the handler's micro-step, where it answers. -/
def handled (len : W16) (addr : W64) (s : State) : Option ((W16 × BitVec 4) × State) :=
  match callHandler 3 len addr s with
  | .ok a t => some (a, t)
  | .error _ _ => none

theorem handled_eq {len : W16} {addr : W64} {s : State} {a : W16 × BitVec 4}
    (h : (handled len addr s).map Prod.fst = some a) :
    ∃ t, callHandler 3 len addr s = .ok a t := by
  unfold handled at h
  split at h
  · simp_all
  · simp at h

/-- No packet; a full buffer, and one byte more. -/
theorem witness_ProcessIsReceiveHandleTransmit :
    let s := fun len => { tinyPacket with handlerQ := [HandlerRun.returns len 0b10 []] }
    let r := fun len => after (exec .receive (s len))
    (∀ len ∈ [(64 : W16), 65], accepts .process (s len) ∧ exec .receive (s len) = .next (r len) ∧
      (r len).answered 0 0x8000000000000020 0x20080 ∧ (0x8000000000000020#64).getLsbD 63 = true ∧
      ∃ h, callHandler 3 ((0x8000000000000020#64).setWidth 16) 0x20080 (r len) = .ok (len, 0b10) h) ∧
    (64 : W16).toNat ≤ tinyPacket.cfg.bufSize ∧ tinyPacket.cfg.bufSize < (65 : W16).toNat ∧
    let t := after (exec .receive tinyLast)
    accepts .process tinyLast ∧ exec .receive tinyLast = .next t ∧ t.answered 0 0 0 := by
  refine ⟨fun len hlen => ?_, by decide, by decide, ⟨rfl, .inl rfl⟩, next_after (by decide +kernel), by decide +kernel,
    by decide +kernel⟩
  simp only [List.mem_cons, List.not_mem_nil, or_false] at hlen
  rcases hlen with rfl | rfl
  · exact ⟨⟨rfl, .inl rfl⟩, next_after (by decide +kernel), ⟨by decide +kernel, by decide +kernel⟩, by decide,
      handled_eq (by decide +kernel)⟩
  · exact ⟨⟨rfl, .inl rfl⟩, next_after (by decide +kernel), ⟨by decide +kernel, by decide +kernel⟩, by decide,
      handled_eq (by decide +kernel)⟩

theorem witness_ProcessForwardsPacket :
    let s : State := { tinyPacket with handlerQ := [.returns 64 0b01 [(63, 7)]] }
    Inv s ∧ s.quiet ∧ accepts .process s ∧ s.word1.getLsbD s.cfg.desc.dd = true ∧
    s.handlerQ = .returns 64 0b01 [(63, 7)] :: [] ∧ (64 : W16).toNat ≤ s.cfg.bufSize ∧
    ∀ w ∈ [(63, (7 : Byte))], w.1 < s.cfg.bufSize :=
  ⟨inv_of (by decide +kernel) fun _ => engineOk_of (by decide +kernel), rfl, ⟨rfl, .inl rfl⟩, by decide +kernel, rfl,
    by decide, by decide⟩

/-- The last byte of the buffer, the first one after it, and a handler that never returns. -/
theorem witness_HandlerTouchesItsBuffer :
    let s := fun run => { tinyPacket with handlerQ := [run] }
    (∀ run, (s run).quiet ∧ (s run).handlerQ = run :: []) ∧
    (s .never).memExists (0x20080#64).toNat (s .never).cfg.bufSize = true ∧
    (∀ w ∈ [(63, (7 : Byte))], w.1 < tinyPacket.cfg.bufSize) ∧
    ∃ w ∈ [(64, (7 : Byte))], tinyPacket.cfg.bufSize ≤ w.1 :=
  ⟨fun _ => ⟨rfl, rfl⟩, by decide +kernel, by decide, (64, 7), by decide, by decide⟩

/-- The small engine, the receive queue of `dev 0` programmed and enabled, its head at the slot `PD`. -/
def receiving : State :=
  let s := withRegs (tinyEngine 2 2 1 true) 0x0300
    [(.rdbah, 0, 1), (.rdbal, 0, 0x10000), (.rdt, 0, 127), (.rxdctl, 0, 0x02000000), (.rxctrl, 0, 1)]
  withBytes (s.setNic 0x0300 { s.nic 0x0300 with rxHeads := [(0, 2)] }) 0x10020 8 0x100020080

/-- A packet of one byte, and one that fills the buffer. -/
theorem witness_DeliveredPacketIsReceived :
    let n := receiving.nic 0x0300
    let q := receiving.cfg.rxQueue
    let slot := (n.pair receiving.cfg .rdbah .rdbal q).toNat + 16 * n.rxHead q
    let word0 := (receiving.eng.wordAddr 0 receiving.eng.pd 0).toNat
    Inv receiving ∧ accepts .receive receiving ∧ receiving.quiet ∧ n.field receiving.cfg .rxdctlEnable q ≠ 0 ∧
    n.field receiving.cfg .rxen 0 ≠ 0 ∧
    n.rxHead q ≠ (n.reg receiving.cfg (receiving.cfg.off .rdt q)).toNat ∧
    (∀ len ∈ [1, 64], 0 < (List.replicate len (7 : Byte)).length ∧
      (List.replicate len (7 : Byte)).length ≤ receiving.cfg.bufSize ∧
      (List.replicate len (7 : Byte)).length < 2 ^ receiving.cfg.lenBits) ∧
    (∀ k, k < 16 → receiving.physToVirt (slot + k) = some (word0 + k)) ∧
    (∀ k, k < 64 → receiving.physToVirt (Memory.readLE receiving.mem word0 8 + k) = some (0x20080 + k)) ∧
    word0 + 16 ≤ 0x20080 :=
  ⟨inv_of (by decide +kernel) fun _ => engineOk_of (by decide +kernel), rfl, rfl, by decide +kernel⟩

/-- No slot owned; one byte too many; the first queue the NIC has not. -/
theorem witness_PacketIsDropped :
    let s := receiving.setNic 0x0300 { receiving.nic 0x0300 with rxHeads := [(0, 127)] }
    (s.nic 0x0300).rxHead 0 = ((s.nic 0x0300).reg s.cfg (s.cfg.off .rdt 0)).toNat ∧
    receiving.cfg.bufSize < (List.replicate 65 (7 : Byte)).length ∧
    receiving.cfg.rxQueueCount ≤ 2 := by decide +kernel

/-- A queue with no write-back due, and an address outside the bytes its write-back would write. -/
theorem witness_AgentsKeepTheirBounds :
    ((receiving.nic 0x0400).txQueue 0).rsDone = false ∧
    (∀ k, k < 4 → receiving.physToVirt (0x100030000 + k) ≠ some 0x30004) ∧
    StandardConfig receiving.cfg ∧
    (∀ r ∈ [DevReg.rxdctl, .rdt], r.indexOk tiny 0 = true ∧ (receiving.nic 0x0300).blockWrote (tiny.off r 0)) ∧
    ({ Nic.powerOn with pci := [(4, ⟨true, 6⟩)] } : Nic).blockWrotePci (tiny.pciOff .command) := by
  refine ⟨by decide +kernel, by decide +kernel, tiny_standard, fun r hr => ?_, 6, by decide +kernel⟩
  simp only [List.mem_cons, List.not_mem_nil, or_false] at hr
  rcases hr with rfl | rfl
  · exact ⟨rfl, 0x02000000, by decide +kernel⟩
  · exact ⟨rfl, 127, by decide +kernel⟩

/-- The small engine, queue 0 of `dev 1` programmed and enabled, its head at slot 3, which has Report-Status set and a
packet of 2 bytes in buffer 3; a write-back is due. -/
def transmitting (fetched : List (W64 × W64)) : State :=
  let s := withRegs (tinyEngine 4 4 1 true) 0x0400
    [(.tdbah, 0, 1), (.tdbal, 0, 0x10000), (.tdt, 0, 4), (.txdctl, 0, 0x02000000), (.dmatxctl, 0, 1), (.tdwbah, 0, 1),
      (.tdwbal, 0, 0x30001)]
  withBytes (withBytes (withBytes (s.setNic 0x0400 { s.nic 0x0400 with txQueues := [(0, ⟨3, fetched, true⟩)] })
    0x10030 8 0x1000200C0) 0x10038 8 0x0B000002) 0x200C0 2 0xBBAA

/-- R346 on the slot of `transmitting`: one frame, and then nothing more to send. -/
theorem test_txSend_sends_frame :
    let t := (transmitting []).txSend 0x0400 0
    (t.nic 0x0400).sent = [⟨0, [0xAA, 0xBB], true, true⟩] ∧ (t.nic 0x0400).txQueue 0 = ⟨4, [], true⟩ ∧
    t.txSend 0x0400 0 = t := by decide +kernel

/-- R347: the head 3 in the head slot of output 0. -/
theorem test_txWriteBack_stores_head :
    Memory.readLE ((transmitting []).txWriteBack 0x0400 0).mem 0x30000 4 = 3 := by decide +kernel

/-- R346: the descriptor before the tail is fetched, the one at the tail is not. -/
theorem test_txFetch_stops_at_tail :
    let t := (transmitting []).txFetch 0x0400 0
    (t.nic 0x0400).txQueue 0 = ⟨3, [(0x1000200C0, 0x0B000002)], true⟩ ∧ t.txFetch 0x0400 0 = t := by decide +kernel

/-- R346: two descriptors fetched, and the tail then moved back to one after the head. -/
theorem test_txFetch_stops_beyond_tail :
    (transmitting [(0, 0), (0, 0)]).txFetch 0x0400 0 = transmitting [(0, 0), (0, 0)] := by decide +kernel

/-- One slot owned, nothing fetched ahead; one descriptor fetched ahead, of length 0, the next slot the tail; the head at
the tail; the first queue the NIC has not; a write-back due. -/
theorem witness_TransmitDmaSendsAndWritesBack :
    let s := transmitting []
    let f := transmitting [(0, 0x03000000)]
    let n := s.nic 0x0400
    let tail := (n.reg tiny (tiny.off .tdt 0)).toNat
    let done := s.setNic 0x0400 { n with txQueues := [(0, ⟨4, [], false⟩)] }
    (Inv s ∧ Inv f) ∧
    ((0 < tiny.txQueueCount ∧ n.field tiny .txdctlEnable 0 ≠ 0 ∧ n.field tiny .te 0 ≠ 0) ∧
      (n.txQueue 0).fetched.length < (tail + tiny.ringSize - (n.txQueue 0).head) % tiny.ringSize ∧
      (tail + tiny.ringSize - ((f.nic 0x0400).txQueue 0).head) % tiny.ringSize ≤ ((f.nic 0x0400).txQueue 0).fetched.length ∧
      ((done.nic 0x0400).txQueue 0).head = tail ∧ tiny.txQueueCount ≤ 2) ∧
    ((n.txQueue 0).head ≠ tail ∧ (n.txQueue 0).fetched = [] ∧
      (∀ k, k < 16 → s.physToVirt ((n.pair tiny .tdbah .tdbal 0).toNat + 16 * (n.txQueue 0).head + k) = some (0x10030 + k)) ∧
      Memory.readLE s.mem 0x10030 8 = (0x1000200C0 : W64).toNat ∧
      Memory.readLE s.mem (0x10030 + 8) 8 = (0x0B000002 : W64).toNat ∧
      (0x0B000002 : W64).toNat / 2 ^ tiny.desc.lenLo % 2 ^ tiny.lenBits = 2 ∧
      (∀ k, k < 2 → s.physToVirt ((0x1000200C0 : W64).toNat + k) = some (0x200C0 + k)) ∧
      ((f.nic 0x0400).txQueue 0).fetched = (0, 0x03000000) :: []) ∧
    n.field tiny .headWbEn 0 ≠ 0 ∧ (n.txQueue 0).rsDone = true ∧
    ∀ k, k < 4 → s.physToVirt ((joinHalves (n.reg tiny (tiny.off .tdwbah 0))
      (n.reg tiny (tiny.off .tdwbal 0) &&& ~~~(tiny.mask .headWbEn))).toNat + k) = some (0x30000 + k) := by
  refine ⟨⟨inv_of ?_ fun _ => engineOk_of ?_, inv_of ?_ fun _ => engineOk_of ?_⟩, ?_⟩
  all_goals decide +kernel

end Sys2Proof.Machine
end

section
/-! SUPPORT. What each part of a command can do to the state, said once: the heads inside the NICs stay slot numbers
(R341, R345), and accesses leave the engine, the handles and the live blocks alone. -/

namespace Sys2Proof.Machine

/-! Numbers of a legal configuration. -/

theorem Config.legal_numbers {c : Config} (h : c.legal = true) : c.numbersOk = true := by
  simp only [Config.legal, Bool.and_eq_true] at h
  obtain ⟨⟨⟨⟨hn, -⟩, -⟩, -⟩, -⟩ := h
  exact hn

/-- The ring has a slot, and a slot number fits a tail register (R9). -/
theorem Config.ringSize_bounds {c : Config} (h : c.legal = true) : 0 < c.ringSize ∧ c.ringSize ≤ 2 ^ 31 := by
  have hn := Config.legal_numbers h
  simp only [Config.numbersOk, isPow2, Bool.and_eq_true, decide_eq_true_eq, bne_iff_ne] at hn
  omega

/-- Buffers and head slots have a byte (R12, R16). -/
theorem Config.sizes_pos {c : Config} (h : c.legal = true) : 0 < c.bufSize ∧ 0 < c.headStride := by
  have hn := Config.legal_numbers h
  simp only [Config.numbersOk, Bool.and_eq_true, decide_eq_true_eq] at hn
  omega

/-- An advanced slot number is a slot number (R32, R334 (a)). -/
theorem slotAdd_lt {c : Config} (h : c.legal = true) (x : W64) (k : Nat) : (slotAdd c x k).toNat < c.ringSize := by
  obtain ⟨hpos, hle⟩ := Config.ringSize_bounds h
  have hlt := Nat.mod_lt (x.toNat + k) hpos
  simp only [slotAdd, BitVec.toNat_ofNat]
  omega

/-! Heads inside a NIC. -/

/-- Every head inside the NIC is a slot number (R341, R345). -/
def Nic.HeadsOk (c : Config) (n : Nic) : Prop :=
  (∀ p ∈ n.rxHeads, p.2 < c.ringSize) ∧ ∀ p ∈ n.txQueues, p.2.head < c.ringSize

theorem Nic.HeadsOk.same {c : Config} {n n' : Nic} (h : n.HeadsOk c) (rx : n'.rxHeads = n.rxHeads)
    (tx : n'.txQueues = n.txQueues) : n'.HeadsOk c := by
  rw [Nic.HeadsOk, rx, tx]
  exact h

theorem Nic.headsOk_powerOn (c : Config) : Nic.powerOn.HeadsOk c :=
  ⟨fun _ hp => (List.not_mem_nil hp).elim, fun _ hp => (List.not_mem_nil hp).elim⟩

theorem Nic.HeadsOk.putRx {c : Config} {n : Nic} (h : n.HeadsOk c) (q : Nat) {x : Nat} (hx : x < c.ringSize) :
    Nic.HeadsOk c { n with rxHeads := Store.put n.rxHeads q x } := by
  refine ⟨fun p hp => ?_, h.2⟩
  rcases Store.mem_put hp with rfl | hp
  · exact hx
  · exact h.1 p hp

theorem Nic.HeadsOk.putTx {c : Config} {n : Nic} (h : n.HeadsOk c) (q : Nat) {t : TxQueue} (ht : t.head < c.ringSize) :
    Nic.HeadsOk c { n with txQueues := Store.put n.txQueues q t } := by
  refine ⟨h.1, fun p hp => ?_⟩
  rcases Store.mem_put hp with rfl | hp
  · exact ht
  · exact h.2 p hp

theorem Nic.HeadsOk.txQueue_head {c : Config} {n : Nic} (h : n.HeadsOk c) (hc : 0 < c.ringSize) (q : Nat) :
    (n.txQueue q).head < c.ringSize := by
  unfold Nic.txQueue
  cases hq : Store.get? n.txQueues q with
  | none => exact hc
  | some t => exact h.2 (q, t) (Store.mem_of_get? hq)

theorem Nic.HeadsOk.queueEnable {c : Config} {n : Nic} (h : n.HeadsOk c) (hc : 0 < c.ringSize) (off : Nat)
    (old new : W32) : (n.queueEnable c off old new).HeadsOk c := by
  unfold Nic.queueEnable
  split
  · split
    · exact h.putRx _ hc
    · exact h
  · split
    · split
      · exact Nic.HeadsOk.putTx (n := n.putReg _ 0) (h.same rfl rfl) _ hc
      · exact h
    · exact h

theorem Nic.HeadsOk.write {c : Config} {n : Nic} (h : n.HeadsOk c) (hc : 0 < c.ringSize) (w : RegWrite) :
    (n.write c w).HeadsOk c := by
  unfold Nic.write
  split
  · exact h.same rfl rfl
  · split
    · split
      · exact (Nic.headsOk_powerOn c).same rfl rfl
      · exact h.same rfl rfl
    · split
      · exact h
      · split
        · exact h.same rfl rfl
        · exact Nic.HeadsOk.queueEnable (n := n.putReg _ _) (h.same rfl rfl) hc _ _ _

theorem Nic.HeadsOk.post {c : Config} {n : Nic} (h : n.HeadsOk c) (hc : 0 < c.ringSize) (w : RegWrite) :
    (n.post c w).HeadsOk c := by
  unfold Nic.post
  split
  · exact h.write hc w
  · exact h.same rfl rfl

theorem Nic.HeadsOk.arrive {c : Config} {n : Nic} (h : n.HeadsOk c) (hc : 0 < c.ringSize) :
    (n.arrive c).HeadsOk c := by
  unfold Nic.arrive
  split
  · exact h
  · rename_i w rest _
    exact Nic.HeadsOk.write (n := { n with posted := rest }) (h.same rfl rfl) hc w

theorem Nic.HeadsOk.writes {c : Config} {n : Nic} (h : n.HeadsOk c) (hc : 0 < c.ringSize) (l : List RegWrite) :
    (l.foldl (Nic.write c) n).HeadsOk c := by
  induction l generalizing n with
  | nil => exact h
  | cons w rest ih => exact ih (h.write hc w)

theorem Nic.HeadsOk.drain {c : Config} {n : Nic} (h : n.HeadsOk c) (hc : 0 < c.ringSize) :
    (n.drain c).HeadsOk c := Nic.HeadsOk.writes (n := { n with posted := [] }) (h.same rfl rfl) hc _

theorem Nic.HeadsOk.regSide {c : Config} {n : Nic} (h : n.HeadsOk c) (hc : 0 < c.ringSize) (r : DevReg) (i : Nat)
    (v : W32) : (n.regSide c r i v).HeadsOk c := by
  unfold Nic.regSide
  split
  · dsimp only
    refine Nic.HeadsOk.queueEnable ?_ hc _ _ _
    exact h.same rfl rfl
  · exact h

theorem Nic.HeadsOk.pciSide {c : Config} {n : Nic} (h : n.HeadsOk c) (r : PciReg) (v : W32) :
    (n.pciSide c r v).HeadsOk c := by
  rw [Nic.pciSide_eq]
  exact h.same rfl rfl

theorem Nic.HeadsOk.pciWrite {c : Config} {n : Nic} (h : n.HeadsOk c) (k off : Nat) (v : W32) :
    (n.pciWrite c k off v).HeadsOk c := by
  rw [Nic.pciWrite_eq]
  exact h.same rfl rfl

/-! Memory, the NICs and the configuration of a state. -/

/-- The part of the invariant that the other agents can touch: memory in canonical form, heads that are slot numbers,
under a legal configuration. -/
structure Sound (s : State) : Prop where
  legal : s.cfg.legal = true
  memory : Memory.wf s.mem = true
  heads : ∀ e ∈ s.nics, e.2.HeadsOk s.cfg

theorem Sound.ringSize_pos {s : State} (h : Sound s) : 0 < s.cfg.ringSize := (Config.ringSize_bounds h.legal).1

theorem Sound.nic {s : State} (h : Sound s) (bdf : W16) : (s.nic bdf).HeadsOk s.cfg := by
  unfold State.nic
  cases hn : Store.get? s.nics bdf.toNat with
  | none => exact Nic.headsOk_powerOn _
  | some n => exact h.heads _ (Store.mem_of_get? hn)

theorem Sound.setNic {s : State} (h : Sound s) (bdf : W16) {n : Nic} (hn : n.HeadsOk s.cfg) :
    Sound (s.setNic bdf n) := by
  refine ⟨h.legal, h.memory, fun e he => ?_⟩
  rcases Store.mem_put he with rfl | he
  · exact hn
  · exact h.heads e he

/-- Only three fields matter. -/
theorem Sound.same {s t : State} (h : Sound s) (cfg : t.cfg = s.cfg) (mem : t.mem = s.mem) (nics : t.nics = s.nics) :
    Sound t := by
  refine ⟨by rw [cfg]; exact h.legal, by rw [mem]; exact h.memory, ?_⟩
  rw [cfg, nics]
  exact h.heads

theorem Sound.setMem {s : State} (h : Sound s) {m : List Host.Cell} (hm : Memory.wf m = true) :
    Sound { s with mem := m } := ⟨h.legal, hm, h.heads⟩

theorem State.dmaWrite_nics (s : State) (p : Nat) (bytes : List Byte) : (s.dmaWrite p bytes).nics = s.nics := by
  induction bytes generalizing s p with
  | nil => rfl
  | cons b rest ih =>
    rw [State.dmaWrite, ih]
    split <;> rfl

theorem Sound.dmaWrite {s : State} (h : Sound s) (p : Nat) (bytes : List Byte) : Sound (s.dmaWrite p bytes) := by
  have hcfg : (s.dmaWrite p bytes).cfg = s.cfg := (SameBlock.dmaWrite (.refl s) p bytes).cfg
  refine ⟨by rw [hcfg]; exact h.legal, Memory.wf_dmaWrite p bytes h.memory, ?_⟩
  rw [hcfg, State.dmaWrite_nics]
  exact h.heads

theorem Sound.rxDeliver {s : State} (h : Sound s) (bdf : W16) (q : Nat) (packet : List Byte) (other : W64) :
    Sound (s.rxDeliver bdf q packet other) := by
  simp only [State.rxDeliver]
  split
  · exact h
  · refine ((h.dmaWrite _ _).dmaWrite _ _).setNic _ ?_
    rw [(SameBlock.dmaWrite (SameBlock.dmaWrite (.refl s) _ _) _ _).cfg]
    exact (h.nic bdf).putRx _ (Nat.mod_lt _ h.ringSize_pos)

theorem Sound.txFetch {s : State} (h : Sound s) (bdf : W16) (q : Nat) : Sound (s.txFetch bdf q) := by
  simp only [State.txFetch]
  split
  · exact h
  · exact h.setNic _ ((h.nic bdf).putTx _ ((h.nic bdf).txQueue_head h.ringSize_pos q))

theorem Sound.txSend {s : State} (h : Sound s) (bdf : W16) (q : Nat) : Sound (s.txSend bdf q) := by
  simp only [State.txSend]
  split
  · exact h
  · refine h.setNic _ (Nic.HeadsOk.same ((h.nic bdf).putTx q ?_) rfl rfl)
    exact Nat.mod_lt _ h.ringSize_pos

theorem Sound.txWriteBack {s : State} (h : Sound s) (bdf : W16) (q : Nat) : Sound (s.txWriteBack bdf q) := by
  simp only [State.txWriteBack]
  split
  · exact h
  · refine (h.dmaWrite _ _).setNic _ ?_
    rw [(SameBlock.dmaWrite (.refl s) _ _).cfg]
    exact (h.nic bdf).putTx _ ((h.nic bdf).txQueue_head h.ringSize_pos q)

/-- One move of another agent (R340). -/
theorem Sound.act {s : State} (h : Sound s) (act : AgentAct) : Sound (act.apply s) := by
  cases act with
  | rxDeliver bdf q packet other => exact h.rxDeliver bdf q packet other
  | txFetch bdf q => exact h.txFetch bdf q
  | txSend bdf q => exact h.txSend bdf q
  | txWriteBack bdf q => exact h.txWriteBack bdf q
  | regSide bdf r i v => exact h.setNic _ ((h.nic bdf).regSide h.ringSize_pos r i v)
  | pciSide bdf r v => exact h.setNic _ ((h.nic bdf).pciSide r v)
  | hold bdf on => exact h.setNic _ ((h.nic bdf).same rfl rfl)
  | arrive bdf => exact h.setNic _ ((h.nic bdf).arrive h.ringSize_pos)
  | lag bdf on => exact h.setNic _ ((h.nic bdf).same rfl rfl)
  | elapse d => exact h.same rfl rfl rfl

theorem Sound.runDue {s : State} (h : Sound s) (l : List Due) : Sound (runDue l s) := by
  induction l generalizing s with
  | nil => exact h.same rfl rfl rfl
  | cons d rest ih =>
    obtain ⟨w, act⟩ := d
    cases w with
    | zero => exact ih (h.act act)
    | succ w => exact h.same rfl rfl rfl

theorem Sound.agents {s : State} (h : Sound s) : Sound s.agents := h.runDue _

theorem Sound.boundary {s : State} (h : Sound s) (line : Nat) : Sound (s.boundary line) :=
  Sound.same (s := (s.atStep line).agents) (Sound.agents (h.same rfl rfl rfl)) rfl rfl rfl

theorem Sound.postWrite {s : State} (h : Sound s) (bdf : W16) (off : Nat) (v : W32) : Sound (s.postWrite bdf off v) :=
  h.setNic _ ((h.nic bdf).post h.ringSize_pos _)

theorem Sound.drainNic {s : State} (h : Sound s) (bdf : W16) : Sound (s.drainNic bdf) := by
  unfold State.drainNic
  split
  · exact h
  · exact h.setNic _ ((h.nic bdf).drain h.ringSize_pos)

/-! Relations that hold from the start to the end of micro-steps. -/

variable {α β : Type} {R : State → State → Prop}

/-- However the micro-steps `m` end, the state they end in is related to the one they start from. -/
def Leads (R : State → State → Prop) (m : Micro α) : Prop := ∀ s, R s (Micro.after (m s))

/-- A relation that holds across no micro-step, and across two parts if it holds across each. -/
structure Chains (R : State → State → Prop) : Prop where
  refl : ∀ s, R s s
  trans : ∀ {s t u}, R s t → R t u → R s u

theorem Leads.mono {R' : State → State → Prop} {m : Micro α} (h : Leads R m) (hR : ∀ {s t}, R s t → R' s t) :
    Leads R' m := fun s => hR (h s)

theorem Leads.pure (hR : Chains R) (a : α) : Leads R (pure a : Micro α) := fun s => hR.refl s

theorem Leads.look (hR : Chains R) (f : State → α) : Leads R (look f) := fun s => hR.refl s

theorem Leads.raise (hR : Chains R) (f : Failure) : Leads R (raise f : Micro α) := fun s => hR.refl s

theorem Leads.refuse (hR : Chains R) (r : Refusal) : Leads R (refuse r : Micro α) := fun s => hR.refl s

/-- Two parts, where the second may rest on the state in which the first began. -/
theorem Leads.bind_at {m : Micro α} {k : α → Micro β} {s : State} (h : R s (Micro.after (m s)))
    (hk : ∀ a t, m s = .ok a t → R s t → R s (Micro.after (k a t))) : R s (Micro.after ((m >>= k) s)) := by
  rw [Micro.run_bind]
  cases hm : m s with
  | ok a t => exact hk a t hm (by simpa [hm, Micro.after] using h)
  | error e t => simpa [hm, Micro.after] using h

theorem Leads.bind (hR : Chains R) {m : Micro α} {k : α → Micro β} (h : Leads R m) (hk : ∀ a, Leads R (k a)) :
    Leads R (m >>= k) := fun s => bind_at (h s) fun a t _ hst => hR.trans hst (hk a t)

theorem Leads.ite {p : Prop} [Decidable p] {x y : Micro α} (hx : Leads R x) (hy : Leads R y) :
    Leads R (if p then x else y) := by split <;> assumption

theorem Leads.forEach (hR : Chains R) {body : α → Micro Unit} (h : ∀ x, Leads R (body x)) (l : List α) :
    Leads R (forEach l body) := by
  induction l with
  | nil => exact .pure hR ()
  | cons x rest ih => exact .bind hR (h x) fun _ => ih

/-- The same as a triple. -/
theorem Leads.triple (hR : Chains R) {m : Micro α} (h : Leads R m) (s : State) :
    Triple (R s) m (fun _ => R s) (fun _ => R s) (fun _ => True) := by
  intro t ht
  have hm := h t
  revert hm
  cases m t with
  | ok a u => exact fun hm => hR.trans ht hm
  | error e u =>
    cases e with
    | raise f => exact fun hm => hR.trans ht hm
    | fault f => exact fun _ => trivial
    | refuse r => exact fun _ => trivial

/-! What accesses do. -/

/-- From `s` to `t` the commands' accesses were made, and the engine registers changed as `W` says: nothing else of
what the block itself owns is changed, and what the other agents touch stays sound. -/
structure Runs (W : Config → Engine → Engine → Prop) (s t : State) : Prop where
  keeps : Keeps s t
  es : t.es = s.es
  handles : t.handles = s.handles
  blocks : t.blocks = s.blocks
  sound : Sound s → Sound t
  eng : W s.cfg s.eng t.eng

/-- Accesses alone: the engine registers stay too. -/
abbrev Calm : State → State → Prop := Runs fun _ e e' => e' = e

theorem Runs.chains {W : Config → Engine → Engine → Prop} (refl : ∀ c e, W c e e)
    (trans : ∀ {c e e' e''}, W c e e' → W c e' e'' → W c e e'') : Chains (Runs W) where
  refl s := ⟨.refl s, rfl, rfl, rfl, id, refl _ _⟩
  trans h k := ⟨h.keeps.trans k.keeps, k.es.trans h.es, k.handles.trans h.handles, k.blocks.trans h.blocks,
    fun hs => k.sound (h.sound hs), trans h.eng (by rw [← h.keeps.cfg]; exact k.eng)⟩

theorem Calm.chains : Chains Calm := Runs.chains (fun _ _ => rfl) fun h k => k.trans h

/-- Accesses change the engine registers as anything says that allows no change. -/
theorem Calm.runs {W : Config → Engine → Engine → Prop} (refl : ∀ c e, W c e e) {s t : State} (h : Calm s t) :
    Runs W s t := ⟨h.keeps, h.es, h.handles, h.blocks, h.sound, by rw [h.eng]; exact refl _ _⟩

theorem Calm.handle {s t : State} (h : Calm s t) (dev : BitVec 8) : t.handle dev = s.handle dev := by
  rw [State.handle, State.handle, h.handles]

theorem Calm.boundary (s : State) (line : Nat) : Calm s (s.boundary line) :=
  ⟨.boundary s line, by simp, by simp, by simp, fun h => h.boundary line, by simp⟩

theorem Calm.log {s t : State} (h : Calm s t) (a : Access) : Calm s (t.log a) :=
  ⟨h.keeps.log a, h.es, h.handles, h.blocks, fun hs => (h.sound hs).same rfl rfl rfl, h.eng⟩

theorem Calm.setNic {s t : State} (h : Calm s t) (bdf : W16) {n : Nic} (hn : Sound t → n.HeadsOk t.cfg) :
    Calm s (t.setNic bdf n) :=
  ⟨h.keeps.setNic bdf n, h.es, h.handles, h.blocks, fun hs => (h.sound hs).setNic bdf (hn (h.sound hs)), h.eng⟩

theorem Calm.postWrite {s t : State} (h : Calm s t) (bdf : W16) (off : Nat) (v : W32) :
    Calm s (t.postWrite bdf off v) := h.setNic bdf fun ht => (ht.nic bdf).post ht.ringSize_pos _

theorem Calm.drainNic {s t : State} (h : Calm s t) (bdf : W16) : Calm s (t.drainNic bdf) := by
  unfold State.drainNic
  split
  · exact h
  · exact h.setNic bdf fun ht => (ht.nic bdf).drain ht.ringSize_pos

/-- Bytes are stored, and answers of the handler used up. -/
theorem Calm.store {s t : State} (h : Calm s t) {m : List Host.Cell} (l : List HandlerRun)
    (hm : Memory.wf t.mem = true → Memory.wf m = true) : Calm s { t with mem := m, handlerQ := l } :=
  ⟨h.keeps.same rfl rfl rfl rfl rfl (Nat.le_refl _) rfl (List.suffix_refl _), h.es, h.handles, h.blocks,
    fun hs => Sound.same (s := { t with mem := m }) ((h.sound hs).setMem (hm (h.sound hs).memory)) rfl rfl rfl, h.eng⟩

/-! Each operation is accesses alone. -/

/-- However the micro-steps `m` end, they were accesses alone. -/
def Accesses (m : Micro α) : Prop := Leads Calm m

theorem Accesses.memRead (line : Nat) (acq : Bool) (a : W64) (n : Nat) : Accesses (memRead line acq a n) := by
  intro s
  simp only [Machine.memRead]
  split
  · exact (Calm.boundary s line).log _
  · exact Calm.boundary s line

theorem Accesses.memWrite (line : Nat) (rel : Bool) (a : W64) (n : Nat) (v : W64) :
    Accesses (memWrite line rel a n v) := by
  intro s
  simp only [Machine.memWrite]
  split
  · exact ((Calm.boundary s line).store (s.boundary line).handlerQ fun h => Memory.wf_writeLE _ _ _ h).log _
  · exact Calm.boundary s line

theorem Accesses.mmioRead32 (line : Nat) (dev : BitVec 8) (off : Nat) : Accesses (mmioRead32 line dev off) := by
  intro s
  simp only [Machine.mmioRead32]
  split
  · exact ((Calm.boundary s line).drainNic _).log _
  · exact Calm.boundary s line

theorem Accesses.mmioWrite32 (line : Nat) (dev : BitVec 8) (off : Nat) (v : W32) :
    Accesses (mmioWrite32 line dev off v) := by
  intro s
  simp only [Machine.mmioWrite32]
  split
  · exact ((Calm.boundary s line).postWrite _ _ _).log _
  · exact Calm.boundary s line

theorem Accesses.mmioWriteAt (line : Nat) (a : W64) (v : W32) : Accesses (mmioWriteAt line a v) := by
  intro s
  simp only [Machine.mmioWriteAt]
  split
  · exact ((Calm.boundary s line).postWrite _ _ _).log _
  · exact Calm.boundary s line

theorem Accesses.sleepUs (line n : Nat) : Accesses (sleepUs line n) := fun s =>
  have h := Calm.boundary s line
  ⟨AlwaysKeeps.sleepUs line n s, h.es, h.handles, h.blocks, fun hs => (h.sound hs).same rfl rfl rfl, h.eng⟩

theorem Accesses.pciRead (line : Nat) (bdf : W16) (off : Nat) : Accesses (pciRead line bdf off) :=
  fun s => (Calm.boundary s line).log _

theorem Accesses.pciWrite (line : Nat) (bdf : W16) (off : Nat) (v : W32) : Accesses (pciWrite line bdf off v) :=
  fun s => ((Calm.boundary s line).setNic bdf fun h => (h.nic bdf).pciWrite _ _ _).log _

theorem Accesses.v2p (line : Nat) (a : W64) : Accesses (v2p line a) := fun s => (Calm.boundary s line).log _

theorem Accesses.p2v (line : Nat) (p : W64) (n : Nat) : Accesses (p2v line p n) :=
  fun s => (Calm.boundary s line).log _

theorem applyWrites_wf {m : List Host.Cell} (base : Nat) (l : List (Nat × Byte)) (h : Memory.wf m = true) :
    Memory.wf (applyWrites m base l) = true := by
  induction l generalizing m with
  | nil => exact h
  | cons w rest ih => exact ih (Memory.wf_write _ _ h)

theorem Accesses.callHandler (line : Nat) (len : W16) (a : W64) : Accesses (callHandler line len a) := by
  intro s
  have h := Calm.boundary s line
  simp only [Machine.callHandler]
  split
  · exact h
  · split
    · exact h
    · split
      · exact (h.store _ (applyWrites_wf _ _)).log _
      · exact h

/-! Sequences of accesses. -/

theorem Accesses.pure (a : α) : Accesses (Pure.pure a : Micro α) := Leads.pure Calm.chains a

theorem Accesses.look (f : State → α) : Accesses (Machine.look f) := Leads.look Calm.chains f

theorem Accesses.raise (f : Failure) : Accesses (Machine.raise f : Micro α) := Leads.raise Calm.chains f

theorem Accesses.bind {m : Micro α} {k : α → Micro β} (h : Accesses m) (hk : ∀ a, Accesses (k a)) :
    Accesses (m >>= k) := Leads.bind Calm.chains h hk

theorem Accesses.ite {p : Prop} [Decidable p] {x y : Micro α} (hx : Accesses x) (hy : Accesses y) :
    Accesses (if p then x else y) := Leads.ite hx hy

theorem Accesses.forEach {body : α → Micro Unit} (h : ∀ x, Accesses (body x)) (l : List α) :
    Accesses (forEach l body) := Leads.forEach Calm.chains h l

theorem Accesses.regRead (line : Nat) (dev : BitVec 8) (r : DevReg) (i : Nat) : Accesses (regRead line dev r i) :=
  .bind (.look _) fun _ => .mmioRead32 _ _ _

theorem Accesses.regWrite (line : Nat) (dev : BitVec 8) (r : DevReg) (i : Nat) (v : W32) :
    Accesses (regWrite line dev r i v) := .bind (.look _) fun _ => .mmioWrite32 _ _ _ _

theorem Accesses.regReadField (line : Nat) (dev : BitVec 8) (f : DevField) (i : Nat) :
    Accesses (regReadField line dev f i) := .bind (.regRead _ _ _ _) fun _ => .bind (.look _) fun _ => .pure _

theorem Accesses.regWriteField (line : Nat) (dev : BitVec 8) (f : DevField) (i : Nat) (v : W32) :
    Accesses (regWriteField line dev f i v) :=
  .bind (.regRead _ _ _ _) fun _ => .bind (.look _) fun _ => .regWrite _ _ _ _ _

theorem Accesses.regSet (line : Nat) (dev : BitVec 8) (f : DevField) (i : Nat) : Accesses (regSet line dev f i) :=
  .bind (.look _) fun _ => .regWriteField _ _ _ _ _

theorem Accesses.regClear (line : Nat) (dev : BitVec 8) (f : DevField) (i : Nat) : Accesses (regClear line dev f i) :=
  .regWriteField _ _ _ _ _

theorem Accesses.regIsCleared (line : Nat) (dev : BitVec 8) (f : DevField) (i : Nat) :
    Accesses (regIsCleared line dev f i) := .bind (.regReadField _ _ _ _) fun _ => .pure _

theorem Accesses.pollLoop (line : Nat) (dev : BitVec 8) (f : DevField) (i : Nat) (w : Bool) (gap n : Nat) :
    Accesses (pollLoop line dev f i w gap n) := by
  induction n with
  | zero => exact .pure _
  | succ n ih => exact .bind (.regIsCleared _ _ _ _) fun _ => .ite (.pure _) (.bind (.sleepUs _ _) fun _ => ih)

theorem Accesses.poll (line : Nat) (dev : BitVec 8) (f : DevField) (i : Nat) (w : Bool) :
    Accesses (poll line dev f i w) := .bind (.look _) fun _ => .pollLoop _ _ _ _ _ _ _

theorem Accesses.pciRegRead (line : Nat) (bdf : W16) (r : PciReg) : Accesses (pciRegRead line bdf r) :=
  .bind (.look _) fun _ => .pciRead _ _ _

theorem Accesses.pciReadField (line : Nat) (bdf : W16) (f : PciField) : Accesses (pciReadField line bdf f) :=
  .bind (.pciRegRead _ _ _) fun _ => .bind (.look _) fun _ => .pure _

theorem Accesses.pciWriteField (line : Nat) (bdf : W16) (f : PciField) (v : W32) :
    Accesses (pciWriteField line bdf f v) :=
  .bind (.pciRegRead _ _ _) fun _ => .bind (.look _) fun _ => .bind (.look _) fun _ => .pciWrite _ _ _ _

theorem Accesses.pciSet (line : Nat) (bdf : W16) (f : PciField) : Accesses (pciSet line bdf f) :=
  .bind (.look _) fun _ => .pciWriteField _ _ _ _

theorem Accesses.pciIsCleared (line : Nat) (bdf : W16) (f : PciField) : Accesses (pciIsCleared line bdf f) :=
  .bind (.pciReadField _ _ _) fun _ => .pure _

theorem Accesses.v2pOrRaise (line : Nat) (a : W64) (site : AllocSite) : Accesses (v2pOrRaise line a site) := by
  refine .bind (.v2p _ _) fun r => ?_
  cases r with
  | none => exact .raise _
  | some p => exact .pure _

theorem Accesses.flushTails (line : Nat) : Accesses (flushTails line) :=
  .bind (.look _) fun _ => .forEach (fun _ => .mmioWriteAt _ _ _) _

end Sys2Proof.Machine
end

section
/-! SUPPORT. What each command does to the engine, the handles and the live blocks, said once for each command
(`exec_effect`); what holds of every step follows from it. -/

namespace Sys2Proof.Machine

/-! A command is its precondition and its micro-steps. -/

/-- The precondition of each command (R43, R165, R261, R270, R280, R302, R310, R330). -/
def ready : Instr → State → Bool
  | .devOpen dev _ => lifeIs dev .unmapped
  | .devReset dev => lifeIs dev .validated
  | .devInit dev => lifeIs dev .reset
  | .setPromisc dev _ => lifeIs dev .initialized
  | .regRead dev _ _ => regAccessReady dev
  | .regWrite dev _ _ _ => regAccessReady dev
  | .engConstruct => fun s => s.es == .unconstructed
  | .bindInput dev => bindReady dev
  | .bindOutput dev _ => bindReady dev
  | .receive => isConstructed
  | .transmit _ _ => transmitReady
  | .process => transmitReady

/-- The micro-steps of each command. -/
def body : Instr → Micro (W64 × W64)
  | .devOpen dev bdf => do
    let va ← openDevice bdf
    change fun s => s.setHandle dev { s.handle dev with bdf := bdf, base := va, ls := .validated }
    return noValues
  | .devReset dev => do resetDevice dev; return noValues
  | .devInit dev => do initDevice dev; return noValues
  | .setPromisc dev enable => do setPromiscuous dev enable; return noValues
  | .regRead dev sel index => do
    requireLegal sel index
    let v ← readSelected dev sel index
    return (v.setWidth 64, 0)
  | .regWrite dev sel index value => do requireLegal sel index; writeSelected dev sel index value; return noValues
  | .engConstruct => do constructEngine; return noValues
  | .bindInput dev => do bindInput dev; return noValues
  | .bindOutput dev queue => do bindOutput dev queue; return noValues
  | .receive => do
    let r ← receiveSteps 1
    return receiveValues r
  | .transmit len mask => do transmitSteps 1 len mask; return noValues
  | .process => do processSteps; return noValues

/-- The state in which a command makes its first micro-step (R40). -/
def State.start (s : State) (i : Instr) : State := { s with pc := ⟨some i, 1⟩ }

theorem exec_eq (i : Instr) (s : State) : exec i s = runCommand i (ready i) (body i) s := by cases i <;> rfl

theorem lifeIs_iff {dev : BitVec 8} {ls : DevLife} {s : State} :
    lifeIs dev ls s = true ↔ dev.toNat < s.cfg.nDev ∧ (s.handle dev).ls = ls := by
  simp [lifeIs, devInRange]

theorem Handle.mapped_iff {h : Handle} : h.mapped = true ↔ h.ls ≠ .unmapped ∧ h.ls ≠ .failed := by
  unfold Handle.mapped
  cases h.ls <;> decide

theorem regAccessReady_iff {dev : BitVec 8} {s : State} :
    regAccessReady dev s = true ↔
      dev.toNat < s.cfg.nDev ∧ (s.handle dev).ls ≠ .unmapped ∧ (s.handle dev).ls ≠ .failed := by
  simp [regAccessReady, devInRange, Handle.mapped_iff]

/-- The precondition as the model tests it is the one the rules state. -/
theorem ready_iff (i : Instr) (s : State) : ready i s = true ↔ accepts i s := by
  cases i with
  | devOpen | devReset | devInit | setPromisc => exact lifeIs_iff
  | regRead | regWrite => exact regAccessReady_iff
  | engConstruct => exact beq_iff_eq
  | bindInput | bindOutput => simp [ready, accepts, bindReady, isConstructed, lifeIs_iff]
  | receive => exact beq_iff_eq
  | transmit | process => simp [ready, accepts, transmitReady, isConstructed, rsSlot]

/-- A command that is not accepted (R376 (b), R378). -/
theorem exec_of_not_accepts {i : Instr} {s : State} (h : ¬ accepts i s) : exec i s = .next s.refusedWith4 := by
  rw [exec_eq, runCommand_precondition (by rw [← ready_iff] at h; simpa using h)]
  rfl

/-- An accepted command whose micro-steps all succeed. -/
theorem exec_ok {i : Instr} {s t : State} {v : W64 × W64} (h : accepts i s) (hb : body i (s.start i) = .ok v t) :
    exec i s = .next (t.respond resOk v.1 v.2) := by
  rw [exec_eq]
  exact runCommand_ok ((ready_iff i s).2 h) hb

/-- What a triple about its micro-steps says of a command that ends in a state. -/
theorem exec_of_triple {i : Instr} {s t : State} {P : State → Prop} {E : Failure → State → Prop}
    {F : Fault → Prop} {Q : W64 × W64 → State → Prop} (hT : Triple P (body i) Q E F) (hP : P (s.start i))
    (h : exec i s = .next t) :
    (¬ accepts i s ∧ t = s.refusedWith4) ∨
    (accepts i s ∧ ((∃ v u, Q v u ∧ t = u.respond resOk v.1 v.2) ∨ ∃ f u, E f u ∧ t = u.takeFailure f)) := by
  have hrun := hT _ hP
  rw [exec_eq] at h
  rcases runCommand_next h with ⟨hp, rfl⟩ | ⟨hp, v, u, hb, rfl⟩ | ⟨hp, f, u, hb, rfl⟩
  · exact .inl ⟨by simp [← ready_iff, hp], rfl⟩
  · rw [State.start, hb] at hrun
    exact .inr ⟨(ready_iff i s).1 hp, .inl ⟨v, u, hrun, rfl⟩⟩
  · rw [State.start, hb] at hrun
    exact .inr ⟨(ready_iff i s).1 hp, .inr ⟨f, u, hrun, rfl⟩⟩

/-! More rules for triples. -/

section Rules
variable {α β : Type} {P : State → Prop} {E : Failure → State → Prop} {F : Fault → Prop}

theorem Triple.of_exists {ι : Sort*} {P : ι → State → Prop} {m : Micro α} {Q : α → State → Prop}
    (h : ∀ x, Triple (P x) m Q E F) : Triple (fun s => ∃ x, P x s) m Q E F := fun s ⟨x, hx⟩ => h x s hx

theorem Triple.of_fact {p : Prop} {m : Micro α} {Q : α → State → Prop} (h : p → Triple P m Q E F) :
    Triple (fun s => p ∧ P s) m Q E F := fun s ⟨hp, hs⟩ => h hp s hs

/-- A check that raises, and what is done where it passes. -/
theorem Triple.unless {p : Prop} [Decidable p] {k : Unit → Micro β} {Q : β → State → Prop} {f : Failure}
    (hf : ∀ s, P s → E f s) (hk : ¬ p → Triple P (k ()) Q E F) :
    Triple P (if p then Machine.raise f >>= k else k ()) Q E F := by
  by_cases h : p
  · simp only [h, if_true]
    exact fun s hs => by simpa using hf s hs
  · simp only [h, if_false]
    exact hk h

/-- The value that the micro-steps return does not matter. -/
theorem Triple.return {m : Micro α} {Q : State → Prop} (h : Triple P m (fun _ => Q) E F) (v : β) :
    Triple P (m >>= fun _ => Pure.pure v) (fun _ => Q) E F := .bind h fun _ => .pure fun _ hs => hs

end Rules

section Parts
variable {α β : Type}

theorem Accesses.guarded {p : Prop} [Decidable p] {x : Micro Unit} {k : Unit → Micro β} (hx : Accesses x)
    (hk : ∀ u, Accesses (k u)) : Accesses (if p then x >>= k else k ()) := .ite (.bind hx hk) (hk ())

/-- Accesses, and then something that ends as `E` says where it fails. -/
theorem Accesses.bind_triple {m : Micro α} {k : α → Micro β} {s : State} {Q : β → State → Prop}
    {E : Failure → State → Prop} (h : Accesses m) (hE : ∀ f t, Calm s t → E f t)
    (hk : ∀ a, Triple (Calm s) (k a) Q E fun _ => True) : Triple (Calm s) (m >>= k) Q E fun _ => True :=
  .bind ((h.triple Calm.chains s).weaken (fun _ h => h) (fun _ _ h => h) hE fun _ h => h) hk

/-! DEV_RESET, DEV_INIT (R202, R231). -/

/-- Accesses, and then a new lifecycle state. -/
def Relived (dev : BitVec 8) (l : DevLife) (s t : State) : Prop :=
  ∃ m, Calm s m ∧ t = m.setHandle dev { m.handle dev with ls := l }

/-- How the commands that can fail a device end where they fail. -/
def Fails (dev : BitVec 8) (s t : State) : Prop := Calm s t ∨ Relived dev .failed s t

theorem Accesses.fails {m : Micro α} {k : α → Micro β} {s : State} {dev : BitVec 8} {Q : β → State → Prop}
    (h : Accesses m) (hk : ∀ a, Triple (Calm s) (k a) Q (fun _ => Fails dev s) fun _ => True) :
    Triple (Calm s) (m >>= k) Q (fun _ => Fails dev s) fun _ => True := h.bind_triple (fun _ _ h => .inl h) hk

theorem setLife_triple (dev : BitVec 8) (l : DevLife) (s : State) {E : Failure → State → Prop} {F : Fault → Prop} :
    Triple (Calm s) (setLife dev l) (fun _ => Relived dev l s) E F := .change fun m hm => ⟨m, hm, rfl⟩

theorem failDevice_triple (dev : BitVec 8) (f : Failure) (s : State) {Q : α → State → Prop} {F : Fault → Prop} :
    Triple (Calm s) (failDevice dev f) Q (fun _ => Fails dev s) F :=
  .bind (setLife_triple dev .failed s) fun _ => .raise fun _ h => .inr h

/-- A check that fails the device, and what follows where it passes. -/
theorem checked_triple {p : Prop} [Decidable p] {dev : BitVec 8} {f : Failure} {s : State} {k : Unit → Micro β}
    {Q : β → State → Prop} (hk : Triple (Calm s) (k ()) Q (fun _ => Fails dev s) fun _ => True) :
    Triple (Calm s) (if p then failDevice dev f >>= k else k ()) Q (fun _ => Fails dev s) fun _ => True := by
  split
  · exact .bind (failDevice_triple (Q := fun _ _ => False) dev f s) fun _ _ h => h.elim
  · exact hk

theorem disableRxQueues_triple (dev : BitVec 8) (todo q : Nat) (s : State) :
    Triple (Calm s) (disableRxQueues dev todo q) (fun _ => Calm s) (fun _ => Fails dev s) fun _ => True := by
  induction todo generalizing q with
  | zero => exact .pure fun _ h => h
  | succ todo ih =>
    exact (Accesses.regClear _ _ _ _).fails fun _ => (Accesses.poll _ _ _ _ _).fails fun _ =>
      checked_triple ((Accesses.look _).fails fun _ => (Accesses.sleepUs _ _).fails fun _ => ih (q + 1))

theorem Accesses.flushBuffers (dev : BitVec 8) : Accesses (flushBuffers dev) :=
  .bind (.regSet _ _ _ _) fun _ => .bind (.regSet _ _ _ _) fun _ => .bind (.look _) fun _ =>
    .bind (.sleepUs _ _) fun _ => .bind (.regClear _ _ _ _) fun _ => .regClear _ _ _ _

theorem Accesses.transactionPending (dev : BitVec 8) : Accesses (transactionPending dev) :=
  .bind (.look _) fun _ => .bind (.pciIsCleared _ _ _) fun _ => .pure _

theorem Accesses.disableMaster (dev : BitVec 8) : Accesses (disableMaster dev) :=
  .bind (.regSet _ _ _ _) fun _ => .bind (.poll _ _ _ _ _) fun _ =>
    .ite (.bind (.transactionPending dev) fun _ => .ite (.flushBuffers dev) (.pure _)) (.pure _)

theorem Accesses.issueReset (dev : BitVec 8) : Accesses (issueReset dev) :=
  .bind (.regSet _ _ _ _) fun _ => .bind (.look _) fun _ => .sleepUs _ _

theorem resetDevice_triple (dev : BitVec 8) (s : State) :
    Triple (Calm s) (resetDevice dev) (fun _ => Relived dev .reset s) (fun _ => Fails dev s) fun _ => True :=
  (Accesses.look _).fails fun _ => .bind (disableRxQueues_triple _ _ _ s) fun _ =>
    (Accesses.disableMaster dev).fails fun _ => (Accesses.issueReset dev).fails fun _ => setLife_triple _ _ s

theorem awaitDevice_triple (dev : BitVec 8) (s : State) :
    Triple (Calm s) (awaitDevice dev) (fun _ => Calm s) (fun _ => Fails dev s) fun _ => True := by
  refine (Accesses.look _).fails fun _ => (Accesses.regWrite _ _ _ _ _).fails fun _ =>
    (Accesses.poll _ _ _ _ _).fails fun _ => checked_triple ?_
  refine (Accesses.regIsCleared _ _ _ _).fails fun _ => checked_triple ?_
  refine (Accesses.poll _ _ _ _ _).fails fun _ => ?_
  split
  · exact failDevice_triple dev _ s
  · exact .pure fun _ h => h

theorem Accesses.zeroTable (line : Nat) (dev : BitVec 8) (r : DevReg) (n : Nat) : Accesses (zeroTable line dev r n) :=
  .forEach (fun _ => .regWrite _ _ _ _ _) _

theorem Accesses.zeroFilterTables (dev : BitVec 8) : Accesses (zeroFilterTables dev) :=
  .bind (.look _) fun _ => .bind (.zeroTable _ _ _ _) fun _ => .bind (.zeroTable _ _ _ _) fun _ =>
    .bind (.zeroTable _ _ _ _) fun _ => .bind (.zeroTable _ _ _ _) fun _ => .zeroTable _ _ _ _

theorem Accesses.configureReceive (dev : BitVec 8) : Accesses (configureReceive dev) :=
  .bind (.look _) fun _ => .bind (.regWriteField _ _ _ _ _) fun _ =>
    .bind (.forEach (fun _ => .regWriteField _ _ _ _ _) _) fun _ => .bind (.regWriteField _ _ _ _ _) fun _ =>
    .bind (.regSet _ _ _ _) fun _ => .bind (.regClear _ _ _ _) fun _ => .bind (.regSet _ _ _ _) fun _ =>
    .bind (.regSet _ _ _ _) fun _ => .regSet _ _ _ _

theorem Accesses.configureTransmit (dev : BitVec 8) : Accesses (configureTransmit dev) :=
  .bind (.look _) fun _ => .bind (.regSet _ _ _ _) fun _ =>
    .bind (.forEach (fun _ => .regWriteField _ _ _ _ _) _) fun _ => .bind (.regWriteField _ _ _ _ _) fun _ =>
    .bind (.regWriteField _ _ _ _ _) fun _ => .regClear _ _ _ _

theorem initDevice_triple (dev : BitVec 8) (s : State) :
    Triple (Calm s) (initDevice dev) (fun _ => Relived dev .initialized s) (fun _ => Fails dev s) fun _ => True :=
  .bind (awaitDevice_triple dev s) fun _ => (Accesses.zeroFilterTables dev).fails fun _ =>
    (Accesses.configureReceive dev).fails fun _ => (Accesses.configureTransmit dev).fails fun _ => setLife_triple _ _ s

/-! SET_PROMISC, DEV_OPEN, REG_READ, REG_WRITE (R182, R250, R165, R166). -/

theorem Accesses.setPromiscuous (dev : BitVec 8) (enable : Bool) : Accesses (setPromiscuous dev enable) :=
  .bind (.regIsCleared _ _ _ _) fun _ => .guarded (.regClear _ _ _ _) fun _ =>
    .bind (.regWriteField _ _ _ _ _) fun _ => .bind (.regWriteField _ _ _ _ _) fun _ => .ite (.regSet _ _ _ _) (.pure _)

/-- A check that raises, and what follows where it passes. -/
theorem Accesses.checked {p : Prop} [Decidable p] {f : Failure} {k : Unit → Micro β} (hk : ∀ u, Accesses (k u)) :
    Accesses (if p then Machine.raise f >>= k else k ()) := .guarded (.raise f) hk

theorem Accesses.openDevice (bdf : W16) : Accesses (openDevice bdf) := by
  refine .bind (.look _) fun _ => .bind (.pciRegRead _ _ _) fun _ => .checked fun _ => ?_
  refine .bind (.pciReadField _ _ _) fun _ => .checked fun _ => ?_
  refine .bind (.pciSet _ _ _) fun _ => .bind (.pciSet _ _ _) fun _ => .bind (.pciSet _ _ _) fun _ => ?_
  refine .bind (.pciRegRead _ _ _) fun _ => .checked fun _ => ?_
  refine .bind (.pciRegRead _ _ _) fun _ => .bind (.p2v _ _ _) fun answer => ?_
  cases answer with
  | none => exact .raise _
  | some va => exact .pure va

theorem Accesses.requireLegal (sel : RegSel) (index : W16) : Accesses (requireLegal sel index) :=
  .bind (.look _) fun _ => .ite (Leads.refuse Calm.chains _) (.pure _)

theorem Accesses.readSelected (dev : BitVec 8) (sel : RegSel) (index : W16) :
    Accesses (readSelected dev sel index) := by
  refine .bind (.look _) fun _ => ?_
  match sel with
  | .dev _ none => exact .regRead _ _ _ _
  | .dev _ (some _) => exact .regReadField _ _ _ _
  | .pci _ none => exact .pciRegRead _ _ _
  | .pci _ (some _) => exact .pciReadField _ _ _

theorem Accesses.writeSelected (dev : BitVec 8) (sel : RegSel) (index : W16) (value : W32) :
    Accesses (writeSelected dev sel index value) := by
  refine .bind (.look _) fun _ => ?_
  match sel with
  | .dev _ none => exact .regWrite _ _ _ _ _
  | .dev _ (some _) => exact .regWriteField _ _ _ _ _
  | .pci _ none => exact .bind (.look _) fun _ => .pciWrite _ _ _ _
  | .pci _ (some _) => exact .pciWriteField _ _ _ _

/-- Accesses, and then the handle of a window. -/
def Opened (dev : BitVec 8) (bdf : W16) (s t : State) : Prop :=
  ∃ m va, Calm s m ∧ t = m.setHandle dev { m.handle dev with bdf := bdf, base := va, ls := .validated }

/-! The binds (R270, R280). -/

/-- What BIND_INPUT records (R278). -/
def State.markInput (s : State) (dev : BitVec 8) : State :=
  { s.setHandle dev { s.handle dev with rxBound := true } with
    eng := { s.eng with rta := (s.handle dev).base + BitVec.ofNat 64 (s.cfg.off .rdt s.cfg.rxQueue), rtaV := true } }

/-- What BIND_OUTPUT records (R294). -/
def State.markOutput (s : State) (dev : BitVec 8) (q : Nat) (n : Fin 4) : State :=
  { s.setHandle dev { s.handle dev with txBound := (s.handle dev).txBound + 1 } with
    eng := { s.eng with
      tta := s.eng.tta.set n ((s.handle dev).base + BitVec.ofNat 64 (s.cfg.off .tdt q))
      oc := BitVec.ofNat 64 (n.val + 1) } }

theorem Accesses.programInput (dev : BitVec 8) (q : Nat) : Accesses (programInput dev q) :=
  .bind (.look _) fun _ => .bind (.v2pOrRaise _ _ _) fun _ => .bind (.regWrite _ _ _ _ _) fun _ =>
    .bind (.regWrite _ _ _ _ _) fun _ => .bind (.regWrite _ _ _ _ _) fun _ =>
    .bind (.regWriteField _ _ _ _ _) fun _ => .regSet _ _ _ _

theorem Accesses.startInput (dev : BitVec 8) (q : Nat) : Accesses (startInput dev q) := by
  refine .bind (.look _) fun _ => .bind (.regSet _ _ _ _) fun _ => .bind (.poll _ _ _ _ _) fun _ => .checked fun _ => ?_
  refine .bind (.regWrite _ _ _ _ _) fun _ => .bind (.regSet _ _ _ _) fun _ => .bind (.poll _ _ _ _ _) fun _ =>
    .checked fun _ => ?_
  exact .bind (.regSet _ _ _ _) fun _ => .bind (.regClear _ _ _ _) fun _ => .bind (.regSet _ _ _ _) fun _ =>
    .regWriteField _ _ _ _ _

/-- Accesses of a command that then can fail only with the state as the accesses leave it. -/
theorem Accesses.calmly {m : Micro α} {k : α → Micro β} {s : State} {Q : β → State → Prop} (h : Accesses m)
    (hk : ∀ a, Triple (Calm s) (k a) Q (fun _ => Calm s) fun _ => True) :
    Triple (Calm s) (m >>= k) Q (fun _ => Calm s) fun _ => True := h.bind_triple (fun _ _ h => h) hk

theorem bindInput_triple (dev : BitVec 8) (s : State) :
    Triple (Calm s) (bindInput dev) (fun _ t => ∃ m, Calm s m ∧ t = m.markInput dev) (fun _ => Calm s)
      fun _ => True := by
  refine .bind (Q := fun x t => x.cfg = s.cfg ∧ Calm s t) (.look fun t ht => ⟨ht.keeps.cfg, ht⟩) fun x =>
    .of_fact fun hx => ?_
  refine .unless (fun _ h => h) fun _ => ?_
  refine (Accesses.regIsCleared _ _ _ _).calmly fun _ => .unless (fun _ h => h) fun _ => ?_
  exact (Accesses.programInput dev _).calmly fun _ => (Accesses.startInput dev _).calmly fun _ =>
    .change fun m hm => ⟨m, hm, by rw [hx, ← hm.keeps.cfg]; rfl⟩

theorem Accesses.fillSlot (n : Fin 4) (i : Nat) : Accesses (fillSlot n i) :=
  .bind (.look _) fun _ => .bind (.v2pOrRaise _ _ _) fun _ => .bind (.memWrite _ _ _ _ _) fun _ =>
    .bind (.memRead _ _ _ _) fun _ => .pure _

theorem Accesses.programOutput (dev : BitVec 8) (n : Fin 4) (q : Nat) : Accesses (programOutput dev n q) :=
  .bind (.look _) fun _ => .bind (.v2pOrRaise _ _ _) fun _ => .bind (.regWrite _ _ _ _ _) fun _ =>
    .bind (.regWrite _ _ _ _ _) fun _ => .bind (.regWrite _ _ _ _ _) fun _ =>
    .bind (.regWriteField _ _ _ _ _) fun _ => .regWriteField _ _ _ _ _

theorem Accesses.programWriteBack (dev : BitVec 8) (n : Fin 4) (q : Nat) : Accesses (programWriteBack dev n q) :=
  .bind (.look _) fun _ => .bind (.v2pOrRaise _ _ _) fun _ => .checked fun _ =>
    .bind (.regWrite _ _ _ _ _) fun _ => .bind (.regWrite _ _ _ _ _) fun _ => .regClear _ _ _ _

theorem Accesses.startOutput (dev : BitVec 8) (q : Nat) : Accesses (startOutput dev q) :=
  .bind (.regSet _ _ _ _) fun _ => .bind (.regSet _ _ _ _) fun _ => .bind (.poll _ _ _ _ _) fun _ =>
    .ite (.raise _) (.pure _)

theorem bindOutputAs_triple (dev : BitVec 8) (q : Nat) (n : Fin 4) (s : State) :
    Triple (Calm s) (bindOutputAs dev q n)
      (fun _ t => q < s.cfg.txQueueCount ∧ ∃ m, Calm s m ∧ t = m.markOutput dev q n) (fun _ => Calm s)
      fun _ => True := by
  refine .bind (Q := fun c t => c = s.cfg ∧ Calm s t) (.look fun t ht => ⟨ht.keeps.cfg, ht⟩) fun c =>
    .of_fact fun hc => .unless (fun _ h => h) fun hq => ?_
  refine (Accesses.regIsCleared _ _ _ _).calmly fun _ => .unless (fun _ h => h) fun _ => ?_
  refine (Accesses.forEach (fun _ => .fillSlot _ _) _).calmly fun _ => (Accesses.programOutput dev _ _).calmly fun _ =>
    (Accesses.programWriteBack dev _ _).calmly fun _ => (Accesses.startOutput dev _).calmly fun _ => ?_
  exact .change fun m hm => ⟨by rw [← hc]; omega, m, hm, rfl⟩

theorem bindOutput_triple (dev queue : BitVec 8) (s : State) :
    Triple (Calm s) (bindOutput dev queue)
      (fun _ t => queue.toNat < s.cfg.txQueueCount ∧
        ∃ n : Fin 4, n.val = s.eng.oc.toNat ∧ ∃ m, Calm s m ∧ t = m.markOutput dev queue.toNat n)
      (fun _ => Calm s) fun _ => True := by
  refine .bind (Q := fun oc t => oc = s.eng.oc.toNat ∧ Calm s t) (.look fun t ht => ⟨by rw [ht.eng], ht⟩) fun oc =>
    .of_fact fun hoc => ?_
  split
  · rename_i hlt
    exact (bindOutputAs_triple dev _ ⟨oc, hlt⟩ s).weaken (fun _ h => h) (fun _ t ⟨hq, hm⟩ => ⟨hq, ⟨oc, hlt⟩, hoc, hm⟩)
      (fun _ _ h => h) fun _ h => h
  · exact .raise fun _ h => h

/-! RECEIVE, TRANSMIT, PROCESS (R303, R316, R331). -/

/-- What RECEIVE can do to the engine registers: record the sentinel (R33, R305, R306). -/
def Unflushes (c : Config) (e e' : Engine) : Prop := e' = e ∨ e' = { e with fd := c.flushedNone }

theorem Unflushes.chains : Chains (Runs Unflushes) :=
  Runs.chains (fun _ _ => .inl rfl) fun {c e e' e''} h k => by
    rcases h with rfl | rfl
    · exact k
    · rcases k with rfl | rfl <;> exact .inr rfl

/-- The delimiters are slot numbers, or the sentinel (R32, R33). -/
def DelimitersOk (c : Config) (e : Engine) : Prop :=
  e.pd.toNat < c.ringSize ∧ (e.fd = c.flushedNone ∨ e.fd.toNat < c.ringSize)

/-- What TRANSMIT can do to the engine registers: move the delimiters, and keep them what they are (R313, R314). -/
def Delimits (c : Config) (e e' : Engine) : Prop :=
  e' = { e with pd := e'.pd, fd := e'.fd } ∧ (c.legal = true → DelimitersOk c e → DelimitersOk c e')

theorem Delimits.refl (c : Config) (e : Engine) : Delimits c e e := ⟨rfl, fun _ h => h⟩

theorem Delimits.chains : Chains (Runs Delimits) :=
  Runs.chains Delimits.refl fun {c e e' e''} h k => by
    refine ⟨?_, fun hc he => k.2 hc (h.2 hc he)⟩
    rw [k.1, h.1]

theorem Unflushes.delimits {c : Config} {e e' : Engine} (h : Unflushes c e e') : Delimits c e e' := by
  rcases h with rfl | rfl
  · exact .refl c _
  · exact ⟨rfl, fun _ he => ⟨he.1, .inl rfl⟩⟩

/-- Engine registers are written, as `W` allows. -/
theorem Runs.setEng {W : Config → Engine → Engine → Prop} {s : State} {e : Engine} (h : W s.cfg s.eng e) :
    Runs W s { s with eng := e } :=
  ⟨.same (.refl s) rfl rfl rfl rfl rfl (Nat.le_refl _) rfl (List.suffix_refl _), rfl, rfl, rfl,
    fun hs => hs.same rfl rfl rfl, h⟩

theorem Accesses.unflushes {m : Micro α} (h : Accesses m) : Leads (Runs Unflushes) m :=
  h.mono fun h => h.runs fun _ _ => .inl rfl

theorem Accesses.delimits {m : Micro α} (h : Accesses m) : Leads (Runs Delimits) m :=
  h.mono fun h => h.runs Delimits.refl

theorem receiveIdle_unflushes (line : Nat) : Leads (Runs Unflushes) (receiveIdle line) := by
  intro s
  have sentinel (t : State) (h : Runs Unflushes s t) : Runs Unflushes s (Micro.after (setFd s.cfg.flushedNone t)) :=
    Unflushes.chains.trans h (.setEng (.inr (by rw [h.keeps.cfg])))
  simp only [receiveIdle, Micro.look_bind, id]
  split
  · exact Leads.bind_at ((Accesses.flushTails line).unflushes s) fun _ t _ ht => sentinel t ht
  · split
    · exact sentinel s (Unflushes.chains.refl s)
    · exact Unflushes.chains.refl s

theorem receiveSteps_unflushes (line : Nat) : Leads (Runs Unflushes) (receiveSteps line) :=
  .bind Unflushes.chains (Accesses.look _).unflushes fun _ =>
    .bind Unflushes.chains (Accesses.memRead _ _ _ _).unflushes fun _ => .ite (.pure Unflushes.chains _)
      (.bind Unflushes.chains (receiveIdle_unflushes _) fun _ => .pure Unflushes.chains _)

theorem Accesses.writeDescriptors (line : Nat) (len : W16) (mask : BitVec 4) (rs : Bool) :
    Accesses (writeDescriptors line len mask rs) :=
  .bind (.look _) fun _ => .forEach (fun _ => .memWrite _ _ _ _ _) _

theorem advance_delimits : Leads (Runs Delimits) advance := fun s =>
  .setEng (s := s) ⟨rfl, fun hc he => ⟨slotAdd_lt hc _ _, he.2⟩⟩

theorem flushIfDue_delimits (line : Nat) : Leads (Runs Delimits) (flushIfDue line) := by
  intro s
  simp only [flushIfDue, Micro.look_bind, id]
  split
  · have hflush := Accesses.flushTails line s
    refine Leads.bind_at ((Accesses.flushTails line).delimits s) fun _ t ht hd => Delimits.chains.trans hd ?_
    rw [ht] at hflush
    refine .setEng (s := t) ⟨rfl, fun _ he => ⟨he.1, .inr ?_⟩⟩
    rw [← show t.eng = s.eng from hflush.eng]
    exact he.1
  · exact Delimits.chains.refl s

theorem Accesses.scanHeads (line : Nat) (l : List (Fin 4)) (best : W64 × W64) : Accesses (scanHeads line l best) := by
  induction l generalizing best with
  | nil => exact .pure _
  | cons n rest ih => exact .bind (.look _) fun _ => .bind (.memRead _ _ _ _) fun _ => ih _

theorem Accesses.recycle (line : Nat) : Accesses (recycle line) :=
  .bind (.look _) fun _ => .bind (.scanHeads _ _ _) fun _ => .mmioWriteAt _ _ _

theorem transmitSteps_delimits (line : Nat) (len : W16) (mask : BitVec 4) :
    Leads (Runs Delimits) (transmitSteps line len mask) :=
  .bind Delimits.chains (Accesses.look _).delimits fun _ =>
    .bind Delimits.chains (Accesses.writeDescriptors _ _ _ _).delimits fun _ =>
    .bind Delimits.chains advance_delimits fun _ => .bind Delimits.chains (flushIfDue_delimits _) fun _ =>
    .ite (Accesses.recycle _).delimits (.pure Delimits.chains _)

theorem processSteps_delimits : Leads (Runs Delimits) processSteps := by
  have receive := (receiveSteps_unflushes 1).mono fun h =>
    (⟨h.keeps, h.es, h.handles, h.blocks, h.sound, h.eng.delimits⟩ : Runs Delimits _ _)
  refine .bind Delimits.chains receive fun _ => .ite ?_ (.pure Delimits.chains _)
  refine .bind Delimits.chains (Accesses.look _).delimits fun _ =>
    .bind Delimits.chains (Accesses.callHandler _ _ _).delimits fun _ => .ite ?_ (transmitSteps_delimits _ _ _)
  exact .bind Delimits.chains (.refuse Delimits.chains _) fun _ => transmitSteps_delimits _ _ _

/-! ENG_CONSTRUCT (R262). -/

/-- Live blocks have a byte, lie inside both address spaces and do not overlap in either (R88, R352). -/
structure BlocksOk (l : List Block) : Prop where
  inside : ∀ b ∈ l, 0 < b.size ∧ b.base.toNat + b.size ≤ 2 ^ 64 ∧ b.phys.toNat + b.size ≤ 2 ^ 64
  disjoint : l.Pairwise fun a b =>
    apart (a.base, a.size) (b.base, b.size) ∧ apart (a.phys, a.size) (b.phys, b.size)

/-- The block that an answer of the allocator gives (R352). -/
def Grant.block (g : Grant) (size : Nat) : Block := ⟨g.base, size, g.phys, g.gaps⟩

theorem State.grantOk_iff {s : State} {g : Grant} {size : Nat} :
    s.grantOk g size = true ↔
      (g.base.toNat + size ≤ 2 ^ 64 ∧ g.phys.toNat + size ≤ 2 ^ 64) ∧
      (∀ b ∈ s.blocks, apart (g.base, size) (b.base, b.size) ∧ apart (g.phys, size) (b.phys, b.size)) ∧
      ∀ e ∈ s.handles, e.2.ls = .unmapped ∨ overlap g.base.toNat size e.2.base.toNat windowSize = false := by
  simp [State.grantOk, apart, and_assoc]

theorem BlocksOk.add {s : State} (h : BlocksOk s.blocks) {g : Grant} {size : Nat} (hpos : 0 < size)
    (hg : s.grantOk g size = true) : BlocksOk (g.block size :: s.blocks) := by
  obtain ⟨⟨hbase, hphys⟩, happart, -⟩ := State.grantOk_iff.1 hg
  refine ⟨fun b hb => ?_, List.pairwise_cons.2 ⟨happart, h.disjoint⟩⟩
  rcases List.mem_cons.1 hb with rfl | hb
  · exact ⟨hpos, hbase, hphys⟩
  · exact h.inside b hb

theorem BlocksOk.filter {l : List Block} (h : BlocksOk l) (p : Block → Bool) : BlocksOk (l.filter p) :=
  ⟨fun b hb => h.inside b (List.mem_filter.1 hb).1, h.disjoint.filter p⟩

/-- Blocks are obtained and freed: nothing else of what the block itself owns is changed, what the other agents touch
stays sound, and the live blocks stay apart. -/
structure Allocates (s t : State) : Prop where
  keeps : Keeps s t
  es : t.es = s.es
  eng : t.eng = s.eng
  handles : t.handles = s.handles
  sound : Sound s → Sound t
  blocks : s.cfg.legal = true → BlocksOk s.blocks → BlocksOk t.blocks

theorem Allocates.chains : Chains Allocates where
  refl s := ⟨.refl s, rfl, rfl, rfl, id, fun _ h => h⟩
  trans h k := ⟨h.keeps.trans k.keeps, k.es.trans h.es, k.eng.trans h.eng, k.handles.trans h.handles,
    fun hs => k.sound (h.sound hs), fun hc hb => k.blocks (by rw [h.keeps.cfg]; exact hc) (h.blocks hc hb)⟩

theorem Calm.allocates {s t : State} (h : Calm s t) : Allocates s t :=
  ⟨h.keeps, h.es, h.eng, h.handles, h.sound, fun _ hb => by rw [h.blocks]; exact hb⟩

theorem free_allocates (line : Nat) (a : W64) : Leads Allocates (free line a) := fun s =>
  have h := Calm.boundary s line
  ⟨AlwaysKeeps.free line a s, h.es, h.eng, h.handles, fun hs => (h.sound hs).same rfl rfl rfl, fun _ hb => by
    show BlocksOk ((s.boundary line).blocks.filter _)
    rw [h.blocks]
    exact hb.filter _⟩

theorem unwind_allocates (got : List W64) : Leads Allocates (unwind got) :=
  .forEach Allocates.chains (fun _ => free_allocates _ _) _

/-- After blocks `l`, the newest first, were obtained. -/
def Obtained (s : State) (l : List Block) (t : State) : Prop := Allocates s t ∧ t.blocks = l ++ s.blocks

/-- The answer of one allocation: a block that is then live, or no block. -/
theorem alloc_triple {line size : Nat} {site : AllocSite} {s : State} {l : List Block} {E : Failure → State → Prop}
    (hpos : s.cfg.legal = true → 0 < size) :
    Triple (Obtained s l) (alloc line size site)
      (fun r t => match r with
        | none => Allocates s t
        | some a => ∃ g : Grant, g.base = a ∧ g.aligned site = true ∧ Obtained s (g.block size :: l) t)
      E fun _ => True := by
  intro u ⟨hu, hl⟩
  have b := (Calm.boundary u line).allocates
  rcases hg : (u.boundary line).grants with _ | ⟨_ | g, rest⟩ <;> simp only [alloc, hg]
  · exact Allocates.chains.trans hu (((Calm.boundary u line).log _).allocates)
  · exact Allocates.chains.trans hu ⟨b.keeps.same rfl rfl rfl rfl rfl (Nat.le_refl _) rfl (List.suffix_cons _ _), b.es,
      b.eng, b.handles, fun hs => (b.sound hs).same rfl rfl rfl, b.blocks⟩
  · by_cases ha : g.aligned site = false
    · simp [ha]
    · by_cases hok : (u.boundary line).grantOk g size = true
      · simp only [ha, hok, if_true]
        have hblocks : (u.boundary line).blocks = l ++ s.blocks := by rw [State.boundary_blocks, hl]
        refine ⟨g, rfl, by simpa using ha, Allocates.chains.trans hu ⟨b.keeps.same rfl rfl rfl rfl rfl (Nat.le_refl _)
          rfl (List.suffix_cons _ _), b.es, b.eng, b.handles, fun hs => ?_, fun hc hb => ?_⟩, ?_⟩
        · exact ((b.sound hs).setMem (Memory.wf_clear _ _ (b.sound hs).memory)).same rfl rfl rfl
        · exact BlocksOk.add (b.blocks hc hb) (hpos (by rw [← hu.keeps.cfg]; exact hc)) hok
        · show g.block size :: (u.boundary line).blocks = _
          rw [hblocks, List.cons_append]
      · simp [ha, hok]

theorem allocOrUnwind_triple {line size : Nat} {site : AllocSite} {got : List W64} {s : State} {l : List Block}
    (hpos : s.cfg.legal = true → 0 < size) :
    Triple (Obtained s l) (allocOrUnwind line size site got)
      (fun a t => ∃ g : Grant, g.base = a ∧ g.aligned site = true ∧ Obtained s (g.block size :: l) t)
      (fun _ => Allocates s) fun _ => True := by
  refine .bind (alloc_triple hpos) fun r => ?_
  cases r with
  | none => exact .bind ((unwind_allocates got).triple Allocates.chains s) fun _ => .raise fun _ h => h
  | some a => exact .pure fun _ h => h

theorem allocRing_triple {n : Nat} {got : List W64} {s : State} {l : List Block} :
    Triple (Obtained s l) (allocRing n got)
      (fun a t => ∃ g : Grant, g.base = a ∧ g.aligned (.ring n) = true ∧ Obtained s (g.block (ringBytes s.cfg) :: l) t)
      (fun _ => Allocates s) fun _ => True := by
  refine .bind (Q := fun c t => c = s.cfg ∧ Obtained s l t) (.look fun t ht => ⟨ht.1.keeps.cfg, ht⟩) fun c =>
    .of_fact fun hc => ?_
  subst hc
  exact allocOrUnwind_triple fun hc => Nat.mul_pos (Config.ringSize_bounds hc).1 (by decide)

/-- The six blocks of the engine, the newest first. -/
def engineBlocks (c : Config) (r0 r1 r2 r3 b h : Grant) : List Block :=
  [h.block (outputsMax * c.headStride), b.block (c.ringSize * c.bufSize), r3.block (ringBytes c),
    r2.block (ringBytes c), r1.block (ringBytes c), r0.block (ringBytes c)]

/-- The engine registers that ENG_CONSTRUCT writes (R56, R263). -/
def Engine.constructed (e : Engine) (c : Config) (r0 r1 r2 r3 b h : W64) : Engine :=
  { e with pd := 0, fd := c.flushedNone, oc := 0, rtaV := false, ring := #v[r0, r1, r2, r3], buf := b, heads := h }

/-- Six blocks were obtained, and then the engine registers written. -/
def Constructed (s t : State) : Prop :=
  ∃ (m : State) (r0 r1 r2 r3 b h : Grant),
    (r0.aligned (.ring 0) = true ∧ r1.aligned (.ring 1) = true ∧ r2.aligned (.ring 2) = true ∧
      r3.aligned (.ring 3) = true) ∧
    Obtained s (engineBlocks s.cfg r0 r1 r2 r3 b h) m ∧
    t = { m with es := .constructed,
                 eng := m.eng.constructed s.cfg r0.base r1.base r2.base r3.base b.base h.base }

theorem constructEngine_triple (s : State) :
    Triple (Obtained s []) constructEngine (fun _ => Constructed s) (fun _ => Allocates s) fun _ => True := by
  refine .bind (Q := fun c t => c = s.cfg ∧ Obtained s [] t) (.look fun t ht => ⟨ht.1.keeps.cfg, ht⟩) fun c =>
    .of_fact fun hc => ?_
  subst hc
  refine .bind allocRing_triple fun a0 => .of_exists fun r0 => .of_fact fun h0 => .of_fact fun k0 => ?_
  refine .bind allocRing_triple fun a1 => .of_exists fun r1 => .of_fact fun h1 => .of_fact fun k1 => ?_
  refine .bind allocRing_triple fun a2 => .of_exists fun r2 => .of_fact fun h2 => .of_fact fun k2 => ?_
  refine .bind allocRing_triple fun a3 => .of_exists fun r3 => .of_fact fun h3 => .of_fact fun k3 => ?_
  have pool (hc : s.cfg.legal = true) : 0 < s.cfg.ringSize * s.cfg.bufSize :=
    Nat.mul_pos (Config.ringSize_bounds hc).1 (Config.sizes_pos hc).1
  have heads (hc : s.cfg.legal = true) : 0 < outputsMax * s.cfg.headStride :=
    Nat.mul_pos (by decide) (Config.sizes_pos hc).2
  refine .bind (allocOrUnwind_triple pool) fun a4 => .of_exists fun b => .of_fact fun h4 => .of_fact fun _ => ?_
  refine .bind (allocOrUnwind_triple heads) fun a5 => .of_exists fun h => .of_fact fun h5 => .of_fact fun _ => ?_
  subst h0 h1 h2 h3 h4 h5
  exact .change fun m hm => ⟨m, r0, r1, r2, r3, b, h, ⟨k0, k1, k2, k3⟩, hm, rfl⟩

end Parts

/-! Every command. -/

/-- What the micro-steps of a command that ends have done, from the state `s` in which they begin to the state `u` in
which the command returns or raises. -/
def Effect (i : Instr) (s u : State) : Prop :=
  match i with
  | .devOpen dev bdf => Calm s u ∨ Opened dev bdf s u
  | .devReset dev => Fails dev s u ∨ Relived dev .reset s u
  | .devInit dev => Fails dev s u ∨ Relived dev .initialized s u
  | .setPromisc _ _ | .regRead _ _ _ | .regWrite _ _ _ _ => Calm s u
  | .engConstruct => Allocates s u ∨ Constructed s u
  | .bindInput dev => Calm s u ∨ ∃ m, Calm s m ∧ u = m.markInput dev
  | .bindOutput dev queue =>
    Calm s u ∨ (queue.toNat < s.cfg.txQueueCount ∧
      ∃ n : Fin 4, n.val = s.eng.oc.toNat ∧ ∃ m, Calm s m ∧ u = m.markOutput dev queue.toNat n)
  | .receive => Runs Unflushes s u
  | .transmit _ _ | .process => Runs Delimits s u

/-- A triple that ends the same way for every value and for every failure. -/
def EndsIn (P : State → Prop) (m : Micro (W64 × W64)) (Q : State → Prop) : Prop :=
  Triple P m (fun _ => Q) (fun _ => Q) fun _ => True

theorem Accesses.endsIn {m : Micro (W64 × W64)} (h : Accesses m) (s : State) : EndsIn (Calm s) m (Calm s) :=
  h.triple Calm.chains s

theorem Triple.endsIn {m : Micro (W64 × W64)} {P Q E Q' : State → Prop}
    (h : Triple P m (fun _ => Q) (fun _ => E) fun _ => True) (hQ : ∀ u, Q u → Q' u) (hE : ∀ u, E u → Q' u) :
    EndsIn P m Q' := h.weaken (fun _ h => h) (fun _ => hQ) (fun _ => hE) fun _ h => h

theorem body_effect (i : Instr) (s : State) : EndsIn (· = s) (body i) (Effect i s) := by
  have start {m : Micro (W64 × W64)} {R : State → State → Prop} {Q : State → Prop} (hR : Chains R)
      (h : EndsIn (R s) m Q) : EndsIn (· = s) m Q :=
    h.weaken (fun _ ht => ht ▸ hR.refl s) (fun _ _ h => h) (fun _ _ h => h) fun _ h => h
  cases i with
  | devOpen dev bdf =>
    refine start Calm.chains ?_
    have opened : Triple (Calm s) (body (.devOpen dev bdf)) (fun _ => Opened dev bdf s) (fun _ => Calm s)
        fun _ => True :=
      (Accesses.openDevice bdf).calmly fun va => .return (.change fun m hm => ⟨m, va, hm, rfl⟩) _
    exact opened.endsIn (fun _ => .inr) fun _ => .inl
  | devReset dev => exact start Calm.chains (((resetDevice_triple dev s).return _).endsIn (fun _ => .inr) fun _ => .inl)
  | devInit dev => exact start Calm.chains (((initDevice_triple dev s).return _).endsIn (fun _ => .inr) fun _ => .inl)
  | setPromisc dev enable =>
    exact start Calm.chains ((Accesses.bind (.setPromiscuous dev enable) fun _ => .pure _).endsIn s)
  | regRead dev sel index =>
    exact start Calm.chains
      ((Accesses.bind (.requireLegal _ _) fun _ => .bind (.readSelected _ _ _) fun _ => .pure _).endsIn s)
  | regWrite dev sel index value =>
    exact start Calm.chains
      ((Accesses.bind (.requireLegal _ _) fun _ => .bind (.writeSelected _ _ _ _) fun _ => .pure _).endsIn s)
  | engConstruct =>
    have constructed := ((constructEngine_triple s).return noValues).endsIn (Q' := Effect .engConstruct s)
      (fun _ => .inr) fun _ => .inl
    refine constructed.weaken ?_ (fun _ _ h => h) (fun _ _ h => h) fun _ h => h
    rintro _ rfl
    exact ⟨Allocates.chains.refl _, rfl⟩
  | bindInput dev => exact start Calm.chains (((bindInput_triple dev s).return _).endsIn (fun _ => .inr) fun _ => .inl)
  | bindOutput dev queue =>
    exact start Calm.chains (((bindOutput_triple dev queue s).return _).endsIn (fun _ => .inr) fun _ => .inl)
  | receive =>
    exact start Unflushes.chains (((receiveSteps_unflushes 1).bind Unflushes.chains fun _ =>
      .pure Unflushes.chains _).triple Unflushes.chains s)
  | transmit len mask =>
    exact start Delimits.chains (((transmitSteps_delimits 1 len mask).bind Delimits.chains fun _ =>
      .pure Delimits.chains _).triple Delimits.chains s)
  | process =>
    exact start Delimits.chains ((processSteps_delimits.bind Delimits.chains fun _ =>
      .pure Delimits.chains _).triple Delimits.chains s)

/-- Everything a command can do that ends in a state: it is refused, or its micro-steps have their effect and then the
response is made (R370, R376, R379). -/
theorem exec_effect {i : Instr} {s t : State} (h : exec i s = .next t) :
    (¬ accepts i s ∧ t = s.refusedWith4) ∨
    (accepts i s ∧ ∃ u res v w, Effect i (s.start i) u ∧ t = u.respond res v w) := by
  rcases exec_of_triple (body_effect i (s.start i)) rfl h with hn | ⟨ha, ⟨v, u, he, ht⟩ | ⟨f, u, he, ht⟩⟩
  · exact .inl hn
  · exact .inr ⟨ha, u, _, _, _, he, ht⟩
  · exact .inr ⟨ha, u, _, _, _, he, ht⟩

end Sys2Proof.Machine
end

section
/-! SUPPORT. What holds of every command and every step: who writes the engine and the handles, what only grows, and the
invariant. -/

namespace Sys2Proof.Machine

/-! What every command keeps. -/

theorem Relived.keeps {dev : BitVec 8} {l : DevLife} {s t : State} (h : Relived dev l s t) : Keeps s t := by
  obtain ⟨m, hm, rfl⟩ := h
  exact hm.keeps.same rfl rfl rfl rfl rfl (Nat.le_refl _) rfl (List.suffix_refl _)

theorem Fails.keeps {dev : BitVec 8} {s t : State} (h : Fails dev s t) : Keeps s t := h.elim Runs.keeps Relived.keeps

/-- Whatever a command does, the configuration and the mappings stay, and the clock and the trace grow. -/
theorem Effect.keeps {i : Instr} {s u : State} (h : Effect i s u) : Keeps s u := by
  have after {m u : State} (hm : Calm s m) (h : u = { m with handles := u.handles, eng := u.eng }) : Keeps s u := by
    rw [h]
    exact hm.keeps.same rfl rfl rfl rfl rfl (Nat.le_refl _) rfl (List.suffix_refl _)
  cases i with
  | devOpen dev bdf =>
    obtain h | ⟨m, va, hm, rfl⟩ := h
    · exact h.keeps
    · exact after hm rfl
  | devReset dev | devInit dev => exact h.elim Fails.keeps Relived.keeps
  | setPromisc | regRead | regWrite | receive | transmit | process => exact Runs.keeps h
  | engConstruct =>
    obtain h | ⟨m, r0, r1, r2, r3, b, h, -, hm, rfl⟩ := h
    · exact h.keeps
    · exact hm.1.keeps.same rfl rfl rfl rfl rfl (Nat.le_refl _) rfl (List.suffix_refl _)
  | bindInput dev =>
    obtain h | ⟨m, hm, rfl⟩ := h
    · exact h.keeps
    · exact after hm rfl
  | bindOutput dev queue =>
    obtain h | ⟨-, n, -, m, hm, rfl⟩ := h
    · exact h.keeps
    · exact after hm rfl

/-- Everything a step can do that ends in a state: the other agents move, a command is refused, or it has its effect. -/
theorem step_cases {s t : State} (h : step s = .next t) :
    t = s.agents ∨ t = s.takeCommand.refusedWith4 ∨
    ∃ i u res v w, accepts i s.takeCommand ∧ Effect i (s.takeCommand.start i) u ∧ t = u.respond res v w := by
  unfold step at h
  split at h
  · exact .inl (by cases h; rfl)
  · split at h
    · obtain ⟨-, ht⟩ | ⟨ha, u, res, v, w, he, ht⟩ := exec_effect h
      · exact .inr (.inl ht)
      · exact .inr (.inr ⟨_, u, res, v, w, ha, he, ht⟩)
    · unfold rejectCommand at h
      refine .inr (.inl ?_)
      split at h
      any_goals (cases h; rfl)
      split at h
      · cases h
      · cases h; rfl

/-- Settles O14: the precondition as the model tests it is the one the rules state. -/
theorem notAcceptedChangesNothing : Obligations.NotAcceptedChangesNothing := fun _ _ h => exec_of_not_accepts h

/-- Settles O15, from what every effect keeps. -/
theorem clockAndTraceOnlyGrow : Obligations.ClockAndTraceOnlyGrow := by
  intro s t h
  obtain rfl | rfl | ⟨i, u, res, v, w, -, he, rfl⟩ := step_cases h
  · have a := SameBlock.agents s
    exact ⟨a.cfg, a.maps, a.now, Nat.le_of_eq a.micros.symm, by rw [a.trace]⟩
  · exact ⟨rfl, rfl, Nat.le_refl _, Nat.le_refl _, List.suffix_refl _⟩
  · have k := he.keeps
    exact ⟨k.cfg, k.maps, k.now, k.micros, k.trace⟩

/-! Who writes the engine (R31, R41). -/

theorem Relived.engine {dev : BitVec 8} {l : DevLife} {s t : State} (h : Relived dev l s t) : SameEngine s t := by
  obtain ⟨m, hm, rfl⟩ := h
  exact ⟨hm.es, hm.eng⟩

theorem Calm.engine {s t : State} (h : Calm s t) : SameEngine s t := ⟨h.es, h.eng⟩

theorem Fails.engine {dev : BitVec 8} {s t : State} (h : Fails dev s t) : SameEngine s t :=
  h.elim Calm.engine Relived.engine

/-- What the last column of R31 and R41 allow each command, from the engine of `s` to that of `t`. -/
def WritesEngine (i : Instr) (s t : State) : Prop :=
  match i with
  | .engConstruct => SameEngine s t ∨ (t.es = .constructed ∧ t.eng.tta = s.eng.tta)
  | .bindInput _ => t.es = s.es ∧ t.eng = { s.eng with rta := t.eng.rta, rtaV := t.eng.rtaV }
  | .bindOutput _ _ => t.es = s.es ∧ t.eng = { s.eng with tta := t.eng.tta, oc := t.eng.oc }
  | .receive => t.es = s.es ∧ t.eng = { s.eng with fd := t.eng.fd }
  | .transmit _ _ | .process => t.es = s.es ∧ t.eng = { s.eng with pd := t.eng.pd, fd := t.eng.fd }
  | _ => SameEngine s t

theorem Effect.writesEngine {i : Instr} {s u : State} (h : Effect i s u) : WritesEngine i s u := by
  cases i with
  | devOpen dev bdf =>
    obtain h | ⟨m, va, hm, rfl⟩ := h
    · exact h.engine
    · exact hm.engine
  | devReset dev | devInit dev => exact h.elim Fails.engine Relived.engine
  | setPromisc | regRead | regWrite => exact Calm.engine h
  | engConstruct =>
    obtain h | ⟨m, r0, r1, r2, r3, b, h, -, hm, rfl⟩ := h
    · exact .inl ⟨h.es, h.eng⟩
    · exact .inr ⟨rfl, by rw [← hm.1.eng]; rfl⟩
  | bindInput dev =>
    obtain h | ⟨m, hm, rfl⟩ := h
    · exact ⟨h.es, by rw [h.eng]⟩
    · exact ⟨hm.es, by rw [← hm.eng]; rfl⟩
  | bindOutput dev queue =>
    obtain h | ⟨-, n, -, m, hm, rfl⟩ := h
    · exact ⟨h.es, by rw [h.eng]⟩
    · exact ⟨hm.es, by rw [← hm.eng]; rfl⟩
  | receive =>
    refine ⟨h.es, ?_⟩
    obtain he | he := h.eng <;> rw [he]
  | transmit | process => exact ⟨h.es, h.eng.1⟩

theorem WritesEngine.same {i : Instr} {s t : State} (h : SameEngine s t) : WritesEngine i s t := by
  obtain ⟨hes, heng⟩ := h
  cases i
  case engConstruct => exact .inl ⟨hes, heng⟩
  all_goals exact ⟨hes, by rw [heng]⟩

theorem exec_writesEngine {i : Instr} {s t : State} (h : exec i s = .next t) : WritesEngine i s t := by
  obtain ⟨-, rfl⟩ | ⟨-, u, res, v, w, he, rfl⟩ := exec_effect h
  · exact .same ⟨rfl, rfl⟩
  · exact he.writesEngine

/-- Settles O16: each conjunct is read off what the last column of R31 allows the command. -/
theorem whoWritesTheEngine : Obligations.WhoWritesTheEngine := by
  intro i s t h
  have hw := exec_writesEngine h
  cases i
  case engConstruct =>
    obtain ⟨hes, heng⟩ | ⟨hes, htta⟩ := hw
    · simp [hes, heng]
    · simp [hes, htta]
  all_goals
    obtain ⟨hes, heng⟩ := hw
    rw [heng, hes]
    simp

/-! Who writes a handle (R42 to R44). -/

/-- What R43 and R44 allow each command, from the handle `h` of a device to `h'`. -/
def WritesHandle (i : Instr) (dev : BitVec 8) (h h' : Handle) : Prop :=
  h' = h ∨
  match i with
  | .devOpen d bdf => d = dev ∧ ∃ va, h' = { h with bdf := bdf, base := va, ls := .validated }
  | .devReset d => d = dev ∧ (h' = { h with ls := .reset } ∨ h' = { h with ls := .failed })
  | .devInit d => d = dev ∧ (h' = { h with ls := .initialized } ∨ h' = { h with ls := .failed })
  | .bindInput d => d = dev ∧ ∃ b, h' = { h with rxBound := b }
  | .bindOutput d _ => d = dev ∧ ∃ k, h' = { h with txBound := k }
  | _ => False

/-- A handle is set where the others stay. -/
theorem handle_set {s m : State} (hm : Calm s m) (d dev : BitVec 8) (h : Handle) :
    (m.setHandle d h).handle dev = s.handle dev ∨ (d = dev ∧ (m.setHandle d h).handle dev = h) := by
  rw [State.handle_setHandle]
  by_cases e : dev = d
  · exact .inr ⟨e.symm, by simp [e]⟩
  · exact .inl (by simp [e, hm.handle])

theorem Relived.handle {d : BitVec 8} {l : DevLife} {s t : State} (h : Relived d l s t) (dev : BitVec 8) :
    t.handle dev = s.handle dev ∨ (d = dev ∧ t.handle dev = { s.handle dev with ls := l }) := by
  obtain ⟨m, hm, rfl⟩ := h
  obtain e | ⟨rfl, e⟩ := handle_set hm d dev { m.handle d with ls := l }
  · exact .inl e
  · exact .inr ⟨rfl, by rw [e, hm.handle]⟩

theorem handle_of_handles {s t : State} (h : t.handles = s.handles) (dev : BitVec 8) : t.handle dev = s.handle dev := by
  rw [State.handle, State.handle, h]

theorem Fails.handle {d : BitVec 8} {s t : State} (h : Fails d s t) (dev : BitVec 8) :
    t.handle dev = s.handle dev ∨ (d = dev ∧ t.handle dev = { s.handle dev with ls := .failed }) :=
  h.elim (fun h => .inl (h.handle dev)) fun h => h.handle dev

theorem Effect.writesHandle {i : Instr} {s u : State} (h : Effect i s u) (dev : BitVec 8) :
    WritesHandle i dev (s.handle dev) (u.handle dev) := by
  cases i with
  | devOpen d bdf =>
    obtain h | ⟨m, va, hm, rfl⟩ := h
    · exact .inl (h.handle dev)
    · obtain e | ⟨rfl, e⟩ := handle_set hm d dev _
      · exact .inl e
      · exact .inr ⟨rfl, va, by rw [e, hm.handle]⟩
  | devReset d =>
    obtain h | h := h
    · exact (h.handle dev).imp_right fun ⟨hd, h⟩ => ⟨hd, .inr h⟩
    · exact (h.handle dev).imp_right fun ⟨hd, h⟩ => ⟨hd, .inl h⟩
  | devInit d =>
    obtain h | h := h
    · exact (h.handle dev).imp_right fun ⟨hd, h⟩ => ⟨hd, .inr h⟩
    · exact (h.handle dev).imp_right fun ⟨hd, h⟩ => ⟨hd, .inl h⟩
  | setPromisc | regRead | regWrite | receive | transmit | process => exact .inl (handle_of_handles h.handles dev)
  | engConstruct =>
    obtain h | ⟨m, r0, r1, r2, r3, b, h, -, hm, rfl⟩ := h
    · exact .inl (handle_of_handles h.handles dev)
    · exact .inl (handle_of_handles hm.1.handles dev)
  | bindInput d =>
    obtain h | ⟨m, hm, rfl⟩ := h
    · exact .inl (h.handle dev)
    · obtain e | ⟨rfl, e⟩ := handle_set hm d dev { m.handle d with rxBound := true }
      · exact .inl e
      · exact .inr ⟨rfl, true, by rw [← hm.handle]; exact e⟩
  | bindOutput d queue =>
    obtain h | ⟨-, n, -, m, hm, rfl⟩ := h
    · exact .inl (h.handle dev)
    · obtain e | ⟨rfl, e⟩ := handle_set hm d dev { m.handle d with txBound := (m.handle d).txBound + 1 }
      · exact .inl e
      · exact .inr ⟨rfl, (m.handle d).txBound + 1, by rw [← hm.handle]; exact e⟩

/-- Settles O17: the handle of a device is what R43 and R44 allow the command to make of it, and the precondition of the
command says from which lifecycle state. -/
theorem lifecycleFollowsItsPath : Obligations.LifecycleFollowsItsPath := by
  intro i s t h dev
  obtain ⟨-, rfl⟩ | ⟨ha, u, res, v, w, he, rfl⟩ := exec_effect h
  · exact ⟨.inl rfl, fun _ => ⟨rfl, rfl⟩, fun _ => rfl, fun _ => rfl⟩
  have hw : WritesHandle i dev (s.handle dev) ((u.respond res v w).handle dev) := he.writesHandle dev
  revert hw
  generalize (u.respond res v w).handle dev = h'
  rintro (rfl | hw)
  · exact ⟨.inl rfl, fun _ => ⟨rfl, rfl⟩, fun _ => rfl, fun _ => rfl⟩
  cases i with
  | devOpen d bdf =>
    obtain ⟨rfl, _, rfl⟩ := hw
    exact ⟨.inr (.inl ⟨ha.2, rfl, bdf, rfl⟩), fun hi => absurd rfl (hi bdf), fun _ => rfl, fun _ => rfl⟩
  | devReset d =>
    obtain ⟨rfl, rfl | rfl⟩ := hw
    · exact ⟨.inr (.inr (.inl ⟨ha.2, .inl rfl, rfl⟩)), fun _ => ⟨rfl, rfl⟩, fun _ => rfl, fun _ => rfl⟩
    · exact ⟨.inr (.inr (.inl ⟨ha.2, .inr rfl, rfl⟩)), fun _ => ⟨rfl, rfl⟩, fun _ => rfl, fun _ => rfl⟩
  | devInit d =>
    obtain ⟨rfl, rfl | rfl⟩ := hw
    · exact ⟨.inr (.inr (.inr ⟨ha.2, .inl rfl, rfl⟩)), fun _ => ⟨rfl, rfl⟩, fun _ => rfl, fun _ => rfl⟩
    · exact ⟨.inr (.inr (.inr ⟨ha.2, .inr rfl, rfl⟩)), fun _ => ⟨rfl, rfl⟩, fun _ => rfl, fun _ => rfl⟩
  | bindInput d =>
    obtain ⟨rfl, _, rfl⟩ := hw
    exact ⟨.inl rfl, fun _ => ⟨rfl, rfl⟩, fun hi => absurd rfl hi, fun _ => rfl⟩
  | bindOutput d queue =>
    obtain ⟨rfl, _, rfl⟩ := hw
    exact ⟨.inl rfl, fun _ => ⟨rfl, rfl⟩, fun _ => rfl, fun hi => absurd rfl (hi queue)⟩
  | setPromisc | regRead | regWrite | engConstruct | receive | transmit | process => exact hw.elim

end Sys2Proof.Machine
end

section
/-! SUPPORT. The invariant (R32 to R40, R60, R352) holds after power-on and is kept by every step: each effect of a
command keeps it, whatever the other agents do between micro-steps. -/

namespace Sys2Proof.Machine

/-- The invariant, apart from the sequencer. -/
structure Whole (s : State) : Prop where
  sound : Sound s
  handles : Store.sorted s.handles = true
  blocks : BlocksOk s.blocks
  engine : s.es = .constructed → EngineOk s

theorem inv_iff {s : State} : Inv s ↔ Whole s ∧ s.pc = Sequencer.idle := by
  constructor
  · exact fun h => ⟨⟨⟨h.legal, h.memory, h.heads⟩, h.handles, ⟨h.blocks, h.blocksApart⟩, h.engine⟩, h.idle⟩
  · rintro ⟨h, hi⟩
    exact ⟨h.sound.legal, hi, h.sound.memory, h.handles, h.blocks.inside, h.blocks.disjoint, h.sound.heads, h.engine⟩

/-- What `s` knows of the addresses of its initialized devices `t` knows too. -/
def KeepsWindows (s t : State) : Prop :=
  ∀ e ∈ s.handles, e.2.ls = .initialized → ∃ e' ∈ t.handles, e'.2.ls = .initialized ∧ e'.2.base = e.2.base

theorem KeepsWindows.of_eq {s t : State} (h : t.handles = s.handles) : KeepsWindows s t :=
  fun e he hl => ⟨e, by rwa [h], hl, rfl⟩

theorem Store.get?_of_mem {β : Type} {l : List (Nat × β)} (hl : Store.sorted l = true) {k : Nat} {v : β}
    (h : (k, v) ∈ l) : Store.get? l k = some v := by
  induction l with
  | nil => exact (List.not_mem_nil h).elim
  | cons x rest ih =>
    obtain ⟨k', v'⟩ := x
    obtain ⟨hlt, hrest⟩ := Store.sorted_cons.1 hl
    rcases List.mem_cons.1 h with h | h
    · cases h
      simp [Store.get?]
    · simp [Store.get?, Nat.ne_of_lt (hlt _ h), ih hrest h]

theorem handle_of_mem {s : State} (hs : Store.sorted s.handles = true) {e : Nat × Handle} (he : e ∈ s.handles)
    {dev : BitVec 8} (hd : e.1 = dev.toNat) : s.handle dev = e.2 := by
  rw [State.handle, Store.get?_of_mem hs (v := e.2) (by rw [← hd]; exact he), Option.getD_some]

/-- A handle gets new contents: its device was not initialized, or stays so at its address. -/
theorem KeepsWindows.setHandle {s : State} (hs : Store.sorted s.handles = true) {dev : BitVec 8} {h : Handle}
    (hk : (s.handle dev).ls = .initialized → h.ls = .initialized ∧ h.base = (s.handle dev).base) :
    KeepsWindows s (s.setHandle dev h) := by
  intro e he hl
  by_cases hd : e.1 = dev.toNat
  · have hh := handle_of_mem hs he hd
    obtain ⟨h1, h2⟩ := hk (by rw [hh]; exact hl)
    exact ⟨(dev.toNat, h), Store.mem_put_self _ _ _, h1, by rw [← hh]; exact h2⟩
  · exact ⟨e, Store.mem_put_of_ne h he hd, hl, rfl⟩

/-- The engine after a change that leaves its memory objects where they are, moves its delimiters as allowed, and
leaves its recorded tails or records one in the window of an initialized device. -/
theorem EngineOk.transfer {s t : State} (h : EngineOk s) (cfg : t.cfg = s.cfg) (blocks : t.blocks = s.blocks)
    (ring : t.eng.ring = s.eng.ring) (buf : t.eng.buf = s.eng.buf) (heads : t.eng.heads = s.eng.heads)
    (windows : KeepsWindows s t) (delimiters : DelimitersOk s.cfg t.eng) (oc : t.eng.oc.toNat ≤ outputsMax)
    (rta : t.eng.rtaV = true → (s.eng.rtaV = true ∧ t.eng.rta = s.eng.rta) ∨
      ∃ e ∈ t.handles, e.2.ls = .initialized ∧ t.eng.rta = e.2.base + BitVec.ofNat 64 (t.cfg.off .rdt t.cfg.rxQueue))
    (tta : ∀ n : Fin 4, n.val < t.eng.oc.toNat → (n.val < s.eng.oc.toNat ∧ t.eng.tta[n] = s.eng.tta[n]) ∨
      ∃ e ∈ t.handles, e.2.ls = .initialized ∧
        ∃ q, q < t.cfg.txQueueCount ∧ t.eng.tta[n] = e.2.base + BitVec.ofNat 64 (t.cfg.off .tdt q)) :
    EngineOk t := by
  have hregions : engineRegions t = engineRegions s := by simp only [engineRegions, cfg, ring, buf, heads]
  refine ⟨by rw [cfg]; exact delimiters.1, by rw [cfg]; exact delimiters.2, oc, ?_, ?_, ?_, fun hv => ?_,
    fun n hn => ?_⟩
  · rw [hregions]
    intro r hr
    rw [State.hasBlock, blocks]
    exact h.live r hr
  · rw [ring, blocks]
    exact h.aligned
  · rw [hregions]
    exact h.disjoint
  · obtain ⟨hs, he⟩ | hnew := rta hv
    · obtain ⟨e, hmem, hl, hrta⟩ := h.rta hs
      obtain ⟨e', hmem', hl', hbase⟩ := windows e hmem hl
      exact ⟨e', hmem', hl', by rw [he, hrta, hbase, cfg]⟩
    · exact hnew
  · obtain ⟨hs, he⟩ | hnew := tta n hn
    · obtain ⟨e, hmem, hl, q, hq, htta⟩ := h.tta n hs
      obtain ⟨e', hmem', hl', hbase⟩ := windows e hmem hl
      exact ⟨e', hmem', hl', q, by rw [cfg]; exact hq, by rw [he, htta, hbase, cfg]⟩
    · exact hnew

/-- The engine stays as it is where handles change. -/
theorem EngineOk.keep {s t : State} (h : EngineOk s) (cfg : t.cfg = s.cfg) (blocks : t.blocks = s.blocks)
    (eng : t.eng = s.eng) (windows : KeepsWindows s t) : EngineOk t :=
  h.transfer cfg blocks (by rw [eng]) (by rw [eng]) (by rw [eng]) windows (by rw [eng]; exact ⟨h.pd, h.fd⟩)
    (by rw [eng]; exact h.oc) (fun hv => .inl (by rw [eng] at hv ⊢; exact ⟨hv, rfl⟩))
    fun n hn => .inl (by rw [eng] at hn ⊢; exact ⟨hn, rfl⟩)

/-- The response and the command in progress do not matter. -/
theorem Whole.same {s t : State} (h : Whole s) (cfg : t.cfg = s.cfg) (mem : t.mem = s.mem) (nics : t.nics = s.nics)
    (handles : t.handles = s.handles) (blocks : t.blocks = s.blocks) (es : t.es = s.es) (eng : t.eng = s.eng) :
    Whole t :=
  ⟨h.sound.same cfg mem nics, by rw [handles]; exact h.handles, by rw [blocks]; exact h.blocks,
    fun hes => (h.engine (by rw [← es]; exact hes)).keep cfg blocks eng (.of_eq handles)⟩

/-- The hot path keeps the invariant. -/
theorem Whole.delimits {s t : State} (h : Whole s) (r : Runs Delimits s t) : Whole t := by
  refine ⟨r.sound h.sound, by rw [r.handles]; exact h.handles, by rw [r.blocks]; exact h.blocks, fun hes => ?_⟩
  have he := h.engine (by rw [← r.es]; exact hes)
  obtain ⟨heng, hd⟩ := r.eng
  have same {α : Type} (f : Engine → α) (hf : ∀ e pd fd, f { e with pd := pd, fd := fd } = f e) :
      f t.eng = f s.eng := by
    rw [heng, hf]
  have hoc := same Engine.oc fun _ _ _ => rfl
  exact he.transfer r.keeps.cfg r.blocks (same Engine.ring fun _ _ _ => rfl) (same Engine.buf fun _ _ _ => rfl)
    (same Engine.heads fun _ _ _ => rfl) (.of_eq r.handles) (hd h.sound.legal ⟨he.pd, he.fd⟩) (by rw [hoc]; exact he.oc)
    (fun hv => .inl ⟨by rw [← same Engine.rtaV fun _ _ _ => rfl]; exact hv, same Engine.rta fun _ _ _ => rfl⟩)
    fun n hn => .inl ⟨by rw [← hoc]; exact hn, same (fun e => e.tta[n]) fun _ _ _ => rfl⟩

theorem Whole.calm {s t : State} (h : Whole s) (r : Calm s t) : Whole t := h.delimits (r.runs Delimits.refl)

/-- A handle gets new contents: its device was not initialized, or stays so at its address. -/
theorem Whole.setHandle {s : State} (h : Whole s) {dev : BitVec 8} {x : Handle}
    (hk : (s.handle dev).ls = .initialized → x.ls = .initialized ∧ x.base = (s.handle dev).base) :
    Whole (s.setHandle dev x) :=
  ⟨h.sound.same rfl rfl rfl, Store.sorted_put _ _ h.handles, h.blocks,
    fun hes => (h.engine hes).keep rfl rfl rfl (.setHandle h.handles hk)⟩

theorem Whole.relived {s t : State} (h : Whole s) {dev : BitVec 8} {l : DevLife} (r : Relived dev l s t)
    (hl : (s.handle dev).ls ≠ .initialized) : Whole t := by
  obtain ⟨m, hm, rfl⟩ := r
  exact (h.calm hm).setHandle fun hi => absurd (by rw [← hm.handle]; exact hi) hl

theorem Whole.fails {s t : State} (h : Whole s) {dev : BitVec 8} (r : Fails dev s t)
    (hl : (s.handle dev).ls ≠ .initialized) : Whole t := r.elim h.calm fun r => h.relived r hl

/-- BIND_INPUT records the tail of an initialized device (R35). -/
theorem Whole.markInput {s : State} (h : Whole s) {dev : BitVec 8} (hl : (s.handle dev).ls = .initialized) :
    Whole (s.markInput dev) := by
  have hh : Whole (s.setHandle dev { s.handle dev with rxBound := true }) := h.setHandle fun hi => ⟨hi, rfl⟩
  refine ⟨hh.sound.same rfl rfl rfl, hh.handles, hh.blocks, fun hes => ?_⟩
  have he := hh.engine hes
  exact he.transfer rfl rfl rfl rfl rfl (.of_eq rfl) ⟨he.pd, he.fd⟩ he.oc
    (fun _ => .inr ⟨_, Store.mem_put_self _ _ _, hl, rfl⟩) fun n hn => .inl ⟨hn, rfl⟩

/-- BIND_OUTPUT records the tail of an initialized device as that of the next output (R34, R36). -/
theorem Whole.markOutput {s : State} (h : Whole s) {dev : BitVec 8} {q : Nat} {n : Fin 4}
    (hl : (s.handle dev).ls = .initialized) (hq : q < s.cfg.txQueueCount) (hn : n.val = s.eng.oc.toNat) :
    Whole (s.markOutput dev q n) := by
  have hh : Whole (s.setHandle dev { s.handle dev with txBound := (s.handle dev).txBound + 1 }) :=
    h.setHandle fun hi => ⟨hi, rfl⟩
  refine ⟨hh.sound.same rfl rfl rfl, hh.handles, hh.blocks, fun hes => ?_⟩
  have he := hh.engine hes
  have hoc : (s.markOutput dev q n).eng.oc.toNat = n.val + 1 := by
    simp only [State.markOutput, BitVec.toNat_ofNat]
    omega
  refine he.transfer rfl rfl rfl rfl rfl (.of_eq rfl) ⟨he.pd, he.fd⟩ (by rw [hoc, outputsMax]; omega)
    (fun hv => .inl ⟨hv, rfl⟩) fun k hk => ?_
  have htta : (s.markOutput dev q n).eng.tta[k] =
      if n = k then (s.handle dev).base + BitVec.ofNat 64 (s.cfg.off .tdt q) else s.eng.tta[k] := by
    simp only [State.markOutput, Fin.getElem_fin, Vector.getElem_set, Fin.ext_iff]
  rw [htta]
  by_cases hkn : n = k
  · exact .inr ⟨_, Store.mem_put_self _ _ _, hl, q, hq, if_pos hkn⟩
  · refine .inl ⟨?_, if_neg hkn⟩
    have : n.val ≠ k.val := fun e => hkn (Fin.ext e)
    show k.val < s.eng.oc.toNat
    omega

/-! Construction. -/

theorem apart_symm {a b : W64 × Nat} (h : apart a b) : apart b a := by
  simp only [apart, overlap] at h ⊢
  simp only [Bool.and_eq_false_iff, decide_eq_false_iff_not] at h ⊢
  tauto

/-- Of live blocks two with one base are one. -/
theorem BlocksOk.eq_of_base {l : List Block} (h : BlocksOk l) {a b : Block} (ha : a ∈ l) (hb : b ∈ l)
    (he : a.base = b.base) : a = b := by
  by_contra hne
  have symm : Std.Symm fun a b : Block => apart (a.base, a.size) (b.base, b.size) := ⟨fun _ _ => apart_symm⟩
  have happart : apart (a.base, a.size) (b.base, b.size) :=
    List.Pairwise.forall (h.disjoint.imp fun h => h.1) ha hb hne
  have pa := (h.inside a ha).1
  have pb := (h.inside b hb).1
  simp only [apart, overlap, he, Bool.and_eq_false_iff, decide_eq_false_iff_not] at happart
  omega

/-- The engine's memory objects after construction are the six blocks (R37 to R39, R56). -/
theorem engineRegions_constructed {s : State} (r0 r1 r2 r3 b h : Grant)
    (heng : s.eng = s.eng.constructed s.cfg r0.base r1.base r2.base r3.base b.base h.base) :
    engineRegions s = (engineBlocks s.cfg r0 r1 r2 r3 b h).reverse.map fun x => (x.base, x.size) := by
  rw [engineRegions, heng]
  rfl

/-- An engine whose registers name six live blocks, with the rings aligned (R262). -/
theorem engineOk_constructed {s : State} {r0 r1 r2 r3 b h : Grant} {l : List Block} (hc : s.cfg.legal = true)
    (heng : s.eng = s.eng.constructed s.cfg r0.base r1.base r2.base r3.base b.base h.base)
    (hblocks : s.blocks = engineBlocks s.cfg r0 r1 r2 r3 b h ++ l) (hok : BlocksOk s.blocks)
    (haligned : ∀ g ∈ [r0, r1, r2, r3], g.base.toNat % ringAlign = 0 ∧ g.phys.toNat % ringAlign = 0) : EngineOk s := by
  have hregions := engineRegions_constructed r0 r1 r2 r3 b h heng
  have ring (n : Fin 4) : ∃ g ∈ [r0, r1, r2, r3], s.eng.ring[n] = g.base ∧ g.block (ringBytes s.cfg) ∈ s.blocks := by
    rw [heng, hblocks]
    fin_cases n
    · exact ⟨r0, by simp, rfl, by simp [engineBlocks]⟩
    · exact ⟨r1, by simp, rfl, by simp [engineBlocks]⟩
    · exact ⟨r2, by simp, rfl, by simp [engineBlocks]⟩
    · exact ⟨r3, by simp, rfl, by simp [engineBlocks]⟩
  constructor
  case pd => rw [heng]; exact (Config.ringSize_bounds hc).1
  case fd => rw [heng]; exact .inl rfl
  case oc => rw [heng]; exact Nat.zero_le _
  case live =>
    intro r hr
    rw [hregions, List.mem_map] at hr
    obtain ⟨x, hx, rfl⟩ := hr
    exact ⟨x, by rw [hblocks]; exact List.mem_append_left _ (List.mem_reverse.1 hx), rfl, rfl⟩
  case aligned =>
    intro n
    obtain ⟨g, hg, hbase, hmem⟩ := ring n
    obtain ⟨hvirt, hphys⟩ := haligned g hg
    rw [hbase]
    refine ⟨hvirt, fun x hx he => ?_⟩
    rw [hok.eq_of_base hx hmem he]
    exact hphys
  case disjoint =>
    rw [hregions, List.pairwise_map, List.pairwise_reverse]
    have hd := hok.disjoint
    rw [hblocks] at hd
    exact (List.pairwise_append.1 hd).1.imp fun hab => apart_symm hab.1
  case rta => rw [heng]; exact fun hv => absurd hv Bool.false_ne_true
  case tta => rw [heng]; exact fun n hn => absurd hn (Nat.not_lt_zero _)

theorem Grant.aligned_ring {g : Grant} {n : Nat} :
    g.aligned (.ring n) = true ↔ g.base.toNat % ringAlign = 0 ∧ g.phys.toNat % ringAlign = 0 := by
  simp [Grant.aligned]

/-- What the allocator gives makes the engine's memory. -/
theorem Whole.constructed {s t : State} (h : Whole s) (r : Constructed s t) : Whole t := by
  obtain ⟨m, r0, r1, r2, r3, b, hd, ⟨k0, k1, k2, k3⟩, ⟨hm, hblocks⟩, rfl⟩ := r
  have hok : BlocksOk m.blocks := hm.blocks h.sound.legal h.blocks
  have hsound := hm.sound h.sound
  refine ⟨hsound.same rfl rfl rfl, by rw [show _ = s.handles from hm.handles]; exact h.handles, hok, fun _ => ?_⟩
  rw [← hm.keeps.cfg] at hblocks ⊢
  refine engineOk_constructed (r0 := r0) (r1 := r1) (r2 := r2) (r3 := r3) (b := b) (h := hd) hsound.legal rfl hblocks
    hok ?_
  simp only [Grant.aligned_ring] at k0 k1 k2 k3
  simpa using ⟨k0, k1, k2, k3⟩

/-- Allocations that come to no construction: there is no engine (R263). -/
theorem Whole.allocates {s t : State} (h : Whole s) (r : Allocates s t) (hes : s.es = .unconstructed) : Whole t :=
  ⟨r.sound h.sound, by rw [r.handles]; exact h.handles, r.blocks h.sound.legal h.blocks,
    fun he => by rw [r.es, hes] at he; cases he⟩

/-! Every command and every step. -/

/-- The effect of an accepted command keeps the invariant. -/
theorem Whole.effect {i : Instr} {s u : State} (h : Whole s) (ha : accepts i s) (he : Effect i s u) : Whole u := by
  have fresh {dev : BitVec 8} {l : DevLife} (hl : (s.handle dev).ls = l) (hne : l ≠ .initialized) :
      (s.handle dev).ls ≠ .initialized := by rwa [hl]
  cases i with
  | devOpen dev bdf =>
    obtain he | ⟨m, va, hm, rfl⟩ := he
    · exact h.calm he
    · exact (h.calm hm).setHandle fun hi =>
        absurd (by rw [← hm.handle]; exact hi) (fresh ha.2 (by decide))
  | devReset dev => exact he.elim (h.fails · (fresh ha.2 (by decide))) (h.relived · (fresh ha.2 (by decide)))
  | devInit dev => exact he.elim (h.fails · (fresh ha.2 (by decide))) (h.relived · (fresh ha.2 (by decide)))
  | setPromisc | regRead | regWrite => exact h.calm he
  | engConstruct => exact he.elim (h.allocates · ha) h.constructed
  | bindInput dev =>
    obtain he | ⟨m, hm, rfl⟩ := he
    · exact h.calm he
    · exact (h.calm hm).markInput (by rw [hm.handle]; exact ha.2.2)
  | bindOutput dev queue =>
    obtain he | ⟨hq, n, hn, m, hm, rfl⟩ := he
    · exact h.calm he
    · exact (h.calm hm).markOutput (by rw [hm.handle]; exact ha.2.2) (by rw [hm.keeps.cfg]; exact hq)
        (by rw [hm.eng]; exact hn)
  | receive =>
    exact h.delimits ⟨he.keeps, he.es, he.handles, he.blocks, he.sound, he.eng.delimits⟩
  | transmit | process => exact h.delimits he

/-- Settles O9: the other agents, a refusal and the effect of an accepted command keep the invariant. -/
theorem invKeptByEveryStep : Obligations.InvKeptByEveryStep := by
  intro s t hs h
  obtain ⟨hw, hidle⟩ := inv_iff.1 hs
  rw [inv_iff]
  obtain rfl | rfl | ⟨i, u, res, v, w, ha, he, rfl⟩ := step_cases h
  · have a := SameBlock.agents s
    refine ⟨⟨hw.sound.agents, by rw [a.handles]; exact hw.handles, by rw [a.blocks]; exact hw.blocks, fun hes => ?_⟩,
      a.pc.trans hidle⟩
    exact (hw.engine (by rw [← a.es]; exact hes)).keep a.cfg a.blocks a.eng (.of_eq a.handles)
  · exact ⟨hw.same rfl rfl rfl rfl rfl rfl rfl, rfl⟩
  · have hstart : Whole (s.takeCommand.start i) := hw.same rfl rfl rfl rfl rfl rfl rfl
    have ha' : accepts i (s.takeCommand.start i) := by cases i <;> exact ha
    exact ⟨(hstart.effect ha' he).same rfl rfl rfl rfl rfl rfl rfl, rfl⟩

/-! Power-on. -/

/-- The default configuration is legal. -/
theorem Config.spec_legal : Config.spec.legal = true := by decide +kernel

/-- Settles O8: every list is empty, and the default configuration is legal. -/
theorem invAtPowerOn : Obligations.InvAtPowerOn := by
  refine inv_iff.2 ⟨⟨⟨Config.spec_legal, Memory.wf_nil, ?_⟩, rfl, ⟨?_, .nil⟩, ?_⟩, rfl⟩
  · exact fun _ he => (List.not_mem_nil he).elim
  · exact fun _ hb => (List.not_mem_nil hb).elim
  · exact fun he => by cases he

/-- Settles O7: before construction no command that reads an engine register is accepted. -/
theorem powerOnState : Obligations.PowerOnState := by
  refine ⟨rfl, rfl, fun _ => ⟨rfl, rfl, rfl⟩, fun _ _ => rfl, fun i hi => exec_of_not_accepts fun ha => ?_⟩
  have constructed : State.reset.es = .constructed := by
    obtain ⟨_, rfl⟩ | ⟨_, _, rfl⟩ | rfl | ⟨_, _, rfl⟩ | rfl := hi
    · exact ha.1
    · exact ha.1
    · exact ha
    · exact ha.1
    · exact ha.1
  cases constructed

end Sys2Proof.Machine
end

section
/-! SUPPORT. REG_READ and REG_WRITE (R116 (d), R165, R166): words and commands whose operands do not belong together,
a read where no other agent moves, and writes on their way to a NIC. -/

namespace Sys2Proof.Machine

/-! Operands that do not belong together. -/

theorem exec_refuse {i : Instr} {s t : State} {r : Refusal} (h : accepts i s)
    (hb : body i (s.start i) = .error (.refuse r) t) : exec i s = .refused r := by
  rw [State.start] at hb
  simp [exec_eq, runCommand, (ready_iff i s).2 h, hb]

theorem requireLegal_refuse {sel : RegSel} {index : W16} {s : State} (h : sel.legal s.cfg index = false) :
    requireLegal sel index s = .error (.refuse .badRegisterOperand) s := by simp [requireLegal, h]

theorem requireLegal_ok {sel : RegSel} {index : W16} {s : State} (h : sel.legal s.cfg index = true) :
    requireLegal sel index s = .ok () s := by simp [requireLegal, h]

/-- A word of REG_READ or REG_WRITE that is one but for its register, field and index (R113, R116 (d)). -/
theorem decode_badRegisterOperand {c : Config} {w : Command} {row : OpRow}
    (hrow : opRow (w.cmd.extractLsb' 0 8).toNat = some row)
    (hop : w.cmd.extractLsb' 0 8 = 0x08 ∨ w.cmd.extractLsb' 0 8 = 0x09)
    (hmask : w.cmd &&& row.mask = (w.cmd.extractLsb' 0 8).setWidth 64) (hdata : row.hasData = false → w.data = 0)
    (hdev : (w.cmd.extractLsb' 8 8).toNat < c.nDev)
    (hsel : ∀ sel, regSelOf (w.cmd.extractLsb' 16 8).toNat (w.cmd.extractLsb' 24 8).toNat = some sel →
      sel.legal c (w.cmd.extractLsb' 32 16) = false) :
    decode c w = .error (.badRegisterOperand (w.cmd.extractLsb' 8 8)) := by
  have hin : devInRange c (w.cmd.extractLsb' 8 8) = true := decide_eq_true hdev
  have hreserved : ¬ (w.cmd &&& row.mask ≠ (w.cmd.extractLsb' 0 8).setWidth 64 ∨
      (row.hasData = false ∧ w.data ≠ 0)) := by
    rintro (h | ⟨h1, h2⟩)
    · exact h hmask
    · exact h2 (hdata h1)
  have hillformed (i : Instr) (hi : assemble w = some i) : i.wellFormed c = false := by
    obtain hop | hop := hop
    all_goals
      rw [assemble, hop] at hi
      obtain ⟨sel, hs, rfl⟩ := Option.map_eq_some_iff.1 hi
      simp [Instr.wellFormed, hsel sel hs]
  simp only [decode, hrow, hreserved, if_false, hin]
  cases hi : assemble w with
  | none => simp
  | some i => simp [hillformed i hi]

/-- Settles O5: the word by its decoding, the commands by their first check. -/
theorem illegalRegisterRefused : Obligations.IllegalRegisterRefused := by
  refine ⟨fun s w rest row hport hrow hop hmask hdata hdev hsel => ?_, fun s dev sel index ha hl => ?_,
    fun s dev sel index value ha hl => ?_⟩
  · have hstep : step s = rejectCommand (.badRegisterOperand (w.cmd.extractLsb' 8 8)) s.takeCommand := by
      simp only [step, hport, decode_badRegisterOperand hrow hop hmask hdata hdev hsel]
    rw [hstep]
    refine ⟨fun hls => ?_, fun hls => ?_⟩
    · have hr : regAccessReady (w.cmd.extractLsb' 8 8) s.takeCommand = true := by
        refine regAccessReady_iff.2 ⟨hdev, ?_⟩
        show (s.handle _).ls ≠ _ ∧ (s.handle _).ls ≠ _
        obtain h | h | h := hls <;> rw [h] <;> decide
      simp [rejectCommand, hr]
    · have hr : regAccessReady (w.cmd.extractLsb' 8 8) s.takeCommand = false := by
        rw [Bool.eq_false_iff]
        intro hr
        obtain ⟨-, h1, h2⟩ := regAccessReady_iff.1 hr
        exact hls.elim h1 h2
      simp only [rejectCommand, hr]
      simp only [Bool.false_eq_true, if_false, State.takeCommand, hport, List.tail_cons]
      rfl
  · exact exec_refuse ha (Micro.run_bind_error (requireLegal_refuse hl))
  · exact exec_refuse ha (Micro.run_bind_error (requireLegal_refuse hl))

/-! A read where no other agent moves (R94, R150, R162). -/

/-- What a read of a register of a device finds: what its NIC presents once the writes posted toward it have arrived. -/
def State.readValue (s : State) (dev : BitVec 8) (r : DevReg) (i : Nat) : W32 :=
  ((s.drainNic (s.handle dev).bdf).nic (s.handle dev).bdf).read s.cfg (s.micros + 1) (s.now + Config.microTime s.micros)
    (s.cfg.off r i)

/-- After one access in which no other agent moves. -/
def State.accessed (s : State) (line : Nat) (a : Access) : State :=
  { s with
    pc := ⟨s.pc.cmd, line⟩
    now := s.now + Config.microTime s.micros
    micros := s.micros + 1
    trace := a :: s.trace }

/-- Writes arrive whatever the clock says. -/
theorem State.drainNic_clock (s : State) (bdf : W16) (pc : Sequencer) (now micros : Nat) :
    ({ s with pc := pc, now := now, micros := micros } : State).drainNic bdf =
      { s.drainNic bdf with pc := pc, now := now, micros := micros } := by
  by_cases h : (s.nic bdf).posted = []
  · rw [State.drainNic_of_posted_nil h]
    exact State.drainNic_of_posted_nil h
  · rw [State.drainNic, State.drainNic, if_neg h]
    exact if_neg h

theorem State.drainNic_start (s : State) (i : Instr) (bdf : W16) :
    (s.start i).drainNic bdf = (s.drainNic bdf).start i := by
  refine (s.drainNic_clock bdf ⟨some i, 1⟩ s.now s.micros).trans ?_
  simp only [State.start, State.drainNic_now, State.drainNic_micros]

@[simp] theorem State.readValue_start (s : State) (i : Instr) (dev : BitVec 8) (r : DevReg) (k : Nat) :
    (s.start i).readValue dev r k = s.readValue dev r k := by
  have h : (s.start i).handle dev = s.handle dev := rfl
  simp only [State.readValue, h, State.drainNic_start]
  rfl

theorem regRead_quiet {s : State} {dev : BitVec 8} {r : DevReg} {i : Nat} (line : Nat) (hq : s.quiet)
    (hc : s.cfg.legal = true) (hm : (s.handle dev).mapped = true) (hi : r.indexOk s.cfg i = true) :
    regRead line dev r i s =
      .ok (s.readValue dev r i)
        ((s.drainNic (s.handle dev).bdf).accessed line (.mmioRead (s.regAddr dev r i) (s.readValue dev r i))) := by
  rw [regRead_eq, mmioRead32_run line hm (regOffOk_off hc r hi), State.boundary_eq_self hq, State.drainNic_clock]
  simp only [State.accessed, State.log, State.drainNic_pc, State.drainNic_now, State.drainNic_micros,
    State.drainNic_trace]
  rfl

theorem pciRegRead_quiet {s : State} (line : Nat) (bdf : W16) (r : PciReg) (hq : s.quiet) :
    pciRegRead line bdf r s =
      .ok ((s.nic bdf).pciRead (s.cfg.pciOff r))
        (s.accessed line (.pciRead bdf (s.cfg.pciOff r) ((s.nic bdf).pciRead (s.cfg.pciOff r)))) := by
  simp only [pciRegRead, Micro.look_bind, pciRead, State.boundary_eq_self hq]
  rfl

/-- A register with a defined result reads as the NIC holds it (R150, R416 (b)). -/
theorem State.readValue_eq_regOf {s : State} {dev : BitVec 8} {r : DevReg} {i : Nat} (hc : StandardConfig s.cfg)
    (hi : r.indexOk s.cfg i = true)
    (hu : ((s.drainNic (s.handle dev).bdf).nic (s.handle dev).bdf).usable ≤ s.now) (hr : r ≠ .eimc) :
    s.readValue dev r i = (s.drainNic (s.handle dev).bdf).regOf dev r i := by
  have hoff : s.cfg.off r i ≠ s.cfg.off .eimc 0 := Config.off_ne hc hr hi rfl
  have hnow : ¬ s.now + Config.microTime s.micros <
      ((s.drainNic (s.handle dev).bdf).nic (s.handle dev).bdf).usable := by
    omega
  simp only [State.readValue, Nic.read, hnow, hoff, if_false, State.regOf, State.drainNic_cfg]
  rw [handle_of_handles (s.drainNic_handles _)]

theorem RegSel.legal_dev {c : Config} {r : DevReg} {f : Option DevField} {index : W16}
    (h : (RegSel.dev r f).legal c index = true) :
    (∀ g, f = some g → g.reg = r) ∧ r.indexOk c index.toNat = true := by
  cases f with
  | none => exact ⟨nofun, by simpa [RegSel.legal] using h⟩
  | some g =>
    simp only [RegSel.legal, Bool.and_eq_true, beq_iff_eq] at h
    exact ⟨fun _ e => by cases e; exact h.1, h.2⟩

theorem RegSel.legal_pci {c : Config} {r : PciReg} {f : Option PciField} {index : W16}
    (h : (RegSel.pci r f).legal c index = true) : ∀ g, f = some g → g.reg = r := by
  rintro g rfl
  simpa [RegSel.legal] using h

theorem mapped_of_accepts {s : State} {dev : BitVec 8} {sel : RegSel} {index : W16}
    (h : accepts (.regRead dev sel index) s) : (s.handle dev).mapped = true := Handle.mapped_iff.2 h.2

/-- The register, or the field of it that is asked for (R154, R165). -/
def State.pick (s : State) (f : Option DevField) (v : W32) : W32 :=
  match f with
  | none => v
  | some g => extract v (s.cfg.mask g)

/-- The configuration register, or the field of it that is asked for (R164, R165). -/
def State.pickPci (s : State) (f : Option PciField) (v : W32) : W32 :=
  match f with
  | none => v
  | some g => extract v (s.cfg.pciMask g)

/-- The access of REG_READ of a device register: the read, and the field taken out of what it finds (R154, R165). -/
theorem readSelected_dev {s t : State} {dev : BitVec 8} {r : DevReg} {f : Option DevField} {index : W16} {v : W32}
    (hr : regRead 1 dev r index.toNat s = .ok v t) (ht : t.cfg = s.cfg) (hf : ∀ g, f = some g → g.reg = r) :
    readSelected dev (.dev r f) index s = .ok (s.pick f v) t := by
  cases f with
  | none => simp only [readSelected, Micro.look_bind, hr, State.pick]
  | some g =>
    simp only [readSelected, Micro.look_bind, regReadField, hf g rfl]
    rw [Micro.run_bind_ok hr, Micro.look_bind, ht]
    rfl

/-- The access of REG_READ of a configuration register (R164, R165). -/
theorem readSelected_pci {s t : State} {dev : BitVec 8} {r : PciReg} {f : Option PciField} {index : W16} {v : W32}
    (hr : pciRegRead 1 (s.handle dev).bdf r s = .ok v t) (ht : t.cfg = s.cfg) (hf : ∀ g, f = some g → g.reg = r) :
    readSelected dev (.pci r f) index s = .ok (s.pickPci f v) t := by
  cases f with
  | none => simp only [readSelected, Micro.look_bind, hr, State.pickPci]
  | some g =>
    simp only [readSelected, Micro.look_bind, pciReadField, hf g rfl]
    rw [Micro.run_bind_ok hr, Micro.look_bind, ht]
    rfl

/-- REG_READ is its one access, and the response. -/
theorem exec_regRead {s t : State} {dev : BitVec 8} {sel : RegSel} {index : W16} {v : W32}
    (ha : accepts (.regRead dev sel index) s) (hl : sel.legal s.cfg index = true)
    (hr : readSelected dev sel index (s.start (.regRead dev sel index)) = .ok v t) :
    exec (.regRead dev sel index) s = .next (t.respond resOk (v.setWidth 64) 0) := by
  refine exec_ok (v := (v.setWidth 64, 0)) ha (Eq.trans (Micro.run_bind_ok (requireLegal_ok ?_)) ?_)
  · exact hl
  · exact Micro.run_bind_ok hr

/-- Settles O19: one access, by the kind of the register, and a field taken out of what it finds. -/
theorem regReadReturnsRegister : Obligations.RegReadReturnsRegister := by
  intro s dev sel index hq hc ha hl
  have hm := mapped_of_accepts ha
  refine ⟨fun r f hsel => ?_, fun r f hsel => ?_⟩
  · subst hsel
    obtain ⟨hfield, hi⟩ := RegSel.legal_dev hl
    refine ⟨State.drainNic_of_posted_nil, s.readValue dev r index.toNat,
      fun hs hu hr => State.readValue_eq_regOf hs hi hu hr, ?_⟩
    have hread := regRead_quiet (s := s.start (.regRead dev (.dev r f) index)) 1 hq hc hm hi
    have hh : (s.start (.regRead dev (.dev r f) index)).handle dev = s.handle dev := rfl
    rw [exec_regRead ha hl (readSelected_dev hread (by simp [State.accessed, State.start]) hfield),
      State.readValue_start, State.drainNic_start, hh]
    simp only [State.accessed, State.start, State.respond, State.drainNic_now, State.drainNic_micros,
      State.drainNic_trace]
    cases f <;> rfl
  · subst hsel
    have hread := pciRegRead_quiet (s := s.start (.regRead dev (.pci r f) index)) 1 (s.handle dev).bdf r hq
    rw [exec_regRead ha hl (readSelected_pci hread rfl (RegSel.legal_pci hl))]
    cases f <;> rfl

end Sys2Proof.Machine
end

section
/-! SUPPORT. Register writes on their way (R51, R94): what the NIC holds once a write has arrived, and a REG_WRITE
toward a NIC whose writes wait. -/

namespace Sys2Proof.Machine

/-! A write that arrives. -/

theorem first_of_two {p : Nat → Prop} [DecidablePred p] {a b i : Nat}
    (h : (if p a then some a else if p b then some b else none) = some i) : p i := by
  split at h
  · cases h
    assumption
  · split at h
    · cases h
      assumption
    · cases h

/-- An index at which a register lies at an offset is one of its indices. -/
theorem Config.off_of_indexAt {c : Config} {r : DevReg} {off i : Nat} (h : c.indexAt r off = some i) :
    r.indexOk c i = true ∧ c.off r i = off := by
  have ok {j : Nat} (hj : j < (r.indexCount c).getD 1) : r.indexOk c j = true := by
    simp only [DevReg.indexOk]
    cases hn : r.indexCount c with
    | none => rfl
    | some n => simpa [hn] using hj
  have found := first_of_two (p := fun j => j < (r.indexCount c).getD 1 ∧ c.off r j = off) h
  exact ⟨ok found.1, found.2⟩

/-- No other register lies at the offset of a register. -/
theorem Config.indexAt_off_ne {c : Config} (hc : StandardConfig c) {r r' : DevReg} (hne : r' ≠ r) {i : Nat}
    (hi : r.indexOk c i = true) : c.indexAt r' (c.off r i) = none := by
  cases h : c.indexAt r' (c.off r i) with
  | none => rfl
  | some j =>
    obtain ⟨hj, he⟩ := Config.off_of_indexAt h
    exact absurd he (Config.off_ne hc hne hj hi)

/-- The enable bits of queues are in RXDCTL and TXDCTL alone (R54). -/
theorem enableMask_eq_zero {c : Config} (hc : StandardConfig c) {r : DevReg} (hrx : r ≠ .rxdctl) (htx : r ≠ .txdctl)
    {i : Nat} (hi : r.indexOk c i = true) : enableMask c (c.off r i) = 0 := by
  simp [enableMask, Config.indexAt_off_ne hc hrx.symm hi, Config.indexAt_off_ne hc htx.symm hi]

/-- A write is accepted as it is, but for an enable bit that a lagging NIC answers later (R348). -/
theorem Nic.accepted_eq {c : Config} (hc : StandardConfig c) {n : Nic} {r : DevReg} {i : Nat} (v : W32)
    (hi : r.indexOk c i = true) (hlag : r = .rxdctl ∨ r = .txdctl → n.lag = false) :
    n.accepted c (c.off r i) v = v := by
  unfold Nic.accepted
  split
  · rename_i hl
    have hne : ¬ (r = .rxdctl ∨ r = .txdctl) := fun h => by simp [hlag h] at hl
    rw [enableMask_eq_zero hc (fun h => hne (.inl h)) (fun h => hne (.inr h)) hi]
    simp only [BitVec.ofNat_eq_ofNat, BitVec.not_zero, BitVec.and_allOnes, BitVec.and_zero, BitVec.or_zero]
  · rfl

/-- Enabling a queue changes no register but the tail of a transmit queue (R345). -/
theorem Nic.reg_queueEnable {c : Config} (n : Nic) {off off' : Nat} (old new : W32)
    (h : ∀ q, c.indexAt .txdctl off = some q → off' ≠ c.off .tdt q) :
    (n.queueEnable c off old new).reg c off' = n.reg c off' := by
  unfold Nic.queueEnable
  split
  · split <;> rfl
  · split
    · rename_i q hq
      split
      · exact Nic.reg_putReg_ne c n 0 (h q hq)
      · rfl
    · rfl

/-- What enabling a queue leaves alone beside registers and heads. -/
theorem Nic.queueEnable_keeps (c : Config) (n : Nic) (off : Nat) (old new : W32) :
    (n.queueEnable c off old new).usable = n.usable ∧ (n.queueEnable c off old new).posted = n.posted := by
  unfold Nic.queueEnable
  split
  · split <;> exact ⟨rfl, rfl⟩
  · split
    · split <;> exact ⟨rfl, rfl⟩
    · exact ⟨rfl, rfl⟩

/-- A write that arrives posts nothing. -/
theorem Nic.posted_write (c : Config) (n : Nic) (w : RegWrite) : (n.write c w).posted = n.posted := by
  unfold Nic.write
  split
  · rfl
  · split
    · split <;> rfl
    · split
      · rfl
      · split
        · rfl
        · exact (Nic.queueEnable_keeps c _ _ _ _).2

/-- A register marked RW holds what a write gave it that arrives with the device reset not under way, unless it sets the
device reset bit (R151, R348). -/
theorem Nic.reg_write {c : Config} (hc : StandardConfig c) {n : Nic} {w : RegWrite} {r : DevReg} {i : Nat}
    (hi : r.indexOk c i = true) (hoff : w.off = c.off r i) (hu : n.usable ≤ w.time) (hrw : r.access = .rw)
    (hlag : r = .rxdctl ∨ r = .txdctl → n.lag = false) (hrst : r = .ctrl → w.val &&& c.mask .rst = 0) :
    (n.write c w).reg c (c.off r i) = w.val ∧ (n.write c w).usable = n.usable := by
  have at_register {r' : DevReg} (hr' : r'.indexOk c 0 = true) (h : w.off = c.off r' 0) : r = r' := by
    by_contra hne
    exact Config.off_ne hc hne hi hr' (hoff ▸ h)
  unfold Nic.write
  rw [if_neg (Nat.not_lt.2 hu)]
  split
  · rename_i hctrl
    have hr := at_register rfl hctrl
    rw [if_neg (not_not.2 (hrst hr)), ← hoff]
    exact ⟨Nic.reg_putReg_self c n _ _, rfl⟩
  · split
    · rename_i hro
      obtain h | h := hro <;> have hr := at_register rfl h <;> subst hr <;> cases hrw
    · split
      · rename_i heec
        have hr := at_register rfl heec
        subst hr
        cases hrw
      · dsimp only
        rw [hoff, Nic.accepted_eq hc _ hi hlag]
        refine ⟨?_, (Nic.queueEnable_keeps c _ _ _ _).1⟩
        rw [Nic.reg_queueEnable, Nic.reg_putReg_self]
        intro q hq
        obtain ⟨hq, he⟩ := Config.off_of_indexAt hq
        rw [← he]
        exact Config.off_ne hc (by decide) hq hq

/-! REG_WRITE toward a NIC whose writes wait. -/

/-- The NIC after a write of `v` to a register was posted toward it, made in the next micro-step of `s`. -/
def State.posting (s : State) (dev : BitVec 8) (r : DevReg) (i : Nat) (v : W32) : Nic :=
  { s.nic (s.handle dev).bdf with
    posted := (s.nic (s.handle dev).bdf).posted ++
      [⟨s.micros + 1, s.now + Config.microTime s.micros, s.cfg.off r i, v⟩] }

theorem regWrite_held {s : State} {dev : BitVec 8} {r : DevReg} {i : Nat} (line : Nat) (v : W32) (hq : s.quiet)
    (hc : s.cfg.legal = true) (hm : (s.handle dev).mapped = true) (hi : r.indexOk s.cfg i = true)
    (hh : (s.nic (s.handle dev).bdf).hold = true) :
    regWrite line dev r i v s =
      .ok ()
        ((s.accessed line (.mmioWrite (s.regAddr dev r i) v)).setNic (s.handle dev).bdf (s.posting dev r i v)) := by
  rw [regWrite_eq, mmioWrite32_run line v hm (regOffOk_off hc r hi), State.boundary_eq_self hq, State.postWrite,
    Nic.post_of_hold]
  · rfl
  · exact hh

/-- REG_WRITE is its access, and the response. -/
theorem exec_regWrite {s t : State} {dev : BitVec 8} {sel : RegSel} {index : W16} {value : W32}
    (ha : accepts (.regWrite dev sel index value) s) (hl : sel.legal s.cfg index = true)
    (hw : writeSelected dev sel index value (s.start (.regWrite dev sel index value)) = .ok () t) :
    exec (.regWrite dev sel index value) s = .next (t.respond resOk 0 0) := by
  refine exec_ok (v := noValues) ha (Eq.trans (Micro.run_bind_ok (requireLegal_ok ?_)) ?_)
  · exact hl
  · exact Micro.run_bind_ok hw

/-- The state in which a REG_WRITE ends whose write waits. -/
def State.afterHeldWrite (s : State) (dev : BitVec 8) (r : DevReg) (i : Nat) (v : W32) : State :=
  ((s.accessed 1 (.mmioWrite (s.regAddr dev r i) v)).setNic (s.handle dev).bdf (s.posting dev r i v)).respond resOk 0 0

theorem exec_regWrite_held {s : State} {dev : BitVec 8} {r : DevReg} {index : W16} {value : W32} (hq : s.quiet)
    (hc : s.cfg.legal = true) (ha : accepts (.regWrite dev (.dev r none) index value) s)
    (hl : (RegSel.dev r none).legal s.cfg index = true) (hh : (s.nic (s.handle dev).bdf).hold = true) :
    exec (.regWrite dev (.dev r none) index value) s = .next (s.afterHeldWrite dev r index.toNat value) := by
  have hw := regWrite_held (s := s.start (.regWrite dev (.dev r none) index value)) 1 value hq hc
    (Handle.mapped_iff.2 ha.2) (RegSel.legal_dev hl).2 hh
  refine Eq.trans (exec_regWrite ha hl (Eq.trans ?_ hw)) rfl
  simp only [writeSelected, Micro.look_bind]

theorem State.afterHeldWrite_nic (s : State) (dev : BitVec 8) (r : DevReg) (i : Nat) (v : W32) (bdf : W16) :
    (s.afterHeldWrite dev r i v).nic bdf = if bdf = (s.handle dev).bdf then s.posting dev r i v else s.nic bdf :=
  State.nic_setNic _ _ _ _

/-- A NIC with one write on its way, once it has arrived. -/
theorem Nic.drain_of_posted_one (c : Config) {n : Nic} {w : RegWrite} (h : n.posted = [w]) :
    n.drain c = { n with posted := [] }.write c w := by rw [Nic.drain, h]; rfl

theorem Nic.arrive_of_posted_one (c : Config) {n : Nic} {w : RegWrite} (h : n.posted = [w]) :
    n.arrive c = { n with posted := [] }.write c w := by simp only [Nic.arrive, h]

/-- Settles O22: the write waits; whether it arrives by itself or before a read, it acts as one write. -/
theorem postedWriteArrivesBeforeRead : Obligations.PostedWriteArrivesBeforeRead := by
  intro s dev r index value hq hc ha hl hhold bdf
  have hi := (RegSel.legal_dev hl).2
  let t := s.afterHeldWrite dev r index.toNat value
  let w : RegWrite := ⟨s.micros + 1, s.now + Config.microTime s.micros, s.cfg.off r index.toNat, value⟩
  have hnic : t.nic bdf = { s.nic bdf with posted := (s.nic bdf).posted ++ [w] } := by
    rw [State.afterHeldWrite_nic, if_pos rfl]
    rfl
  refine ⟨t, w, exec_regWrite_held hq hc.1 ha hl hhold, ⟨rfl, rfl⟩,
    ⟨⟨rfl, rfl, rfl, rfl⟩, ⟨rfl, rfl⟩, ⟨fun _ => rfl, rfl⟩, ⟨rfl, rfl⟩, fun _ _ => rfl, fun b hb => ?_⟩,
    fun _ => rfl, rfl, rfl, hnic, fun hposted hu hrw hprompt hrst => ?_⟩
  · rw [State.afterHeldWrite_nic, if_neg hb]
  · have hone : (t.nic bdf).posted = [w] := by rw [hnic, hposted]; rfl
    have harrived : { t.nic bdf with posted := [] }.write t.cfg w = { s.nic bdf with posted := [] }.write s.cfg w := by
      rw [hnic]
      rfl
    obtain ⟨hreg, husable⟩ := Nic.reg_write (n := { s.nic bdf with posted := [] }) (w := w) hc hi rfl
      (Nat.le_trans hu (Nat.le_add_right _ _)) hrw hprompt hrst
    refine ⟨?_, ?_⟩
    · show ((t.setNic bdf ((t.nic bdf).arrive t.cfg)).nic bdf).reg t.cfg (t.cfg.off r index.toNat) = value
      rw [State.nic_setNic_self, Nic.arrive_of_posted_one _ hone, harrived]
      exact hreg
    · have hdrained : (t.drainNic bdf).nic bdf = { s.nic bdf with posted := [] }.write s.cfg w := by
        rw [State.nic_drainNic, if_pos rfl, Nic.drain_of_posted_one _ hone, harrived]
      have har : accepts (.regRead dev (.dev r none) index) t := ha
      obtain ⟨-, raw, hraw, hexec⟩ := (regReadReturnsRegister t dev _ index hq hc.1 har hl).1 r none rfl
      have hvalue : raw = value := by
        rw [hraw hc ?_ (by rintro rfl; cases hrw)]
        · show (((t.drainNic bdf).nic ((t.drainNic bdf).handle dev).bdf).reg _ _) = value
          rw [handle_of_handles (t.drainNic_handles bdf)]
          show (((t.drainNic bdf).nic bdf).reg (t.drainNic bdf).cfg ((t.drainNic bdf).cfg.off r index.toNat)) = value
          rw [hdrained, State.drainNic_cfg]
          exact hreg
        · show ((t.drainNic bdf).nic bdf).usable ≤ t.now
          rw [hdrained, husable]
          exact Nat.le_trans hu (Nat.le_add_right _ _)
      subst hvalue
      refine ⟨_, hexec, ⟨rfl, rfl⟩, ?_⟩
      show ((t.drainNic bdf).nic bdf).posted = []
      rw [hdrained, Nic.posted_write]

end Sys2Proof.Machine
end

section
/-! SUPPORT. ENG_CONSTRUCT where the allocator answers with six blocks and no other agent moves (R56, R262). -/

namespace Sys2Proof.Machine

/-- After an allocation that gave a block, in which no other agent moves. -/
def State.allocated (s : State) (line : Nat) (g : Grant) (size : Nat) (rest : List (Option Grant)) : State :=
  { (s.accessed line (.alloc size (some g.base))).addBlock g size with grants := rest }

theorem alloc_granted {s : State} {line size : Nat} {site : AllocSite} {g : Grant} {rest : List (Option Grant)}
    (hq : s.quiet) (hg : s.grants = some g :: rest) (ha : g.aligned site = true) (hok : s.grantOk g size = true) :
    alloc line size site s = .ok (some g.base) (s.allocated line g size rest) := by
  simp only [alloc, State.boundary_eq_self hq, hg, ha, Bool.true_eq_false, if_false]
  exact if_pos hok

/-- Blocks `l`, the newest first, were given since `s`, no other agent has moved, and the allocator goes on to answer
with the blocks `ps`, which keep its contract, and then with `rest`. -/
structure Granting (s : State) (l : List Block) (ps : List (Grant × Nat)) (rest : List (Option Grant)) (t : State) :
    Prop where
  environment : SameEnvironment s t
  engine : SameEngine s t
  handles : t.handles = s.handles
  nics : t.nics = s.nics
  handlerQ : t.handlerQ = s.handlerQ
  grants : t.grants = ps.map (fun p => some p.1) ++ rest
  blocks : t.blocks = l ++ s.blocks
  memory : ∀ a, Memory.read t.mem a = if l.any (fun b => b.holds a 1) then 0 else Memory.read s.mem a
  ok : ∀ p ∈ ps, t.grantOk p.1 p.2 = true
  disjoint : ps.Pairwise fun p q => apart (p.1.base, p.2) (q.1.base, q.2) ∧ apart (p.1.phys, p.2) (q.1.phys, q.2)

theorem Memory.read_clear_block (m : List Host.Cell) (g : Grant) (size a : Nat) :
    Memory.read (Memory.clear m g.base.toNat size) a = if (g.block size).holds a 1 then 0 else Memory.read m a := by
  have hiff : (g.block size).holds a 1 = true ↔ g.base.toNat ≤ a ∧ a < g.base.toNat + size := by
    rw [Block.holds, Bool.and_eq_true]
    exact and_congr decide_eq_true_iff decide_eq_true_iff
  rw [Memory.read_clear]
  exact if_congr hiff.symm rfl rfl

/-- The answers still to come keep the contract once a block is given that overlaps none of them. -/
theorem State.grantOk_allocated {s : State} {g p : Grant} {line size n : Nat} {rest : List (Option Grant)}
    (hok : s.grantOk p n = true) (hbase : apart (g.base, size) (p.base, n)) (hphys : apart (g.phys, size) (p.phys, n)) :
    (s.allocated line g size rest).grantOk p n = true := by
  obtain ⟨hin, hblocks, hwindows⟩ := State.grantOk_iff.1 hok
  refine State.grantOk_iff.2 ⟨hin, fun b hb => ?_, hwindows⟩
  rcases List.mem_cons.1 hb with rfl | hb
  · exact ⟨apart_symm hbase, apart_symm hphys⟩
  · exact hblocks b hb

/-- One allocation of ENG_CONSTRUCT that the allocator grants. -/
theorem Granting.alloc {s t : State} {l : List Block} {g : Grant} {size : Nat} {ps : List (Grant × Nat)}
    {rest : List (Option Grant)} {site : AllocSite} (h : Granting s l ((g, size) :: ps) rest t) (hq : s.quiet)
    (ha : g.aligned site = true) (line : Nat) (got : List W64) :
    ∃ t', allocOrUnwind line size site got t = .ok g.base t' ∧ Granting s (g.block size :: l) ps rest t' := by
  have hqt : t.quiet := h.environment.2.2.1.trans hq
  have hrun := alloc_granted (line := line) hqt (by rw [h.grants]; rfl) ha (h.ok _ List.mem_cons_self)
  refine ⟨_, Micro.run_bind_ok hrun, ⟨h.environment, h.engine, h.handles, h.nics, h.handlerQ, rfl, ?_, fun a => ?_,
    fun p hp => ?_, (List.pairwise_cons.1 h.disjoint).2⟩⟩
  · exact congrArg (g.block size :: ·) h.blocks
  · rw [List.any_cons]
    refine (Memory.read_clear_block t.mem g size a).trans ?_
    rw [h.memory a]
    cases (g.block size).holds a 1 <;> simp
  · obtain ⟨hbase, hphys⟩ := (List.pairwise_cons.1 h.disjoint).1 p hp
    exact State.grantOk_allocated (h.ok p (List.mem_cons_of_mem _ hp)) hbase hphys

theorem Granting.allocRing {s t : State} {l : List Block} {g : Grant} {ps : List (Grant × Nat)}
    {rest : List (Option Grant)} (n : Nat) (h : Granting s l ((g, ringBytes s.cfg) :: ps) rest t) (hq : s.quiet)
    (ha : g.base.toNat % ringAlign = 0 ∧ g.phys.toNat % ringAlign = 0) (got : List W64) :
    ∃ t', allocRing n got t = .ok g.base t' ∧ Granting s (g.block (ringBytes s.cfg) :: l) ps rest t' := by
  obtain ⟨t', hrun, ht⟩ := h.alloc (site := .ring n) hq (Grant.aligned_ring.2 ha) 1 got
  refine ⟨t', ?_, ht⟩
  rw [Machine.allocRing, Micro.look_bind, h.environment.1]
  exact hrun

/-- With six answers that keep the contract construction makes its six allocations and writes the registers. -/
theorem constructEngine_granted {s t : State} {g0 g1 g2 g3 g4 g5 : Grant} {rest : List (Option Grant)} (hq : s.quiet)
    (h : Granting s [] ([g0, g1, g2, g3, g4, g5].zip (blockSizes s.cfg)) rest t)
    (ha : ∀ g ∈ [g0, g1, g2, g3], g.base.toNat % ringAlign = 0 ∧ g.phys.toNat % ringAlign = 0) :
    ∃ m, Granting s (engineBlocks s.cfg g0 g1 g2 g3 g4 g5) [] rest m ∧
      constructEngine t = .ok ()
        { m with es := .constructed,
                 eng := m.eng.constructed s.cfg g0.base g1.base g2.base g3.base g4.base g5.base } := by
  have hcfg : t.cfg = s.cfg := h.environment.1
  obtain ⟨t1, h1, k1⟩ := h.allocRing 0 hq (ha g0 (by simp)) []
  obtain ⟨t2, h2, k2⟩ := k1.allocRing 1 hq (ha g1 (by simp)) [g0.base]
  obtain ⟨t3, h3, k3⟩ := k2.allocRing 2 hq (ha g2 (by simp)) [g0.base, g1.base]
  obtain ⟨t4, h4, k4⟩ := k3.allocRing 3 hq (ha g3 (by simp)) [g0.base, g1.base, g2.base]
  obtain ⟨t5, h5, k5⟩ := k4.alloc (site := .pool) hq rfl 2 [g0.base, g1.base, g2.base, g3.base]
  obtain ⟨t6, h6, k6⟩ := k5.alloc (site := .heads) hq rfl 3 [g0.base, g1.base, g2.base, g3.base, g4.base]
  refine ⟨t6, k6, ?_⟩
  rw [constructEngine, Micro.look_bind, hcfg, Micro.run_bind_ok h1, Micro.run_bind_ok h2, Micro.run_bind_ok h3,
    Micro.run_bind_ok h4, Micro.run_bind_ok h5, Micro.run_bind_ok h6]
  rfl

/-- Settles O35: the six allocations in order, from a state that grants them all. -/
theorem constructCompletes : Obligations.ConstructCompletes := by
  intro s g0 g1 g2 g3 g4 g5 rest _ hq ha hgrants hok blocks
  obtain ⟨hin, happart, haligned⟩ := hok
  have start : Granting (s.start .engConstruct) [] ([g0, g1, g2, g3, g4, g5].zip (blockSizes s.cfg)) rest
      (s.start .engConstruct) :=
    ⟨⟨rfl, rfl, rfl, rfl⟩, ⟨rfl, rfl⟩, rfl, rfl, rfl, hgrants, rfl, fun _ => rfl, hin, happart⟩
  obtain ⟨m, hm, hrun⟩ := constructEngine_granted (s := s.start .engConstruct) hq start haligned
  refine ⟨_, exec_ok (v := noValues) ha (Micro.run_bind_ok hrun), ⟨rfl, rfl⟩, rfl, ?_, ?_, ?_, hm.handlerQ, fun a => ?_,
    hm.environment, handle_of_handles hm.handles, fun b => ?_⟩
  · rw [show s.eng = m.eng from hm.engine.2.symm]
    rfl
  · exact hm.blocks
  · exact hm.grants
  · refine (hm.memory a).trans ?_
    rw [show engineBlocks (s.start .engConstruct).cfg g0 g1 g2 g3 g4 g5 = blocks.reverse from rfl, List.any_reverse]
    rfl
  · show m.nic b = s.nic b
    rw [State.nic, State.nic, hm.nics]
    rfl

end Sys2Proof.Machine
end

section
/-! SUPPORT. The transmit DMA (R345 to R347): what it reads and writes where physical addresses lie in live blocks, and
what each of its moves changes. -/

namespace Sys2Proof.Machine

/-! DMA inside the live blocks. -/

/-- A stretch of physical addresses whose image in engine-virtual memory starts at `a` (R88). -/
def State.MapsTo (s : State) (p a n : Nat) : Prop := ∀ k, k < n → s.physToVirt (p + k) = some (a + k)

theorem State.mapsTo_succ {s : State} {p a n : Nat} (h : s.MapsTo p a (n + 1)) :
    s.physToVirt p = some a ∧ s.MapsTo (p + 1) (a + 1) n := by
  refine ⟨h 0 (Nat.succ_pos n), fun k hk => ?_⟩
  have := h (k + 1) (Nat.succ_lt_succ hk)
  rwa [show p + 1 + k = p + (k + 1) by omega, show a + 1 + k = a + (k + 1) by omega]

theorem dmaRead_inside {s : State} {p a n : Nat} (h : s.MapsTo p a n) :
    s.dmaRead p n = (List.range n).map fun k => Memory.read s.mem (a + k) := by
  induction n generalizing p a with
  | zero => rfl
  | succ n ih =>
    obtain ⟨h0, hrest⟩ := State.mapsTo_succ h
    rw [State.dmaRead, h0, ih hrest, List.range_succ_eq_map, List.map_cons, List.map_map]
    refine congrArg (_ :: ·) (List.map_congr_left fun k _ => ?_)
    show Memory.read s.mem (a + 1 + k) = Memory.read s.mem (a + (k + 1))
    rw [show a + 1 + k = a + (k + 1) by omega]

theorem ofBytesLE_dmaRead {s : State} {p a n : Nat} (h : s.MapsTo p a n) :
    ofBytesLE (s.dmaRead p n) = Memory.readLE s.mem a n := by
  induction n generalizing p a with
  | zero => rfl
  | succ n ih =>
    obtain ⟨h0, hrest⟩ := State.mapsTo_succ h
    rw [State.dmaRead, h0, ofBytesLE, ih hrest, Memory.readLE]

theorem dmaWrite_bytesLE {s : State} {p a n : Nat} (v : Nat) (h : s.MapsTo p a n) :
    s.dmaWrite p (bytesLE n v) = { s with mem := Memory.writeLE s.mem a n v } := by
  induction n generalizing s p a v with
  | zero => rfl
  | succ n ih =>
    obtain ⟨h0, hrest⟩ := State.mapsTo_succ h
    rw [bytesLE, State.dmaWrite, h0]
    exact ih (s := { s with mem := Memory.write s.mem a (BitVec.ofNat 8 v) }) (v / 256) hrest

/-- The transmit DMA reads the descriptor that lies at a slot of its ring. -/
theorem txDescriptor_inside {s : State} {n : Nic} {q i da : Nat} {w0 w1 : W64}
    (h : s.MapsTo ((n.pair s.cfg .tdbah .tdbal q).toNat + 16 * i) da 16)
    (h0 : Memory.readLE s.mem da 8 = w0.toNat) (h1 : Memory.readLE s.mem (da + 8) 8 = w1.toNat) :
    s.txDescriptor n q i = (w0, w1) := by
  have low : s.MapsTo ((n.pair s.cfg .tdbah .tdbal q).toNat + descSize * i) da 8 :=
    fun k hk => h k (Nat.lt_trans hk (by decide))
  have high : s.MapsTo ((n.pair s.cfg .tdbah .tdbal q).toNat + descSize * i + 8) (da + 8) 8 := fun k hk => by
    have hk8 := h (8 + k) (by omega)
    rwa [← Nat.add_assoc, ← Nat.add_assoc] at hk8
  simp only [State.txDescriptor, ofBytesLE_dmaRead low, ofBytesLE_dmaRead high, h0, h1, BitVec.ofNat_toNat,
    BitVec.setWidth_eq]

/-- The length in word 1 of a descriptor (R121). -/
theorem lenOf_toNat {c : Config} (hc : c.legal = true) (w : W64) :
    (lenOf c w).toNat = w.toNat / 2 ^ c.desc.lenLo % 2 ^ c.lenBits := by
  have hbits : c.lenBits ≤ 16 := by
    have hn := Config.legal_numbers hc
    simp only [Config.numbersOk, Bool.and_eq_true, decide_eq_true_eq] at hn
    omega
  have hpow : 2 ^ c.lenBits ≤ 2 ^ 16 := Nat.pow_le_pow_right (by decide) hbits
  have hpos : 0 < 2 ^ c.lenBits := Nat.two_pow_pos _
  have hmask : (2 ^ c.lenBits - 1) % 2 ^ 64 = 2 ^ c.lenBits - 1 := Nat.mod_eq_of_lt (by omega)
  have hlt := Nat.mod_lt (w.toNat / 2 ^ c.desc.lenLo) hpos
  rw [lenOf, lenMask, BitVec.toNat_setWidth, BitVec.toNat_and, BitVec.toNat_ofNat, hmask, BitVec.toNat_ushiftRight,
    Nat.and_two_pow_sub_one_eq_mod, Nat.shiftRight_eq_div_pow]
  exact Nat.mod_eq_of_lt (by omega)

/-! The moves. -/

theorem Nic.txEnabled_iff {c : Config} {n : Nic} {q : Nat} :
    n.txEnabled c q = true ↔ q < c.txQueueCount ∧ n.field c .txdctlEnable q ≠ 0 ∧ n.field c .te 0 ≠ 0 := by
  simp [Nic.txEnabled, and_assoc]

theorem Nic.txQueue_put (n : Nic) (q q' : Nat) (t : TxQueue) (l : List Frame) :
    Nic.txQueue { n with txQueues := Store.put n.txQueues q t, sent := l } q' = if q' = q then t else n.txQueue q' := by
  simp only [Nic.txQueue, Store.get?_put]
  split <;> rfl

/-- A NIC gets new contents of one transmit queue, and has sent frames: registers, memory and every other NIC stay. -/
theorem txFrame (s : State) (bdf : W16) (q : Nat) (t : TxQueue) (l : List Frame) :
    let n := s.nic bdf
    let u := s.setNic bdf { n with txQueues := Store.put n.txQueues q t, sent := l }
    (u.nic bdf).sent = l ∧ (u.nic bdf).txQueue q = t ∧ (∀ q', q' ≠ q → (u.nic bdf).txQueue q' = n.txQueue q') ∧
      (SameRegistersBut s u bdf fun _ => False) ∧ SameNicsBut s u bdf ∧ u.mem = s.mem := by
  simp only [State.nic_setNic_self, Nic.txQueue_put, if_true]
  refine ⟨trivial, trivial, fun q' hq' => if_neg hq', fun off _ => ?_, fun b hb => ?_, rfl⟩
  · rw [State.nic_setNic_self]
    rfl
  · rw [State.nic_setNic, if_neg hb]

/-- The transmit DMA fetches the next descriptor where it owns a slot it has not fetched. -/
theorem txFetch_eq {s : State} {bdf : W16} {q : Nat} {d : W64 × W64} (hon : (s.nic bdf).txEnabled s.cfg q = true)
    (hown : ((s.nic bdf).txQueue q).fetched.length < (s.nic bdf).txOwned s.cfg q)
    (hd : s.txDescriptor (s.nic bdf) q
      ((((s.nic bdf).txQueue q).head + ((s.nic bdf).txQueue q).fetched.length) % s.cfg.ringSize) = d) :
    s.txFetch bdf q = s.setNic bdf { s.nic bdf with
      txQueues := Store.put (s.nic bdf).txQueues q
        { (s.nic bdf).txQueue q with fetched := ((s.nic bdf).txQueue q).fetched ++ [d] }
      sent := (s.nic bdf).sent } := by
  have hnot : ¬ ((s.nic bdf).txEnabled s.cfg q = false ∨
      (s.nic bdf).txOwned s.cfg q ≤ ((s.nic bdf).txQueue q).fetched.length) := by
    rintro (h | h)
    · rw [hon] at h
      cases h
    · omega
  subst hd
  exact if_neg hnot

/-- The frame that a descriptor with word 1 `w` makes of the bytes of its packet: none for length 0 (R346). -/
def frames (c : Config) (q : Nat) (w : W64) (bytes : List Byte) : List Frame :=
  if w.toNat / 2 ^ c.desc.lenLo % 2 ^ c.lenBits = 0 then []
  else [⟨q, bytes, w.getLsbD c.desc.eop, w.getLsbD c.desc.ifcs⟩]

/-- The transmit DMA finishes with the descriptor at its head, fetched before or read now. -/
theorem txSend_eq {s : State} {bdf : W16} {q : Nat} {d : W64 × W64} {rest : List (W64 × W64)}
    (hc : s.cfg.legal = true) (hon : (s.nic bdf).txEnabled s.cfg q = true)
    (hhead : ((s.nic bdf).txQueue q).head ≠ ((s.nic bdf).reg s.cfg (s.cfg.off .tdt q)).toNat)
    (hd : (((s.nic bdf).txQueue q).fetched = [] ∧ rest = [] ∧
        s.txDescriptor (s.nic bdf) q ((s.nic bdf).txQueue q).head = d) ∨ ((s.nic bdf).txQueue q).fetched = d :: rest) :
    s.txSend bdf q = s.setNic bdf { s.nic bdf with
      txQueues := Store.put (s.nic bdf).txQueues q
        ⟨(((s.nic bdf).txQueue q).head + 1) % s.cfg.ringSize, rest,
          ((s.nic bdf).txQueue q).rsDone || d.2.getLsbD s.cfg.desc.rs⟩
      sent := (s.nic bdf).sent ++
        frames s.cfg q d.2 (s.dmaRead d.1.toNat (d.2.toNat / 2 ^ s.cfg.desc.lenLo % 2 ^ s.cfg.lenBits)) } := by
  have hnot : ¬ ((s.nic bdf).txEnabled s.cfg q = false ∨
      ((s.nic bdf).txQueue q).head = ((s.nic bdf).reg s.cfg (s.cfg.off .tdt q)).toNat) := by
    rintro (h | h)
    · rw [hon] at h
      cases h
    · exact hhead h
  have hsent (l : List Frame) (bytes : List Byte) :
      (if d.2.toNat / 2 ^ s.cfg.desc.lenLo % 2 ^ s.cfg.lenBits = 0 then l
        else l ++ [⟨q, bytes, d.2.getLsbD s.cfg.desc.eop, d.2.getLsbD s.cfg.desc.ifcs⟩]) =
        l ++ frames s.cfg q d.2 bytes := by
    rw [frames]
    split <;> simp
  simp only [State.txSend, if_neg hnot]
  obtain ⟨hf, rfl, hdesc⟩ | hf := hd
  · simp only [hf, hdesc, lenOf_toNat hc, hsent, List.tail_nil]
  · simp only [hf, lenOf_toNat hc, hsent, List.tail_cons]

/-- The head of a transmit queue is written to its head slot (R126, R347). -/
theorem txWriteBack_eq {s : State} {bdf : W16} {q a : Nat} (hq : q < s.cfg.txQueueCount)
    (hen : (s.nic bdf).field s.cfg .headWbEn q ≠ 0) (hrs : ((s.nic bdf).txQueue q).rsDone = true)
    (ha : s.MapsTo ((s.nic bdf).headSlot s.cfg q).toNat a 4) :
    s.txWriteBack bdf q =
      ({ s with mem := Memory.writeLE s.mem a 4 ((s.nic bdf).txQueue q).head } : State).setNic bdf
        { s.nic bdf with
          txQueues := Store.put (s.nic bdf).txQueues q { (s.nic bdf).txQueue q with rsDone := false }
          sent := (s.nic bdf).sent } := by
  have hnot : ¬ (s.cfg.txQueueCount ≤ q ∨ (s.nic bdf).field s.cfg .headWbEn q = 0 ∨
      ((s.nic bdf).txQueue q).rsDone = false) := by
    rintro (h | h | h)
    · omega
    · exact hen h
    · rw [hrs] at h
      cases h
  simp only [State.txWriteBack, if_neg hnot, dmaWrite_bytesLE _ ha]

/-- Settles O60: each clause is one branch of a move of the transmit DMA. -/
theorem transmitDmaSendsAndWritesBack : Obligations.TransmitDmaSendsAndWritesBack := by
  intro s bdf q hinv c n T tail on owned next slotHolds frame
  have hc : s.cfg.legal = true := hinv.legal
  have off (h : ¬ on) : n.txEnabled c q = false := by
    rw [Bool.eq_false_iff]
    exact fun h' => h (Nic.txEnabled_iff.1 h')
  have desc {i : Nat} {w0 w1 : W64} (h : slotHolds i w0 w1) : s.txDescriptor n q i = (w0, w1) := by
    obtain ⟨da, hda, h0, h1⟩ := h
    exact txDescriptor_inside hda h0 h1
  refine ⟨fun h => if_pos (h.imp_left off), fun hon hown w0 w1 hslot => ?_, fun h => if_pos (h.imp_left off),
    fun hon hhead w0 w1 rest buffer hd => ?_, fun hq hen hrs a ha => ?_⟩
  · intro t
    have ht : t = _ := txFetch_eq (Nic.txEnabled_iff.2 hon) hown (desc hslot)
    obtain ⟨hsent, hqueue, hothers, hregs, hnics, hmem⟩ :=
      txFrame s bdf q { T with fetched := T.fetched ++ [(w0, w1)] } n.sent
    rw [ht]
    exact ⟨hqueue, hothers, hsent, hregs, hnics, hmem⟩
  · intro len hbuffer t
    have ht : t = _ := txSend_eq hc (Nic.txEnabled_iff.2 hon) hhead (d := (w0, w1)) (rest := rest)
      (hd.imp_left fun ⟨hf, hr, hslot⟩ => ⟨hf, hr, desc hslot⟩)
    rw [ht, dmaRead_inside hbuffer]
    exact txFrame s bdf q _ _
  · intro t
    have ht : t = _ := txWriteBack_eq hq hen hrs ha
    rw [ht]
    refine ⟨?_, ?_, fun x hx => Memory.read_writeLE_outside s.mem a 4 T.head hx⟩
    · have hhead : T.head < s.cfg.ringSize :=
        Nic.HeadsOk.txQueue_head (Sound.nic (inv_iff.1 hinv).1.sound bdf) (Config.ringSize_bounds hc).1 q
      have hbound := (Config.ringSize_bounds hc).2
      refine (Memory.readLE_writeLE_self a 4 T.head hinv.memory).trans (Nat.mod_eq_of_lt ?_)
      omega
    · rw [State.nic_setNic_self, Nic.txQueue_put, if_pos rfl]

end Sys2Proof.Machine
end

section
/-! SUPPORT. Which accesses make no fault: those of memory inside a live block, and of registers inside a mapped window
(R86, R150); the addresses that the engine registers give are such (R35 to R39, R77). -/

namespace Sys2Proof.Machine

/-! Micro-steps that do not fault. -/

section Rules
variable {α β : Type} {P Q R : State → Prop}

/-- From a state with `P` the micro-steps `m` return in a state with `Q`, raise or are refused, and the one fault they
can make is a handler that never returns (U7). -/
def Spares (P Q : State → Prop) (m : Micro α) : Prop :=
  Triple P m (fun _ => Q) (fun _ _ => True) (· = .handlerNeverReturns)

theorem Spares.pure (a : α) : Spares P P (pure a : Micro α) := Triple.pure fun _ h => h

theorem Spares.raise (f : Failure) : Spares P Q (raise f : Micro α) := Triple.raise fun _ _ => trivial

theorem Spares.refuse (r : Refusal) : Spares P Q (refuse r : Micro α) := Triple.refuse

theorem Spares.change {f : State → State} (h : ∀ s, P s → Q (f s)) : Spares P Q (change f) := Triple.change h

theorem Spares.bind {m : Micro α} {k : α → Micro β} (h : Spares P Q m) (hk : ∀ a, Spares Q R (k a)) :
    Spares P R (m >>= k) := Triple.bind h hk

/-- What follows a look at the state rests on a state with `P`. -/
theorem Spares.look_bind {f : State → α} {k : α → Micro β} (h : ∀ x, P x → Spares P Q (k (f x))) :
    Spares P Q (look f >>= k) := by
  intro s hs
  rw [Micro.look_bind]
  exact h s hs s hs

theorem Spares.ite {p : Prop} [Decidable p] {x y : Micro α} (hx : Spares P Q x) (hy : ¬ p → Spares P Q y) :
    Spares P Q (if p then x else y) := by
  split
  · exact hx
  · exact hy ‹_›

/-- Something done on a condition, and what follows. -/
theorem Spares.guarded {p : Prop} [Decidable p] {x : Micro Unit} {k : Unit → Micro β} (hx : Spares P P x)
    (hk : Spares P Q (k ())) : Spares P Q (if p then x >>= k else k ()) := .ite (.bind hx fun _ => hk) fun _ => hk

/-- A check that raises, and what follows where it passes. -/
theorem Spares.checked {p : Prop} [Decidable p] {f : Failure} {k : Unit → Micro β} (hk : ¬ p → Spares P Q (k ())) :
    Spares P Q (if p then Machine.raise f >>= k else k ()) :=
  .ite (.bind (Q := fun _ => False) (.raise f) fun _ _ h => h.elim) hk

theorem Spares.forEach {l : List α} {body : α → Micro Unit} (h : ∀ x ∈ l, Spares P P (body x)) :
    Spares P P (forEach l body) := Triple.forEach h

/-- How a command ends does not matter to its faults. -/
theorem Spares.ends {m : Micro α} (h : Spares P Q m) : Spares P (fun _ => True) m :=
  h.weaken (fun _ h => h) (fun _ _ _ => trivial) (fun _ _ h => h) fun _ h => h

/-- Micro-steps that hold to `R` however they end, from a state that `s` is related to. -/
theorem Triple.leads {R : State → State → Prop} {s : State} {m : Micro α} {Q : α → State → Prop}
    {E : Failure → State → Prop} {F : Fault → Prop} (hR : Chains R) (hm : Leads R m) (h : Triple (R s) m Q E F) :
    Triple (R s) m (fun a t => Q a t ∧ R s t) E F := by
  intro t ht
  have hq := h t ht
  have hr := hR.trans ht (hm t)
  revert hq hr
  cases m t with
  | ok a u => exact fun hq hr => ⟨hq, hr⟩
  | error e u => cases e <;> exact fun hq _ => hq

theorem Spares.of_leads {R : State → State → Prop} {s : State} {m : Micro α} (hR : Chains R) (hm : Leads R m)
    (h : Spares (R s) (fun _ => True) m) : Spares (R s) (R s) m :=
  (Triple.leads hR hm h).weaken (fun _ h => h) (fun _ _ h => h.2) (fun _ _ h => h) fun _ h => h

theorem Spares.of_weaker {P' : State → Prop} {m : Micro α} (h : Spares P' Q m) (hP : ∀ s, P s → P' s) :
    Spares P Q m := h.weaken hP (fun _ _ h => h) (fun _ _ h => h) fun _ h => h

/-- Micro-steps that return. -/
theorem Spares.of_ok {m : Micro α} (h : ∀ t, P t → ∃ a u, m t = .ok a u) : Spares P (fun _ => True) m := by
  intro t ht
  obtain ⟨a, u, hrun⟩ := h t ht
  rw [hrun]
  trivial

theorem setLife_spares (dev : BitVec 8) (l : DevLife) : Spares P (fun _ => True) (setLife dev l) :=
  .change fun _ _ => trivial

theorem failDevice_spares (dev : BitVec 8) (f : Failure) : Spares P Q (failDevice dev f : Micro α) :=
  .bind (setLife_spares dev .failed) fun _ => .raise f

end Rules

/-! Accesses that do not fault. -/

section Accesses
variable {α : Type} {s : State} {dev : BitVec 8}

/-- Micro-steps of a command that began in `s` and has so far made accesses and moved the delimiters: they do no more
than that, and do not fault but for U7. -/
abbrev Safely (s : State) (m : Micro α) : Prop := Spares (Runs Delimits s) (Runs Delimits s) m

theorem Runs.handle {W : Config → Engine → Engine → Prop} {t : State} (h : Runs W s t) (dev : BitVec 8) :
    t.handle dev = s.handle dev := handle_of_handles h.handles dev

theorem Runs.memExists {W : Config → Engine → Engine → Prop} {t : State} (h : Runs W s t) (a n : Nat) :
    t.memExists a n = s.memExists a n := by rw [State.memExists, h.blocks, State.memExists]

theorem Runs.windowAt {W : Config → Engine → Engine → Prop} {t : State} (h : Runs W s t) (a : W64) :
    t.windowAt a = s.windowAt a := by rw [State.windowAt, h.handles, State.windowAt]

/-- Accesses that never stop early. -/
theorem Accesses.safely {m : Micro α} (h : Accesses m) (hok : ∀ t, Runs Delimits s t → ∃ a u, m t = .ok a u) :
    Safely s m := .of_leads Delimits.chains h.delimits (.of_ok hok)

theorem Spares.memRead {line n : Nat} {acq : Bool} {a : W64} (h : s.memExists a.toNat n = true) :
    Safely s (memRead line acq a n) :=
  (Accesses.memRead _ _ _ _).safely fun _ ht => ⟨_, _, memRead_run line acq ((ht.memExists _ _).trans h)⟩

theorem Spares.memWrite {line n : Nat} {rel : Bool} {a v : W64} (h : s.memExists a.toNat n = true) :
    Safely s (memWrite line rel a n v) :=
  (Accesses.memWrite _ _ _ _ _).safely fun _ ht => ⟨_, _, memWrite_run line rel v ((ht.memExists _ _).trans h)⟩

theorem Spares.mmioWriteAt {line : Nat} {a : W64} {v : W32} (h : ∃ bdf off, s.windowAt a = some (bdf, off)) :
    Safely s (mmioWriteAt line a v) := by
  obtain ⟨bdf, off, h⟩ := h
  exact (Accesses.mmioWriteAt _ _ _).safely fun _ ht => ⟨_, _, mmioWriteAt_run line v ((ht.windowAt a).trans h)⟩

theorem Spares.sleepUs (line n : Nat) : Safely s (sleepUs line n) :=
  (Accesses.sleepUs line n).safely fun _ _ => ⟨_, _, rfl⟩

theorem Spares.pciRegRead (line : Nat) (bdf : W16) (r : PciReg) : Safely s (pciRegRead line bdf r) :=
  (Accesses.pciRegRead line bdf r).safely fun _ _ => ⟨_, _, rfl⟩

theorem Spares.pciReadField (line : Nat) (bdf : W16) (f : PciField) : Safely s (pciReadField line bdf f) :=
  (Accesses.pciReadField line bdf f).safely fun _ _ => ⟨_, _, rfl⟩

theorem Spares.pciIsCleared (line : Nat) (bdf : W16) (f : PciField) : Safely s (pciIsCleared line bdf f) :=
  (Accesses.pciIsCleared line bdf f).safely fun _ _ => ⟨_, _, rfl⟩

theorem Spares.pciWrite (line : Nat) (bdf : W16) (off : Nat) (v : W32) : Safely s (pciWrite line bdf off v) :=
  (Accesses.pciWrite line bdf off v).safely fun _ _ => ⟨_, _, rfl⟩

theorem Spares.pciWriteField (line : Nat) (bdf : W16) (f : PciField) (v : W32) :
    Safely s (pciWriteField line bdf f v) := (Accesses.pciWriteField line bdf f v).safely fun _ _ => ⟨_, _, rfl⟩

theorem Spares.pciSet (line : Nat) (bdf : W16) (f : PciField) : Safely s (pciSet line bdf f) :=
  (Accesses.pciSet line bdf f).safely fun _ _ => ⟨_, _, rfl⟩

theorem Spares.p2v (line : Nat) (p : W64) (n : Nat) : Safely s (p2v line p n) :=
  (Accesses.p2v line p n).safely fun _ _ => ⟨_, _, rfl⟩

theorem Spares.v2pOrRaise (line : Nat) (a : W64) (site : AllocSite) : Safely s (v2pOrRaise line a site) := by
  refine .bind ((Accesses.v2p line a).safely fun _ _ => ⟨_, _, rfl⟩) fun r => ?_
  cases r with
  | none => exact .raise _
  | some p => exact .pure p

/-! Registers of a mapped device (R150). -/

/-- The registers of the device exist: its window is mapped, and offsets lie inside it (R52, R150). -/
structure Reaches (s : State) (dev : BitVec 8) : Prop where
  legal : s.cfg.legal = true
  mapped : (s.handle dev).mapped = true

variable {r : DevReg} {f : DevField} {i line : Nat} {v : W32} {w : Bool}

/-- An index below the number of its indices is one of the register (R52, R130). -/
theorem indexOk_of_lt {c : Config} {n : Nat} (hr : r.indexCount c = some n) (hi : i < n) : r.indexOk c i = true := by
  simpa [DevReg.indexOk, hr] using hi

theorem Reaches.regRead (h : Reaches s dev) (hi : r.indexOk s.cfg i = true) : Safely s (regRead line dev r i) := by
  refine (Accesses.regRead _ _ _ _).safely fun t ht => ?_
  rw [regRead_eq, ht.keeps.cfg]
  exact ⟨_, _, mmioRead32_run line (by rw [ht.handle]; exact h.mapped) (regOffOk_off h.legal r hi)⟩

theorem Reaches.regWrite (h : Reaches s dev) (hi : r.indexOk s.cfg i = true) : Safely s (regWrite line dev r i v) := by
  refine (Accesses.regWrite _ _ _ _ _).safely fun t ht => ?_
  rw [regWrite_eq, ht.keeps.cfg]
  exact ⟨_, _, mmioWrite32_run line v (by rw [ht.handle]; exact h.mapped) (regOffOk_off h.legal r hi)⟩

theorem Reaches.regReadField (h : Reaches s dev) (hi : f.reg.indexOk s.cfg i = true) :
    Safely s (regReadField line dev f i) := .bind (h.regRead hi) fun _ => .look_bind fun _ _ => .pure _

theorem Reaches.regWriteField (h : Reaches s dev) (hi : f.reg.indexOk s.cfg i = true) :
    Safely s (regWriteField line dev f i v) := .bind (h.regRead hi) fun _ => .look_bind fun _ _ => h.regWrite hi

theorem Reaches.regSet (h : Reaches s dev) (hi : f.reg.indexOk s.cfg i = true) : Safely s (regSet line dev f i) :=
  .look_bind fun _ _ => h.regWriteField hi

theorem Reaches.regClear (h : Reaches s dev) (hi : f.reg.indexOk s.cfg i = true) : Safely s (regClear line dev f i) :=
  h.regWriteField hi

theorem Reaches.regIsCleared (h : Reaches s dev) (hi : f.reg.indexOk s.cfg i = true) :
    Safely s (regIsCleared line dev f i) := .bind (h.regReadField hi) fun _ => .pure _

theorem Reaches.pollLoop (h : Reaches s dev) (hi : f.reg.indexOk s.cfg i = true) (gap n : Nat) :
    Safely s (pollLoop line dev f i w gap n) := by
  induction n with
  | zero => exact .pure _
  | succ n ih =>
    exact .bind (h.regIsCleared hi) fun _ => .ite (.pure _) fun _ => .bind (.sleepUs _ _) fun _ => ih

theorem Reaches.poll (h : Reaches s dev) (hi : f.reg.indexOk s.cfg i = true) :
    Safely s (poll line dev f i w) := .look_bind fun _ _ => h.pollLoop hi _ _

/-! The engine's memory and its tails (R35 to R39). -/

theorem State.memExists_iff {a n : Nat} : s.memExists a n = true ↔ ∃ b ∈ s.blocks, b.holds a n = true := by
  simp [State.memExists]

/-- A part of memory that exists exists. -/
theorem State.memExists_part {a n k m : Nat} (h : s.memExists a n = true) (hk : k + m ≤ n) :
    s.memExists (a + k) m = true := by
  obtain ⟨b, hb, hh⟩ := State.memExists_iff.1 h
  refine State.memExists_iff.2 ⟨b, hb, ?_⟩
  simp only [Block.holds, Bool.and_eq_true, decide_eq_true_eq] at hh ⊢
  omega

/-- An address formed from the base of a live block names bytes of it. -/
theorem BlocksOk.memExists_offset (h : BlocksOk s.blocks) {base : W64} {size : Nat} (hb : s.hasBlock base size)
    {o n : Nat} (hn : 0 < n) (ho : o + n ≤ size) : s.memExists (base + BitVec.ofNat 64 o).toNat n = true := by
  obtain ⟨b, hmem, rfl, rfl⟩ := hb
  obtain ⟨-, hend, -⟩ := h.inside b hmem
  have haddr : (b.base + BitVec.ofNat 64 o).toNat = b.base.toNat + o := by
    rw [BitVec.toNat_add, BitVec.toNat_ofNat]
    omega
  rw [haddr]
  refine State.memExists_iff.2 ⟨b, hmem, ?_⟩
  simp only [Block.holds, Bool.and_eq_true, decide_eq_true_eq]
  omega

/-- A constructed engine that meets the invariant. -/
structure Built (s : State) : Prop where
  whole : Whole s
  constructed : s.es = .constructed

theorem Built.engine (h : Built s) : EngineOk s := h.whole.engine h.constructed

theorem Built.legal (h : Built s) : s.cfg.legal = true := h.whole.sound.legal

theorem Built.runs {t : State} (h : Built s) (r : Runs Delimits s t) : Built t :=
  ⟨h.whole.delimits r, r.es.trans h.constructed⟩

/-- A descriptor word lies in its ring (R37, R133). -/
theorem Built.wordAddr_exists (h : Built s) (n : Fin 4) {i : W64} (hi : i.toNat < s.cfg.ringSize) {w : Nat}
    (hw : w < 2) : s.memExists (s.eng.wordAddr n i w).toNat 8 = true := by
  have hring : s.hasBlock s.eng.ring[n] (ringBytes s.cfg) :=
    h.engine.live (s.eng.ring[n], ringBytes s.cfg) (by simp [engineRegions])
  refine h.whole.blocks.memExists_offset hring (by decide) ?_
  simp only [ringBytes, descSize]
  omega

/-- A buffer lies in the pool, whole (R38). -/
theorem Built.bufAddr_exists (h : Built s) {i : W64} (hi : i.toNat < s.cfg.ringSize) :
    s.memExists (s.eng.bufAddr s.cfg i).toNat s.cfg.bufSize = true := by
  have hpool : s.hasBlock s.eng.buf (s.cfg.ringSize * s.cfg.bufSize) :=
    h.engine.live (s.eng.buf, _) (by simp [engineRegions])
  refine h.whole.blocks.memExists_offset hpool (Config.sizes_pos h.legal).1 ?_
  calc s.cfg.bufSize * i.toNat + s.cfg.bufSize = (i.toNat + 1) * s.cfg.bufSize := by ring
    _ ≤ s.cfg.ringSize * s.cfg.bufSize := Nat.mul_le_mul_right _ hi

/-- A head slot has room for a head (R16, R126). -/
theorem Config.headStride_ge {c : Config} (h : c.legal = true) : 16 ≤ c.headStride := by
  have hn := Config.legal_numbers h
  simp only [Config.numbersOk, Bool.and_eq_true, decide_eq_true_eq, beq_iff_eq] at hn
  omega

/-- A head slot lies in the head array (R39). -/
theorem Built.headAddr_exists (h : Built s) (n : Fin 4) :
    s.memExists (s.eng.headAddr s.cfg n).toNat 4 = true := by
  have hheads : s.hasBlock s.eng.heads (outputsMax * s.cfg.headStride) :=
    h.engine.live (s.eng.heads, _) (by simp [engineRegions])
  refine h.whole.blocks.memExists_offset hheads (by decide) ?_
  have hslot := Config.headStride_ge h.legal
  calc n.val * s.cfg.headStride + 4 ≤ (n.val + 1) * s.cfg.headStride := by rw [Nat.succ_mul]; omega
    _ ≤ outputsMax * s.cfg.headStride := Nat.mul_le_mul_right _ n.isLt

/-- A recorded tail names a register of a window that is mapped (R35, R36, R72). -/
theorem windowAt_of_initialized {e : Nat × Handle} {r : DevReg} {i : Nat} (hc : s.cfg.legal = true)
    (he : e ∈ s.handles) (hl : e.2.ls = .initialized) (hi : r.indexOk s.cfg i = true) :
    ∃ bdf off, s.windowAt (e.2.base + BitVec.ofNat 64 (s.cfg.off r i)) = some (bdf, off) :=
  State.windowAt_of_register he (Handle.mapped_iff.2 (by rw [hl]; decide)) (regOffOk_off hc r hi)

/-- The receive queue exists (R19, R211 (a)). -/
theorem Config.rxQueue_lt {c : Config} (h : c.legal = true) : c.rxQueue < c.rxQueueCount := by
  have hn := Config.legal_numbers h
  simp only [Config.numbersOk, Bool.and_eq_true, decide_eq_true_eq] at hn
  omega

theorem Built.rta_window (h : Built s) (hv : s.eng.rtaV = true) :
    ∃ bdf off, s.windowAt s.eng.rta = some (bdf, off) := by
  obtain ⟨e, he, hl, hrta⟩ := h.engine.rta hv
  rw [hrta]
  exact windowAt_of_initialized h.legal he hl (indexOk_of_lt rfl (Config.rxQueue_lt h.legal))

theorem Built.tta_window (h : Built s) {n : Fin 4} (hn : n.val < s.eng.oc.toNat) :
    ∃ bdf off, s.windowAt s.eng.tta[n] = some (bdf, off) := by
  obtain ⟨e, he, hl, q, hq, htta⟩ := h.engine.tta n hn
  rw [htta]
  exact windowAt_of_initialized h.legal he hl (indexOk_of_lt rfl hq)

end Accesses

end Sys2Proof.Machine
end

section
/-! SUPPORT. From the invariant no command makes an access fault: command by command, each address it accesses lies in a
live block or in a mapped window. -/

namespace Sys2Proof.Machine

section Commands
variable {α : Type} {s : State} {dev : BitVec 8}

/-! DEV_RESET (R202). -/

theorem Reaches.disableRxQueues (h : Reaches s dev) {todo q : Nat} (hq : q + todo ≤ s.cfg.rxQueueCount) :
    Safely s (disableRxQueues dev todo q) := by
  induction todo generalizing q with
  | zero => exact .pure ()
  | succ todo ih =>
    have hi : DevReg.rxdctl.indexOk s.cfg q = true := indexOk_of_lt rfl (by omega)
    exact .bind (h.regClear hi) fun _ => .bind (h.poll hi) fun _ => .guarded (failDevice_spares _ _)
      (.look_bind fun _ _ => .bind (.sleepUs _ _) fun _ => ih (by omega))

theorem Reaches.flushBuffers (h : Reaches s dev) : Safely s (flushBuffers dev) :=
  .bind (h.regSet rfl) fun _ => .bind (h.regSet rfl) fun _ => .look_bind fun _ _ => .bind (.sleepUs _ _) fun _ =>
    .bind (h.regClear rfl) fun _ => h.regClear rfl

theorem Spares.transactionPending (dev : BitVec 8) : Safely s (transactionPending dev) :=
  .look_bind fun _ _ => .bind (.pciIsCleared _ _ _) fun _ => .pure _

theorem Reaches.disableMaster (h : Reaches s dev) : Safely s (disableMaster dev) :=
  .bind (h.regSet rfl) fun _ => .bind (h.poll rfl) fun _ =>
    .ite (.bind (.transactionPending dev) fun _ => .ite h.flushBuffers fun _ => .pure _) fun _ => .pure _

theorem Reaches.resetDevice (h : Reaches s dev) : Spares (Runs Delimits s) (fun _ => True) (resetDevice dev) :=
  .look_bind fun x hx => .bind (h.disableRxQueues (by rw [hx.keeps.cfg, Nat.zero_add])) fun _ =>
    .bind h.disableMaster fun _ => .bind (.bind (h.regSet rfl) fun _ => .look_bind fun _ _ => .sleepUs _ _) fun _ =>
    setLife_spares dev .reset

/-! DEV_INIT, SET_PROMISC (R231, R250). -/

theorem Reaches.awaitDevice (h : Reaches s dev) : Safely s (awaitDevice dev) := by
  refine .look_bind fun _ _ => .bind (h.regWrite rfl) fun _ => .bind (h.poll rfl) fun _ =>
    .guarded (failDevice_spares _ _) ?_
  exact .bind (h.regIsCleared rfl) fun _ => .guarded (failDevice_spares _ _) (.bind (h.poll rfl) fun _ =>
    .ite (failDevice_spares _ _) fun _ => .pure _)

theorem Reaches.zeroTable (h : Reaches s dev) {r : DevReg} {line n m : Nat} (hr : r.indexCount s.cfg = some m)
    (hn : n ≤ m) : Safely s (zeroTable line dev r n) :=
  .forEach fun _ hi => h.regWrite (indexOk_of_lt hr (Nat.lt_of_lt_of_le (List.mem_range.1 hi) hn))

/-- The filter tables are no longer than their registers have indices (R52, R240). -/
theorem Config.tables_fit {c : Config} (h : c.legal = true) :
    c.init.nUnicast ≤ 128 ∧ c.init.nVlan ≤ 64 ∧ c.init.nVlanBmp ≤ 128 ∧ c.init.nMulticast ≤ 128 ∧
      c.init.n5tuple ≤ 128 := by
  have hn := Config.legal_numbers h
  simp only [Config.numbersOk, Bool.and_eq_true, decide_eq_true_eq] at hn
  omega

theorem Reaches.zeroFilterTables (h : Reaches s dev) : Safely s (zeroFilterTables dev) := by
  refine .look_bind fun x hx => ?_
  rw [hx.keeps.cfg]
  obtain ⟨h1, h2, h3, h4, h5⟩ := Config.tables_fit h.legal
  exact .bind (h.zeroTable rfl h1) fun _ => .bind (h.zeroTable rfl h2) fun _ =>
    .bind (h.zeroTable rfl h3) fun _ => .bind (h.zeroTable rfl h4) fun _ => h.zeroTable rfl h5

/-- Each of the packet buffers 1 to 7 has its register (R52). -/
theorem otherBuffers_lt : ∀ n ∈ otherBuffers, n < 8 := by decide

theorem Reaches.configureReceive (h : Reaches s dev) : Safely s (configureReceive dev) := by
  refine .look_bind fun _ _ => .bind (h.regWriteField rfl) fun _ => .bind (.forEach fun n hn => ?_) fun _ => ?_
  · exact h.regWriteField (indexOk_of_lt rfl (otherBuffers_lt n hn))
  · exact .bind (h.regWriteField rfl) fun _ => .bind (h.regSet rfl) fun _ => .bind (h.regClear rfl) fun _ =>
      .bind (h.regSet rfl) fun _ => .bind (h.regSet rfl) fun _ => h.regSet rfl

theorem Reaches.configureTransmit (h : Reaches s dev) : Safely s (configureTransmit dev) := by
  refine .look_bind fun _ _ => .bind (h.regSet rfl) fun _ => .bind (.forEach fun n hn => ?_) fun _ => ?_
  · exact h.regWriteField (indexOk_of_lt rfl (otherBuffers_lt n hn))
  · exact .bind (h.regWriteField rfl) fun _ => .bind (h.regWriteField rfl) fun _ => h.regClear rfl

theorem Reaches.initDevice (h : Reaches s dev) : Spares (Runs Delimits s) (fun _ => True) (initDevice dev) :=
  .bind h.awaitDevice fun _ => .bind h.zeroFilterTables fun _ => .bind h.configureReceive fun _ =>
    .bind h.configureTransmit fun _ => setLife_spares dev .initialized

theorem Reaches.setPromiscuous (h : Reaches s dev) (enable : Bool) : Safely s (setPromiscuous dev enable) :=
  .bind (h.regIsCleared rfl) fun _ => .guarded (h.regClear rfl) (.bind (h.regWriteField rfl) fun _ =>
    .bind (h.regWriteField rfl) fun _ => .ite (h.regSet rfl) fun _ => .pure _)

/-! DEV_OPEN, REG_READ, REG_WRITE (R182, R165, R166). -/

theorem Spares.openDevice (bdf : W16) : Safely s (openDevice bdf) := by
  refine .look_bind fun _ _ => .bind (.pciRegRead _ _ _) fun _ => .checked fun _ => ?_
  refine .bind (.pciReadField _ _ _) fun _ => .checked fun _ => ?_
  refine .bind (.pciSet _ _ _) fun _ => .bind (.pciSet _ _ _) fun _ => .bind (.pciSet _ _ _) fun _ => ?_
  refine .bind (.pciRegRead _ _ _) fun _ => .checked fun _ => ?_
  refine .bind (.pciRegRead _ _ _) fun _ => .bind (.p2v _ _ _) fun answer => ?_
  cases answer with
  | none => exact .raise _
  | some va => exact .pure va

/-- What follows the check of the operands rests on operands that belong together. -/
theorem Spares.requireLegal_bind {Q : State → Prop} {sel : RegSel} {index : W16} {k : Unit → Micro α}
    (h : sel.legal s.cfg index = true → Spares (Runs Delimits s) Q (k ())) :
    Spares (Runs Delimits s) Q (requireLegal sel index >>= k) := by
  intro t ht
  cases hl : sel.legal t.cfg index with
  | false =>
    rw [Micro.run_bind_error (requireLegal_refuse hl)]
    trivial
  | true =>
    rw [Micro.run_bind_ok (requireLegal_ok hl)]
    exact h (by rw [← ht.keeps.cfg]; exact hl) t ht

theorem Reaches.readSelected (h : Reaches s dev) {sel : RegSel} {index : W16} (hl : sel.legal s.cfg index = true) :
    Safely s (readSelected dev sel index) := by
  refine .look_bind fun _ _ => ?_
  match sel with
  | .dev r none => exact h.regRead (RegSel.legal_dev hl).2
  | .dev r (some f) =>
    obtain ⟨hf, hi⟩ := RegSel.legal_dev hl
    exact h.regReadField (by rw [hf f rfl]; exact hi)
  | .pci r none => exact .pciRegRead _ _ _
  | .pci r (some f) => exact .pciReadField _ _ _

theorem Reaches.writeSelected (h : Reaches s dev) {sel : RegSel} {index : W16} (hl : sel.legal s.cfg index = true)
    (value : W32) : Safely s (writeSelected dev sel index value) := by
  refine .look_bind fun _ _ => ?_
  match sel with
  | .dev r none => exact h.regWrite (RegSel.legal_dev hl).2
  | .dev r (some f) =>
    obtain ⟨hf, hi⟩ := RegSel.legal_dev hl
    exact h.regWriteField (by rw [hf f rfl]; exact hi)
  | .pci r none => exact .look_bind fun _ _ => .pciWrite _ _ _ _
  | .pci r (some f) => exact .pciWriteField _ _ _ _

/-! ENG_CONSTRUCT (R262): the allocator and registers of the block itself. -/

theorem alloc_spares (line size : Nat) (site : AllocSite) :
    Spares (fun _ => True) (fun _ => True) (alloc line size site) := by
  intro t _
  rcases hg : (t.boundary line).grants with _ | ⟨_ | g, rest⟩ <;> simp only [alloc, hg]
  by_cases ha : g.aligned site = false
  · simp only [ha, if_true]
  · by_cases hk : (t.boundary line).grantOk g size = true <;> simp [ha, hk]

theorem unwind_spares (got : List W64) : Spares (fun _ => True) (fun _ => True) (unwind got) :=
  .forEach fun _ _ _ _ => trivial

theorem allocOrUnwind_spares (line size : Nat) (site : AllocSite) (got : List W64) :
    Spares (fun _ => True) (fun _ => True) (allocOrUnwind line size site got) := by
  refine .bind (alloc_spares line size site) fun answer => ?_
  cases answer with
  | none => exact .bind (unwind_spares got) fun _ => .raise _
  | some a => exact .pure a

theorem allocRing_spares (n : Nat) (got : List W64) : Spares (fun _ => True) (fun _ => True) (allocRing n got) :=
  .look_bind fun _ _ => allocOrUnwind_spares _ _ _ _

theorem constructEngine_spares : Spares (fun _ => True) (fun _ => True) constructEngine :=
  .look_bind fun _ _ => .bind (allocRing_spares _ _) fun _ => .bind (allocRing_spares _ _) fun _ =>
    .bind (allocRing_spares _ _) fun _ => .bind (allocRing_spares _ _) fun _ =>
    .bind (allocOrUnwind_spares _ _ _ _) fun _ => .bind (allocOrUnwind_spares _ _ _ _) fun _ =>
    .change fun _ _ => trivial

/-! The binds (R270, R280). -/

theorem Reaches.programInput (h : Reaches s dev) {q : Nat} (hq : q < s.cfg.rxQueueCount) :
    Safely s (programInput dev q) :=
  .look_bind fun _ _ => .bind (.v2pOrRaise _ _ _) fun _ => .bind (h.regWrite (indexOk_of_lt rfl hq)) fun _ =>
    .bind (h.regWrite (indexOk_of_lt rfl hq)) fun _ => .bind (h.regWrite (indexOk_of_lt rfl hq)) fun _ =>
    .bind (h.regWriteField (indexOk_of_lt rfl hq)) fun _ => h.regSet (indexOk_of_lt rfl hq)

theorem Reaches.startInput (h : Reaches s dev) {q : Nat} (hq : q < s.cfg.rxQueueCount) :
    Safely s (startInput dev q) := by
  refine .look_bind fun _ _ => .bind (h.regSet (indexOk_of_lt rfl hq)) fun _ =>
    .bind (h.poll (indexOk_of_lt rfl hq)) fun _ => .checked fun _ => ?_
  refine .bind (h.regWrite (indexOk_of_lt rfl hq)) fun _ => .bind (h.regSet rfl) fun _ => .bind (h.poll rfl) fun _ =>
    .checked fun _ => ?_
  exact .bind (h.regSet rfl) fun _ => .bind (h.regClear rfl) fun _ => .bind (h.regSet rfl) fun _ =>
    h.regWriteField (indexOk_of_lt rfl hq)

theorem Reaches.bindInput (h : Reaches s dev) : Spares (Runs Delimits s) (fun _ => True) (bindInput dev) := by
  refine .look_bind fun x hx => ?_
  simp only [id, hx.keeps.cfg]
  have hq := Config.rxQueue_lt h.legal
  exact .checked fun _ => .bind (h.regIsCleared (indexOk_of_lt rfl hq)) fun _ => .checked fun _ =>
    .bind (h.programInput hq) fun _ => .bind (h.startInput hq) fun _ => .change fun _ _ => trivial

theorem Built.fillSlot (h : Built s) (n : Fin 4) {i : Nat} (hi : i < s.cfg.ringSize) : Safely s (fillSlot n i) := by
  refine .look_bind fun x hx => .bind (.v2pOrRaise _ _ _) fun pa => ?_
  have hslot : (BitVec.ofNat 64 i).toNat < x.cfg.ringSize := by
    rw [hx.keeps.cfg, BitVec.toNat_ofNat]
    exact Nat.lt_of_le_of_lt (Nat.mod_le _ _) hi
  have hb := h.runs hx
  have hword := hb.wordAddr_exists n hslot (w := 0) (by decide)
  have hbuf := State.memExists_part (k := 0) (m := 1) (hb.bufAddr_exists hslot) (Config.sizes_pos hb.legal).1
  rw [hx.memExists] at hword hbuf
  exact .bind (.memWrite hword) fun _ => .bind (.memRead hbuf) fun _ => .pure _

theorem Reaches.programOutput (h : Reaches s dev) {q : Nat} (hq : q < s.cfg.txQueueCount) (n : Fin 4) :
    Safely s (programOutput dev n q) :=
  .look_bind fun _ _ => .bind (.v2pOrRaise _ _ _) fun _ => .bind (h.regWrite (indexOk_of_lt rfl hq)) fun _ =>
    .bind (h.regWrite (indexOk_of_lt rfl hq)) fun _ => .bind (h.regWrite (indexOk_of_lt rfl hq)) fun _ =>
    .bind (h.regWriteField (indexOk_of_lt rfl hq)) fun _ => h.regWriteField (indexOk_of_lt rfl hq)

theorem Reaches.programWriteBack (h : Reaches s dev) {q : Nat} (hq : q < s.cfg.txQueueCount) (n : Fin 4) :
    Safely s (programWriteBack dev n q) :=
  .look_bind fun _ _ => .bind (.v2pOrRaise _ _ _) fun _ => .checked fun _ =>
    .bind (h.regWrite (indexOk_of_lt rfl hq)) fun _ => .bind (h.regWrite (indexOk_of_lt rfl hq)) fun _ =>
    h.regClear (indexOk_of_lt rfl hq)

theorem Reaches.startOutput (h : Reaches s dev) {q : Nat} (hq : q < s.cfg.txQueueCount) :
    Safely s (startOutput dev q) := by
  have hi : DevReg.txdctl.indexOk s.cfg q = true := indexOk_of_lt rfl hq
  exact .bind (h.regSet rfl) fun _ => .bind (h.regSet hi) fun _ => .bind (h.poll hi) fun _ =>
    .ite (.raise _) fun _ => .pure _

theorem Reaches.bindOutputAs (h : Reaches s dev) (hb : Built s) (q : Nat) (n : Fin 4) :
    Spares (Runs Delimits s) (fun _ => True) (bindOutputAs dev q n) := by
  refine .look_bind fun x hx => ?_
  simp only [hx.keeps.cfg]
  refine .checked fun hge => ?_
  have hq : q < s.cfg.txQueueCount := Nat.lt_of_not_le hge
  refine .bind (h.regIsCleared (indexOk_of_lt rfl hq)) fun _ => .checked fun _ => ?_
  exact .bind (.forEach fun i hi => hb.fillSlot n (List.mem_range.1 hi)) fun _ => .bind (h.programOutput hq n) fun _ =>
    .bind (h.programWriteBack hq n) fun _ => .bind (h.startOutput hq) fun _ => .change fun _ _ => trivial

theorem Reaches.bindOutput (h : Reaches s dev) (hb : Built s) (queue : BitVec 8) :
    Spares (Runs Delimits s) (fun _ => True) (bindOutput dev queue) := by
  refine .look_bind fun x _ => ?_
  split
  · exact h.bindOutputAs hb _ _
  · exact .raise _

/-! RECEIVE, TRANSMIT, PROCESS (R303, R316, R331). -/

theorem Runs.unflushes {t : State} (h : Runs Unflushes s t) : Runs Delimits s t :=
  ⟨h.keeps, h.es, h.handles, h.blocks, h.sound, h.eng.delimits⟩

theorem Built.flushTails (h : Built s) (line : Nat) : Safely s (flushTails line) := by
  refine .look_bind fun x hx => .forEach fun n hn => .mmioWriteAt ?_
  have hbound : n.val < x.eng.oc.toNat := by simpa [State.outputs] using hn
  obtain ⟨bdf, off, hw⟩ := (h.runs hx).tta_window hbound
  exact ⟨bdf, off, by rw [← hx.windowAt]; exact hw⟩

theorem setFd_spares (v : W64) {P : State → Prop} : Spares P (fun _ => True) (setFd v) := .change fun _ _ => trivial

theorem Built.receiveIdle (h : Built s) (line : Nat) : Spares (Runs Delimits s) (fun _ => True) (receiveIdle line) :=
  .look_bind fun _ _ => .ite (.bind (h.flushTails line) fun _ => setFd_spares _) fun _ =>
    .ite (setFd_spares _) fun _ => (Spares.pure ()).ends

/-- RECEIVE reports a buffer that exists. -/
theorem Built.receiveSteps (h : Built s) (line : Nat) :
    Triple (Runs Unflushes s) (receiveSteps line)
      (fun r t => (r.1 = true → s.memExists r.2.2.toNat s.cfg.bufSize = true) ∧ Runs Unflushes s t) (fun _ _ => True)
      (· = .handlerNeverReturns) := by
  refine Triple.leads Unflushes.chains (receiveSteps_unflushes line) ?_
  refine Triple.weaken (P' := Runs Delimits s) ?_ (fun _ ht => ht.unflushes) (fun _ _ h => h) (fun _ _ h => h)
    fun _ h => h
  refine .bind (Q := fun x t => Runs Delimits s x ∧ Runs Delimits s t) (.look fun _ ht => ⟨ht, ht⟩) fun x =>
    .of_fact fun hx => ?_
  have hb := h.runs hx
  have hword := hb.wordAddr_exists 0 hb.engine.pd (w := 1) (by decide)
  have hbuf := hb.bufAddr_exists hb.engine.pd
  rw [hx.memExists] at hword hbuf
  refine .bind (Spares.memRead hword) fun word => ?_
  split
  · exact .pure fun _ _ _ => by rw [← hx.keeps.cfg]; exact hbuf
  · exact .bind (h.receiveIdle _) fun _ => .pure fun _ _ hr => absurd hr Bool.false_ne_true

theorem Built.writeDescriptors (h : Built s) (line : Nat) (len : W16) (mask : BitVec 4) (rs : Bool) :
    Safely s (writeDescriptors line len mask rs) := by
  refine .look_bind fun x hx => .forEach fun n _ => .memWrite ?_
  have hb := h.runs hx
  rw [← hx.memExists]
  exact hb.wordAddr_exists n hb.engine.pd (by decide)

theorem Spares.advance : Safely s advance :=
  .of_leads Delimits.chains advance_delimits (.change fun _ _ => trivial)

theorem Built.flushIfDue (h : Built s) (line : Nat) : Safely s (flushIfDue line) :=
  .of_leads Delimits.chains (flushIfDue_delimits line) (.look_bind fun _ _ =>
    .ite (.bind (h.flushTails line) fun _ => setFd_spares _) fun _ => (Spares.pure ()).ends)

theorem Built.scanHeads (h : Built s) (line : Nat) (l : List (Fin 4)) (best : W64 × W64) :
    Safely s (scanHeads line l best) := by
  induction l generalizing best with
  | nil => exact .pure best
  | cons n rest ih =>
    refine .look_bind fun x hx => .bind (.memRead ?_) fun _ => ih _
    rw [← hx.memExists]
    exact (h.runs hx).headAddr_exists n

theorem Built.recycle (h : Built s) (hv : s.eng.rtaV = true) (line : Nat) : Safely s (recycle line) := by
  refine .look_bind fun x hx => .bind (h.scanHeads _ _ _) fun _ => .mmioWriteAt ?_
  obtain ⟨bdf, off, hw⟩ := h.rta_window hv
  have hrta : x.eng.rta = s.eng.rta := by rw [hx.eng.1]
  exact ⟨bdf, off, (congrArg s.windowAt hrta).trans hw⟩

/-- A Report-Status slot has a receive tail to write (R310). -/
theorem Built.transmitSteps (h : Built s) (hv : rsSlot s.cfg s.eng.pd = true → s.eng.rtaV = true) (line : Nat)
    (len : W16) (mask : BitVec 4) : Spares (Runs Unflushes s) (fun _ => True) (transmitSteps line len mask) := by
  refine .look_bind fun x hx => Spares.of_weaker (P' := Runs Delimits s) ?_ fun _ ht => ht.unflushes
  have hpd : x.eng.pd = s.eng.pd := by
    obtain he | he := hx.eng <;> rw [he]
  rw [hx.keeps.cfg, hpd]
  refine .bind (h.writeDescriptors _ _ _ _) fun _ => .bind .advance fun _ => .bind (h.flushIfDue _) fun _ => ?_
  split
  · exact (h.recycle (hv ‹_›) _).ends
  · exact (Spares.pure ()).ends

/-- The handler is given a buffer that exists: its writes lie in it, or are refused (U7). -/
theorem callHandler_spares {line : Nat} {len : W16} {a : W64} (h : s.memExists a.toNat s.cfg.bufSize = true) :
    Spares (Runs Unflushes s) (Runs Unflushes s) (callHandler line len a) := by
  refine .of_leads Unflushes.chains (Accesses.callHandler line len a).unflushes ?_
  intro t ht
  rcases hrun : (t.boundary line).handlerRun len a with ⟨len', sel, writes⟩ | _ <;> simp only [callHandler, hrun]
  by_cases hout : (writes.any fun w => (t.boundary line).cfg.bufSize ≤ w.1) = true
  · simp only [hout, if_true]
  · have hin : (writes.all fun w => (t.boundary line).memExists (a.toNat + w.1) 1) = true := by
      rw [List.all_eq_true]
      intro w hw
      have hlt : w.1 < s.cfg.bufSize := by
        by_contra hge
        exact hout (List.any_eq_true.2 ⟨w, hw, by simpa [ht.keeps.cfg] using hge⟩)
      rw [State.boundary_memExists, ht.memExists]
      exact State.memExists_part h hlt
    simp only [hout, hin]
    trivial

theorem Built.processSteps (h : Built s) (hv : rsSlot s.cfg s.eng.pd = true → s.eng.rtaV = true) :
    Spares (Runs Unflushes s) (fun _ => True) processSteps := by
  refine Triple.bind (h.receiveSteps 1) fun r => .of_fact fun hbuf => ?_
  split
  · have htransmit (answer : W16 × BitVec 4) := h.transmitSteps hv 4 answer.1 answer.2
    exact Spares.look_bind fun _ _ => .bind (callHandler_spares (hbuf ‹_›)) fun answer =>
      .guarded (.refuse _) (htransmit answer)
  · exact (Spares.pure ()).ends

/-! Every command. -/

theorem reaches_of_life {l : DevLife} (hc : s.cfg.legal = true) (hl : (s.handle dev).ls = l)
    (hne : l ≠ .unmapped ∧ l ≠ .failed) : Reaches s dev :=
  ⟨hc, Handle.mapped_iff.2 (by rwa [hl])⟩

/-- The micro-steps of an accepted command, from a state that meets the invariant, make no access fault. -/
theorem body_spares {i : Instr} (hw : Whole s) (ha : accepts i s) : Spares (· = s) (fun _ => True) (body i) := by
  have start {m : Micro (W64 × W64)} {Q : State → Prop} (h : Spares (Runs Delimits s) Q m) :
      Spares (· = s) (fun _ => True) m := h.ends.of_weaker fun _ ht => ht ▸ Delimits.chains.refl s
  have hot {m : Micro (W64 × W64)} (h : Spares (Runs Unflushes s) (fun _ => True) m) :
      Spares (· = s) (fun _ => True) m := h.of_weaker fun _ ht => ht ▸ Unflushes.chains.refl s
  have tail (h : s.eng.rtaV = true ∨ s.eng.pd.toNat % s.cfg.transmitPeriod ≠ s.cfg.rsPhase)
      (hrs : rsSlot s.cfg s.eng.pd = true) : s.eng.rtaV = true := h.resolve_right fun hne => hne (beq_iff_eq.1 hrs)
  have hc := hw.sound.legal
  cases i with
  | devOpen dev bdf =>
    exact start (.bind (.openDevice bdf) fun _ => .bind (Q := fun _ => True) (.change fun _ _ => trivial) fun _ =>
      .pure _)
  | devReset dev => exact start (.bind (reaches_of_life hc ha.2 (by decide)).resetDevice fun _ => .pure _)
  | devInit dev => exact start (.bind (reaches_of_life hc ha.2 (by decide)).initDevice fun _ => .pure _)
  | setPromisc dev enable =>
    exact start (.bind ((reaches_of_life hc ha.2 (by decide)).setPromiscuous enable) fun _ => .pure _)
  | regRead dev sel index =>
    have hd : Reaches s dev := ⟨hc, Handle.mapped_iff.2 ha.2⟩
    exact start (.requireLegal_bind fun hl => .bind (hd.readSelected hl) fun _ => .pure _)
  | regWrite dev sel index value =>
    have hd : Reaches s dev := ⟨hc, Handle.mapped_iff.2 ha.2⟩
    exact start (.requireLegal_bind fun hl => .bind (hd.writeSelected hl value) fun _ => .pure _)
  | engConstruct =>
    exact Spares.of_weaker (.bind constructEngine_spares fun _ => .pure _) fun _ _ => trivial
  | bindInput dev => exact start (.bind (reaches_of_life hc ha.2.2 (by decide)).bindInput fun _ => .pure _)
  | bindOutput dev queue =>
    exact start (.bind ((reaches_of_life hc ha.2.2 (by decide)).bindOutput ⟨hw, ha.1⟩ queue) fun _ => .pure _)
  | receive =>
    exact hot (Triple.bind (Built.receiveSteps ⟨hw, ha⟩ 1) fun _ => .pure fun _ _ => trivial)
  | transmit len mask =>
    exact hot (.bind (Built.transmitSteps ⟨hw, ha.1⟩ (tail ha.2) 1 len mask) fun _ => .pure _)
  | process => exact hot (.bind (Built.processSteps ⟨hw, ha.1⟩ (tail ha.2)) fun _ => .pure _)

/-- A command that faults is accepted, and its micro-steps fault. -/
theorem runCommand_fault {i : Instr} {pre : State → Bool} {b : Micro (W64 × W64)} {f : Fault}
    (h : runCommand i pre b s = .fault f) : pre s = true ∧ ∃ u, b (s.start i) = .error (.fault f) u := by
  simp only [runCommand] at h
  split at h
  · refine ⟨‹_›, ?_⟩
    rw [State.start]
    split at h <;> cases h
    exact ⟨_, ‹_›⟩
  · cases h

/-- From the invariant the one fault of a command is a handler that never returns. -/
theorem exec_fault {i : Instr} {f : Fault} (hw : Whole s) (h : exec i s = .fault f) : f = .handlerNeverReturns := by
  rw [exec_eq] at h
  obtain ⟨hready, u, hrun⟩ := runCommand_fault h
  have hstart : Whole (s.start i) := hw.same rfl rfl rfl rfl rfl rfl rfl
  have ha : accepts i (s.start i) := by
    have ha := (ready_iff i s).1 hready
    cases i <;> exact ha
  have hbody := body_spares hstart ha _ rfl
  rw [hrun] at hbody
  exact hbody

end Commands

/-- Settles O10: a step that faults runs a command, and a command makes no access fault from the invariant. -/
theorem noAccessFault : Obligations.NoAccessFault := by
  intro s f hinv h
  have hw : Whole s.takeCommand := (inv_iff.1 hinv).1.same rfl rfl rfl rfl rfl rfl rfl
  unfold step at h
  split at h
  · cases h
  · split at h
    · exact exec_fault hw h
    · unfold rejectCommand at h
      split at h
      any_goals cases h
      split at h <;> cases h

end Sys2Proof.Machine
end

section
/-! SUPPORT. The command word (R110 to R116): what it takes for words to decode to a command, said once
(`decode_eq_ok_iff`); that decoding and encoding undo each other, and which words a step refuses, follow from it. -/

namespace Sys2Proof.Machine

open Sys2Proof.Laws

/-! What the decoder accepts. -/

/-- The words keep to their row of the opcode map (R111, R112, R116 (a) to (c)): every fixed bit is as the row says,
`DATA` is zero but where the format uses it, and the device index is in range. -/
def KeepsToFormat (c : Config) (w : Command) : Prop :=
  ∃ row, opRow (w.cmd.extractLsb' 0 8).toNat = some row ∧
    w.cmd &&& row.mask = (w.cmd.extractLsb' 0 8).setWidth 64 ∧ (row.hasData = false → w.data = 0) ∧
    (row.hasDev = true → devInRange c (w.cmd.extractLsb' 8 8) = true)

/-- Words that keep to no row are refused for their opcode, a reserved bit or their device index (R116 (a) to (c)). -/
theorem decode_of_not_keepsToFormat {c : Config} {w : Command} (h : ¬ KeepsToFormat c w) :
    ∃ e, decode c w = .error e ∧ (e = .unknownOpcode ∨ e = .reservedBits ∨ e = .deviceRange) := by
  unfold decode
  cases hrow : opRow (w.cmd.extractLsb' 0 8).toNat with
  | none => exact ⟨_, rfl, .inl rfl⟩
  | some row =>
    dsimp only
    split
    · exact ⟨_, rfl, .inr (.inl rfl)⟩
    · rename_i hreserved
      split
      · exact ⟨_, rfl, .inr (.inr rfl)⟩
      · rename_i hrange
        refine absurd ⟨row, hrow, ?_, fun hd => ?_, fun hd => ?_⟩ h
        · exact not_not.1 fun hm => hreserved (.inl hm)
        · exact not_not.1 fun hw => hreserved (.inr ⟨hd, hw⟩)
        · simpa [hd] using hrange

/-- Words that keep to their row stand for what their operands are put together to (R116 (d)). -/
theorem decode_of_keepsToFormat {c : Config} {w : Command} (h : KeepsToFormat c w) :
    decode c w = (assemble w).elim (.error (.badRegisterOperand (w.cmd.extractLsb' 8 8))) fun i =>
      if i.wellFormed c then .ok i else .error (.badRegisterOperand (w.cmd.extractLsb' 8 8)) := by
  obtain ⟨row, hrow, hmask, hdata, hdev⟩ := h
  have hreserved : ¬ (w.cmd &&& row.mask ≠ (w.cmd.extractLsb' 0 8).setWidth 64 ∨
      (row.hasData = false ∧ w.data ≠ 0)) := fun h => h.elim (· hmask) fun ⟨h1, h2⟩ => h2 (hdata h1)
  have hrange : ¬ (row.hasDev = true ∧ devInRange c (w.cmd.extractLsb' 8 8) = false) := fun ⟨h1, h2⟩ => by
    rw [hdev h1] at h2
    cases h2
  simp only [decode, hrow, if_neg hreserved, if_neg hrange]
  cases assemble w <;> rfl

/-- Words decode to a command exactly where they keep to their row and their operands are that command's and legal. -/
theorem decode_eq_ok_iff {c : Config} {w : Command} {i : Instr} :
    decode c w = .ok i ↔ KeepsToFormat c w ∧ assemble w = some i ∧ i.wellFormed c = true := by
  by_cases h : KeepsToFormat c w
  · rw [decode_of_keepsToFormat h]
    cases hi : assemble w with
    | none => simp
    | some j =>
      by_cases hj : j.wellFormed c = true
      · simp only [Option.elim_some, hj, if_true, h, true_and, Except.ok.injEq, Option.some.injEq]
        exact ⟨fun e => ⟨e, e ▸ hj⟩, fun e => e.1⟩
      · simp only [Option.elim_some, hj, h, true_and, Option.some.injEq]
        exact ⟨nofun, fun e => absurd (e.1 ▸ e.2) hj⟩
  · obtain ⟨e, he, -⟩ := decode_of_not_keepsToFormat h
    simp [he, h]

/-! The words of a command. -/

/-- The ids of a selection name it (R113). -/
theorem regSelOf_ids (sel : RegSel) : regSelOf sel.a.toNat sel.b.toNat = some sel := by
  have small {n : Nat} (h : n < 256) : (BitVec.ofNat 8 n).toNat = n := Nat.mod_eq_of_lt h
  cases sel with
  | dev r f =>
    have ha : (RegSel.dev r f).a.toNat = r.id := small r.id_lt
    cases f with
    | none => simp [regSelOf, ha, find_devReg, RegSel.b]
    | some f =>
      have hb : (RegSel.dev r (some f)).b.toNat = f.fid := small f.fid_range.2
      simp [regSelOf, ha, hb, find_devReg, find_devField, f.fid_range.1.ne']
  | pci r f =>
    have ha : (RegSel.pci r f).a.toNat = r.regId := small r.regId_lt
    cases f with
    | none => simp [regSelOf, ha, find_devReg_pci, find_pciReg, RegSel.b]
    | some f =>
      have hb : (RegSel.pci r (some f)).b.toNat = f.fid := small f.fid_range.2
      simp [regSelOf, ha, hb, find_devReg_pci, find_pciReg, find_pciField, f.fid_range.1.ne']

/-- The operands of a command are found in its words (R111, R115). -/
theorem assemble_encode (i : Instr) : assemble (encode i) = some i := by
  cases i with
  | setPromisc dev enable =>
    have hbit : (encode (.setPromisc dev enable)).cmd.getLsbD 16 = enable := by
      rw [encode, cmdWord_bit]
      cases enable <;> rfl
    rw [assemble, hbit]
    simp [encode]
  | regRead | regWrite => simp [assemble, encode, regSelOf_ids]
  | _ => simp [assemble, encode]

theorem keepsToRow (i : Instr) : KeepsToRow.Statement i := by
  cases i with
  | devOpen => exact KeepsToRow.devOpen _ _
  | devReset => exact KeepsToRow.devReset _
  | devInit => exact KeepsToRow.devInit _
  | setPromisc => exact KeepsToRow.setPromisc _ _
  | regRead => exact KeepsToRow.regRead _ _ _
  | regWrite => exact KeepsToRow.regWrite _ _ _ _
  | engConstruct => exact KeepsToRow.engConstruct
  | bindInput => exact KeepsToRow.bindInput _
  | bindOutput => exact KeepsToRow.bindOutput _ _
  | receive => exact KeepsToRow.receive
  | transmit => exact KeepsToRow.transmit _ _
  | process => exact KeepsToRow.process

/-- The device index in the words of a legal command is in range, where its format has one (R116 (c)). -/
theorem encode_devInRange {c : Config} {i : Instr} (h : i.wellFormed c = true) {row : OpRow}
    (hrow : opRow ((encode i).cmd.extractLsb' 0 8).toNat = some row) (hdev : row.hasDev = true) :
    devInRange c ((encode i).cmd.extractLsb' 8 8) = true := by
  cases i with
  | regRead | regWrite =>
    simp only [Instr.wellFormed, Bool.and_eq_true] at h
    simpa [encode] using h.1
  | engConstruct | receive | transmit | process =>
    simp only [encode, cmdWord_op] at hrow
    cases hrow
    cases hdev
  | _ => simpa [encode, Instr.wellFormed] using h

/-- The words of a legal command keep to its row. -/
theorem encode_keepsToFormat {c : Config} {i : Instr} (h : i.wellFormed c = true) : KeepsToFormat c (encode i) := by
  obtain ⟨row, hrow, hmask, hdata⟩ := keepsToRow i
  exact ⟨row, hrow, hmask, hdata, encode_devInRange h hrow⟩

/-- Settles O1: the words keep to their row, and the operands are found in them. -/
theorem decodeOfEncode : Obligations.DecodeOfEncode := fun _ i h =>
  decode_eq_ok_iff.2 ⟨encode_keepsToFormat h, assemble_encode i, h⟩

/-! The command of words. -/

/-- The ids that name a selection are its ids (R113). -/
theorem ids_of_regSelOf {a b : BitVec 8} {sel : RegSel} (h : regSelOf a.toNat b.toNat = some sel) :
    sel.a = a ∧ sel.b = b := by
  have ofId {n : Nat} {x : BitVec 8} (hn : (n == x.toNat) = true) : BitVec.ofNat 8 n = x := by
    rw [beq_iff_eq.1 hn, BitVec.ofNat_toNat, BitVec.setWidth_eq]
  have zero (hb : b.toNat = 0) : (0 : BitVec 8) = b := BitVec.eq_of_toNat_eq hb.symm
  unfold regSelOf at h
  split at h
  · rename_i r hr
    have hid := List.find?_some hr
    have ha := ofId hid
    split at h
    · cases h
      exact ⟨ha, zero ‹_›⟩
    · obtain ⟨f, hf, rfl⟩ := Option.map_eq_some_iff.1 h
      have hfid := List.find?_some hf
      exact ⟨ha, ofId hfid⟩
  · split at h
    · rename_i r hr
      have hid := List.find?_some hr
      have ha := ofId hid
      split at h
      · cases h
        exact ⟨ha, zero ‹_›⟩
      · obtain ⟨f, hf, rfl⟩ := Option.map_eq_some_iff.1 h
        have hfid := List.find?_some hf
        exact ⟨ha, ofId hfid⟩
    · cases h

/-- A `CMD` word is put together from its fields, if the bits above them are zero (R111). -/
theorem cmdWord_eq {w : W64} {op dev a b : BitVec 8} {c : W16} {m : BitVec 4} (hop : w.extractLsb' 0 8 = op)
    (hdev : w.extractLsb' 8 8 = dev) (ha : w.extractLsb' 16 8 = a) (hb : w.extractLsb' 24 8 = b)
    (hc : w.extractLsb' 32 16 = c) (hm : w.extractLsb' 48 4 = m) (htop : w.extractLsb' 52 12 = 0) :
    cmdWord op dev a b c m = w := by
  subst hop hdev ha hb hc hm
  have part {lo n i : Nat} (h1 : lo ≤ i) (h2 : i < lo + n) : (w.extractLsb' lo n).getLsbD (i - lo) = w.getLsbD i := by
    rw [BitVec.getLsbD_extractLsb']
    simp [show i - lo < n by omega, show lo + (i - lo) = i by omega]
  apply BitVec.eq_of_getLsbD_eq
  intro i hi
  rw [cmdWord_bit]
  split_ifs
  · exact part (lo := 0) (by omega) (by omega)
  · exact part (by omega) (by omega)
  · exact part (by omega) (by omega)
  · exact part (by omega) (by omega)
  · exact part (by omega) (by omega)
  · exact part (by omega) (by omega)
  · rw [← part (lo := 52) (n := 12) (by omega) (by omega), htop]
    simp

/-- A field above the opcode is zero where the row fixes all its bits (R112, R116 (b)). -/
theorem field_eq_zero_of_mask {w mask : W64} {op : BitVec 8} (h : w &&& mask = op.setWidth 64) {lo n : Nat}
    (hlo : 8 ≤ lo) (hmask : mask.extractLsb' lo n = BitVec.allOnes n) : w.extractLsb' lo n = 0 := by
  apply BitVec.eq_of_getLsbD_eq
  intro i hi
  have hfixed : mask.getLsbD (lo + i) = true := by
    have := congrArg (·.getLsbD i) hmask
    simpa [BitVec.getLsbD_extractLsb', hi] using this
  have hbit := congrArg (·.getLsbD (lo + i)) h
  simp only [BitVec.getLsbD_and, hfixed, Bool.and_true, BitVec.getLsbD_setWidth,
    BitVec.getLsbD_of_ge op (lo + i) (by omega), Bool.and_false] at hbit
  simp [BitVec.getLsbD_extractLsb', hbit]

/-- The operand of SET_PROMISC, where every other bit of its field is zero. -/
theorem field_eq_ite {w : W64} (h : w.extractLsb' 17 7 = 0) :
    w.extractLsb' 16 8 = if w.getLsbD 16 then 1 else 0 := by
  apply BitVec.eq_of_getLsbD_eq
  intro i hi
  rw [BitVec.getLsbD_extractLsb']
  cases i with
  | zero => cases w.getLsbD 16 <;> simp
  | succ k =>
    have hzero := congrArg (·.getLsbD k) h
    simp only [BitVec.getLsbD_extractLsb', show k < 7 by omega, decide_true, Bool.true_and] at hzero
    rw [show 16 + (k + 1) = 17 + k by omega, hzero]
    cases w.getLsbD 16 <;> simp [BitVec.getLsbD_one]

/-- Words that keep to their row are the words of the command that their operands are put together to. -/
theorem encode_of_assemble {c : Config} {w : Command} {i : Instr} (h : KeepsToFormat c w) (hi : assemble w = some i) :
    encode i = w := by
  obtain ⟨cmd, data⟩ := w
  obtain ⟨row, hrow, hmask, hdata, -⟩ := h
  dsimp only at hrow hmask hdata
  have zero {lo n : Nat} (hlo : 8 ≤ lo := by decide)
      (hfixed : row.mask.extractLsb' lo n = BitVec.allOnes n := by decide) : cmd.extractLsb' lo n = 0 :=
    field_eq_zero_of_mask hmask hlo hfixed
  have op {n : Nat} (h : (cmd.extractLsb' 0 8).toNat = n) (hn : n < 256 := by decide) :
      cmd.extractLsb' 0 8 = BitVec.ofNat 8 n :=
    BitVec.eq_of_toNat_eq (by rw [h, BitVec.toNat_ofNat, Nat.mod_eq_of_lt hn])
  have words {x : W64} {y : W32} (hx : x = cmd) (hy : data = y) : (⟨x, y⟩ : Command) = ⟨cmd, data⟩ := by rw [hx, hy]
  unfold assemble at hi
  dsimp only at hi
  split at hi
  case h_1 hop =>
    rw [hop] at hrow
    cases hrow
    cases hi
    exact words (cmdWord_eq (op hop) rfl zero zero rfl zero zero) (hdata rfl)
  case h_2 hop =>
    rw [hop] at hrow
    cases hrow
    cases hi
    exact words (cmdWord_eq (op hop) rfl zero zero zero zero zero) (hdata rfl)
  case h_3 hop =>
    rw [hop] at hrow
    cases hrow
    cases hi
    exact words (cmdWord_eq (op hop) rfl zero zero zero zero zero) (hdata rfl)
  case h_4 hop =>
    rw [hop] at hrow
    cases hrow
    cases hi
    exact words (cmdWord_eq (op hop) rfl (field_eq_ite zero) zero zero zero zero) (hdata rfl)
  case h_5 hop =>
    rw [hop] at hrow
    cases hrow
    obtain ⟨sel, hsel, rfl⟩ := Option.map_eq_some_iff.1 hi
    obtain ⟨ha, hb⟩ := ids_of_regSelOf hsel
    exact words (cmdWord_eq (op hop) rfl ha.symm hb.symm rfl zero zero) (hdata rfl)
  case h_6 hop =>
    rw [hop] at hrow
    cases hrow
    obtain ⟨sel, hsel, rfl⟩ := Option.map_eq_some_iff.1 hi
    obtain ⟨ha, hb⟩ := ids_of_regSelOf hsel
    exact words (cmdWord_eq (op hop) rfl ha.symm hb.symm rfl zero zero) rfl
  case h_7 hop =>
    rw [hop] at hrow
    cases hrow
    cases hi
    exact words (cmdWord_eq (op hop) zero zero zero zero zero zero) (hdata rfl)
  case h_8 hop =>
    rw [hop] at hrow
    cases hrow
    cases hi
    exact words (cmdWord_eq (op hop) rfl zero zero zero zero zero) (hdata rfl)
  case h_9 hop =>
    rw [hop] at hrow
    cases hrow
    cases hi
    exact words (cmdWord_eq (op hop) rfl rfl zero zero zero zero) (hdata rfl)
  case h_10 hop =>
    rw [hop] at hrow
    cases hrow
    cases hi
    exact words (cmdWord_eq (op hop) zero zero zero zero zero zero) (hdata rfl)
  case h_11 hop =>
    rw [hop] at hrow
    cases hrow
    cases hi
    exact words (cmdWord_eq (op hop) zero zero zero rfl rfl zero) (hdata rfl)
  case h_12 hop =>
    rw [hop] at hrow
    cases hrow
    cases hi
    exact words (cmdWord_eq (op hop) zero zero zero zero zero zero) (hdata rfl)
  case h_13 => cases hi

/-- Settles O2: the row fixes every bit that no operand is copied from. -/
theorem encodeOfDecode : Obligations.EncodeOfDecode := fun _ _ _ h => by
  obtain ⟨hformat, hi, hwf⟩ := decode_eq_ok_iff.1 h
  exact ⟨encode_of_assemble hformat hi, hwf⟩

/-! Words and steps. -/

/-- The opcodes that exist are those of R112. -/
theorem opRow_eq_none {n : Nat}
    (h : n ∉ [0x01, 0x02, 0x03, 0x04, 0x08, 0x09, 0x10, 0x11, 0x12, 0x18, 0x19, 0x1A]) : opRow n = none := by
  unfold opRow
  split <;> simp_all

/-- A word that a step takes from the port and that keeps to no row is refused (R116 (a) to (c), R378). -/
theorem step_of_not_keepsToFormat {s : State} {w : Command} {rest : List Command} (hport : s.port = w :: rest)
    (h : ¬ KeepsToFormat s.cfg w) :
    step s = .next { s with port := rest, pc := Sequencer.idle, resp := some ⟨4, 0, 0⟩ } := by
  obtain ⟨e, he, hkind⟩ := decode_of_not_keepsToFormat h
  have hstep : step s = rejectCommand e s.takeCommand := by simp only [step, hport, he]
  have htake : s.takeCommand = { s with port := rest } := by rw [State.takeCommand, hport, List.tail_cons]
  rw [hstep, htake]
  obtain rfl | rfl | rfl := hkind <;> rfl

/-- Settles O4: such a word keeps to no row. -/
theorem reservedWordsRefused : Obligations.ReservedWordsRefused := by
  intro s w rest hport h
  refine step_of_not_keepsToFormat hport ?_
  rintro ⟨row, hrow, hmask, hdata, hdev⟩
  obtain hop | ⟨row', hrow', hbad⟩ := h
  · rw [opRow_eq_none hop] at hrow
    cases hrow
  · rw [hrow] at hrow'
    cases hrow'
    obtain h | ⟨hno, h⟩ | ⟨hhas, h⟩ := hbad
    · exact h hmask
    · exact h (hdata hno)
    · exact absurd (of_decide_eq_true (hdev hhas)) (Nat.not_lt.2 h)

/-- Words decode to the command whose words they are. -/
theorem decode_of_encode_eq {c : Config} {w : Command} {i : Instr} (hw : encode i = w) (hi : i.wellFormed c = true) :
    decode c w = .ok i := hw ▸ decodeOfEncode c i hi

/-- Settles O3: each word is that of its command. -/
theorem wordsOfTheTables : Obligations.WordsOfTheTables :=
  ⟨decode_of_encode_eq (by decide) (by decide), decode_of_encode_eq (by decide) (by decide),
    decode_of_encode_eq (by decide) (by decide), decode_of_encode_eq (by decide) (by decide),
    decode_of_encode_eq (by decide) (by decide), decode_of_encode_eq (by decide) (by decide),
    decode_of_encode_eq (by decide) (by decide)⟩

/-- Settles O6: the command is taken from the port, and with none there only the other agents act. -/
theorem stepRunsCommand : Obligations.StepRunsCommand := by
  refine ⟨fun s w rest i hport hi => ?_, fun s hport hq => ?_⟩
  · have htake : s.takeCommand = { s with port := rest } := by rw [State.takeCommand, hport, List.tail_cons]
    simp only [step, hport, hi, htake]
  · simp only [step, hport]
    exact congrArg Host.Outcome.next (State.agents_eq_self hq)

end Sys2Proof.Machine
end

section
/-! SUPPORT. Field extraction and insertion, bit by bit (R128, R129), and what a write of a register that arrives does
to every register of the NIC (R348). -/

namespace Sys2Proof.Machine

/-! Masks (R128). -/

/-- Below its trailing zeros a mask has no bit. -/
theorem getLsbD_of_lt_tzc {m : W32} {i : Nat} (h : i < tzc m) : m.getLsbD i = false := by
  rw [tzc] at h
  cases hf : (List.range 32).find? fun i => m.getLsbD i with
  | none =>
    rw [hf, Option.getD_none] at h
    simpa using List.find?_eq_none.1 hf i (List.mem_range.2 h)
  | some k =>
    rw [hf, Option.getD_some] at h
    have hk : k ∈ List.range 32 := List.mem_of_find?_eq_some hf
    rw [List.find?_range_eq_some] at hf
    simpa using hf.2.2 i h

theorem getLsbD_extract (raw m : W32) (i : Nat) :
    (extract raw m).getLsbD i = (raw.getLsbD (tzc m + i) && m.getLsbD (tzc m + i)) := by
  rw [extract, BitVec.getLsbD_ushiftRight, BitVec.getLsbD_and]

theorem getLsbD_fieldOnes (m : W32) (i : Nat) : (fieldOnes m).getLsbD i = m.getLsbD (tzc m + i) := by
  rw [fieldOnes, BitVec.getLsbD_ushiftRight]

/-- A bit of a register after an insertion: the value's, counted from the field's low end, or as before. -/
theorem getLsbD_insertField (raw m v : W32) (i : Nat) :
    (insertField raw m v).getLsbD i =
      if m.getLsbD i then v.getLsbD (i - tzc m) else raw.getLsbD i := by
  rw [insertField, BitVec.getLsbD_or, BitVec.getLsbD_and, BitVec.getLsbD_and, BitVec.getLsbD_not,
    BitVec.getLsbD_shiftLeft]
  cases hm : m.getLsbD i with
  | false =>
    by_cases hi : i < 32
    · simp [hi]
    · simp [hi, BitVec.getLsbD_of_ge raw i (by omega)]
  | true =>
    have hi : i < 32 := by
      by_contra h
      rw [BitVec.getLsbD_of_ge m i (by omega)] at hm
      cases hm
    have hlow : ¬ i < tzc m := fun h => by
      rw [getLsbD_of_lt_tzc h] at hm
      cases hm
    simp [hi, hlow]

/-- A field reads 0 exactly where none of its bits is set. -/
theorem extract_eq_zero_iff {raw m : W32} : extract raw m = 0 ↔ raw &&& m = 0 := by
  constructor
  · intro h
    apply BitVec.eq_of_getLsbD_eq
    intro i _
    rw [BitVec.getLsbD_and]
    by_cases hi : i < tzc m
    · simp [getLsbD_of_lt_tzc hi]
    · have hbit := getLsbD_extract raw m (i - tzc m)
      rw [h, show tzc m + (i - tzc m) = i by omega] at hbit
      simpa using hbit.symm
  · intro h
    rw [extract, h, BitVec.ofNat_eq_ofNat, BitVec.zero_ushiftRight]

/-- The ones of a legal mask, moved to bit 0, are the bits below some bit. -/
theorem fieldOnes_toNat {m : W32} (h : maskOk m = true) : ∃ k, (fieldOnes m).toNat = 2 ^ k - 1 := by
  simp only [maskOk, isPow2, Bool.and_eq_true, bne_iff_ne, beq_iff_eq] at h
  obtain ⟨k, hk⟩ := Nat.ne_zero_and_sub_one_eq_zero_iff_isPowerOfTwo.1 h.2
  exact ⟨k, by omega⟩

/-- A value no larger than the ones of a legal mask fits the field. -/
theorem and_fieldOnes_of_le {m v : W32} (h : maskOk m = true) (hv : v.toNat ≤ (fieldOnes m).toNat) :
    v &&& fieldOnes m = v := by
  obtain ⟨k, hk⟩ := fieldOnes_toNat h
  have hpos := Nat.two_pow_pos k
  apply BitVec.eq_of_toNat_eq
  rw [BitVec.toNat_and, hk, Nat.and_two_pow_sub_one_eq_mod]
  exact Nat.mod_eq_of_lt (by omega)

/-- What was inserted into a field is found there, without the bits that do not fit. -/
theorem extract_insertField (raw m v : W32) : extract (insertField raw m v) m = v &&& fieldOnes m := by
  apply BitVec.eq_of_getLsbD_eq
  intro i _
  rw [getLsbD_extract, getLsbD_insertField, BitVec.getLsbD_and, getLsbD_fieldOnes, Nat.add_sub_cancel_left]
  cases m.getLsbD (tzc m + i) <;> simp

/-- The bits outside a field stay. -/
theorem insertField_and_not (raw m v : W32) : insertField raw m v &&& ~~~m = raw &&& ~~~m := by
  apply BitVec.eq_of_getLsbD_eq
  intro i _
  rw [BitVec.getLsbD_and, BitVec.getLsbD_and, getLsbD_insertField, BitVec.getLsbD_not]
  cases m.getLsbD i <;> simp

/-- Inserting ones sets the field (R118, R156). -/
theorem insertField_fieldOnes (raw m : W32) : insertField raw m (fieldOnes m) = raw ||| m := by
  apply BitVec.eq_of_getLsbD_eq
  intro i _
  rw [getLsbD_insertField, getLsbD_fieldOnes, BitVec.getLsbD_or]
  cases hm : m.getLsbD i with
  | false => simp
  | true =>
    have hlow : ¬ i < tzc m := fun h => by
      rw [getLsbD_of_lt_tzc h] at hm
      cases hm
    simp [show tzc m + (i - tzc m) = i by omega, hm]

/-- Settles O18, bit by bit; that a value fits is where the mask must be contiguous. -/
theorem fieldInsertThenExtract : Obligations.FieldInsertThenExtract := fun raw m v hm =>
  ⟨extract_insertField raw m v, insertField_and_not raw m v,
    fun hv => (extract_insertField raw m v).trans (and_fieldOnes_of_le hm hv), insertField_fieldOnes raw m⟩

end Sys2Proof.Machine
end

section
/-! SUPPORT. REG_WRITE of a register marked RW toward a NIC to which writes arrive at once: what every register of the
NIC then holds (R129, R153, R155, R348). -/

namespace Sys2Proof.Machine

/-! A write that arrives. -/

/-- The queue whose control register lies at an offset is the register's index. -/
theorem Config.indexAt_txdctl {c : Config} (hc : StandardConfig c) {i : Nat}
    (hi : DevReg.txdctl.indexOk c i = true) : c.indexAt .txdctl (c.off .txdctl i) = some i := by
  have hlt : i < c.txQueueCount := by simpa [DevReg.indexOk, DevReg.indexCount] using hi
  have hrow : c.regmap.rows.getD DevReg.txdctl.id default = DevReg.txdctl.specRow := by rw [hc.2.1]; rfl
  have hoff (j : Nat) : c.off .txdctl j = 0x06028 + 0x40 * j := by rw [Config.off, hrow]; rfl
  have hlow : (c.off .txdctl i - DevReg.txdctl.specRow.lo) / DevReg.txdctl.specRow.stride = i := by
    rw [hoff]
    show (0x06028 + 0x40 * i - 0x06028) / 0x40 = i
    omega
  simp only [Config.indexAt, hrow, hlow]
  exact if_pos ⟨hlt, trivial⟩

/-- A write of a register marked RW makes it hold the value, and enables its queue where it is an enable bit that rises
(R151, R341, R345, R348). -/
theorem Nic.write_rw {c : Config} (hc : StandardConfig c) {n : Nic} {w : RegWrite} {r : DevReg} {i : Nat}
    (hi : r.indexOk c i = true) (hoff : w.off = c.off r i) (hu : n.usable ≤ w.time) (hrw : r.access = .rw)
    (hlag : r = .rxdctl ∨ r = .txdctl → n.lag = false) (hrst : r = .ctrl → w.val &&& c.mask .rst = 0) :
    n.write c w = (n.putReg w.off w.val).queueEnable c w.off (n.reg c w.off) w.val := by
  have elsewhere {r' : DevReg} (hr' : r'.indexOk c 0 = true) (hne : r ≠ r') : w.off ≠ c.off r' 0 :=
    hoff ▸ Config.off_ne hc hne hi hr'
  have notReadOnly {r' : DevReg} (h : r'.access ≠ .rw) : r ≠ r' := fun e => h (e ▸ hrw)
  have hro : ¬ (w.off = c.off .status 0 ∨ w.off = c.off .secrxstat 0) := fun h =>
    h.elim (elsewhere rfl (notReadOnly (by decide))) (elsewhere rfl (notReadOnly (by decide)))
  rw [Nic.write, if_neg (Nat.not_lt.2 hu)]
  by_cases hctrl : r = .ctrl
  · subst hctrl
    have hrx : c.indexAt .rxdctl w.off = none := hoff ▸ Config.indexAt_off_ne hc (by decide) hi
    have htx : c.indexAt .txdctl w.off = none := hoff ▸ Config.indexAt_off_ne hc (by decide) hi
    rw [if_pos (show w.off = c.off .ctrl 0 from hoff), if_neg (not_not.2 (hrst rfl))]
    simp only [Nic.queueEnable, hrx, htx]
  · rw [if_neg (elsewhere rfl hctrl), if_neg hro, if_neg (elsewhere rfl (notReadOnly (by decide)))]
    dsimp only
    rw [hoff, Nic.accepted_eq hc _ hi hlag]

/-- Every register after a queue was enabled by a change of register `r`: the tail of a transmit queue that comes to be
enabled is 0, and every other register stays (R345). -/
theorem Nic.reg_queueEnable_off {c : Config} (hc : StandardConfig c) (n : Nic) {r : DevReg} {i : Nat}
    (hi : r.indexOk c i = true) (old new : W32) (off : Nat) :
    (n.queueEnable c (c.off r i) old new).reg c off =
      if (r = .txdctl ∧ rises (c.mask .txdctlEnable) old new = true) ∧ off = c.off .tdt i then 0 else n.reg c off := by
  by_cases hr : r = .txdctl
  · subst hr
    have hrx : c.indexAt .rxdctl (c.off .txdctl i) = none := Config.indexAt_off_ne hc (by decide) hi
    simp only [Nic.queueEnable, hrx, Config.indexAt_txdctl hc hi, true_and]
    by_cases hrise : rises (c.mask .txdctlEnable) old new = true
    · simp only [hrise, if_true, true_and]
      exact Nic.reg_putReg c n (c.off .tdt i) off 0
    · simp [hrise]
  · rw [Nic.reg_queueEnable n old new fun q hq => ?_, if_neg fun h => hr h.1.1]
    rw [Config.indexAt_off_ne hc (Ne.symm hr) hi] at hq
    cases hq

/-! REG_WRITE toward a settled NIC. -/

/-- A register write toward a settled NIC arrives at once. -/
theorem regWrite_settled {s : State} {dev : BitVec 8} {r : DevReg} {i : Nat} (line : Nat) (v : W32) (hq : s.quiet)
    (hc : s.cfg.legal = true) (hm : (s.handle dev).mapped = true) (hi : r.indexOk s.cfg i = true)
    (hs : s.settled dev) :
    regWrite line dev r i v s =
      .ok ()
        ((s.accessed line (.mmioWrite (s.regAddr dev r i) v)).setNic (s.handle dev).bdf
          ((s.nic (s.handle dev).bdf).write s.cfg
            ⟨s.micros + 1, s.now + Config.microTime s.micros, s.cfg.off r i, v⟩)) := by
  rw [regWrite_eq, mmioWrite32_run line v hm (regOffOk_off hc r hi), State.boundary_eq_self hq, State.postWrite,
    Nic.post_of_settled (now := s.now)]
  · rfl
  · exact hs

/-- A register of a settled NIC reads as the NIC holds it. -/
theorem regRead_settled {s : State} {dev : BitVec 8} {r : DevReg} {i : Nat} (line : Nat) (hq : s.quiet)
    (hc : StandardConfig s.cfg) (hm : (s.handle dev).mapped = true) (hi : r.indexOk s.cfg i = true)
    (hs : s.settled dev) (hr : r ≠ .eimc) :
    regRead line dev r i s =
      .ok (s.regOf dev r i) (s.accessed line (.mmioRead (s.regAddr dev r i) (s.regOf dev r i))) := by
  have hdrain : s.drainNic (s.handle dev).bdf = s := State.drainNic_of_posted_nil hs.2.2
  have hvalue : s.readValue dev r i = s.regOf dev r i := by
    rw [State.readValue_eq_regOf hc hi (by rw [hdrain]; exact hs.1) hr, hdrain]
  rw [regRead_quiet line hq hc.1 hm hi, hvalue, hdrain]

/-- After an access the NIC is settled still. -/
theorem State.settled_accessed {s : State} {dev : BitVec 8} (h : s.settled dev) (line : Nat) (a : Access) :
    (s.accessed line a).settled dev := ⟨Nat.le_trans h.1 (Nat.le_add_right _ _), h.2⟩

/-- What a REG_WRITE of a device register gives it: the value, or the register with the value in the field (R153,
R155). -/
def State.written (s : State) (dev : BitVec 8) (r : DevReg) (f : Option DevField) (i : Nat) (v : W32) : W32 :=
  match f with
  | none => v
  | some f => insertField (s.regOf dev r i) (s.cfg.mask f) v

/-- From `s` to `t` one write of `v` to a register of a device arrived; its handle stays. -/
def WriteArrived (s t : State) (dev : BitVec 8) (off : Nat) (v : W32) : Prop :=
  t.cfg = s.cfg ∧ t.handle dev = s.handle dev ∧
    ∃ w : RegWrite, w.off = off ∧ w.val = v ∧ (s.nic (s.handle dev).bdf).usable ≤ w.time ∧
      t.nic (s.handle dev).bdf = (s.nic (s.handle dev).bdf).write s.cfg w

theorem regWrite_arrives {s : State} {dev : BitVec 8} {r : DevReg} {i : Nat} (line : Nat) (v : W32) (hq : s.quiet)
    (hc : s.cfg.legal = true) (hm : (s.handle dev).mapped = true) (hi : r.indexOk s.cfg i = true)
    (hs : s.settled dev) :
    ∃ t, regWrite line dev r i v s = .ok () t ∧ WriteArrived s t dev (s.cfg.off r i) v :=
  ⟨_, regWrite_settled line v hq hc hm hi hs, rfl, rfl,
    ⟨s.micros + 1, s.now + Config.microTime s.micros, s.cfg.off r i, v⟩, rfl, rfl,
    Nat.le_trans hs.1 (Nat.le_add_right _ _), State.nic_setNic_self _ _ _⟩

/-- The access of REG_WRITE of a device register marked RW: one write, after a read where it names a field. -/
theorem writeSelected_arrives {s : State} {dev : BitVec 8} {r : DevReg} {f : Option DevField} {index : W16}
    (value : W32) (hq : s.quiet) (hc : StandardConfig s.cfg) (hm : (s.handle dev).mapped = true)
    (hl : (RegSel.dev r f).legal s.cfg index = true) (hs : s.settled dev) (hr : r ≠ .eimc) :
    ∃ t, writeSelected dev (.dev r f) index value s = .ok () t ∧
      WriteArrived s t dev (s.cfg.off r index.toNat) (s.written dev r f index.toNat value) := by
  obtain ⟨hfield, hi⟩ := RegSel.legal_dev hl
  cases f with
  | none =>
    obtain ⟨t, hrun, ht⟩ := regWrite_arrives 1 value hq hc.1 hm hi hs
    exact ⟨t, (Micro.look_bind _ _ _).trans hrun, ht⟩
  | some g =>
    obtain rfl := hfield g rfl
    have hread := regRead_settled 1 hq hc hm hi hs hr
    obtain ⟨t, hrun, hcfg, hhandle, w, hoff, hval, hu, hnic⟩ :=
      regWrite_arrives (s := s.accessed 1 (.mmioRead _ _)) 2 (s.written dev g.reg (some g) index.toNat value) hq hc.1 hm
        hi (State.settled_accessed hs 1 (.mmioRead _ _))
    refine ⟨t, ?_, hcfg, hhandle, w, hoff, hval, hu, hnic⟩
    rw [writeSelected, Micro.look_bind]
    exact (Micro.run_bind_ok hread).trans ((Micro.look_bind _ _ _).trans hrun)

theorem rises_iff {m old new : W32} : rises m old new = true ↔ old &&& m = 0 ∧ new &&& m ≠ 0 := by
  simp [rises]

/-- Every register of a NIC after a write of one marked RW has arrived. -/
theorem Nic.reg_write_rw {c : Config} (hc : StandardConfig c) {n : Nic} {w : RegWrite} {r : DevReg} {i : Nat}
    (hi : r.indexOk c i = true) (hoff : w.off = c.off r i) (hu : n.usable ≤ w.time) (hrw : r.access = .rw)
    (hlag : r = .rxdctl ∨ r = .txdctl → n.lag = false) (hrst : r = .ctrl → w.val &&& c.mask .rst = 0) (off : Nat) :
    (n.write c w).reg c off =
      if (r = .txdctl ∧ n.reg c (c.off r i) &&& c.mask .txdctlEnable = 0 ∧ w.val &&& c.mask .txdctlEnable ≠ 0) ∧
          off = c.off .tdt i then 0
      else if off = c.off r i then w.val else n.reg c off := by
  simp only [Nic.write_rw hc hi hoff hu hrw hlag hrst, hoff, Nic.reg_queueEnable_off hc _ hi, Nic.reg_putReg, rises_iff]

/-- Settles O21: the one write that arrives, register by register. -/
theorem regWriteThenReads : Obligations.RegWriteThenReads := by
  intro s t dev r f index value hq hc hs hrw hprompt ha hl written hrst hexec enabled
  have hi := (RegSel.legal_dev hl).2
  have hm : (s.handle dev).mapped = true := Handle.mapped_iff.2 ha.2
  have hwritten : written = s.written dev r f index.toNat value := by cases f <;> rfl
  obtain ⟨u, hrun, hcfg, hhandle, w, hoff, hval, hu, hnic⟩ := writeSelected_arrives
    (s := s.start (.regWrite dev (.dev r f) index value)) value hq hc hm hl hs (by rintro rfl; cases hrw)
  rw [exec_regWrite ha hl hrun] at hexec
  cases hexec
  have hw : w.val = written := hval.trans hwritten.symm
  have hregs (off : Nat) : (u.nic (s.handle dev).bdf).reg u.cfg off =
      if enabled ∧ off = s.cfg.off .tdt index.toNat then 0
      else if off = s.cfg.off r index.toNat then written else (s.nic (s.handle dev).bdf).reg s.cfg off := by
    have hreg := Nic.reg_write_rw hc hi hoff hu hrw hprompt (by rwa [hw]) off
    simp only [hw] at hreg
    rw [show u.nic (s.handle dev).bdf = _ from hnic, hcfg]
    exact hreg
  have hregOf (r' : DevReg) (j : Nat) : State.regOf (u.respond resOk 0 0) dev r' j =
      (u.nic (s.handle dev).bdf).reg u.cfg (s.cfg.off r' j) := by
    show (u.nic (u.handle dev).bdf).reg u.cfg (u.cfg.off r' j) = _
    rw [hhandle, hcfg]
    rfl
  refine ⟨?_, fun hen => ?_, fun off hne => ?_⟩
  · rw [hregOf, hregs, if_neg, if_pos rfl]
    rintro ⟨⟨rfl, -⟩, h⟩
    exact Config.off_ne hc (r' := .tdt) (by decide) hi hi h
  · rw [hregOf, hregs, if_pos ⟨hen, rfl⟩]
  · exact (hregs off).trans ((if_neg fun h => hne (.inr h)).trans (if_neg fun h => hne (.inl h)))

end Sys2Proof.Machine
end

section
/-! SUPPORT. What the moves of the other agents leave alone (R126, R340 to R348, R356): register by register what the
register side of a NIC does, and byte by byte what a DMA write does. -/

namespace Sys2Proof.Machine

/-! The register side (R348). -/

/-- What a register holds once the register side has presented `v` in the NIC's own bits of it. -/
def Nic.presented (c : Config) (n : Nic) (r : DevReg) (i : Nat) (v : W32) : W32 :=
  (n.reg c (c.off r i) &&& ~~~(n.ownBits c r (c.off r i))) ||| (v &&& n.ownBits c r (c.off r i))

/-- The register side changes the one register, and enables its queue where that raises the enable bit. -/
theorem Nic.regSide_eq {c : Config} (n : Nic) {r : DevReg} {i : Nat} (v : W32) (hi : r.indexOk c i = true) :
    ∃ b, n.regSide c r i v =
      Nic.queueEnable c { n with regs := Store.put n.regs (c.off r i) ⟨b, n.presented c r i v⟩ } (c.off r i)
        (n.reg c (c.off r i)) (n.presented c r i v) := by
  rw [Nic.regSide, if_pos hi]
  exact ⟨_, rfl⟩

theorem Nic.reg_put (c : Config) (n : Nic) (off off' : Nat) (b : Bool) (v : W32) :
    Nic.reg c { n with regs := Store.put n.regs off ⟨b, v⟩ } off' = if off' = off then v else n.reg c off' := by
  simp only [Nic.reg, Store.get?_put]
  by_cases h : off' = off
  · simp [h]
  · simp only [h, if_false]
    rfl

/-- Every register after a move of the register side. -/
theorem Nic.reg_regSide {c : Config} (hc : StandardConfig c) (n : Nic) {r : DevReg} {i : Nat} (v : W32)
    (hi : r.indexOk c i = true) (off : Nat) :
    (n.regSide c r i v).reg c off =
      if (r = .txdctl ∧ rises (c.mask .txdctlEnable) (n.reg c (c.off r i)) (n.presented c r i v) = true) ∧
          off = c.off .tdt i then 0
      else if off = c.off r i then n.presented c r i v else n.reg c off := by
  obtain ⟨b, hb⟩ := n.regSide_eq v hi
  rw [hb, Nic.reg_queueEnable_off hc _ hi, Nic.reg_put]

/-- Where the register side raises the enable bit of a queue, the queue comes to be enabled. -/
theorem enableRises_regSide {c : Config} (hc : StandardConfig c) (n : Nic) {r : DevReg} {i : Nat} (v : W32)
    (hi : r.indexOk c i = true) {f : DevField} {q : Nat} (hoff : c.off f.reg q = c.off r i)
    (h : rises (c.mask f) (n.reg c (c.off r i)) (n.presented c r i v) = true) :
    enableRises c n (n.regSide c r i v) f q := by
  obtain ⟨hold, hnew⟩ := rises_iff.1 h
  have hreg : (n.regSide c r i v).reg c (c.off r i) = n.presented c r i v := by
    rw [Nic.reg_regSide hc n v hi, if_neg, if_pos rfl]
    rintro ⟨⟨rfl, -⟩, he⟩
    exact Config.off_ne hc (r' := .tdt) (by decide) hi hi he
  refine ⟨?_, ?_⟩
  · rw [Nic.field, hoff]
    exact extract_eq_zero_iff.2 hold
  · rw [Nic.field, hoff, hreg]
    exact fun h => hnew (extract_eq_zero_iff.1 h)

/-- Of a register the block has written only the status bits are the NIC's (R348, U3). -/
theorem Nic.ownBits_of_blockWrote {c : Config} {n : Nic} {r : DevReg} {off : Nat} (h : n.blockWrote off) :
    n.ownBits c r off = statusBits c r := by
  obtain ⟨v, hv⟩ := h
  rw [Nic.ownBits, hv]

/-- The register side leaves the bits that are not the NIC's own as they are. -/
theorem Nic.presented_and_not (c : Config) (n : Nic) (r : DevReg) (i : Nat) (v : W32) :
    n.presented c r i v &&& ~~~(n.ownBits c r (c.off r i)) =
      n.reg c (c.off r i) &&& ~~~(n.ownBits c r (c.off r i)) := by
  apply BitVec.eq_of_getLsbD_eq
  intro k hk
  simp only [Nic.presented, BitVec.getLsbD_and, BitVec.getLsbD_or, BitVec.getLsbD_not, hk, decide_true, Bool.true_and]
  cases (n.ownBits c r (c.off r i)).getLsbD k <;> simp

/-- A register that the block has written keeps, whatever register the register side presents, every bit but its status
bits; or it is the tail of a transmit queue that comes to be enabled (R345, R348). -/
theorem Nic.regSide_keeps_written {c : Config} (hc : StandardConfig c) (n : Nic) {r : DevReg} {i : Nat} (v : W32)
    (hi : r.indexOk c i = true) {r' : DevReg} {j : Nat} (hj : r'.indexOk c j = true) (hw : n.blockWrote (c.off r' j)) :
    (n.regSide c r i v).reg c (c.off r' j) &&& ~~~(statusBits c r') = n.reg c (c.off r' j) &&& ~~~(statusBits c r') ∨
    (r' = .tdt ∧ (n.regSide c r i v).reg c (c.off r' j) = 0 ∧ enableRises c n (n.regSide c r i v) .txdctlEnable j) := by
  rw [Nic.reg_regSide hc n v hi]
  by_cases htail : (r = .txdctl ∧ rises (c.mask .txdctlEnable) (n.reg c (c.off r i)) (n.presented c r i v) = true) ∧
      c.off r' j = c.off .tdt i
  · obtain ⟨⟨rfl, hrise⟩, he⟩ := htail
    have hr' : r' = .tdt := by
      by_contra hne
      exact Config.off_ne hc hne hj hi he
    subst hr'
    obtain rfl : j = i := Config.off_inj hc rfl hj hi he
    rw [if_pos ⟨⟨rfl, hrise⟩, rfl⟩]
    exact .inr ⟨rfl, rfl, enableRises_regSide hc n v hi rfl hrise⟩
  · rw [if_neg htail]
    refine .inl ?_
    by_cases he : c.off r' j = c.off r i
    · have hr' : r' = r := by
        by_contra hne
        exact Config.off_ne hc hne hj hi he
      subst hr'
      rw [if_pos he, he, ← Nic.ownBits_of_blockWrote (he ▸ hw)]
      exact n.presented_and_not c r' i v
    · rw [if_neg he]

/-! Enabling a queue (R341, R345). -/

theorem Nic.rxHead_queueEnable (c : Config) (n : Nic) (off : Nat) (old new : W32) (q : Nat) :
    (n.queueEnable c off old new).rxHead q = n.rxHead q ∨
    ((n.queueEnable c off old new).rxHead q = 0 ∧ c.indexAt .rxdctl off = some q ∧
      rises (c.mask .rxdctlEnable) old new = true) := by
  unfold Nic.queueEnable
  split
  · rename_i q' hq'
    split
    · by_cases h : q = q'
      · subst h
        exact .inr ⟨by simp [Nic.rxHead], hq', ‹_›⟩
      · exact .inl (by simp [Nic.rxHead, Store.get?_put_ne _ _ h])
    · exact .inl rfl
  · split
    · split <;> exact .inl rfl
    · exact .inl rfl

theorem Nic.txQueue_queueEnable (c : Config) (n : Nic) (off : Nat) (old new : W32) (q : Nat) :
    (n.queueEnable c off old new).txQueue q = n.txQueue q ∨
    ((n.queueEnable c off old new).txQueue q = TxQueue.empty ∧ c.indexAt .txdctl off = some q ∧
      rises (c.mask .txdctlEnable) old new = true) := by
  unfold Nic.queueEnable
  split
  · split <;> exact .inl rfl
  · split
    · rename_i q' hq'
      split
      · by_cases h : q = q'
        · subst h
          exact .inr ⟨by simp [Nic.txQueue], hq', ‹_›⟩
        · exact .inl (by simp [Nic.txQueue, Store.get?_put_ne _ _ h])
      · exact .inl rfl
    · exact .inl rfl

/-- Enabling a queue changes registers and heads alone. -/
theorem Nic.queueEnable_frame (c : Config) (n : Nic) (off : Nat) (old new : W32) :
    (n.queueEnable c off old new).pci = n.pci ∧ (n.queueEnable c off old new).sent = n.sent := by
  unfold Nic.queueEnable
  split
  · split <;> exact ⟨rfl, rfl⟩
  · split
    · split <;> exact ⟨rfl, rfl⟩
    · exact ⟨rfl, rfl⟩

/-- Every other register has no status bit. -/
theorem statusBits_eq_zero (c : Config) {r : DevReg} (h : r ∉ [.rxdctl, .txdctl, .rdrxctl, .status, .secrxstat, .eec]) :
    statusBits c r = 0 := by
  unfold statusBits
  split <;> simp_all

theorem RegSideKeeps.refl (c : Config) (n : Nic) : RegSideKeeps c n n :=
  ⟨fun _ _ _ _ => ⟨fun _ => rfl, fun _ => rfl, fun _ => rfl, fun _ => rfl, fun _ => .inl rfl⟩, fun _ => .inl rfl,
    fun _ => .inl rfl, rfl, rfl, rfl, rfl⟩

/-- A move of the register side (R348). -/
theorem Nic.regSide_keeps {c : Config} (hc : StandardConfig c) (n : Nic) (r : DevReg) (i : Nat) (v : W32) :
    RegSideKeeps c n (n.regSide c r i v) := by
  cases hi : r.indexOk c i with
  | false =>
    rw [Nic.regSide_of_no_index c n v hi]
    exact .refl c n
  | true =>
    obtain ⟨b, hb⟩ := n.regSide_eq v hi
    refine ⟨fun r' j hj hw => ?_, fun q => ?_, fun q => ?_, ?_⟩
    · have hkeeps := n.regSide_keeps_written hc v hi hj hw
      have other (hne : r' ≠ .tdt) := hkeeps.resolve_right fun h => hne h.1
      have whole {x y : W32} (h0 : statusBits c r' = 0) (h : x &&& ~~~(statusBits c r') = y &&& ~~~(statusBits c r')) :
          x = y := by
        rwa [h0, BitVec.ofNat_eq_ofNat, BitVec.not_zero, BitVec.and_allOnes, BitVec.and_allOnes] at h
      refine ⟨fun hlist => ?_, ?_, ?_, ?_, ?_⟩
      · exact whole (statusBits_eq_zero c fun h => hlist (by simp_all)) (other fun h => hlist (by simp [h]))
      · rintro rfl
        exact other (by decide)
      · rintro rfl
        exact other (by decide)
      · rintro rfl
        exact other (by decide)
      · rintro rfl
        exact hkeeps.imp (whole rfl) fun h => h.2
    · obtain h | ⟨h, hq, hrise⟩ := Nic.rxHead_queueEnable c { n with regs := Store.put n.regs (c.off r i) ⟨b, _⟩ }
        (c.off r i) (n.reg c (c.off r i)) (n.presented c r i v) q
      · exact .inl (hb ▸ h)
      · exact .inr ⟨hb ▸ h, enableRises_regSide hc n v hi (Config.off_of_indexAt hq).2 hrise⟩
    · obtain h | ⟨h, hq, hrise⟩ := Nic.txQueue_queueEnable c { n with regs := Store.put n.regs (c.off r i) ⟨b, _⟩ }
        (c.off r i) (n.reg c (c.off r i)) (n.presented c r i v) q
      · exact .inl (hb ▸ h)
      · exact .inr ⟨hb ▸ h, enableRises_regSide hc n v hi (Config.off_of_indexAt hq).2 hrise⟩
    · rw [hb]
      exact ⟨(Nic.queueEnable_frame c _ _ _ _).1, (Nic.queueEnable_keeps c _ _ _ _).2,
        (Nic.queueEnable_keeps c _ _ _ _).1, (Nic.queueEnable_frame c _ _ _ _).2⟩

/-! Configuration space (R356). -/

/-- With the default map `PCI_COMMAND` shares its offset with no other register (R53). -/
theorem Config.pciOff_ne_command {c : Config} (hc : StandardConfig c) {r : PciReg} (h : r ≠ .command) :
    c.pciOff .command ≠ c.pciOff r := by
  rw [Config.pciOff, Config.pciOff, hc.2.1]
  cases r with
  | command => exact absurd rfl h
  | _ => decide

theorem Nic.pciRead_pciSide_ne (c : Config) (n : Nic) {r : PciReg} (v : W32) {o : Nat} (h : o ≠ c.pciOff r) :
    (n.pciSide c r v).pciRead o = n.pciRead o := by
  unfold Nic.pciSide
  split
  · rfl
  · simp [Nic.pciRead, Store.get?_put_ne _ _ h]

/-- `PCI_COMMAND` once written reads on as written, whatever the device presents. -/
theorem Nic.pciRead_command_pciSide {c : Config} (hc : StandardConfig c) {n : Nic} (r : PciReg) (v : W32)
    (h : n.blockWrotePci (c.pciOff .command)) :
    (n.pciSide c r v).pciRead (c.pciOff .command) = n.pciRead (c.pciOff .command) := by
  by_cases hr : r = .command
  · obtain ⟨x, hx⟩ := h
    rw [hr, Nic.pciSide_command c n v hx]
  · exact n.pciRead_pciSide_ne c v (Config.pciOff_ne_command hc hr)

/-! Memory (R126, R346, R347). -/

/-- A byte that is the image of none of the physical addresses written stays. -/
theorem read_dmaWrite_of_ne {s : State} {p a : Nat} {bytes : List Byte}
    (h : ∀ k, k < bytes.length → s.physToVirt (p + k) ≠ some a) :
    Memory.read (s.dmaWrite p bytes).mem a = Memory.read s.mem a := by
  induction bytes generalizing s p with
  | nil => rfl
  | cons b rest ih =>
    have hrest (k : Nat) (hk : k < rest.length) : s.physToVirt (p + 1 + k) ≠ some a := by
      rw [show p + 1 + k = p + (k + 1) by omega]
      exact h (k + 1) (Nat.succ_lt_succ hk)
    have hfirst := h 0 (Nat.succ_pos _)
    rw [State.dmaWrite]
    split
    · rename_i x hx
      rw [ih (by exact hrest)]
      refine Memory.read_write_ne _ _ ?_
      rintro rfl
      exact hfirst hx
    · exact ih hrest

theorem bytesLE_length (n v : Nat) : (bytesLE n v).length = n := by
  induction n generalizing v with
  | zero => rfl
  | succ n ih => rw [bytesLE, List.length_cons, ih]

/-- A send or a fetch reads memory and writes none (R346). -/
theorem txSend_mem (s : State) (bdf : W16) (q : Nat) : (s.txSend bdf q).mem = s.mem := by
  simp only [State.txSend]
  split <;> rfl

theorem txFetch_mem (s : State) (bdf : W16) (q : Nat) : (s.txFetch bdf q).mem = s.mem := by
  simp only [State.txFetch]
  split <;> rfl

/-- A head write-back writes inside the image of the four bytes of its slot (R126, R347). -/
theorem read_txWriteBack_of_ne {s : State} {bdf : W16} {q a : Nat}
    (h : ∀ k, k < 4 → s.physToVirt (((s.nic bdf).headSlot s.cfg q).toNat + k) ≠ some a) :
    Memory.read (s.txWriteBack bdf q).mem a = Memory.read s.mem a := by
  simp only [State.txWriteBack]
  split
  · rfl
  · exact read_dmaWrite_of_ne (by rwa [bytesLE_length])

/-- Settles O59: each clause is the law of the move it speaks of. -/
theorem agentsKeepTheirBounds : Obligations.AgentsKeepTheirBounds := by
  refine ⟨fun act s => ?_, fun s bdf q => ⟨txSend_mem s bdf q, txFetch_mem s bdf q, fun h => ?_⟩,
    fun s bdf r i v hc => ⟨rfl, fun b hb => ?_, ?_⟩,
    fun s bdf r v hc => ⟨rfl, fun b hb => ?_, ⟨?_, fun o ho => ?_⟩, fun h => ?_⟩,
    fun s bdf q a h => read_txWriteBack_of_ne h⟩
  · have k := SameBlock.act act s
    exact ⟨⟨k.es, k.eng⟩, handle_of_handles k.handles, k.blocks, k.port, k.resp, k.pc, k.trace⟩
  · exact if_pos (.inr (.inr h))
  · exact (State.nic_setNic _ _ _ _).trans (if_neg hb)
  · rw [AgentAct.apply, State.nic_setNic_self]
    exact Nic.regSide_keeps hc _ r i v
  · exact (State.nic_setNic _ _ _ _).trans (if_neg hb)
  · rw [AgentAct.apply, State.nic_setNic_self]
    exact Nic.pciSide_eq _ _ _ _
  · rw [AgentAct.apply, State.nic_setNic_self]
    exact Nic.pciRead_pciSide_ne _ _ _ ho
  · rw [AgentAct.apply, State.nic_setNic_self]
    exact Nic.pciRead_command_pciSide hc _ _ h

end Sys2Proof.Machine
end

section
/-! SUPPORT. Which failures a command can raise (R371, R375, R376): part by part, the result codes of what it can raise;
the response of every command follows. -/

namespace Sys2Proof.Machine

/-! Rules. -/

section Rules
variable {α β : Type} {codes : List (BitVec 8)}

/-- Every failure that the micro-steps `m` raise has one of these result codes. -/
def Raises (codes : List (BitVec 8)) (m : Micro α) : Prop :=
  Triple (fun _ => True) m (fun _ _ => True) (fun f _ => f.res ∈ codes) fun _ => True

theorem Raises.pure (a : α) : Raises codes (pure a : Micro α) := Triple.pure fun _ _ => trivial

theorem Raises.look (f : State → α) : Raises codes (look f) := Triple.look fun _ _ => trivial

theorem Raises.change (f : State → State) : Raises codes (change f) := Triple.change fun _ _ => trivial

theorem Raises.refuse (r : Refusal) : Raises codes (refuse r : Micro α) := Triple.refuse

theorem Raises.raise {f : Failure} (code : BitVec 8) (hf : f.res = code) (h : code ∈ codes) :
    Raises codes (raise f : Micro α) := Triple.raise fun _ _ => hf ▸ h

/-- Micro-steps that raise nothing. -/
theorem Raises.of_ne {m : Micro α} (h : ∀ s f t, m s ≠ .error (.raise f) t) : Raises codes m := by
  intro s _
  cases hm : m s with
  | ok a t => trivial
  | error e t =>
    cases e with
    | raise f => exact absurd hm (h s f t)
    | fault f => trivial
    | refuse r => trivial

theorem Raises.bind {m : Micro α} {k : α → Micro β} (h : Raises codes m) (hk : ∀ a, Raises codes (k a)) :
    Raises codes (m >>= k) := Triple.bind h hk

theorem Raises.ite {p : Prop} [Decidable p] {x y : Micro α} (hx : Raises codes x) (hy : Raises codes y) :
    Raises codes (if p then x else y) := by split <;> assumption

/-- Something done on a condition, and what follows. -/
theorem Raises.guarded {p : Prop} [Decidable p] {x : Micro Unit} {k : Unit → Micro β} (hx : Raises codes x)
    (hk : ∀ u, Raises codes (k u)) : Raises codes (if p then x >>= k else k ()) := .ite (.bind hx hk) (hk ())

theorem Raises.forEach {body : α → Micro Unit} (h : ∀ x, Raises codes (body x)) (l : List α) :
    Raises codes (forEach l body) := Triple.forEach fun x _ => h x

/-! Primitives: none raises. -/

theorem Raises.memRead (line : Nat) (acq : Bool) (a : W64) (n : Nat) : Raises codes (memRead line acq a n) := by
  refine .of_ne fun s f t h => ?_
  simp only [Machine.memRead] at h
  split at h <;> cases h

theorem Raises.memWrite (line : Nat) (rel : Bool) (a : W64) (n : Nat) (v : W64) :
    Raises codes (memWrite line rel a n v) := by
  refine .of_ne fun s f t h => ?_
  simp only [Machine.memWrite] at h
  split at h <;> cases h

theorem Raises.mmioRead32 (line : Nat) (dev : BitVec 8) (off : Nat) : Raises codes (mmioRead32 line dev off) := by
  refine .of_ne fun s f t h => ?_
  simp only [Machine.mmioRead32] at h
  split at h <;> cases h

theorem Raises.mmioWrite32 (line : Nat) (dev : BitVec 8) (off : Nat) (v : W32) :
    Raises codes (mmioWrite32 line dev off v) := by
  refine .of_ne fun s f t h => ?_
  simp only [Machine.mmioWrite32] at h
  split at h <;> cases h

theorem Raises.mmioWriteAt (line : Nat) (a : W64) (v : W32) : Raises codes (mmioWriteAt line a v) := by
  refine .of_ne fun s f t h => ?_
  simp only [Machine.mmioWriteAt] at h
  split at h <;> cases h

theorem Raises.sleepUs (line n : Nat) : Raises codes (sleepUs line n) := fun _ _ => trivial

theorem Raises.pciRead (line : Nat) (bdf : W16) (off : Nat) : Raises codes (pciRead line bdf off) := fun _ _ => trivial

theorem Raises.pciWrite (line : Nat) (bdf : W16) (off : Nat) (v : W32) : Raises codes (pciWrite line bdf off v) :=
  fun _ _ => trivial

theorem Raises.free (line : Nat) (a : W64) : Raises codes (free line a) := fun _ _ => trivial

theorem Raises.v2p (line : Nat) (a : W64) : Raises codes (v2p line a) := fun _ _ => trivial

theorem Raises.p2v (line : Nat) (p : W64) (n : Nat) : Raises codes (p2v line p n) := fun _ _ => trivial

theorem Raises.alloc (line size : Nat) (site : AllocSite) : Raises codes (alloc line size site) := by
  refine .of_ne fun s f t h => ?_
  simp only [Machine.alloc] at h
  split at h
  · cases h
  · cases h
  · split at h
    · cases h
    · split at h <;> cases h

theorem Raises.callHandler (line : Nat) (len : W16) (a : W64) : Raises codes (callHandler line len a) := by
  refine .of_ne fun s f t h => ?_
  simp only [Machine.callHandler] at h
  split at h
  · cases h
  · split at h
    · cases h
    · split at h <;> cases h

/-! Register and field operations: none raises. -/

theorem Raises.regRead (line : Nat) (dev : BitVec 8) (r : DevReg) (i : Nat) : Raises codes (regRead line dev r i) :=
  .bind (.look _) fun _ => .mmioRead32 _ _ _

theorem Raises.regWrite (line : Nat) (dev : BitVec 8) (r : DevReg) (i : Nat) (v : W32) :
    Raises codes (regWrite line dev r i v) := .bind (.look _) fun _ => .mmioWrite32 _ _ _ _

theorem Raises.regReadField (line : Nat) (dev : BitVec 8) (f : DevField) (i : Nat) :
    Raises codes (regReadField line dev f i) := .bind (.regRead _ _ _ _) fun _ => .bind (.look _) fun _ => .pure _

theorem Raises.regWriteField (line : Nat) (dev : BitVec 8) (f : DevField) (i : Nat) (v : W32) :
    Raises codes (regWriteField line dev f i v) :=
  .bind (.regRead _ _ _ _) fun _ => .bind (.look _) fun _ => .regWrite _ _ _ _ _

theorem Raises.regSet (line : Nat) (dev : BitVec 8) (f : DevField) (i : Nat) : Raises codes (regSet line dev f i) :=
  .bind (.look _) fun _ => .regWriteField _ _ _ _ _

theorem Raises.regClear (line : Nat) (dev : BitVec 8) (f : DevField) (i : Nat) : Raises codes (regClear line dev f i) :=
  .regWriteField _ _ _ _ _

theorem Raises.regIsCleared (line : Nat) (dev : BitVec 8) (f : DevField) (i : Nat) :
    Raises codes (regIsCleared line dev f i) := .bind (.regReadField _ _ _ _) fun _ => .pure _

/-- A poll that times out answers so and raises nothing itself (R159). -/
theorem Raises.poll (line : Nat) (dev : BitVec 8) (f : DevField) (i : Nat) (w : Bool) :
    Raises codes (poll line dev f i w) := by
  have loop (gap n : Nat) : Raises codes (pollLoop line dev f i w gap n) := by
    induction n with
    | zero => exact .pure _
    | succ n ih => exact .bind (.regIsCleared _ _ _ _) fun _ => .ite (.pure _) (.bind (.sleepUs _ _) fun _ => ih)
  exact .bind (.look _) fun _ => loop _ _

theorem Raises.pciRegRead (line : Nat) (bdf : W16) (r : PciReg) : Raises codes (pciRegRead line bdf r) :=
  .bind (.look _) fun _ => .pciRead _ _ _

theorem Raises.pciReadField (line : Nat) (bdf : W16) (f : PciField) : Raises codes (pciReadField line bdf f) :=
  .bind (.pciRegRead _ _ _) fun _ => .bind (.look _) fun _ => .pure _

theorem Raises.pciWriteField (line : Nat) (bdf : W16) (f : PciField) (v : W32) :
    Raises codes (pciWriteField line bdf f v) :=
  .bind (.pciRegRead _ _ _) fun _ => .bind (.look _) fun _ => .bind (.look _) fun _ => .pciWrite _ _ _ _

theorem Raises.pciSet (line : Nat) (bdf : W16) (f : PciField) : Raises codes (pciSet line bdf f) :=
  .bind (.look _) fun _ => .pciWriteField _ _ _ _

theorem Raises.flushTails (line : Nat) : Raises codes (flushTails line) :=
  .bind (.look _) fun _ => .forEach (fun _ => .mmioWriteAt _ _ _) _

/-- A translation that fails raises AllocFail (R372). -/
theorem Raises.v2pOrRaise (line : Nat) (a : W64) (site : AllocSite) (h : 1 ∈ codes) :
    Raises codes (v2pOrRaise line a site) := by
  refine .bind (.v2p _ _) fun r => ?_
  cases r with
  | none => exact .raise 1 rfl h
  | some p => exact .pure p

theorem Raises.failDevice {dev : BitVec 8} {f : Failure} (code : BitVec 8) (hf : f.res = code) (h : code ∈ codes) :
    Raises codes (failDevice dev f : Micro α) := .bind (.change _) fun _ => .raise code hf h

theorem Raises.of_nothing {m : Micro α} (h : Raises [] m) : Raises codes m :=
  h.weaken (fun _ h => h) (fun _ _ h => h) (fun _ _ h => (List.not_mem_nil h).elim) fun _ h => h

end Rules

/-! Each command. -/

theorem resetDevice_raises (dev : BitVec 8) : Raises [0, 2, 4] (resetDevice dev) := by
  have queues (todo q : Nat) : Raises [0, 2, 4] (disableRxQueues dev todo q) := by
    induction todo generalizing q with
    | zero => exact .pure _
    | succ todo ih =>
      exact .bind (.regClear _ _ _ _) fun _ => .bind (.poll _ _ _ _ _) fun _ =>
        .guarded (.failDevice 2 rfl (by decide)) fun _ => .bind (.look _) fun _ => .bind (.sleepUs _ _) fun _ => ih _
  have flush : Raises [0, 2, 4] (flushBuffers dev) :=
    .bind (.regSet _ _ _ _) fun _ => .bind (.regSet _ _ _ _) fun _ => .bind (.look _) fun _ =>
      .bind (.sleepUs _ _) fun _ => .bind (.regClear _ _ _ _) fun _ => .regClear _ _ _ _
  have pending : Raises [0, 2, 4] (transactionPending dev) :=
    .bind (.look _) fun _ => .bind (.bind (.pciReadField _ _ _) fun _ => .pure _) fun _ => .pure _
  have master : Raises [0, 2, 4] (disableMaster dev) :=
    .bind (.regSet _ _ _ _) fun _ => .bind (.poll _ _ _ _ _) fun _ =>
      .ite (.bind pending fun _ => .ite flush (.pure _)) (.pure _)
  have issue : Raises [0, 2, 4] (issueReset dev) :=
    .bind (.regSet _ _ _ _) fun _ => .bind (.look _) fun _ => .sleepUs _ _
  exact .bind (.look _) fun _ => .bind (queues _ _) fun _ => .bind master fun _ => .bind issue fun _ => .change _

theorem initDevice_raises (dev : BitVec 8) : Raises [0, 2, 3, 4] (initDevice dev) := by
  have await : Raises [0, 2, 3, 4] (awaitDevice dev) :=
    .bind (.look _) fun _ => .bind (.regWrite _ _ _ _ _) fun _ => .bind (.poll _ _ _ _ _) fun _ =>
      .guarded (.failDevice 2 rfl (by decide)) fun _ => .bind (.regIsCleared _ _ _ _) fun _ =>
      .guarded (.failDevice 3 rfl (by decide)) fun _ => .bind (.poll _ _ _ _ _) fun _ =>
      .ite (.failDevice 2 rfl (by decide)) (.pure _)
  have table (line : Nat) (r : DevReg) (n : Nat) : Raises [0, 2, 3, 4] (zeroTable line dev r n) :=
    .forEach (fun _ => .regWrite _ _ _ _ _) _
  have filters : Raises [0, 2, 3, 4] (zeroFilterTables dev) :=
    .bind (.look _) fun _ => .bind (table _ _ _) fun _ => .bind (table _ _ _) fun _ =>
      .bind (table _ _ _) fun _ => .bind (table _ _ _) fun _ => table _ _ _
  have receive : Raises [0, 2, 3, 4] (configureReceive dev) :=
    .bind (.look _) fun _ => .bind (.regWriteField _ _ _ _ _) fun _ =>
      .bind (.forEach (fun _ => .regWriteField _ _ _ _ _) _) fun _ => .bind (.regWriteField _ _ _ _ _) fun _ =>
      .bind (.regSet _ _ _ _) fun _ => .bind (.regClear _ _ _ _) fun _ => .bind (.regSet _ _ _ _) fun _ =>
      .bind (.regSet _ _ _ _) fun _ => .regSet _ _ _ _
  have transmit : Raises [0, 2, 3, 4] (configureTransmit dev) :=
    .bind (.look _) fun _ => .bind (.regSet _ _ _ _) fun _ =>
      .bind (.forEach (fun _ => .regWriteField _ _ _ _ _) _) fun _ => .bind (.regWriteField _ _ _ _ _) fun _ =>
      .bind (.regWriteField _ _ _ _ _) fun _ => .regClear _ _ _ _
  exact .bind await fun _ => .bind filters fun _ => .bind receive fun _ => .bind transmit fun _ => .change _

theorem setPromiscuous_raises (dev : BitVec 8) (enable : Bool) : Raises [0, 4] (setPromiscuous dev enable) :=
  .bind (.regIsCleared _ _ _ _) fun _ => .guarded (.regClear _ _ _ _) fun _ =>
    .bind (.regWriteField _ _ _ _ _) fun _ => .bind (.regWriteField _ _ _ _ _) fun _ => .ite (.regSet _ _ _ _) (.pure _)

theorem openDevice_raises (bdf : W16) : Raises [0, 3, 4] (openDevice bdf) := by
  refine .bind (.look _) fun _ => .bind (.pciRegRead _ _ _) fun _ => .guarded (.raise 3 rfl (by decide)) fun _ => ?_
  refine .bind (.pciReadField _ _ _) fun _ => .guarded (.raise 3 rfl (by decide)) fun _ => ?_
  refine .bind (.pciSet _ _ _) fun _ => .bind (.pciSet _ _ _) fun _ => .bind (.pciSet _ _ _) fun _ => ?_
  refine .bind (.pciRegRead _ _ _) fun _ => .guarded (.raise 3 rfl (by decide)) fun _ => ?_
  refine .bind (.pciRegRead _ _ _) fun _ => .bind (.p2v _ _ _) fun answer => ?_
  cases answer with
  | none => exact .raise 3 rfl (by decide)
  | some va => exact .pure va

theorem requireLegal_raises (sel : RegSel) (index : W16) : Raises [0, 4] (requireLegal sel index) :=
  .bind (.look _) fun _ => .ite (.refuse _) (.pure _)

theorem readSelected_raises (dev : BitVec 8) (sel : RegSel) (index : W16) :
    Raises [0, 4] (readSelected dev sel index) := by
  refine .bind (.look _) fun _ => ?_
  match sel with
  | .dev _ none => exact .regRead _ _ _ _
  | .dev _ (some _) => exact .regReadField _ _ _ _
  | .pci _ none => exact .pciRegRead _ _ _
  | .pci _ (some _) => exact .pciReadField _ _ _

theorem writeSelected_raises (dev : BitVec 8) (sel : RegSel) (index : W16) (value : W32) :
    Raises [0, 4] (writeSelected dev sel index value) := by
  refine .bind (.look _) fun _ => ?_
  match sel with
  | .dev _ none => exact .regWrite _ _ _ _ _
  | .dev _ (some _) => exact .regWriteField _ _ _ _ _
  | .pci _ none => exact .bind (.look _) fun _ => .pciWrite _ _ _ _
  | .pci _ (some _) => exact .pciWriteField _ _ _ _

theorem constructEngine_raises : Raises [0, 1, 4] constructEngine := by
  have block (line size : Nat) (site : AllocSite) (got : List W64) :
      Raises [0, 1, 4] (allocOrUnwind line size site got) := by
    refine .bind (.alloc _ _ _) fun r => ?_
    cases r with
    | none => exact .bind (.forEach (fun _ => .free _ _) _) fun _ => .raise 1 rfl (by decide)
    | some a => exact .pure a
  have ring (n : Nat) (got : List W64) : Raises [0, 1, 4] (allocRing n got) :=
    .bind (.look _) fun _ => block _ _ _ _
  exact .bind (.look _) fun _ => .bind (ring _ _) fun _ => .bind (ring _ _) fun _ => .bind (ring _ _) fun _ =>
    .bind (ring _ _) fun _ => .bind (block _ _ _ _) fun _ => .bind (block _ _ _ _) fun _ => .change _

theorem bindInput_raises (dev : BitVec 8) : Raises [0, 1, 2, 4] (bindInput dev) := by
  have program (q : Nat) : Raises [0, 1, 2, 4] (programInput dev q) :=
    .bind (.look _) fun _ => .bind (.v2pOrRaise _ _ _ (by decide)) fun _ => .bind (.regWrite _ _ _ _ _) fun _ =>
      .bind (.regWrite _ _ _ _ _) fun _ => .bind (.regWrite _ _ _ _ _) fun _ =>
      .bind (.regWriteField _ _ _ _ _) fun _ => .regSet _ _ _ _
  have start (q : Nat) : Raises [0, 1, 2, 4] (startInput dev q) := by
    refine .bind (.look _) fun _ => .bind (.regSet _ _ _ _) fun _ => .bind (.poll _ _ _ _ _) fun _ =>
      .guarded (.raise 2 rfl (by decide)) fun _ => ?_
    refine .bind (.regWrite _ _ _ _ _) fun _ => .bind (.regSet _ _ _ _) fun _ => .bind (.poll _ _ _ _ _) fun _ =>
      .guarded (.raise 2 rfl (by decide)) fun _ => ?_
    exact .bind (.regSet _ _ _ _) fun _ => .bind (.regClear _ _ _ _) fun _ => .bind (.regSet _ _ _ _) fun _ =>
      .regWriteField _ _ _ _ _
  exact .bind (.look _) fun _ => .guarded (.raise 4 rfl (by decide)) fun _ => .bind (.regIsCleared _ _ _ _) fun _ =>
    .guarded (.raise 4 rfl (by decide)) fun _ => .bind (program _) fun _ => .bind (start _) fun _ => .change _

theorem bindOutput_raises (dev queue : BitVec 8) : Raises [0, 1, 2, 4] (bindOutput dev queue) := by
  have slot (n : Fin 4) (i : Nat) : Raises [0, 1, 2, 4] (fillSlot n i) :=
    .bind (.look _) fun _ => .bind (.v2pOrRaise _ _ _ (by decide)) fun _ => .bind (.memWrite _ _ _ _ _) fun _ =>
      .bind (.memRead _ _ _ _) fun _ => .pure _
  have program (n : Fin 4) (q : Nat) : Raises [0, 1, 2, 4] (programOutput dev n q) :=
    .bind (.look _) fun _ => .bind (.v2pOrRaise _ _ _ (by decide)) fun _ => .bind (.regWrite _ _ _ _ _) fun _ =>
      .bind (.regWrite _ _ _ _ _) fun _ => .bind (.regWrite _ _ _ _ _) fun _ =>
      .bind (.regWriteField _ _ _ _ _) fun _ => .regWriteField _ _ _ _ _
  have writeBack (n : Fin 4) (q : Nat) : Raises [0, 1, 2, 4] (programWriteBack dev n q) :=
    .bind (.look _) fun _ => .bind (.v2pOrRaise _ _ _ (by decide)) fun _ => .guarded (.raise 4 rfl (by decide)) fun _ =>
      .bind (.regWrite _ _ _ _ _) fun _ => .bind (.regWrite _ _ _ _ _) fun _ => .regClear _ _ _ _
  have start (q : Nat) : Raises [0, 1, 2, 4] (startOutput dev q) :=
    .bind (.regSet _ _ _ _) fun _ => .bind (.regSet _ _ _ _) fun _ => .bind (.poll _ _ _ _ _) fun _ =>
      .ite (.raise 2 rfl (by decide)) (.pure _)
  have bind (q : Nat) (n : Fin 4) : Raises [0, 1, 2, 4] (bindOutputAs dev q n) :=
    .bind (.look _) fun _ => .guarded (.raise 4 rfl (by decide)) fun _ => .bind (.regIsCleared _ _ _ _) fun _ =>
      .guarded (.raise 4 rfl (by decide)) fun _ => .bind (.forEach (slot n) _) fun _ => .bind (program _ _) fun _ =>
      .bind (writeBack _ _) fun _ => .bind (start _) fun _ => .change _
  refine .bind (.look _) fun oc => ?_
  split
  · exact bind _ _
  · exact .raise 4 rfl (by decide)

/-- The hot path raises nothing at all (R300, R375). -/
theorem receiveSteps_raises (line : Nat) : Raises [] (receiveSteps line) := by
  have idle (line : Nat) : Raises [] (receiveIdle line) :=
    .bind (.look _) fun _ => .ite (.bind (.flushTails _) fun _ => .change _) (.ite (.change _) (.pure _))
  exact .bind (.look _) fun _ => .bind (.memRead _ _ _ _) fun _ => .ite (.pure _) (.bind (idle _) fun _ => .pure _)

theorem transmitSteps_raises (line : Nat) (len : W16) (mask : BitVec 4) : Raises [] (transmitSteps line len mask) := by
  have descriptors (line : Nat) (rs : Bool) : Raises [] (writeDescriptors line len mask rs) :=
    .bind (.look _) fun _ => .forEach (fun _ => .memWrite _ _ _ _ _) _
  have flush (line : Nat) : Raises [] (flushIfDue line) :=
    .bind (.look _) fun _ => .ite (.bind (.flushTails _) fun _ => .change _) (.pure _)
  have scan (line : Nat) (l : List (Fin 4)) (best : W64 × W64) : Raises [] (scanHeads line l best) := by
    induction l generalizing best with
    | nil => exact .pure best
    | cons n rest ih => exact .bind (.look _) fun _ => .bind (.memRead _ _ _ _) fun _ => ih _
  have recycled (line : Nat) : Raises [] (recycle line) :=
    .bind (.look _) fun _ => .bind (scan _ _ _) fun _ => .mmioWriteAt _ _ _
  exact .bind (.look _) fun _ => .bind (descriptors _ _) fun _ => .bind (.change _) fun _ => .bind (flush _) fun _ =>
    .ite (recycled _) (.pure _)

theorem processSteps_raises : Raises [] processSteps :=
  .bind (receiveSteps_raises 1) fun _ => .ite (.bind (.look _) fun _ => .bind (.callHandler _ _ _) fun _ =>
    .guarded (.refuse _) fun _ => transmitSteps_raises _ _ _) (.pure _)

/-- Every failure that a command raises has a code of R371 for it. -/
theorem body_raises (i : Instr) : Raises (resultCodes i) (body i) := by
  cases i with
  | devOpen dev bdf => exact .bind (openDevice_raises bdf) fun _ => .bind (.change _) fun _ => .pure _
  | devReset dev => exact .bind (resetDevice_raises dev) fun _ => .pure _
  | devInit dev => exact .bind (initDevice_raises dev) fun _ => .pure _
  | setPromisc dev enable => exact .bind (setPromiscuous_raises dev enable) fun _ => .pure _
  | regRead dev sel index =>
    exact .bind (requireLegal_raises sel index) fun _ => .bind (readSelected_raises dev sel index) fun _ => .pure _
  | regWrite dev sel index value =>
    exact .bind (requireLegal_raises sel index) fun _ =>
      .bind (writeSelected_raises dev sel index value) fun _ => .pure _
  | engConstruct => exact .bind constructEngine_raises fun _ => .pure _
  | bindInput dev => exact .bind (bindInput_raises dev) fun _ => .pure _
  | bindOutput dev queue => exact .bind (bindOutput_raises dev queue) fun _ => .pure _
  | receive => exact .bind (receiveSteps_raises 1).of_nothing fun _ => .pure _
  | transmit len mask => exact .bind (transmitSteps_raises 1 len mask).of_nothing fun _ => .pure _
  | process => exact .bind processSteps_raises.of_nothing fun _ => .pure _

/-! The response. -/

/-- Micro-steps that end with no values return none. -/
theorem eq_noValues_of_run {α : Type} {m : Micro α} {s t : State} {v : W64 × W64}
    (h : (m >>= fun _ => (pure noValues : Micro (W64 × W64))) s = .ok v t) : v = noValues := by
  rw [Micro.run_bind] at h
  cases hm : m s with
  | ok a u =>
    rw [hm] at h
    cases h
    rfl
  | error e u =>
    rw [hm] at h
    cases h

/-- Of the commands that return, only RECEIVE and REG_READ have values (R114). -/
theorem body_noValues {i : Instr} {s t : State} {v : W64 × W64} (h : body i s = .ok v t) (hr : i ≠ .receive)
    (hg : ∀ dev sel index, i ≠ .regRead dev sel index) : v = noValues := by
  cases i with
  | receive => exact absurd rfl hr
  | regRead dev sel index => exact absurd rfl (hg dev sel index)
  | devOpen dev bdf =>
    rw [body, ← bind_assoc] at h
    exact eq_noValues_of_run h
  | regWrite dev sel index value =>
    rw [body, ← bind_assoc] at h
    exact eq_noValues_of_run h
  | _ => exact eq_noValues_of_run h

/-- Every command can end with `OK`, and can be refused (R371, R376). -/
theorem ok_mem_resultCodes (i : Instr) : 0 ∈ resultCodes i := by cases i <;> simp [resultCodes]

theorem precondition_mem_resultCodes (i : Instr) : 4 ∈ resultCodes i := by cases i <;> simp [resultCodes]

/-- Settles O13: the command is refused, returns, or raises one of its failures. -/
theorem everyCommandResponds : Obligations.EveryCommandResponds := by
  intro i s t h
  rw [exec_eq] at h
  obtain ⟨-, rfl⟩ | ⟨-, v, u, hrun, rfl⟩ | ⟨-, f, u, hrun, rfl⟩ := runCommand_next h
  · exact ⟨rfl, _, rfl, precondition_mem_resultCodes i, fun _ => ⟨rfl, rfl⟩⟩
  · refine ⟨rfl, _, rfl, ok_mem_resultCodes i, fun hzero => ?_⟩
    obtain hne | ⟨hr, hg⟩ := hzero
    · exact absurd rfl hne
    · rw [body_noValues hrun hr hg]
      exact ⟨rfl, rfl⟩
  · have hraise := body_raises i (s.start i) trivial
    rw [State.start, hrun] at hraise
    exact ⟨rfl, _, rfl, hraise, fun _ => ⟨rfl, rfl⟩⟩

end Sys2Proof.Machine
end

section
/-! SUPPORT. What TRANSMIT writes to memory where no other agent moves (R123, R124, R312): the words it stores, bit by
bit, and the slots they are stored in. -/

namespace Sys2Proof.Machine

/-! Descriptor words (R121, R123, R124). -/

/-- The fields of word 1 lie in it and do not overlap (R121). -/
theorem Config.desc_layout {c : Config} (h : c.legal = true) :
    c.desc.lenLo + c.lenBits ≤ 64 ∧
    (∀ b ∈ [c.desc.eop, c.desc.ifcs, c.desc.rs, c.desc.dd],
      b < 64 ∧ ¬ (c.desc.lenLo ≤ b ∧ b < c.desc.lenLo + c.lenBits)) ∧
    [c.desc.eop, c.desc.ifcs, c.desc.rs, c.desc.dd].Nodup := by
  have hd : c.desc.ok c.lenBits = true := by
    simp only [Config.legal, Bool.and_eq_true] at h
    exact h.1.1.1.2
  simp only [DescLayout.ok, Bool.and_eq_true, decide_eq_true_eq, List.all_eq_true, Bool.not_eq_true',
    Bool.and_eq_false_iff, decide_eq_false_iff_not] at hd
  obtain ⟨⟨hlen, hflags⟩, hnodup⟩ := hd
  refine ⟨hlen, fun b hb => ?_, hnodup⟩
  obtain ⟨hlt, hout⟩ := hflags b hb
  exact ⟨hlt, by tauto⟩

/-- One bit set at a place inside the word. -/
theorem getLsbD_flag (x : Bool) {k : Nat} (hk : k < 64) (b : Nat) :
    ((if x then 1#64 else 0#64) <<< k).getLsbD b = (x && decide (b = k)) := by
  rw [BitVec.getLsbD_shiftLeft]
  cases x with
  | false => simp
  | true =>
    simp only [if_true, BitVec.getLsbD_one, Bool.true_and]
    by_cases h : b = k
    · simp [h, hk]
    · simp only [h, decide_false]
      by_cases hlt : b < k
      · simp [hlt]
      · simp [show b - k ≠ 0 by omega]

/-- The bits of a length in its place. -/
theorem getLsbD_lenField {c : Config} (hc : c.desc.lenLo + c.lenBits ≤ 64) (len : W16) (b : Nat) :
    (lenField c len).getLsbD b =
      (decide (c.desc.lenLo ≤ b ∧ b < c.desc.lenLo + c.lenBits) && len.getLsbD (b - c.desc.lenLo)) := by
  rw [lenField, lenMask, BitVec.getLsbD_shiftLeft, BitVec.getLsbD_and, BitVec.getLsbD_setWidth, BitVec.getLsbD_ofNat,
    Nat.testBit_two_pow_sub_one]
  by_cases hlo : c.desc.lenLo ≤ b
  · by_cases hhi : b < c.desc.lenLo + c.lenBits
    · simp [hlo, hhi, show b < 64 by omega, show ¬ b < c.desc.lenLo by omega, show b - c.desc.lenLo < 64 by omega,
        show b - c.desc.lenLo < c.lenBits by omega]
    · simp [hhi, show ¬ b - c.desc.lenLo < c.lenBits by omega]
  · simp [hlo, show b < c.desc.lenLo by omega]

/-- Every bit of word 1 in transmit form (R123, R124). -/
theorem getLsbD_txWord {c : Config} (hc : c.legal = true) (len : W16) (rs : Bool) (b : Nat) :
    (txWord c len rs).getLsbD b =
      ((decide (c.desc.lenLo ≤ b ∧ b < c.desc.lenLo + c.lenBits) && len.getLsbD (b - c.desc.lenLo)) ||
        decide (b = c.desc.eop) || decide (b = c.desc.ifcs) || (rs && decide (b = c.desc.rs))) := by
  obtain ⟨hlen, hflags, -⟩ := Config.desc_layout hc
  have heop := getLsbD_flag true (hflags c.desc.eop (by simp)).1 b
  have hifcs := getLsbD_flag true (hflags c.desc.ifcs (by simp)).1 b
  have hrs := getLsbD_flag rs (hflags c.desc.rs (by simp)).1 b
  simp only [if_true, Bool.true_and] at heop hifcs
  rw [txWord, BitVec.getLsbD_or, BitVec.getLsbD_or, BitVec.getLsbD_or, getLsbD_lenField hlen, heop, hifcs, hrs]

/-- The length that word 1 in transmit form holds: its `LEN_BITS` low bits (log 35). -/
theorem txWord_length {c : Config} (hc : c.legal = true) (len : W16) (rs : Bool) :
    (txWord c len rs).toNat / 2 ^ c.desc.lenLo % 2 ^ c.lenBits = len.toNat % 2 ^ c.lenBits := by
  obtain ⟨-, hflags, -⟩ := Config.desc_layout hc
  apply Nat.eq_of_testBit_eq
  intro i
  rw [Nat.testBit_mod_two_pow, Nat.testBit_mod_two_pow, Nat.testBit_div_two_pow, BitVec.testBit_toNat,
    BitVec.testBit_toNat, getLsbD_txWord hc]
  by_cases hi : i < c.lenBits
  · have notFlag {k : Nat} (hk : k ∈ [c.desc.eop, c.desc.ifcs, c.desc.rs, c.desc.dd]) : i + c.desc.lenLo ≠ k := by
      rintro rfl
      exact (hflags _ hk).2 ⟨by omega, by omega⟩
    simp [hi, notFlag (k := c.desc.eop) (by simp), notFlag (k := c.desc.ifcs) (by simp),
      notFlag (k := c.desc.rs) (by simp), Nat.add_comm c.desc.lenLo]
  · simp [hi]

/-! Words stored one after the other. -/

/-- Memory after 8-byte words were stored for each `n` of a list. -/
def writeWords (addr : Fin 4 → Nat) (v : Fin 4 → W64) (m : List Host.Cell) : List (Fin 4) → List Host.Cell
  | [] => m
  | n :: rest => writeWords addr v (Memory.writeLE m (addr n) 8 (v n).toNat) rest

theorem read_writeWords_of_outside {addr : Fin 4 → Nat} {v : Fin 4 → W64} {m : List Host.Cell} {l : List (Fin 4)}
    {a : Nat} (h : ∀ n ∈ l, a < addr n ∨ addr n + 8 ≤ a) :
    Memory.read (writeWords addr v m l) a = Memory.read m a := by
  induction l generalizing m with
  | nil => rfl
  | cons n rest ih =>
    rw [writeWords, ih fun k hk => h k (List.mem_cons_of_mem _ hk),
      Memory.read_writeLE_outside _ _ _ _ (h n List.mem_cons_self)]

theorem readLE_writeWords {addr : Fin 4 → Nat} {v : Fin 4 → W64} {m : List Host.Cell} {l : List (Fin 4)}
    (hm : Memory.wf m = true) (hl : l.Pairwise fun i j => addr i + 8 ≤ addr j ∨ addr j + 8 ≤ addr i) {n : Fin 4}
    (hn : n ∈ l) : Memory.readLE (writeWords addr v m l) (addr n) 8 = (v n).toNat := by
  induction l generalizing m with
  | nil => exact (List.not_mem_nil hn).elim
  | cons k rest ih =>
    obtain ⟨hk, hrest⟩ := List.pairwise_cons.1 hl
    rw [writeWords]
    by_cases hin : n ∈ rest
    · exact ih (Memory.wf_writeLE _ _ _ hm) hrest hin
    · obtain rfl : n = k := (List.mem_cons.1 hn).resolve_right hin
      rw [Memory.readLE_congr (m' := Memory.writeLE m (addr n) 8 (v n).toNat), Memory.readLE_writeLE_self _ _ _ hm]
      · exact Nat.mod_eq_of_lt (v n).isLt
      · intro x h1 h2
        refine read_writeWords_of_outside fun j hj => ?_
        have := hk j hj
        omega

/-! Where the words are stored (R37). -/

section Slots
variable {s : State}

theorem Built.ring_block (h : Built s) (n : Fin 4) : s.hasBlock s.eng.ring[n] (ringBytes s.cfg) :=
  h.engine.live (s.eng.ring[n], ringBytes s.cfg) (by simp [engineRegions])

/-- Word 1 of slot `PD` of a ring, as a number: no address of a ring wraps around. -/
theorem Built.slot_toNat (h : Built s) (n : Fin 4) :
    (s.eng.wordAddr n s.eng.pd 1).toNat = s.eng.ring[n].toNat + 16 * s.eng.pd.toNat + 8 := by
  obtain ⟨b, hb, hbase, hsize⟩ := h.ring_block n
  obtain ⟨-, hend, -⟩ := h.whole.blocks.inside b hb
  have hpd := h.engine.pd
  rw [hbase, hsize, ringBytes, descSize] at hend
  rw [Engine.wordAddr, BitVec.toNat_add, BitVec.toNat_ofNat, descSize]
  omega

/-- Of two pieces of memory that are apart, one ends before the other begins. -/
theorem apart.ordered {a b : W64 × Nat} (h : apart a b) (ha : 0 < a.2) (hb : 0 < b.2) :
    a.1.toNat + a.2 ≤ b.1.toNat ∨ b.1.toNat + b.2 ≤ a.1.toNat := by
  simp only [apart, overlap, Bool.and_eq_false_iff, decide_eq_false_iff_not] at h
  omega

/-- Two rings have no byte in common (R352). -/
theorem Built.rings_apart (h : Built s) {i j : Fin 4} (hij : i ≠ j) :
    apart (s.eng.ring[i], ringBytes s.cfg) (s.eng.ring[j], ringBytes s.cfg) := by
  have hpair : s.eng.ring.toList.Pairwise fun a b => apart (a, ringBytes s.cfg) (b, ringBytes s.cfg) :=
    List.pairwise_map.1 (List.pairwise_append.1 h.engine.disjoint).1
  have ordered {i j : Fin 4} (hlt : i < j) :
      apart (s.eng.ring[i], ringBytes s.cfg) (s.eng.ring[j], ringBytes s.cfg) := by
    have := List.pairwise_iff_getElem.1 hpair i.val j.val (by simp) (by simp) hlt
    simpa using this
  rcases lt_or_gt_of_ne hij with hlt | hgt
  · exact ordered hlt
  · exact apart_symm (ordered hgt)

theorem Built.slots_apart (h : Built s) {i j : Fin 4} (hij : i ≠ j) :
    (s.eng.wordAddr i s.eng.pd 1).toNat + 8 ≤ (s.eng.wordAddr j s.eng.pd 1).toNat ∨
      (s.eng.wordAddr j s.eng.pd 1).toNat + 8 ≤ (s.eng.wordAddr i s.eng.pd 1).toNat := by
  have hpd := h.engine.pd
  have hpos : 0 < ringBytes s.cfg := by
    rw [ringBytes, descSize]
    omega
  have hap := (h.rings_apart hij).ordered hpos hpos
  simp only [ringBytes, descSize] at hap
  rw [h.slot_toNat i, h.slot_toNat j]
  omega

theorem State.outputs_nodup (s : State) : s.outputs.Nodup := (List.nodup_finRange 4).filter _

theorem State.mem_outputs {n : Fin 4} : n ∈ s.outputs ↔ n.val < s.eng.oc.toNat := by simp [State.outputs]

end Slots

/-! TRANSMIT's micro-steps, and memory. -/

section Steps
variable {α β : Type} {m : List Host.Cell}

/-- No other agent has a move coming, and memory is `m`. -/
def MemoryIs (m : List Host.Cell) (t : State) : Prop := t.agenda = [] ∧ t.mem = m

theorem MemoryIs.boundary {t : State} (h : MemoryIs m t) (line : Nat) : MemoryIs m (t.boundary line) := by
  rw [State.boundary_eq_self h.1]
  exact h

/-- The micro-steps `x` return, from memory `m` with memory `m'`, or fault. -/
def Stores (m m' : List Host.Cell) (x : Micro α) : Prop :=
  Triple (MemoryIs m) x (fun _ => MemoryIs m') (fun _ _ => False) fun _ => True

theorem Stores.pure (a : α) : Stores m m (pure a : Micro α) := Triple.pure fun _ h => h

theorem Stores.bind {m' m'' : List Host.Cell} {x : Micro α} {k : α → Micro β} (h : Stores m m' x)
    (hk : ∀ a, Stores m' m'' (k a)) : Stores m m'' (x >>= k) := Triple.bind h hk

theorem Stores.look (f : State → α) : Stores m m (look f) := Triple.look fun _ h => h

/-- A change of the engine registers. -/
theorem Stores.setEng (f : State → Engine) : Stores m m (change fun s => { s with eng := f s }) :=
  Triple.change fun _ h => h

theorem Stores.memRead (line : Nat) (acq : Bool) (a : W64) (n : Nat) : Stores m m (memRead line acq a n) := by
  intro s hs
  by_cases he : s.memExists a.toNat n = true
  · rw [memRead_run line acq he]
    exact hs.boundary line
  · rw [memRead_fault line acq (by simpa using he)]
    trivial

theorem Stores.memWrite (line : Nat) (rel : Bool) (a : W64) (n : Nat) (v : W64) :
    Stores m (Memory.writeLE m a.toNat n v.toNat) (memWrite line rel a n v) := by
  intro s hs
  by_cases he : s.memExists a.toNat n = true
  · rw [memWrite_run line rel v he]
    obtain ⟨hagenda, hmem⟩ := hs.boundary line
    exact ⟨hagenda, by rw [← hmem]; rfl⟩
  · rw [memWrite_fault line rel v (by simpa using he)]
    trivial

theorem Stores.mmioWriteAt (line : Nat) (a : W64) (v : W32) : Stores m m (mmioWriteAt line a v) := by
  intro s hs
  cases hw : s.windowAt a with
  | some p =>
    rw [mmioWriteAt_run line v hw]
    exact hs.boundary line
  | none =>
    simp only [Machine.mmioWriteAt, State.boundary_windowAt, hw]

theorem Stores.forEach {body : α → Micro Unit} (h : ∀ x, Stores m m (body x)) (l : List α) :
    Stores m m (forEach l body) := Triple.forEach fun x _ => h x

theorem Stores.words (line : Nat) (addr v : Fin 4 → W64) (l : List (Fin 4)) :
    Stores m (writeWords (fun n => (addr n).toNat) v m l)
      (Machine.forEach l fun n => Machine.memWrite line true (addr n) 8 (v n)) := by
  induction l generalizing m with
  | nil => exact .pure ()
  | cons n rest ih => exact .bind (.memWrite line true _ 8 _) fun _ => ih

theorem Stores.flushTails (line : Nat) : Stores m m (flushTails line) :=
  .bind (.look _) fun _ => .forEach (fun _ => .mmioWriteAt _ _ _) _

theorem Stores.flushIfDue (line : Nat) : Stores m m (flushIfDue line) := by
  refine .bind (.look _) fun _ => ?_
  split
  · exact .bind (.flushTails _) fun _ => .setEng _
  · exact .pure _

theorem Stores.recycle (line : Nat) : Stores m m (recycle line) := by
  have scan (l : List (Fin 4)) (best : W64 × W64) : Stores m m (scanHeads line l best) := by
    induction l generalizing best with
    | nil => exact .pure best
    | cons n rest ih => exact .bind (.look _) fun _ => .bind (.memRead _ _ _ _) fun _ => ih _
  exact .bind (.look _) fun _ => .bind (scan _ _) fun _ => .mmioWriteAt _ _ _

/-- Word 1 of slot `PD` of ring `n`, as TRANSMIT writes it. -/
def State.sentWord (s : State) (len : W16) (mask : BitVec 4) (n : Fin 4) : W64 :=
  txWord s.cfg (if mask.getLsbD n.val then len else 0) (rsSlot s.cfg s.eng.pd)

/-- Memory after a TRANSMIT. -/
def State.memoryAfterTransmit (s : State) (len : W16) (mask : BitVec 4) : List Host.Cell :=
  writeWords (fun n => (s.eng.wordAddr n s.eng.pd 1).toNat) (s.sentWord len mask) s.mem s.outputs

/-- TRANSMIT stores the words of its descriptors and nothing else (R312). -/
theorem transmitSteps_stores {s : State} (hq : s.quiet) (line : Nat) (len : W16) (mask : BitVec 4) :
    Triple (· = s) (transmitSteps line len mask) (fun _ => MemoryIs (s.memoryAfterTransmit len mask)) (fun _ _ => False)
      fun _ => True := by
  have descriptors : Triple (· = s) (writeDescriptors line len mask (rsSlot s.cfg s.eng.pd))
      (fun _ => MemoryIs (s.memoryAfterTransmit len mask)) (fun _ _ => False) fun _ => True := by
    intro t ht
    rw [ht]
    exact Stores.words line _ _ _ s ⟨hq, rfl⟩
  refine Triple.bind (Q := fun rs t => rs = rsSlot s.cfg s.eng.pd ∧ t = s)
    (.look fun t ht => by rw [ht]; exact ⟨rfl, rfl⟩) fun rs => .of_fact fun hrs => ?_
  subst hrs
  refine .bind descriptors fun _ => Stores.bind (Stores.setEng fun t => { t.eng with pd := slotAdd t.cfg t.eng.pd 1 })
    fun _ => Stores.bind (Stores.flushIfDue _) fun _ => ?_
  split
  · exact Stores.recycle _
  · exact Stores.pure ()

end Steps

/-- A TRANSMIT that ends where no other agent moves has stored its descriptors and changed no other byte. -/
theorem exec_transmit_mem {s t : State} {len : W16} {mask : BitVec 4} (hq : s.quiet)
    (ha : accepts (.transmit len mask) s) (h : exec (.transmit len mask) s = .next t) :
    t.mem = s.memoryAfterTransmit len mask := by
  have hT := Triple.return (transmitSteps_stores (s := s.start (.transmit len mask)) hq 1 len mask) noValues
  rcases exec_of_triple (i := .transmit len mask) (P := (· = s.start (.transmit len mask))) hT rfl h with
    ⟨hna, -⟩ | ⟨-, ⟨v, u, hu, rfl⟩ | ⟨f, u, hf, -⟩⟩
  · exact (hna ha).elim
  · exact hu.2
  · exact hf.elim

section Words
variable {s : State}

/-- The word a bound ring's slot holds after a TRANSMIT. -/
theorem Built.read_sentWord (h : Built s) (len : W16) (mask : BitVec 4) {n : Fin 4} (hn : n.val < s.eng.oc.toNat) :
    Memory.readLE (s.memoryAfterTransmit len mask) (s.eng.ring[n].toNat + 16 * s.eng.pd.toNat + 8) 8 =
      (s.sentWord len mask n).toNat := by
  rw [← h.slot_toNat n]
  exact readLE_writeWords h.whole.sound.memory (s.outputs_nodup.imp h.slots_apart) (State.mem_outputs.2 hn)

theorem Built.read_outside_sent (h : Built s) (len : W16) (mask : BitVec 4) {a : Nat}
    (ha : ∀ n : Fin 4, n.val < s.eng.oc.toNat →
      a < s.eng.ring[n].toNat + 16 * s.eng.pd.toNat + 8 ∨ s.eng.ring[n].toNat + 16 * s.eng.pd.toNat + 8 + 8 ≤ a) :
    Memory.read (s.memoryAfterTransmit len mask) a = Memory.read s.mem a :=
  read_writeWords_of_outside fun n hn => by
    rw [h.slot_toNat n]
    exact ha n (State.mem_outputs.1 hn)

end Words

theorem transmitWord_fields {c : Config} (hc : c.legal = true) (len : W16) (pd : W64) :
    (txWord c len (rsSlot c pd)).getLsbD c.desc.eop = true ∧ (txWord c len (rsSlot c pd)).getLsbD c.desc.ifcs = true ∧
    ((txWord c len (rsSlot c pd)).getLsbD c.desc.rs = true ↔ pd.toNat % c.transmitPeriod = c.rsPhase) ∧
    (txWord c len (rsSlot c pd)).getLsbD c.desc.dd = false ∧
    ∀ b, ¬ (c.desc.lenLo ≤ b ∧ b < c.desc.lenLo + c.lenBits) → b ≠ c.desc.eop → b ≠ c.desc.ifcs → b ≠ c.desc.rs →
      (txWord c len (rsSlot c pd)).getLsbD b = false := by
  obtain ⟨-, hflags, hnodup⟩ := Config.desc_layout hc
  have hout {k : Nat} (hk : k ∈ [c.desc.eop, c.desc.ifcs, c.desc.rs, c.desc.dd]) :
      ¬ (c.desc.lenLo ≤ k ∧ k < c.desc.lenLo + c.lenBits) := (hflags k hk).2
  simp only [List.nodup_cons, List.mem_cons, List.not_mem_nil, or_false, not_or] at hnodup
  obtain ⟨⟨hei, her, hed⟩, ⟨hir, hid⟩, hrd, -⟩ := hnodup
  simp only [getLsbD_txWord hc]
  refine ⟨by simp, by simp, ?_, ?_, ?_⟩
  · simp [hout (k := c.desc.rs), Ne.symm her, Ne.symm hir, rsSlot]
  · simp [hout (k := c.desc.dd), Ne.symm hed, Ne.symm hid, Ne.symm hrd]
  · intro b hb he hi hr
    simp [hb, he, hi, hr]

/-- Settles O48: a TRANSMIT's micro-steps store word 1 of slot `PD` of every bound ring and nothing else, the slots do
not overlap, and each bit of the word is the one its layout gives. -/
theorem transmitWritesDescriptors : Obligations.TransmitWritesDescriptors := by
  intro s t len mask hinv hq ha hexec slot word d
  have hb : Built s := ⟨(inv_iff.1 hinv).1, ha.1⟩
  have hmem : t.mem = s.memoryAfterTransmit len mask := exec_transmit_mem hq ha hexec
  refine ⟨fun n hn => ?_, fun a hout => ?_⟩
  · have hword : word n = s.sentWord len mask n := by
      simp only [word, slot, hmem, hb.read_sentWord len mask hn, BitVec.ofNat_toNat, BitVec.setWidth_eq]
    have hc := hb.legal
    rw [hword, State.sentWord]
    refine ⟨?_, transmitWord_fields hc _ _⟩
    rw [txWord_length hc]
    split <;> simp
  · rw [hmem]
    exact hb.read_outside_sent len mask hout

end Sys2Proof.Machine
end

section
/-! SUPPORT. Where the sequencer stands and what the last response was have no part in what micro-steps do (R27, R40):
RECEIVE, the handler's micro-step and TRANSMIT do the same as commands of their own and inside PROCESS (R331, R333). -/

namespace Sys2Proof.Machine

/-! States that differ in nothing but the sequencer and the response. -/

/-- The state `s` with another sequencer and another response. -/
def State.relabel (s : State) (pc : Sequencer) (resp : Option Response) : State := { s with pc := pc, resp := resp }

/-- The states differ in the sequencer and the response at most. -/
def State.Alike (s t : State) : Prop := ∃ pc resp, t = s.relabel pc resp

theorem State.Alike.symm {s t : State} (h : s.Alike t) : t.Alike s := by
  obtain ⟨pc, resp, rfl⟩ := h
  exact ⟨s.pc, s.resp, rfl⟩

theorem State.Alike.trans {s t u : State} (h : s.Alike t) (h' : t.Alike u) : s.Alike u := by
  obtain ⟨pc, resp, rfl⟩ := h
  obtain ⟨pc', resp', rfl⟩ := h'
  exact ⟨pc', resp', rfl⟩

theorem State.alike_start (s : State) (i : Instr) : s.Alike (s.start i) := ⟨⟨some i, 1⟩, s.resp, rfl⟩

theorem State.alike_respond (s : State) (res : BitVec 8) (v w : W64) : s.Alike (s.respond res v w) :=
  ⟨Sequencer.idle, some ⟨res, v, w⟩, rfl⟩

theorem State.Alike.respond_eq {s t : State} (h : s.Alike t) (res : BitVec 8) (v w : W64) :
    s.respond res v w = t.respond res v w := by
  obtain ⟨pc, resp, rfl⟩ := h
  rfl

/-! The other agents do not look at the sequencer or the response (R340). -/

section Agents
variable (s : State) (pc : Sequencer) (resp : Option Response)

theorem State.dmaRead_relabel (p n : Nat) : (s.relabel pc resp).dmaRead p n = s.dmaRead p n := by
  induction n generalizing p with
  | zero => rfl
  | succ n ih =>
    rw [State.dmaRead, State.dmaRead, ih]
    rfl

theorem State.dmaWrite_relabel (p : Nat) (l : List Byte) :
    (s.relabel pc resp).dmaWrite p l = (s.dmaWrite p l).relabel pc resp := by
  induction l generalizing s p with
  | nil => rfl
  | cons b rest ih =>
    have hv : (s.relabel pc resp).physToVirt p = s.physToVirt p := rfl
    rw [State.dmaWrite, State.dmaWrite, hv, ← ih]
    cases s.physToVirt p <;> rfl

theorem State.ite_relabel {p : Prop} [Decidable p] (t u : State) :
    (if p then t.relabel pc resp else u.relabel pc resp) = (if p then t else u).relabel pc resp := by split <;> rfl

theorem State.setNic_relabel (bdf : W16) (n : Nic) :
    (s.relabel pc resp).setNic bdf n = (s.setNic bdf n).relabel pc resp := rfl

theorem State.txDescriptor_relabel (n : Nic) (q i : Nat) :
    (s.relabel pc resp).txDescriptor n q i = s.txDescriptor n q i := by
  rw [State.txDescriptor, State.txDescriptor, State.dmaRead_relabel, State.dmaRead_relabel]
  rfl

theorem AgentAct.apply_relabel (act : AgentAct) :
    act.apply (s.relabel pc resp) = (act.apply s).relabel pc resp := by
  have hnic (bdf : W16) : (s.relabel pc resp).nic bdf = s.nic bdf := rfl
  have hcfg : (s.relabel pc resp).cfg = s.cfg := rfl
  cases act with
  | rxDeliver bdf q packet other =>
    simp only [AgentAct.apply, State.rxDeliver, hnic, hcfg, State.dmaRead_relabel, State.dmaWrite_relabel,
      State.setNic_relabel, State.ite_relabel]
  | txFetch bdf q =>
    simp only [AgentAct.apply, State.txFetch, hnic, hcfg, State.txDescriptor_relabel, State.setNic_relabel,
      State.ite_relabel]
  | txSend bdf q =>
    simp only [AgentAct.apply, State.txSend, hnic, hcfg, State.txDescriptor_relabel, State.dmaRead_relabel,
      State.setNic_relabel, State.ite_relabel]
  | txWriteBack bdf q =>
    simp only [AgentAct.apply, State.txWriteBack, hnic, hcfg, State.dmaWrite_relabel, State.setNic_relabel,
      State.ite_relabel]
  | _ => rfl

theorem runDue_relabel (l : List Due) : runDue l (s.relabel pc resp) = (runDue l s).relabel pc resp := by
  induction l generalizing s with
  | nil => rfl
  | cons d rest ih =>
    obtain ⟨_ | w, act⟩ := d
    · rw [runDue, runDue, AgentAct.apply_relabel, ih]
    · rfl

end Agents

/-- What happens between two micro-steps does not depend on where the sequencer stands (R27). -/
theorem State.Alike.boundary {s t : State} (h : s.Alike t) (line line' : Nat) :
    (s.boundary line).Alike (t.boundary line') := by
  obtain ⟨pc, resp, rfl⟩ := h
  have hagents : ((s.relabel pc resp).atStep line').agents =
      ((s.atStep line).agents).relabel ⟨pc.cmd, line'⟩ resp := runDue_relabel (s.atStep line) _ _ _
  exact ⟨⟨pc.cmd, line'⟩, resp, by rw [State.boundary, hagents]; rfl⟩

/-! Micro-steps that do the same. -/

section Rules
variable {α β : Type}

/-- The same value or the same stop, in states that are alike. -/
inductive SameEnd : EStateM.Result Stop State α → EStateM.Result Stop State α → Prop
  | ok (a : α) {s t : State} (h : s.Alike t) : SameEnd (.ok a s) (.ok a t)
  | error (e : Stop) {s t : State} (h : s.Alike t) : SameEnd (.error e s) (.error e t)

theorem SameEnd.of_ok {a : α} {u : State} {r : EStateM.Result Stop State α} (h : SameEnd (.ok a u) r) :
    ∃ u', r = .ok a u' ∧ u.Alike u' := by
  cases h with
  | ok _ h => exact ⟨_, rfl, h⟩

/-- From states that are alike the micro-steps `m` and `m'` end the same. -/
def DoesAs (m m' : Micro α) : Prop := ∀ s t : State, s.Alike t → SameEnd (m s) (m' t)

/-- What micro-steps return from one of two states that are alike they return from the other. -/
theorem DoesAs.run_ok {m m' : Micro α} (hm : DoesAs m m') {s t u : State} (h : s.Alike t) {a : α}
    (hr : m s = .ok a u) : ∃ u', m' t = .ok a u' ∧ u.Alike u' := by
  have hs := hm s t h
  rw [hr] at hs
  exact hs.of_ok

theorem DoesAs.pure (a : α) : DoesAs (pure a : Micro α) (pure a) := fun _ _ h => .ok a h

theorem DoesAs.bind {m m' : Micro α} {k k' : α → Micro β} (h : DoesAs m m') (hk : ∀ a, DoesAs (k a) (k' a)) :
    DoesAs (m >>= k) (m' >>= k') := by
  intro s t hst
  have hm := h s t hst
  rw [Micro.run_bind, Micro.run_bind]
  generalize m s = r, m' t = r' at hm
  cases hm with
  | ok a h => exact hk a _ _ h
  | error e h => exact .error e h

/-- What follows a look at the state does the same where it was given either of two states that are alike. -/
theorem DoesAs.look_bind {f : State → α} {k k' : α → Micro β}
    (h : ∀ s pc resp, DoesAs (k (f s)) (k' (f (s.relabel pc resp)))) : DoesAs (look f >>= k) (look f >>= k') := by
  rintro s t ⟨pc, resp, rfl⟩
  exact h s pc resp s _ ⟨pc, resp, rfl⟩

theorem DoesAs.change {f : State → State} (h : ∀ s pc resp, (f s).Alike (f (s.relabel pc resp))) :
    DoesAs (change f) (change f) := by
  rintro s t ⟨pc, resp, rfl⟩
  exact .ok () (h s pc resp)

theorem DoesAs.ite {p : Prop} [Decidable p] {x x' y y' : Micro α} (hx : DoesAs x x') (hy : DoesAs y y') :
    DoesAs (if p then x else y) (if p then x' else y') := by split <;> assumption

theorem DoesAs.forEach {body body' : α → Micro Unit} (h : ∀ x, DoesAs (body x) (body' x)) (l : List α) :
    DoesAs (forEach l body) (forEach l body') := by
  induction l with
  | nil => exact .pure ()
  | cons x rest ih => exact .bind (h x) fun _ => ih

end Rules

/-! The parts of the hot path, numbered from two different lines (R303, R316). -/

section Parts
variable (line line' : Nat)

theorem DoesAs.memRead (acq : Bool) (a : W64) (n : Nat) : DoesAs (memRead line acq a n) (memRead line' acq a n) := by
  intro s t h
  obtain ⟨pc, resp, ht⟩ := h.boundary line line'
  have hex : ((s.boundary line).relabel pc resp).memExists a.toNat n = (s.boundary line).memExists a.toNat n := rfl
  simp only [Machine.memRead, ht, hex]
  split
  · exact .ok _ ⟨pc, resp, rfl⟩
  · exact .error _ ⟨pc, resp, rfl⟩

theorem DoesAs.memWrite (rel : Bool) (a : W64) (n : Nat) (v : W64) :
    DoesAs (memWrite line rel a n v) (memWrite line' rel a n v) := by
  intro s t h
  obtain ⟨pc, resp, ht⟩ := h.boundary line line'
  have hex : ((s.boundary line).relabel pc resp).memExists a.toNat n = (s.boundary line).memExists a.toNat n := rfl
  simp only [Machine.memWrite, ht, hex]
  split
  · exact .ok _ ⟨pc, resp, rfl⟩
  · exact .error _ ⟨pc, resp, rfl⟩

theorem DoesAs.mmioWriteAt (a : W64) (v : W32) : DoesAs (mmioWriteAt line a v) (mmioWriteAt line' a v) := by
  intro s t h
  obtain ⟨pc, resp, ht⟩ := h.boundary line line'
  have hw : ((s.boundary line).relabel pc resp).windowAt a = (s.boundary line).windowAt a := rfl
  simp only [Machine.mmioWriteAt, ht, hw]
  split
  · exact .ok _ ⟨pc, resp, rfl⟩
  · exact .error _ ⟨pc, resp, rfl⟩

theorem DoesAs.callHandler (len : W16) (addr : W64) :
    DoesAs (callHandler line len addr) (callHandler line' len addr) := by
  intro s t h
  obtain ⟨pc, resp, ht⟩ := h.boundary line line'
  have hrun : ((s.boundary line).relabel pc resp).handlerRun len addr = (s.boundary line).handlerRun len addr := rfl
  have hex (a : Nat) : ((s.boundary line).relabel pc resp).memExists a 1 = (s.boundary line).memExists a 1 := rfl
  have hcfg : ((s.boundary line).relabel pc resp).cfg = (s.boundary line).cfg := rfl
  simp only [Machine.callHandler, ht, hrun, hex, hcfg]
  split
  · exact .error _ ⟨pc, resp, rfl⟩
  · split
    · exact .error _ ⟨pc, resp, rfl⟩
    · split
      · exact .ok _ ⟨pc, resp, rfl⟩
      · exact .error _ ⟨pc, resp, rfl⟩

theorem DoesAs.setFd (v : W64) : DoesAs (setFd v) (setFd v) := .change fun _ pc resp => ⟨pc, resp, rfl⟩

theorem DoesAs.flushTails : DoesAs (flushTails line) (flushTails line') :=
  .look_bind fun _ _ _ => .forEach (fun _ => .mmioWriteAt _ _ _ _) _

theorem DoesAs.receiveIdle : DoesAs (receiveIdle line) (receiveIdle line') :=
  .look_bind fun _ _ _ => .ite (.bind (.flushTails _ _) fun _ => .setFd _) (.ite (.setFd _) (.pure ()))

theorem DoesAs.receiveSteps : DoesAs (receiveSteps line) (receiveSteps line') :=
  .look_bind fun _ _ _ => .bind (.memRead _ _ _ _ _) fun _ =>
    .ite (.pure _) (.bind (.receiveIdle _ _) fun _ => .pure _)

theorem DoesAs.writeDescriptors (len : W16) (mask : BitVec 4) (rs : Bool) :
    DoesAs (writeDescriptors line len mask rs) (writeDescriptors line' len mask rs) :=
  .look_bind fun _ _ _ => .forEach (fun _ => .memWrite _ _ _ _ _ _) _

theorem DoesAs.flushIfDue : DoesAs (flushIfDue line) (flushIfDue line') :=
  .look_bind fun _ _ _ => .ite (.bind (.flushTails _ _) fun _ => .setFd _) (.pure ())

theorem DoesAs.scanHeads (l : List (Fin 4)) (best : W64 × W64) :
    DoesAs (scanHeads line l best) (scanHeads line' l best) := by
  induction l generalizing best with
  | nil => exact .pure best
  | cons n rest ih => exact .look_bind fun _ _ _ => .bind (.memRead _ _ _ _ _) fun _ => ih _

theorem DoesAs.recycle : DoesAs (recycle line) (recycle line') :=
  .look_bind fun _ _ _ => .bind (.scanHeads _ _ _ _) fun _ => .mmioWriteAt _ _ _ _

theorem DoesAs.transmitSteps (len : W16) (mask : BitVec 4) :
    DoesAs (transmitSteps line len mask) (transmitSteps line' len mask) :=
  .look_bind fun _ _ _ => .bind (.writeDescriptors _ _ _ _ _) fun _ =>
    .bind (.change fun _ pc resp => ⟨pc, resp, rfl⟩) fun _ => .bind (.flushIfDue _ _) fun _ =>
      .ite (.recycle _ _) (.pure ())

end Parts

/-! The commands. -/

/-- Two accepted commands whose micro-steps end the same have the same outcome (R370, R379). -/
theorem exec_congr {i j : Instr} {s t : State} (hs : accepts i s) (ht : accepts j t)
    (h : SameEnd (body i (s.start i)) (body j (t.start j))) : exec i s = exec j t := by
  rw [exec_eq, exec_eq, runCommand, runCommand, if_pos ((ready_iff i s).2 hs), if_pos ((ready_iff j t).2 ht)]
  simp only [State.start] at h
  generalize body i { s with pc := ⟨some i, 1⟩ } = r, body j { t with pc := ⟨some j, 1⟩ } = r' at h
  cases h with
  | ok v h => simp only [h.respond_eq]
  | error e h =>
    cases e with
    | raise f => simp only [State.takeFailure, h.respond_eq]
    | fault f => rfl
    | refuse r => rfl

/-- Bit 63 of RECEIVE's first value says whether there is a packet (R114). -/
theorem receiveValues_found (r : Bool × W16 × W64) : (receiveValues r).1.getLsbD 63 = r.1 := by
  obtain ⟨_ | _, len, addr⟩ := r <;> simp [receiveValues]

/-- The low bits of RECEIVE's first value are the length (R114). -/
theorem receiveValues_length (r : Bool × W16 × W64) : (receiveValues r).1.setWidth 16 = r.2.1 := by
  have hlen (x : W16) : (x.setWidth 64).setWidth 16 = x := by bv_omega
  obtain ⟨found, len, addr⟩ := r
  simp only [receiveValues, BitVec.setWidth_or, hlen]
  cases found <;> simp

/-- No failure has the result code of success (R371). -/
theorem State.not_answered_ok_takeFailure (s : State) (f : Failure) (v w : W64) :
    ¬ (s.takeFailure f).answered resOk v w := by
  intro h
  have hres : f.res = resOk := congrArg Response.res (Option.some.inj h.1)
  cases f <;> simp [Failure.res, resOk] at hres

/-- A RECEIVE that answers `OK` was accepted, and answers what its micro-steps found (R303, R114). -/
theorem receive_of_answered {s t : State} {v w : W64} (h : exec .receive s = .next t) (ha : t.answered resOk v w) :
    ∃ r u, receiveSteps 1 (s.start .receive) = .ok r u ∧ receiveValues r = (v, w) ∧ t = u.respond resOk v w := by
  rw [exec_eq] at h
  obtain ⟨-, rfl⟩ | ⟨-, x, u, hrun, rfl⟩ | ⟨-, f, u, hrun, rfl⟩ := runCommand_next h
  · exact absurd ha (s.not_answered_ok_takeFailure _ v w)
  · have hx : x = (v, w) := by
      have hresp := Option.some.inj ha.1
      exact Prod.ext (congrArg Response.val0 hresp) (congrArg Response.val1 hresp)
    rw [body, Micro.run_bind] at hrun
    cases hr : receiveSteps 1 (s.start .receive) with
    | ok r u' =>
      rw [← State.start, hr] at hrun
      cases hrun
      exact ⟨r, u, rfl, hx, by rw [hx]⟩
    | error e u' =>
      rw [← State.start, hr] at hrun
      cases hrun
  · exact absurd ha (u.not_answered_ok_takeFailure f v w)

/-- RECEIVE's micro-steps in a PROCESS (R331). -/
theorem process_receives {s u : State} {r : Bool × W16 × W64} (h : receiveSteps 1 (s.start .receive) = .ok r u) :
    ∃ u', receiveSteps 1 (s.start .process) = .ok r u' ∧ u.Alike u' :=
  (DoesAs.receiveSteps 1 1).run_ok ((s.alike_start _).symm.trans (s.alike_start _)) h

theorem runs_of_receiveSteps {s t : State} {r : Bool × W16 × W64} {line : Nat} (h : receiveSteps line s = .ok r t) :
    Runs Unflushes s t := by
  have hruns := receiveSteps_unflushes line s
  rwa [h] at hruns

/-- TRANSMIT is accepted where PROCESS was, after RECEIVE and the handler's micro-step too (R310, R330). -/
theorem accepts_transmit_after_handler {s t u : State} {res : BitVec 8} {v w : W64} {len : W16} {mask : BitVec 4}
    (h : accepts .process s) (hr : Runs Unflushes (s.start .receive) t) (hc : Calm (t.respond res v w) u) :
    accepts (.transmit len mask) u := by
  have hcfg : u.cfg = s.cfg := hc.keeps.cfg.trans hr.keeps.cfg
  have hes : u.es = s.es := hc.es.trans hr.es
  have heng : u.eng.pd = s.eng.pd ∧ u.eng.rtaV = s.eng.rtaV := by
    rw [hc.eng, State.respond_eng]
    rcases hr.eng with he | he <;> rw [he] <;> exact ⟨rfl, rfl⟩
  rw [← ready_iff] at h ⊢
  simpa only [ready, transmitReady, isConstructed, hcfg, hes, heng] using h

/-- The micro-steps of a PROCESS after a packet was found and handled (R331). -/
theorem process_body_found {s u h : State} {r : Bool × W16 × W64} {len : W16} {sel : BitVec 4}
    (hr : receiveSteps 1 (s.start .process) = .ok r u) (hfound : r.1 = true)
    (hcall : callHandler 3 r.2.1 r.2.2 u = .ok (len, sel) h) :
    body .process (s.start .process) =
      if u.cfg.bufSize < len.toNat then .error (.refuse .handlerBrokeContract) h
      else (transmitSteps 4 len sel >>= fun _ => pure noValues) h := by
  simp only [body, processSteps, bind_assoc]
  rw [Micro.run_bind_ok hr]
  simp only [hfound, if_true, bind_assoc, Micro.look_bind]
  rw [Micro.run_bind_ok hcall]
  by_cases hlen : u.cfg.bufSize < len.toNat
  · simp [hlen]
  · simp [hlen]

/-- Settles O54: a PROCESS makes the micro-steps of a RECEIVE, of the handler and of a TRANSMIT, and where they stand
makes no difference to what they do. -/
theorem processIsReceiveHandleTransmit : Obligations.ProcessIsReceiveHandleTransmit := by
  refine ⟨fun s t hp hr ha => ?_, fun s r h v w len sel hp hr ha hbit hcall => ?_⟩
  · obtain ⟨r, u, hrun, hv, rfl⟩ := receive_of_answered hr ha
    obtain ⟨u', hrun', hu⟩ := process_receives hrun
    have hnone : r.1 = false := by rw [← receiveValues_found, hv]; rfl
    have hbody : body .process (s.start .process) = .ok noValues u' := by
      simp only [body, processSteps, bind_assoc]
      rw [Micro.run_bind_ok hrun']
      simp [hnone]
    rw [exec_ok hp hbody, hu.respond_eq]
    rfl
  · obtain ⟨x, u, hrun, hv, rfl⟩ := receive_of_answered hr ha
    obtain ⟨u', hrun', hu⟩ := process_receives hrun
    have hfound : x.1 = true := by rw [← receiveValues_found, hv]; exact hbit
    have hlength : v.setWidth 16 = x.2.1 := by rw [← receiveValues_length, hv]
    obtain rfl : x.2.2 = w := congrArg Prod.snd hv
    rw [hlength] at hcall
    have hhandler : Calm (u.respond resOk v x.2.2) h := by
      have h := Accesses.callHandler 3 x.2.1 x.2.2 (u.respond resOk v x.2.2)
      rwa [hcall] at h
    obtain ⟨h', hcall', hh⟩ :=
      (DoesAs.callHandler 3 3 x.2.1 x.2.2).run_ok ((u.alike_respond _ _ _).symm.trans hu) hcall
    have hcfg : u'.cfg = s.cfg := (runs_of_receiveSteps hrun').keeps.cfg
    have hbody := process_body_found hrun' hfound hcall'
    rw [hcfg] at hbody
    refine ⟨fun hlen => ?_, fun hlen => ?_⟩
    · rw [if_neg (by omega)] at hbody
      refine exec_congr hp (accepts_transmit_after_handler hp (runs_of_receiveSteps hrun) hhandler) ?_
      rw [hbody]
      exact (DoesAs.transmitSteps 4 1 len sel).bind (fun _ => .pure _) h' _ (hh.symm.trans (h.alike_start _))
    · rw [if_pos hlen] at hbody
      rw [exec_eq, runCommand, if_pos ((ready_iff _ _).2 hp), ← State.start, hbody]

end Sys2Proof.Machine
end

section
/-! SUPPORT. Commands that always end (R159, R202, R231): register accesses of a mapped device return whatever the other
agents do between them, and a poll that gives up has waited `T_POLL`; DEV_RESET and DEV_INIT then return, or fail the
device. -/

namespace Sys2Proof.Machine

/-! Micro-steps that end. -/

section Rules
variable {α β : Type} {P : State → Prop} {E : Failure → State → Prop}

/-- From a state with `P` the micro-steps `m` end: they return with `Q`, or raise with `E`; they make no fault and are
not refused. -/
def Concludes (P : State → Prop) (m : Micro α) (Q : α → State → Prop) (E : Failure → State → Prop) : Prop :=
  ∀ s, P s → (∃ a t, m s = .ok a t ∧ Q a t) ∨ ∃ f t, m s = .error (.raise f) t ∧ E f t

theorem Concludes.pure {Q : α → State → Prop} {a : α} (h : ∀ s, P s → Q a s) : Concludes P (pure a) Q E :=
  fun s hs => .inl ⟨a, s, rfl, h s hs⟩

theorem Concludes.bind {m : Micro α} {k : α → Micro β} {Q : α → State → Prop} {R : β → State → Prop}
    (h : Concludes P m Q E) (hk : ∀ a, Concludes (Q a) (k a) R E) : Concludes P (m >>= k) R E := by
  intro s hs
  obtain ⟨a, t, hm, ha⟩ | ⟨f, t, hm, hf⟩ := h s hs
  · rw [Micro.run_bind_ok hm]
    exact hk a t ha
  · exact .inr ⟨f, t, Micro.run_bind_error hm, hf⟩

/-- What follows a look at the state rests on a state with `P`. -/
theorem Concludes.look_bind {f : State → α} {k : α → Micro β} {Q : β → State → Prop}
    (h : ∀ x, P x → Concludes P (k (f x)) Q E) : Concludes P (look f >>= k) Q E := by
  intro s hs
  rw [Micro.look_bind]
  exact h s hs s hs

theorem Concludes.ite {p : Prop} [Decidable p] {x y : Micro α} {Q : α → State → Prop}
    (hx : p → Concludes P x Q E) (hy : ¬ p → Concludes P y Q E) : Concludes P (if p then x else y) Q E := by
  split
  · exact hx ‹_›
  · exact hy ‹_›

theorem Concludes.forEach {l : List α} {body : α → Micro Unit}
    (h : ∀ x ∈ l, Concludes P (body x) (fun _ => P) E) : Concludes P (forEach l body) (fun _ => P) E := by
  induction l with
  | nil => exact .pure fun _ hs => hs
  | cons x rest ih => exact .bind (h x (by simp)) fun _ => ih fun y hy => h y (List.mem_cons_of_mem _ hy)

theorem Concludes.weaken {P' : State → Prop} {m : Micro α} {Q : α → State → Prop} (h : Concludes P' m Q E)
    (hP : ∀ s, P s → P' s) : Concludes P m Q E := fun s hs => h s (hP s hs)

/-- A device is failed. -/
theorem failDevice_concludes {dev : BitVec 8} {f : Failure} {Q : α → State → Prop}
    (h : ∀ t, P t → E f (t.setHandle dev { t.handle dev with ls := .failed })) :
    Concludes P (failDevice dev f) Q E := fun t ht => .inr ⟨f, _, rfl, h t ht⟩

/-- A check that fails the device, and what follows where it passes. -/
theorem checked_concludes {p : Prop} [Decidable p] {dev : BitVec 8} {f : Failure} {k : Unit → Micro β}
    {Q : β → State → Prop} (h : p → ∀ t, P t → E f (t.setHandle dev { t.handle dev with ls := .failed }))
    (hk : ¬ p → Concludes P (k ()) Q E) : Concludes P (if p then failDevice dev f >>= k else k ()) Q E :=
  .ite (fun hp => .bind (Q := fun _ _ => False) (failDevice_concludes (h hp)) fun _ _ h => h.elim) hk

end Rules

/-- What an accepted command ends in whose micro-steps end. -/
theorem exec_of_concludes {i : Instr} {s : State} {Q : W64 × W64 → State → Prop} {E : Failure → State → Prop}
    (ha : accepts i s) (h : Concludes (· = s.start i) (body i) Q E) :
    ∃ t, exec i s = .next t ∧
      ((∃ v u, Q v u ∧ t = u.respond resOk v.1 v.2) ∨ ∃ f u, E f u ∧ t = u.takeFailure f) := by
  obtain ⟨v, u, hb, hv⟩ | ⟨f, u, hb, hf⟩ := h _ rfl
  · exact ⟨_, exec_ok ha hb, .inl ⟨v, u, hv, rfl⟩⟩
  · exact ⟨_, (exec_eq i s).trans (runCommand_raise ((ready_iff i s).2 ha) hb), .inr ⟨f, u, hf, rfl⟩⟩

/-! Accesses that return. -/

section Accesses
variable {α : Type} {s : State} {dev : BitVec 8} {E : Failure → State → Prop}

/-- From any state that accesses alone can lead to from `s`, the micro-steps `m` return, and are accesses alone. -/
abbrev Proceeds (s : State) (E : Failure → State → Prop) (m : Micro α) : Prop :=
  Concludes (Calm s) m (fun _ => Calm s) E

theorem Accesses.calm {m : Micro α} (h : Accesses m) {t u : State} {a : α} (hm : m t = .ok a u) : Calm t u := by
  have hu := h t
  rwa [hm] at hu

theorem Accesses.proceeds {m : Micro α} (h : Accesses m) (hok : ∀ t, Calm s t → ∃ a u, m t = .ok a u) :
    Proceeds s E m := by
  intro t ht
  obtain ⟨a, u, hm⟩ := hok t ht
  exact .inl ⟨a, u, hm, Calm.chains.trans ht (h.calm hm)⟩

theorem Proceeds.run {m : Micro α} (h : Proceeds s (fun _ _ => False) m) : ∃ a t, m s = .ok a t ∧ Calm s t :=
  (h s (Calm.chains.refl s)).resolve_right fun ⟨_, _, _, hf⟩ => hf

theorem sleepUs_proceeds (line n : Nat) : Proceeds s E (sleepUs line n) :=
  (Accesses.sleepUs line n).proceeds fun _ _ => ⟨_, _, rfl⟩

theorem transactionPending_proceeds (dev : BitVec 8) : Proceeds s E (transactionPending dev) :=
  (Accesses.transactionPending dev).proceeds fun _ _ => ⟨_, _, rfl⟩

theorem Reaches.calm {t : State} (h : Reaches s dev) (ht : Calm s t) : Reaches t dev :=
  ⟨by rw [ht.keeps.cfg]; exact h.legal, by rw [ht.handle]; exact h.mapped⟩

variable {r : DevReg} {f : DevField} {i line : Nat} {v : W32} {w : Bool}

theorem regRead_proceeds (h : Reaches s dev) (hi : r.indexOk s.cfg i = true) :
    Proceeds s E (regRead line dev r i) := by
  refine (Accesses.regRead _ _ _ _).proceeds fun t ht => ?_
  rw [regRead_eq, ht.keeps.cfg]
  exact ⟨_, _, mmioRead32_run line (h.calm ht).mapped (regOffOk_off h.legal r hi)⟩

theorem regWrite_proceeds (h : Reaches s dev) (hi : r.indexOk s.cfg i = true) :
    Proceeds s E (regWrite line dev r i v) := by
  refine (Accesses.regWrite _ _ _ _ _).proceeds fun t ht => ?_
  rw [regWrite_eq, ht.keeps.cfg]
  exact ⟨_, _, mmioWrite32_run line v (h.calm ht).mapped (regOffOk_off h.legal r hi)⟩

theorem regIsCleared_proceeds (h : Reaches s dev) (hi : f.reg.indexOk s.cfg i = true) :
    Proceeds s E (regIsCleared line dev f i) :=
  .bind (.bind (regRead_proceeds h hi) fun _ => .look_bind fun _ _ => .pure fun _ h => h) fun _ => .pure fun _ h => h

theorem regWriteField_proceeds (h : Reaches s dev) (hi : f.reg.indexOk s.cfg i = true) :
    Proceeds s E (regWriteField line dev f i v) :=
  .bind (regRead_proceeds h hi) fun _ => .look_bind fun _ _ => regWrite_proceeds h hi

theorem regSet_proceeds (h : Reaches s dev) (hi : f.reg.indexOk s.cfg i = true) :
    Proceeds s E (regSet line dev f i) := .look_bind fun _ _ => regWriteField_proceeds h hi

theorem regClear_proceeds (h : Reaches s dev) (hi : f.reg.indexOk s.cfg i = true) :
    Proceeds s E (regClear line dev f i) := regWriteField_proceeds h hi

/-! A poll (R159). -/

/-- A poll loop returns, and where it gives up every gap has passed. -/
theorem pollLoop_run (h : Reaches s dev) (hi : f.reg.indexOk s.cfg i = true) (gap n : Nat) :
    ∃ b t, pollLoop line dev f i w gap n s = .ok b t ∧ (b = false → s.now + n * gap ≤ t.now) := by
  induction n generalizing s with
  | zero => exact ⟨false, s, rfl, fun _ => by omega⟩
  | succ n ih =>
    obtain ⟨cleared, t, hread, ht⟩ := Proceeds.run (regIsCleared_proceeds (line := line) h hi)
    rw [pollLoop, Micro.run_bind_ok hread, Micro.run_ite]
    split
    · exact ⟨true, t, rfl, nofun⟩
    · obtain ⟨_, u, hsleep, hu⟩ := Proceeds.run (sleepUs_proceeds (s := t) (line + 1) gap)
      have hsu := Calm.chains.trans ht hu
      obtain ⟨b, x, hloop, hx⟩ := ih (h.calm hsu) (by rw [hsu.keeps.cfg]; exact hi)
      refine ⟨b, x, (Micro.run_bind_ok hsleep).trans hloop, fun hb => ?_⟩
      have hslept : t.now + gap ≤ u.now := sleepUs_now hsleep
      have hwaited := hx hb
      have hbefore := ht.keeps.now
      rw [Nat.succ_mul]
      omega

theorem Config.pollAttempts_pos {c : Config} (h : c.legal = true) : 0 < c.pollAttempts := by
  have hn := Config.legal_numbers h
  simp only [Config.numbersOk, Bool.and_eq_true, decide_eq_true_eq] at hn
  omega

/-- The gaps of a poll are no shorter than the whole of it (R159; log 18). -/
theorem tPoll_le_gaps {c : Config} (h : c.legal = true) : c.tPoll ≤ c.pollAttempts * pollGap c c.tPoll := by
  have hpos := Config.pollAttempts_pos h
  have hdiv := Nat.div_add_mod (c.tPoll + c.pollAttempts - 1) c.pollAttempts
  have hmod := Nat.mod_lt (c.tPoll + c.pollAttempts - 1) hpos
  rw [pollGap]
  omega

/-- A poll returns, and gives up only after `T_POLL`. -/
theorem poll_concludes (h : Reaches s dev) (hi : f.reg.indexOk s.cfg i = true) :
    Concludes (Calm s) (poll line dev f i w) (fun b t => (b = false → s.now + s.cfg.tPoll ≤ t.now) ∧ Calm s t) E := by
  intro t ht
  have hc := ht.keeps.cfg
  obtain ⟨b, u, hrun, hu⟩ := pollLoop_run (h.calm ht) (line := line) (f := f) (w := w) (by rw [hc]; exact hi)
    (pollGap s.cfg s.cfg.tPoll) s.cfg.pollAttempts
  refine .inl ⟨b, u, ?_, fun hb => ?_, Calm.chains.trans ht ((Accesses.pollLoop _ _ _ _ _ _ _).calm hrun)⟩
  · rw [poll, Micro.look_bind, hc, hrun]
  · have hgaps := tPoll_le_gaps h.legal
    have hwaited := hu hb
    have hbefore := ht.keeps.now
    omega

theorem poll_proceeds (h : Reaches s dev) (hi : f.reg.indexOk s.cfg i = true) :
    Proceeds s E (poll line dev f i w) := fun t ht =>
  (poll_concludes h hi t ht).imp (fun ⟨b, u, hrun, hu⟩ => ⟨b, u, hrun, hu.2⟩) id

/-! DEV_RESET (R202). -/

/-- How DEV_RESET fails (R210, R373): the device is failed, and `T_POLL` has passed. -/
def TimesOut (dev : BitVec 8) (s : State) (f : Failure) (t : State) : Prop :=
  f.res = 2 ∧ Relived dev .failed s t ∧ s.now + s.cfg.tPoll ≤ t.now

theorem disableRxQueues_concludes (h : Reaches s dev) {todo q : Nat} (hq : q + todo ≤ s.cfg.rxQueueCount) :
    Proceeds s (TimesOut dev s) (disableRxQueues dev todo q) := by
  induction todo generalizing q with
  | zero => exact .pure fun _ h => h
  | succ todo ih =>
    have hi : DevReg.rxdctl.indexOk s.cfg q = true := indexOk_of_lt rfl (by omega)
    refine .bind (regClear_proceeds h hi) fun _ => .bind (poll_concludes h hi) fun ok => checked_concludes ?_ fun _ => ?_
    · exact fun hlate t ⟨hwait, ht⟩ => ⟨rfl, ⟨t, ht, rfl⟩, hwait (by simpa using hlate)⟩
    · exact Concludes.weaken (.look_bind fun _ _ => .bind (sleepUs_proceeds _ _) fun _ => ih (by omega)) fun _ ht => ht.2

theorem flushBuffers_proceeds (h : Reaches s dev) : Proceeds s E (flushBuffers dev) :=
  .bind (regSet_proceeds h rfl) fun _ => .bind (regSet_proceeds h rfl) fun _ => .look_bind fun _ _ =>
    .bind (sleepUs_proceeds _ _) fun _ => .bind (regClear_proceeds h rfl) fun _ => regClear_proceeds h rfl

theorem disableMaster_proceeds (h : Reaches s dev) : Proceeds s E (disableMaster dev) :=
  .bind (regSet_proceeds h rfl) fun _ => .bind (poll_proceeds h rfl) fun _ =>
    .ite (fun _ => .bind (transactionPending_proceeds dev) fun _ =>
      .ite (fun _ => flushBuffers_proceeds h) fun _ => .pure fun _ h => h) fun _ => .pure fun _ h => h

theorem resetDevice_concludes (h : Reaches s dev) :
    Concludes (Calm s) (resetDevice dev) (fun _ => Relived dev .reset s) (TimesOut dev s) :=
  .look_bind fun x hx => .bind (disableRxQueues_concludes h (by rw [hx.keeps.cfg, Nat.zero_add])) fun _ =>
    .bind (disableMaster_proceeds h) fun _ =>
    .bind (.bind (regSet_proceeds h rfl) fun _ => .look_bind fun _ _ => sleepUs_proceeds _ _) fun _ m hm =>
    .inl ⟨(), _, rfl, m, hm, rfl⟩

/-! DEV_INIT (R231). -/

/-- How DEV_INIT fails (R242): the device is failed. -/
def FailsInit (dev : BitVec 8) (s : State) (f : Failure) (t : State) : Prop :=
  (f.res = 2 ∨ f.res = 3) ∧ Relived dev .failed s t

theorem awaitDevice_concludes (h : Reaches s dev) : Proceeds s (FailsInit dev s) (awaitDevice dev) := by
  refine .look_bind fun _ _ => .bind (regWrite_proceeds h rfl) fun _ => .bind (poll_proceeds h rfl) fun _ =>
    checked_concludes (fun _ t ht => ⟨.inl rfl, t, ht, rfl⟩) fun _ => ?_
  refine .bind (regIsCleared_proceeds h rfl) fun _ =>
    checked_concludes (fun _ t ht => ⟨.inr rfl, t, ht, rfl⟩) fun _ => ?_
  exact .bind (poll_proceeds h rfl) fun _ =>
    .ite (fun _ => failDevice_concludes fun t ht => ⟨.inl rfl, t, ht, rfl⟩) fun _ => .pure fun _ h => h

theorem zeroTable_proceeds (h : Reaches s dev) {r : DevReg} {line n m : Nat} (hr : r.indexCount s.cfg = some m)
    (hn : n ≤ m) : Proceeds s E (zeroTable line dev r n) :=
  .forEach fun _ hi => regWrite_proceeds h (indexOk_of_lt hr (Nat.lt_of_lt_of_le (List.mem_range.1 hi) hn))

theorem zeroFilterTables_proceeds (h : Reaches s dev) : Proceeds s E (zeroFilterTables dev) := by
  refine .look_bind fun x hx => ?_
  rw [hx.keeps.cfg]
  obtain ⟨hunicast, hvlan, hbitmap, hmulticast, htuple⟩ := Config.tables_fit h.legal
  exact .bind (zeroTable_proceeds h rfl hunicast) fun _ => .bind (zeroTable_proceeds h rfl hvlan) fun _ =>
    .bind (zeroTable_proceeds h rfl hbitmap) fun _ => .bind (zeroTable_proceeds h rfl hmulticast) fun _ =>
    zeroTable_proceeds h rfl htuple

theorem otherBuffers_proceeds (h : Reaches s dev) (hf : f.reg.indexCount s.cfg = some 8) :
    Proceeds s E (forEach otherBuffers fun n => regWriteField line dev f n v) :=
  .forEach fun n hn => regWriteField_proceeds h (indexOk_of_lt hf (otherBuffers_lt n hn))

theorem configureReceive_proceeds (h : Reaches s dev) : Proceeds s E (configureReceive dev) :=
  .look_bind fun _ _ => .bind (regWriteField_proceeds h rfl) fun _ => .bind (otherBuffers_proceeds h rfl) fun _ =>
    .bind (regWriteField_proceeds h rfl) fun _ => .bind (regSet_proceeds h rfl) fun _ =>
    .bind (regClear_proceeds h rfl) fun _ => .bind (regSet_proceeds h rfl) fun _ =>
    .bind (regSet_proceeds h rfl) fun _ => regSet_proceeds h rfl

theorem configureTransmit_proceeds (h : Reaches s dev) : Proceeds s E (configureTransmit dev) :=
  .look_bind fun _ _ => .bind (regSet_proceeds h rfl) fun _ => .bind (otherBuffers_proceeds h rfl) fun _ =>
    .bind (regWriteField_proceeds h rfl) fun _ => .bind (regWriteField_proceeds h rfl) fun _ => regClear_proceeds h rfl

theorem initDevice_concludes (h : Reaches s dev) :
    Concludes (Calm s) (initDevice dev) (fun _ => Relived dev .initialized s) (FailsInit dev s) :=
  .bind (awaitDevice_concludes h) fun _ => .bind (zeroFilterTables_proceeds h) fun _ =>
    .bind (configureReceive_proceeds h) fun _ => .bind (configureTransmit_proceeds h) fun _ m hm =>
    .inl ⟨(), _, rfl, m, hm, rfl⟩

/-! How the two commands end. -/

/-- What accesses and a new lifecycle state leave alone. -/
theorem Relived.frame {l : DevLife} {t : State} (h : Relived dev l s t) :
    SameEngine s t ∧ SameHandlesBut s t dev ∧ t.blocks = s.blocks ∧ t.handle dev = { s.handle dev with ls := l } := by
  obtain ⟨m, hm, rfl⟩ := h
  refine ⟨hm.engine, fun d hd => ?_, hm.blocks, ?_⟩
  · rw [State.handle_setHandle, if_neg hd, hm.handle]
  · rw [State.handle_setHandle_self, hm.handle]

/-- A body that ends with no values, from its first state. -/
theorem concludes_start {m : Micro Unit} {i : Instr} {Q : State → Prop}
    (h : Concludes (Calm (s.start i)) m (fun _ => Q) E) :
    Concludes (· = s.start i) (m >>= fun _ => Pure.pure noValues) (fun v t => v = noValues ∧ Q t) E :=
  .bind (h.weaken fun _ ht => ht ▸ Calm.chains.refl _) fun _ => .pure fun _ hs => ⟨rfl, hs⟩

end Accesses

/-- Settles O27: every access returns, and the one poll whose timeout fails the command has waited `T_POLL`. -/
theorem devResetAlwaysEnds : Obligations.DevResetAlwaysEnds := by
  intro s dev hc ha
  have hd : Reaches (s.start (.devReset dev)) dev := reaches_of_life hc ha.2 (by decide)
  obtain ⟨t, hexec, ⟨v, u, ⟨rfl, hu⟩, rfl⟩ | ⟨f, u, ⟨hres, hu, hlate⟩, rfl⟩⟩ :=
    exec_of_concludes ha (concludes_start (resetDevice_concludes hd))
  · obtain ⟨hengine, hothers, hblocks, hhandle⟩ := hu.frame
    exact ⟨_, hexec, hengine, hothers, hblocks, .inl ⟨⟨rfl, rfl⟩, hhandle⟩⟩
  · obtain ⟨hengine, hothers, hblocks, hhandle⟩ := hu.frame
    exact ⟨_, hexec, hengine, hothers, hblocks, .inr ⟨⟨by rw [State.takeFailure_resp, hres], rfl⟩, hhandle, hlate⟩⟩

/-- Settles O32: every access returns, and each check that fails the device has a code of R242. -/
theorem devInitAlwaysEnds : Obligations.DevInitAlwaysEnds := by
  intro s dev hc ha
  have hd : Reaches (s.start (.devInit dev)) dev := reaches_of_life hc ha.2 (by decide)
  obtain ⟨t, hexec, ⟨v, u, ⟨rfl, hu⟩, rfl⟩ | ⟨f, u, ⟨hres, hu⟩, rfl⟩⟩ :=
    exec_of_concludes ha (concludes_start (initDevice_concludes hd))
  · obtain ⟨hengine, hothers, hblocks, hhandle⟩ := hu.frame
    exact ⟨_, hexec, hengine, hothers, hblocks, .inl ⟨⟨rfl, rfl⟩, hhandle⟩⟩
  · obtain ⟨hengine, hothers, hblocks, hhandle⟩ := hu.frame
    refine ⟨_, hexec, hengine, hothers, hblocks, .inr ⟨hres.imp (fun h => ?_) fun h => ?_, hhandle⟩⟩ <;>
      exact ⟨by rw [State.takeFailure_resp, h], rfl⟩

end Sys2Proof.Machine
end

section
/-! SUPPORT. Accesses of one device where no other agent moves (R150, R151, R162, R163): everything but its NIC, the
clock and the trace stays; a REG_WRITE then is its one write, after a read where it names a field. -/

namespace Sys2Proof.Machine

/-! What accesses of one NIC leave alone. -/

/-- From `s` to `t` nothing is changed but the NIC with PCI identity `bdf`, the clock, the trace, the sequencer and the
response. -/
structure OnlyNic (s t : State) (bdf : W16) : Prop where
  environment : SameEnvironment s t
  engine : SameEngine s t
  memory : t.mem = s.mem
  blocks : t.blocks = s.blocks
  answers : SameAnswers s t
  handles : t.handles = s.handles
  nics : SameNicsBut s t bdf

section
variable {s t : State} {bdf : W16} {dev : BitVec 8}

theorem OnlyNic.refl (s : State) (bdf : W16) : OnlyNic s s bdf :=
  ⟨⟨rfl, rfl, rfl, rfl⟩, ⟨rfl, rfl⟩, rfl, rfl, ⟨rfl, rfl⟩, rfl, fun _ _ => rfl⟩

theorem OnlyNic.cfg (h : OnlyNic s t bdf) : t.cfg = s.cfg := h.environment.1

theorem OnlyNic.quiet (h : OnlyNic s t bdf) (hq : s.quiet) : t.quiet := h.environment.2.2.1.trans hq

theorem OnlyNic.handle (h : OnlyNic s t bdf) (dev : BitVec 8) : t.handle dev = s.handle dev :=
  handle_of_handles h.handles dev

theorem OnlyNic.trans {u : State} (h : OnlyNic s t bdf) (k : OnlyNic t u bdf) : OnlyNic s u bdf := by
  obtain ⟨⟨hcfg, hport, hagenda, hmaps⟩, ⟨hes, heng⟩, hmem, hblocks, ⟨hgrants, hqueue⟩, hhandles, hnics⟩ := k
  obtain ⟨⟨gcfg, gport, gagenda, gmaps⟩, ⟨ges, geng⟩, gmem, gblocks, ⟨ggrants, gqueue⟩, ghandles, gnics⟩ := h
  exact ⟨⟨hcfg.trans gcfg, hport.trans gport, hagenda.trans gagenda, hmaps.trans gmaps⟩,
    ⟨hes.trans ges, heng.trans geng⟩, hmem.trans gmem, hblocks.trans gblocks,
    ⟨hgrants.trans ggrants, hqueue.trans gqueue⟩, hhandles.trans ghandles,
    fun b hb => (hnics b hb).trans (gnics b hb)⟩

theorem OnlyNic.accessed (h : OnlyNic s t bdf) (line : Nat) (a : Access) : OnlyNic s (t.accessed line a) bdf :=
  ⟨h.environment, h.engine, h.memory, h.blocks, h.answers, h.handles, h.nics⟩

theorem OnlyNic.elapse (h : OnlyNic s t bdf) (d : Nat) : OnlyNic s (t.elapse d) bdf :=
  ⟨h.environment, h.engine, h.memory, h.blocks, h.answers, h.handles, h.nics⟩

theorem OnlyNic.setNic (h : OnlyNic s t bdf) (n : Nic) : OnlyNic s (t.setNic bdf n) bdf :=
  ⟨h.environment, h.engine, h.memory, h.blocks, h.answers, h.handles, fun b hb => by
    rw [State.nic_setNic, if_neg hb, h.nics b hb]⟩

theorem OnlyNic.drainNic (h : OnlyNic s t bdf) : OnlyNic s (t.drainNic bdf) bdf := by
  unfold State.drainNic
  split
  · exact h
  · exact h.setNic _

theorem OnlyNic.respond (h : OnlyNic s t bdf) (res : BitVec 8) (v w : W64) : OnlyNic s (t.respond res v w) bdf :=
  ⟨h.environment, h.engine, h.memory, h.blocks, h.answers, h.handles, h.nics⟩

/-- A command on a device begins in a state that differs in the sequencer alone. -/
theorem OnlyNic.of_start {i : Instr} (h : OnlyNic (s.start i) t bdf) : OnlyNic s t bdf :=
  ⟨h.environment, h.engine, h.memory, h.blocks, h.answers, h.handles, h.nics⟩

theorem OnlyNic.sameHandles (h : OnlyNic s t bdf) : SameHandles s t := h.handle

theorem OnlyNic.deviceFrame (h : OnlyNic s t bdf) (dev : BitVec 8) : DeviceFrame s t dev bdf :=
  ⟨h.environment, h.engine, ⟨fun _ => by rw [h.memory], h.blocks⟩, h.answers, fun d _ => h.handle d, h.nics⟩

end

/-! Configuration space (R163, R349, R356). -/

/-- A register write that arrives leaves configuration space as it is, a device reset too. -/
theorem Nic.pci_write (c : Config) (n : Nic) (w : RegWrite) : (n.write c w).pci = n.pci := by
  unfold Nic.write
  split
  · rfl
  · split
    · split <;> rfl
    · split
      · rfl
      · split
        · rfl
        · exact (Nic.queueEnable_frame c _ _ _ _).1

theorem Nic.pci_post (c : Config) (n : Nic) (w : RegWrite) : (n.post c w).pci = n.pci := by
  unfold Nic.post
  split
  · exact n.pci_write c w
  · rfl

theorem Nic.pci_drain (c : Config) (n : Nic) : (n.drain c).pci = n.pci := by
  have arrives (l : List RegWrite) (n : Nic) : (l.foldl (Nic.write c) n).pci = n.pci := by
    induction l generalizing n with
    | nil => rfl
    | cons w rest ih => exact (ih _).trans (n.pci_write c w)
  exact arrives n.posted { n with posted := [] }

theorem State.pci_drainNic (s : State) (bdf : W16) : ((s.drainNic bdf).nic bdf).pci = (s.nic bdf).pci := by
  rw [State.nic_drainNic, if_pos rfl, Nic.pci_drain]

/-- `PCI_COMMAND` then reads as written (R356). -/
theorem Nic.pciRead_pciWrite_command {c : Config} (hc : StandardConfig c) (k : Nat) (n : Nic) (v : W32) :
    (n.pciWrite c k (c.pciOff .command) v).pciRead (c.pciOff .command) = v := by
  have hfind : (PciReg.all.find? fun r => c.pciOff r == c.pciOff .command) = some .command := by
    simp only [Config.pciOff, hc.2.1]
    decide
  simp only [Nic.pciWrite, hfind, PciReg.access, Nic.pciRead, Store.get?_put_self, Option.map_some, Option.getD_some]

/-! Writes where no other agent moves. -/

/-- A register write leaves the block for the NIC, and arrives or waits there. -/
theorem regWrite_quiet {s : State} {dev : BitVec 8} {r : DevReg} {i : Nat} (line : Nat) (v : W32) (hq : s.quiet)
    (hc : s.cfg.legal = true) (hm : (s.handle dev).mapped = true) (hi : r.indexOk s.cfg i = true) :
    regWrite line dev r i v s =
      .ok ()
        ((s.accessed line (.mmioWrite (s.regAddr dev r i) v)).setNic (s.handle dev).bdf
          ((s.nic (s.handle dev).bdf).post s.cfg
            ⟨s.micros + 1, s.now + Config.microTime s.micros, s.cfg.off r i, v⟩)) := by
  rw [regWrite_eq, mmioWrite32_run line v hm (regOffOk_off hc r hi), State.boundary_eq_self hq, State.postWrite]
  rfl

theorem pciWrite_quiet {s : State} (line : Nat) (bdf : W16) (off : Nat) (v : W32) (hq : s.quiet) :
    pciWrite line bdf off v s =
      .ok ()
        ((s.accessed line (.pciWrite bdf off v)).setNic bdf
          ((s.nic bdf).pciWrite s.cfg (s.micros + 1) off v)) := by
  simp only [pciWrite, State.boundary_eq_self hq]
  rfl

/-- From `s` to `t` the accesses `l` of a device were made, and its configuration space stays. -/
structure RegistersAccessed (s t : State) (dev : BitVec 8) (l : List Access) : Prop where
  only : OnlyNic s t (s.handle dev).bdf
  pci : (t.nic (s.handle dev).bdf).pci = (s.nic (s.handle dev).bdf).pci
  made : madeBetween s t l

section
variable {s : State} {dev : BitVec 8} {r : DevReg} {i : Nat}

theorem regRead_accesses (line : Nat) (hq : s.quiet) (hc : s.cfg.legal = true) (hm : (s.handle dev).mapped = true)
    (hi : r.indexOk s.cfg i = true) :
    ∃ raw t, regRead line dev r i s = .ok raw t ∧ RegistersAccessed s t dev [.mmioRead (s.regAddr dev r i) raw] :=
  ⟨_, _, regRead_quiet line hq hc hm hi, (OnlyNic.refl s _).drainNic.accessed _ _, State.pci_drainNic s _, by
    simp only [madeBetween, State.accessed, State.drainNic_trace, List.reverse_singleton, List.singleton_append]⟩

theorem regWrite_accesses (line : Nat) (v : W32) (hq : s.quiet) (hc : s.cfg.legal = true)
    (hm : (s.handle dev).mapped = true) (hi : r.indexOk s.cfg i = true) :
    ∃ t, regWrite line dev r i v s = .ok () t ∧ RegistersAccessed s t dev [.mmioWrite (s.regAddr dev r i) v] :=
  ⟨_, regWrite_quiet line v hq hc hm hi, ((OnlyNic.refl s _).accessed _ _).setNic _, by
    rw [State.nic_setNic_self, Nic.pci_post], rfl⟩

end

/-- A register has the same address after accesses of its device. -/
theorem OnlyNic.regAddr {s t : State} {bdf : W16} (h : OnlyNic s t bdf) (dev : BitVec 8) (r : DevReg) (i : Nat) :
    t.regAddr dev r i = s.regAddr dev r i := by
  rw [State.regAddr, State.regAddr, h.handle, h.cfg]

theorem madeBetween.trans {s t u : State} {l l' : List Access} (h : madeBetween s t l) (k : madeBetween t u l') :
    madeBetween s u (l ++ l') := by
  rw [madeBetween] at h k ⊢
  rw [k, h, List.reverse_append, List.append_assoc]

theorem RegistersAccessed.trans {s t u : State} {dev : BitVec 8} {l l' : List Access} (h : RegistersAccessed s t dev l)
    (k : RegistersAccessed t u dev l') : RegistersAccessed s u dev (l ++ l') := by
  obtain ⟨honly, hpci, hmade⟩ := h
  obtain ⟨konly, kpci, kmade⟩ := k
  rw [honly.handle] at konly kpci
  exact ⟨honly.trans konly, kpci.trans hpci, hmade.trans kmade⟩

/-! REG_WRITE (R166). -/

section
variable {s : State} {dev : BitVec 8} {index : W16}

/-- The access of REG_WRITE of a device register is one write. -/
theorem writeSelected_register {r : DevReg} (value : W32) (hq : s.quiet) (hc : s.cfg.legal = true)
    (hm : (s.handle dev).mapped = true) (hl : (RegSel.dev r none).legal s.cfg index = true) :
    ∃ t, writeSelected dev (.dev r none) index value s = .ok () t ∧
      RegistersAccessed s t dev [.mmioWrite (s.regAddr dev r index.toNat) value] := by
  rw [writeSelected, Micro.look_bind]
  exact regWrite_accesses 1 value hq hc hm (RegSel.legal_dev hl).2

/-- That of a field of one is a read and a write that puts back the bits outside the field (R155). -/
theorem writeSelected_field {r : DevReg} {f : DevField} (value : W32) (hq : s.quiet) (hc : s.cfg.legal = true)
    (hm : (s.handle dev).mapped = true) (hl : (RegSel.dev r (some f)).legal s.cfg index = true) :
    ∃ raw t, writeSelected dev (.dev r (some f)) index value s = .ok () t ∧
      RegistersAccessed s t dev [.mmioRead (s.regAddr dev r index.toNat) raw,
        .mmioWrite (s.regAddr dev r index.toNat) (insertField raw (s.cfg.mask f) value)] := by
  obtain ⟨hfield, hi⟩ := RegSel.legal_dev hl
  obtain rfl := hfield f rfl
  obtain ⟨raw, t, hread, ht⟩ := regRead_accesses 1 hq hc hm hi
  have hcfg := ht.only.cfg
  obtain ⟨u, hwrite, hu⟩ := regWrite_accesses (s := t) (dev := dev) (r := f.reg) (i := index.toNat) 2
    (insertField raw (s.cfg.mask f) value) (ht.only.quiet hq) (by rwa [hcfg]) (by rwa [ht.only.handle]) (by rwa [hcfg])
  rw [ht.only.regAddr] at hu
  refine ⟨raw, u, ?_, ht.trans hu⟩
  rw [writeSelected, Micro.look_bind]
  exact (Micro.run_bind_ok hread).trans (by rw [Micro.look_bind, hcfg, hwrite])

/-- From `s` to `t` the accesses `l` of the configuration space of a NIC were made, the last a write of `v` to the
register `r`. -/
structure PciWritten (s t : State) (bdf : W16) (r : PciReg) (v : W32) (l : List Access) : Prop where
  only : OnlyNic s t bdf
  made : madeBetween s t l
  changes : OnlyPciChanges s t bdf (s.cfg.pciOff r)
  command : StandardConfig s.cfg → r = .command → (t.nic bdf).pciRead (s.cfg.pciOff r) = v

theorem pciWrite_writes (line : Nat) (bdf : W16) (r : PciReg) (v : W32) (hq : s.quiet) :
    ∃ t, pciWrite line bdf (s.cfg.pciOff r) v s = .ok () t ∧
      PciWritten s t bdf r v [.pciWrite bdf (s.cfg.pciOff r) v] := by
  refine ⟨_, pciWrite_quiet line bdf _ v hq, ((OnlyNic.refl s _).accessed _ _).setNic _, rfl, ⟨?_, fun o ho => ?_⟩, ?_⟩
  · rw [State.nic_setNic_self]
    exact Nic.pciWrite_eq _ _ _ _ _
  · rw [State.nic_setNic_self]
    exact Nic.pciRead_pciWrite_ne _ _ _ _ ho
  · rintro hc rfl
    rw [State.nic_setNic_self]
    exact Nic.pciRead_pciWrite_command hc _ _ _

theorem writeSelected_pciRegister {r : PciReg} (value : W32) (hq : s.quiet) :
    ∃ t, writeSelected dev (.pci r none) index value s = .ok () t ∧
      PciWritten s t (s.handle dev).bdf r value [.pciWrite (s.handle dev).bdf (s.cfg.pciOff r) value] := by
  rw [writeSelected, Micro.look_bind]
  simp only [Micro.look_bind]
  exact pciWrite_writes 1 _ r value hq

theorem writeSelected_pciField {r : PciReg} {f : PciField} (value : W32) (hq : s.quiet) (hf : f.reg = r) :
    let bdf := (s.handle dev).bdf
    let raw := (s.nic bdf).pciRead (s.cfg.pciOff r)
    let new := insertField raw (s.cfg.pciMask f) value
    ∃ t, writeSelected dev (.pci r (some f)) index value s = .ok () t ∧
      PciWritten s t bdf r new [.pciRead bdf (s.cfg.pciOff r) raw, .pciWrite bdf (s.cfg.pciOff r) new] := by
  intro bdf raw new
  subst hf
  let read := s.accessed 1 (.pciRead bdf (s.cfg.pciOff f.reg) raw)
  have hread : madeBetween s read [.pciRead bdf (s.cfg.pciOff f.reg) raw] := rfl
  obtain ⟨t, hwrite, honly, hmade, hchanges, hcommand⟩ := pciWrite_writes (s := read) 2 bdf f.reg new hq
  refine ⟨t, ?_, ((OnlyNic.refl s bdf).accessed _ _).trans honly, hread.trans hmade, hchanges, hcommand⟩
  rw [writeSelected, Micro.look_bind]
  refine (Micro.run_bind_ok (pciRegRead_quiet 1 bdf f.reg hq)).trans ?_
  rw [Micro.look_bind, Micro.look_bind]
  exact hwrite

/-- How a REG_WRITE ends whose access changes nothing but the NIC. -/
theorem exec_regWrite_only {t : State} {sel : RegSel} {value : W32} (ha : accepts (.regWrite dev sel index value) s)
    (hl : sel.legal s.cfg index = true)
    (hw : writeSelected dev sel index value (s.start (.regWrite dev sel index value)) = .ok () t)
    (ho : OnlyNic (s.start (.regWrite dev sel index value)) t (s.handle dev).bdf) :
    exec (.regWrite dev sel index value) s = .next (t.respond resOk 0 0) ∧ (t.respond resOk 0 0).answered 0 0 0 ∧
      DeviceFrame s (t.respond resOk 0 0) dev (s.handle dev).bdf ∧ SameHandles s (t.respond resOk 0 0) :=
  have hs := ho.of_start.respond resOk 0 0
  ⟨exec_regWrite ha hl hw, ⟨rfl, rfl⟩, hs.deviceFrame dev, hs.sameHandles⟩

end

/-- Settles O20, by the kind of the register and whether a field of it is named. -/
theorem regWriteWritesOnce : Obligations.RegWriteWritesOnce := by
  intro s dev sel index value hq hc ha hl
  have hm : (s.handle dev).mapped = true := Handle.mapped_iff.2 ha.2
  match sel with
  | .dev r none =>
    obtain ⟨t, hrun, ht⟩ := writeSelected_register (s := s.start _) value hq hc hm hl
    obtain ⟨hexec, hanswer, hframe, hhandles⟩ := exec_regWrite_only ha hl hrun ht.only
    refine ⟨_, hexec, hanswer, hframe, hhandles, ?_, nofun, nofun, nofun⟩
    rintro _ ⟨⟩
    exact ⟨ht.made, ht.pci⟩
  | .dev r (some f) =>
    obtain ⟨raw, t, hrun, ht⟩ := writeSelected_field (s := s.start _) value hq hc hm hl
    obtain ⟨hexec, hanswer, hframe, hhandles⟩ := exec_regWrite_only ha hl hrun ht.only
    refine ⟨_, hexec, hanswer, hframe, hhandles, nofun, ?_, nofun, nofun⟩
    rintro _ _ ⟨⟩
    exact ⟨⟨raw, ht.made⟩, ht.pci⟩
  | .pci r none =>
    obtain ⟨t, hrun, ht⟩ := writeSelected_pciRegister (s := s.start _) (dev := dev) (index := index) (r := r) value hq
    obtain ⟨hexec, hanswer, hframe, hhandles⟩ := exec_regWrite_only ha hl hrun ht.only
    refine ⟨_, hexec, hanswer, hframe, hhandles, nofun, nofun, ?_, nofun⟩
    rintro _ ⟨⟩
    exact ⟨ht.made, ht.changes, ht.command⟩
  | .pci r (some f) =>
    obtain ⟨t, hrun, ht⟩ := writeSelected_pciField (s := s.start _) (dev := dev) (index := index) (r := r) (f := f) value
      hq (RegSel.legal_pci hl f rfl)
    obtain ⟨hexec, hanswer, hframe, hhandles⟩ := exec_regWrite_only ha hl hrun ht.only
    refine ⟨_, hexec, hanswer, hframe, hhandles, nofun, nofun, nofun, ?_⟩
    rintro _ _ ⟨⟩
    exact ⟨ht.made, ht.changes, ht.command⟩

end Sys2Proof.Machine
end

section
/-! SUPPORT. DEV_RESET of a device that answers at once, where no other agent moves (R202 to R207): part by part the
accesses that are made, the time that passes at least, and what every register of the NIC then holds. -/

namespace Sys2Proof.Machine

/-! A device that answers at once. -/

/-- No other agent moves, the default map is in place, and the device answers at once (R51, R150, R348). -/
structure Responsive (s : State) (dev : BitVec 8) : Prop where
  quiet : s.quiet
  standard : StandardConfig s.cfg
  mapped : (s.handle dev).mapped = true
  settled : s.settled dev
  prompt : s.prompt dev

/-- What a write of a register leaves alone of a NIC, unless it resets the device. -/
structure Nic.SameBeside (n n' : Nic) : Prop where
  pci : n'.pci = n.pci
  usable : n'.usable = n.usable
  posted : n'.posted = n.posted
  hold : n'.hold = n.hold
  lag : n'.lag = n.lag

theorem Nic.SameBeside.trans {n n' n'' : Nic} (h : n.SameBeside n') (k : n'.SameBeside n'') : n.SameBeside n'' :=
  ⟨k.pci.trans h.pci, k.usable.trans h.usable, k.posted.trans h.posted, k.hold.trans h.hold, k.lag.trans h.lag⟩

theorem Nic.queueEnable_modes (c : Config) (n : Nic) (off : Nat) (old new : W32) :
    (n.queueEnable c off old new).hold = n.hold ∧ (n.queueEnable c off old new).lag = n.lag := by
  unfold Nic.queueEnable
  split
  · split <;> exact ⟨rfl, rfl⟩
  · split
    · split <;> exact ⟨rfl, rfl⟩
    · exact ⟨rfl, rfl⟩

/-- A write of a register marked RW other than TXDCTL, that does not reset the device. -/
theorem Nic.write_plain {c : Config} (hc : StandardConfig c) {n : Nic} {w : RegWrite} {r : DevReg} {i : Nat}
    (hi : r.indexOk c i = true) (hoff : w.off = c.off r i) (hu : n.usable ≤ w.time) (hlag : n.lag = false)
    (hrw : r.access = .rw) (htx : r ≠ .txdctl) (hrst : r = .ctrl → w.val &&& c.mask .rst = 0) :
    n.SameBeside (n.write c w) ∧
      ∀ off, (n.write c w).reg c off = Function.update (n.reg c) (c.off r i) w.val off := by
  refine ⟨?_, fun off => ?_⟩
  · obtain ⟨hhold, hlag'⟩ := (n.putReg w.off w.val).queueEnable_modes c w.off (n.reg c w.off) w.val
    have heq := Nic.write_rw hc hi hoff hu hrw (fun _ => hlag) hrst
    exact ⟨n.pci_write c w, (Nic.reg_write hc hi hoff hu hrw (fun _ => hlag) hrst).2, n.posted_write c w,
      by rw [heq, hhold]; rfl, by rw [heq, hlag']; rfl⟩
  · rw [Nic.reg_write_rw hc hi hoff hu hrw (fun _ => hlag) hrst, if_neg fun h => htx h.1.1, Function.update_apply]

/-! Progress of a command. -/

/-- From `s` to `t` the accesses `l` of a device were made and nothing else is changed but its NIC; at least `d`
microseconds have passed. -/
structure Progress (s : State) (dev : BitVec 8) (l : List Access) (d : Nat) (t : State) : Prop where
  only : OnlyNic s t (s.handle dev).bdf
  made : madeBetween s t l
  waited : s.now + d ≤ t.now

/-- And its registers then hold `g`. -/
structure Holding (s : State) (dev : BitVec 8) (g : Nat → W32) (l : List Access) (d : Nat) (t : State) : Prop
    extends Progress s dev l d t where
  regs : (t.nic (s.handle dev).bdf).reg s.cfg = g
  beside : (s.nic (s.handle dev).bdf).SameBeside (t.nic (s.handle dev).bdf)

/-- From a state in which the registers hold `g` the micro-steps `m` return `a`, after the accesses `l` and at least `d`
microseconds; the registers then hold `g'`. -/
def Does {α : Type} (s : State) (dev : BitVec 8) (g : Nat → W32) (m : Micro α) (a : α) (l : List Access) (d : Nat)
    (g' : Nat → W32) : Prop :=
  ∀ l0 d0 t, Holding s dev g l0 d0 t → ∃ u, m t = .ok a u ∧ Holding s dev g' (l0 ++ l) (d0 + d) u

section Rules
variable {α β : Type} {s : State} {dev : BitVec 8} {g g' g'' : Nat → W32} {l l' : List Access} {d d' : Nat}

theorem Progress.accessed {t : State} (h : Progress s dev l d t) (line : Nat) (a : Access) :
    Progress s dev (l ++ [a]) d (t.accessed line a) :=
  ⟨h.only.accessed line a, h.made.trans rfl, Nat.le_trans h.waited (Nat.le_add_right _ _)⟩

theorem Progress.setNic {t : State} (h : Progress s dev l d t) (n : Nic) :
    Progress s dev l d (t.setNic (s.handle dev).bdf n) := ⟨h.only.setNic n, h.made, h.waited⟩

theorem Does.pure (a : α) : Does s dev g (pure a) a [] 0 g := fun l0 _ t h =>
  ⟨t, rfl, by rwa [List.append_nil]⟩

theorem Does.bind {m : Micro α} {k : α → Micro β} {a : α} {b : β} (h : Does s dev g m a l d g')
    (hk : Does s dev g' (k a) b l' d' g'') : Does s dev g (m >>= k) b (l ++ l') (d + d') g'' := by
  intro l0 d0 t ht
  obtain ⟨u, hm, hu⟩ := h l0 d0 t ht
  obtain ⟨x, hx, hx'⟩ := hk _ _ u hu
  rw [List.append_assoc, Nat.add_assoc] at hx'
  exact ⟨x, (Micro.run_bind_ok hm).trans hx, hx'⟩

/-- A look at the configuration or at a handle sees what it was at the start. -/
theorem Does.look_bind {f : State → α} {k : α → Micro β} {b : β}
    (hf : ∀ t, t.cfg = s.cfg → t.handles = s.handles → f t = f s) (hk : Does s dev g (k (f s)) b l d g') :
    Does s dev g (look f >>= k) b l d g' := by
  intro l0 d0 t ht
  rw [Micro.look_bind, hf t ht.only.cfg ht.only.handles]
  exact hk l0 d0 t ht

theorem Does.waits_less {m : Micro α} {a : α} (h : Does s dev g m a l d g') (hd : d' ≤ d) :
    Does s dev g m a l d' g' := by
  intro l0 d0 t ht
  obtain ⟨u, hm, hu⟩ := h l0 d0 t ht
  have := hu.waited
  exact ⟨u, hm, ⟨⟨hu.only, hu.made, by omega⟩, hu.regs, hu.beside⟩⟩

/-- The same accesses and time, in other words. -/
theorem Does.cast {m : Micro α} {a : α} (h : Does s dev g m a l d g') (hl : l = l') (hd : d = d') :
    Does s dev g m a l' d' g' := hl ▸ hd ▸ h

theorem Does.ite_pos {p : Prop} [Decidable p] {x y : Micro α} {a : α} (hp : p) (h : Does s dev g x a l d g') :
    Does s dev g (if p then x else y) a l d g' := by rwa [if_pos hp]

theorem Does.ite_neg {p : Prop} [Decidable p] {x y : Micro α} {a : α} (hp : ¬ p) (h : Does s dev g y a l d g') :
    Does s dev g (if p then x else y) a l d g' := by rwa [if_neg hp]

end Rules

section Accesses
variable {s : State} {dev : BitVec 8} {g : Nat → W32} {r : DevReg} {f : DevField} {i : Nat}

/-- The NIC is as it was. -/
theorem Holding.sameNic {t u : State} {l l' : List Access} {d d' : Nat} (h : Holding s dev g l d t)
    (hp : Progress s dev l' d' u) (hn : u.nics = t.nics) : Holding s dev g l' d' u := by
  have hnic : u.nic (s.handle dev).bdf = t.nic (s.handle dev).bdf := by rw [State.nic, State.nic, hn]
  exact ⟨hp, by rw [hnic]; exact h.regs, by rw [hnic]; exact h.beside⟩

/-- The device answers at once still. -/
theorem Responsive.holding (hr : Responsive s dev) {t : State} {l : List Access} {d : Nat} (h : Holding s dev g l d t) :
    Responsive t dev := by
  obtain ⟨⟨honly, -, hwaited⟩, -, -, husable, hposted, hhold, hlag⟩ := h
  obtain ⟨hq, hc, hm, ⟨hu, hh, hp⟩, hl⟩ := hr
  have hnow : s.now ≤ t.now := Nat.le_trans (Nat.le_add_right _ _) hwaited
  refine ⟨honly.quiet hq, by rwa [honly.cfg], by rwa [honly.handle], ?_, ?_⟩
  · rw [State.settled, honly.handle]
    exact ⟨husable ▸ Nat.le_trans hu hnow, hhold.trans hh, hposted.trans hp⟩
  · rw [State.prompt, honly.handle]
    exact hlag.trans hl

theorem sleepUs_quiet {t : State} (line n : Nat) (hq : t.quiet) :
    sleepUs line n t =
      .ok () (((t.accessed line (.sleep n)).elapse n).elapse (Config.sleepExtra (t.micros + 1))) := by
  simp only [sleepUs, State.boundary_eq_self hq]
  rfl

theorem Progress.slept {t : State} {l : List Access} {d : Nat} (h : Progress s dev l d t) (line n extra : Nat) :
    Progress s dev (l ++ [.sleep n]) (d + n) (((t.accessed line (.sleep n)).elapse n).elapse extra) := by
  obtain ⟨honly, hmade, hwaited⟩ := h.accessed line (.sleep n)
  refine ⟨(honly.elapse n).elapse extra, hmade, ?_⟩
  simp only [State.elapse_now]
  omega

theorem Does.sleepUs (hr : Responsive s dev) (line n : Nat) : Does s dev g (sleepUs line n) () [.sleep n] n g :=
  fun _ _ _ h => ⟨_, sleepUs_quiet line n (hr.holding h).quiet, h.sameNic (h.slept line n _) rfl⟩

theorem Does.regRead (hr : Responsive s dev) (line : Nat) (hi : r.indexOk s.cfg i = true) (hne : r ≠ .eimc) :
    Does s dev g (regRead line dev r i) (g (s.cfg.off r i)) [.mmioRead (s.regAddr dev r i) (g (s.cfg.off r i))] 0 g := by
  intro l0 d0 t h
  have ht := hr.holding h
  have hcfg := h.only.cfg
  have hvalue : t.regOf dev r i = g (s.cfg.off r i) := by rw [State.regOf, h.only.handle, hcfg, h.regs]
  have hrun := regRead_settled line ht.quiet ht.standard ht.mapped (by rwa [hcfg]) ht.settled hne
  rw [hvalue, h.only.regAddr] at hrun
  exact ⟨_, hrun, h.sameNic (h.accessed _ _) rfl⟩

/-- A register write from there arrives at once. -/
theorem Holding.regWrite_run {t : State} {l : List Access} {d : Nat} (h : Holding s dev g l d t) (hr : Responsive s dev)
    (line : Nat) (v : W32) (hi : r.indexOk s.cfg i = true) :
    ∃ w : RegWrite, w.off = s.cfg.off r i ∧ w.val = v ∧ (t.nic (s.handle dev).bdf).usable ≤ w.time ∧
      w.time = (t.accessed line (.mmioWrite (s.regAddr dev r i) v)).now ∧
      regWrite line dev r i v t =
        .ok () ((t.accessed line (.mmioWrite (s.regAddr dev r i) v)).setNic (s.handle dev).bdf
          ((t.nic (s.handle dev).bdf).write s.cfg w)) := by
  have ht := hr.holding h
  have hcfg := h.only.cfg
  have hrun := regWrite_settled line v ht.quiet ht.standard.1 ht.mapped (by rwa [hcfg]) ht.settled
  have husable := ht.settled.1
  rw [h.only.regAddr, h.only.handle, hcfg] at hrun
  rw [h.only.handle] at husable
  exact ⟨_, rfl, rfl, Nat.le_trans husable (Nat.le_add_right _ _), rfl, hrun⟩

/-- A register marked RW other than TXDCTL holds what is written, unless that resets the device. -/
theorem Does.regWrite (hr : Responsive s dev) (line : Nat) {v : W32} (hi : r.indexOk s.cfg i = true)
    (hrw : r.access = .rw) (htx : r ≠ .txdctl) (hrst : r = .ctrl → v &&& s.cfg.mask .rst = 0) :
    Does s dev g (regWrite line dev r i v) () [.mmioWrite (s.regAddr dev r i) v] 0
      (Function.update g (s.cfg.off r i) v) := by
  intro l0 d0 t h
  obtain ⟨w, hoff, rfl, husable, -, hrun⟩ := h.regWrite_run hr line v hi
  obtain ⟨hbeside, hregs⟩ := Nic.write_plain hr.standard hi hoff husable (h.beside.lag.trans hr.prompt) hrw htx hrst
  refine ⟨_, hrun, (h.accessed line _).setNic _, ?_, ?_⟩
  · rw [State.nic_setNic_self]
    funext off
    rw [hregs, h.regs]
  · rw [State.nic_setNic_self]
    exact h.beside.trans hbeside

theorem Does.regIsCleared (hr : Responsive s dev) (line : Nat) (hi : f.reg.indexOk s.cfg i = true)
    (hne : f.reg ≠ .eimc) :
    Does s dev g (regIsCleared line dev f i) (extract (g (s.cfg.off f.reg i)) (s.cfg.mask f) == 0)
      [.mmioRead (s.regAddr dev f.reg i) (g (s.cfg.off f.reg i))] 0 g :=
  .cast (.bind (.bind (.regRead hr line hi hne) (.look_bind (fun _ h _ => by rw [h]) (.pure _))) (.pure _)) rfl rfl

/-- A read-modify-write of a field (R155). -/
theorem Does.regWriteField (hr : Responsive s dev) (line : Nat) {v : W32} (hi : f.reg.indexOk s.cfg i = true)
    (hrw : f.reg.access = .rw) (htx : f.reg ≠ .txdctl)
    (hrst : f.reg = .ctrl → insertField (g (s.cfg.off f.reg i)) (s.cfg.mask f) v &&& s.cfg.mask .rst = 0) :
    let old := g (s.cfg.off f.reg i)
    let new := insertField old (s.cfg.mask f) v
    Does s dev g (regWriteField line dev f i v) () (readModifyWrite (s.regAddr dev f.reg i) old new) 0
      (Function.update g (s.cfg.off f.reg i) new) :=
  .cast (.bind (.regRead hr line hi fun e => by rw [e] at hrw; cases hrw) (.look_bind (fun _ h _ => by rw [h])
    (.regWrite hr (line + 1) hi hrw htx hrst))) rfl rfl

/-- A field is set (R156). -/
theorem Does.regSet (hr : Responsive s dev) (line : Nat) (hi : f.reg.indexOk s.cfg i = true)
    (hrw : f.reg.access = .rw) (htx : f.reg ≠ .txdctl)
    (hrst : f.reg = .ctrl → (g (s.cfg.off f.reg i) ||| s.cfg.mask f) &&& s.cfg.mask .rst = 0) :
    let old := g (s.cfg.off f.reg i)
    let new := old ||| s.cfg.mask f
    Does s dev g (regSet line dev f i) () (readModifyWrite (s.regAddr dev f.reg i) old new) 0
      (Function.update g (s.cfg.off f.reg i) new) := by
  intro old new
  have hnew : new = insertField old (s.cfg.mask f) (fieldOnes (s.cfg.mask f)) :=
    (insertField_fieldOnes old (s.cfg.mask f)).symm
  rw [hnew]
  exact .look_bind (fun _ h _ => by rw [h]) (.regWriteField hr line hi hrw htx fun e => by
    rw [insertField_fieldOnes]
    exact hrst e)

/-- A poll for a field to be 0, of a field that is (R159). -/
theorem Does.poll_passes (hr : Responsive s dev) (line : Nat) (hi : f.reg.indexOk s.cfg i = true)
    (hne : f.reg ≠ .eimc) (hclear : extract (g (s.cfg.off f.reg i)) (s.cfg.mask f) = 0) :
    Does s dev g (poll line dev f i false) true [.mmioRead (s.regAddr dev f.reg i) (g (s.cfg.off f.reg i))] 0 g := by
  refine .look_bind (fun _ h _ => h) ?_
  obtain ⟨n, hn⟩ : ∃ n, s.cfg.pollAttempts = n + 1 := Nat.exists_eq_add_one.2 (Config.pollAttempts_pos hr.standard.1)
  rw [hn]
  exact .cast (.bind (.regIsCleared hr line hi hne) (.ite_pos (by simp [hclear]) (.pure _))) rfl rfl

/-- A poll for a field to be 0, of a field that is not and stays so. -/
theorem Does.poll_times_out (hr : Responsive s dev) (line : Nat) (hi : f.reg.indexOk s.cfg i = true)
    (hne : f.reg ≠ .eimc) (hset : extract (g (s.cfg.off f.reg i)) (s.cfg.mask f) ≠ 0) :
    Does s dev g (poll line dev f i false) false
      (List.replicate s.cfg.pollAttempts [.mmioRead (s.regAddr dev f.reg i) (g (s.cfg.off f.reg i)),
        .sleep (pollGap s.cfg s.cfg.tPoll)]).flatten s.cfg.tPoll g := by
  have loop (gap n : Nat) : Does s dev g (pollLoop line dev f i false gap n) false
      (List.replicate n [.mmioRead (s.regAddr dev f.reg i) (g (s.cfg.off f.reg i)), .sleep gap]).flatten (n * gap) g := by
    induction n with
    | zero => exact .cast (.pure _) rfl (by omega)
    | succ n ih =>
      refine .cast (.bind (.regIsCleared hr line hi hne) (.ite_neg (by simpa using hset)
        (.bind (.sleepUs hr (line + 1) gap) ih))) ?_ ?_
      · rw [List.replicate_succ, List.flatten_cons]
        rfl
      · rw [Nat.succ_mul]
        omega
  exact .look_bind (fun _ h _ => h) ((loop _ _).waits_less (tPoll_le_gaps hr.standard.1))

end Accesses

end Sys2Proof.Machine
end

section
/-! SUPPORT. DEV_RESET of a device that answers at once, part by part (R202 to R207), and the NIC after it (R349). -/

namespace Sys2Proof.Machine

section Parts
variable {s : State} {dev : BitVec 8} {g : Nat → W32}

/-! The queues (R203). -/

/-- The registers of the NIC of a device. -/
def State.registers (s : State) (dev : BitVec 8) : Nat → W32 := (s.nic (s.handle dev).bdf).reg s.cfg

/-- The registers once the receive queues below `q` are disabled. -/
def State.queuesCleared (s : State) (dev : BitVec 8) (q : Nat) (off : Nat) : W32 :=
  if (List.range q).any fun j => s.cfg.off .rxdctl j == off then
    insertField (s.registers dev off) (s.cfg.mask .rxdctlEnable) 0
  else s.registers dev off

theorem State.queuesCleared_zero (s : State) (dev : BitVec 8) : s.queuesCleared dev 0 = s.registers dev := rfl

theorem State.queuesCleared_succ (s : State) (dev : BitVec 8) (q : Nat) :
    s.queuesCleared dev (q + 1) = Function.update (s.queuesCleared dev q) (s.cfg.off .rxdctl q)
      (insertField (s.regOf dev .rxdctl q) (s.cfg.mask .rxdctlEnable) 0) := by
  funext off
  by_cases h : off = s.cfg.off .rxdctl q
  · subst h
    have hlisted : (List.range (q + 1)).any (fun j => s.cfg.off .rxdctl j == s.cfg.off .rxdctl q) = true :=
      List.any_eq_true.2 ⟨q, List.mem_range.2 (Nat.lt_succ_self q), beq_self_eq_true _⟩
    rw [Function.update_self, State.queuesCleared, if_pos hlisted]
    rfl
  · rw [Function.update_of_ne h]
    simp [State.queuesCleared, List.range_succ, Ne.symm h]

theorem State.queuesCleared_of_ne {q off : Nat} (h : ∀ j, j < q → s.cfg.off .rxdctl j ≠ off) :
    s.queuesCleared dev q off = s.registers dev off := by
  have hnone : (List.range q).any (fun j => s.cfg.off .rxdctl j == off) = false := by
    simpa using h
  rw [State.queuesCleared, hnone, if_neg Bool.false_ne_true]

/-- The accesses that disable one receive queue. -/
def State.queueAccesses (s : State) (dev : BitVec 8) (q : Nat) : List Access :=
  let cleared := insertField (s.regOf dev .rxdctl q) (s.cfg.mask .rxdctlEnable) 0
  readModifyWrite (s.regAddr dev .rxdctl q) (s.regOf dev .rxdctl q) cleared ++
    [.mmioRead (s.regAddr dev .rxdctl q) cleared, .sleep s.cfg.tRxqWait]

/-- A cleared field is 0. -/
theorem extract_insertField_zero (raw m : W32) : extract (insertField raw m 0) m = 0 := by
  rw [extract_insertField, BitVec.ofNat_eq_ofNat, BitVec.zero_and]

theorem Does.disableRxQueues (hr : Responsive s dev) {todo q : Nat} (hq : q + todo = s.cfg.rxQueueCount) :
    Does s dev (s.queuesCleared dev q) (disableRxQueues dev todo q) ()
      ((List.range' q todo).map (s.queueAccesses dev)).flatten (todo * s.cfg.tRxqWait)
      (s.queuesCleared dev s.cfg.rxQueueCount) := by
  induction todo generalizing q with
  | zero =>
    obtain rfl : q = s.cfg.rxQueueCount := hq
    exact .cast (.pure ()) rfl (by omega)
  | succ todo ih =>
    have hi {j : Nat} (hj : j ≤ q) : DevReg.rxdctl.indexOk s.cfg j = true := indexOk_of_lt rfl (by omega)
    have hold : s.queuesCleared dev q (s.cfg.off .rxdctl q) = s.regOf dev .rxdctl q :=
      State.queuesCleared_of_ne fun j hj he =>
        Nat.ne_of_lt hj (Config.off_inj hr.standard rfl (hi (Nat.le_of_lt hj)) (hi (Nat.le_refl q)) he)
    have hclear := Does.regWriteField (g := s.queuesCleared dev q) (f := .rxdctlEnable) (i := q) hr 1 (v := 0)
      (hi (Nat.le_refl q)) rfl (by decide) nofun
    simp only [DevField.reg, hold, ← State.queuesCleared_succ] at hclear
    have hnew : s.queuesCleared dev (q + 1) (s.cfg.off .rxdctl q) =
        insertField (s.regOf dev .rxdctl q) (s.cfg.mask .rxdctlEnable) 0 := by
      rw [State.queuesCleared_succ, Function.update_self]
    have hpoll := Does.poll_passes (g := s.queuesCleared dev (q + 1)) (f := .rxdctlEnable) (i := q) hr 3
      (hi (Nat.le_refl q)) (by decide) (by rw [DevField.reg, hnew, extract_insertField_zero])
    simp only [DevField.reg, hnew] at hpoll
    refine .cast (.bind hclear (.bind hpoll (.ite_neg (by decide) (.look_bind (fun _ h _ => by rw [h])
      (.bind (.sleepUs hr 5 _) (ih (by omega))))))) ?_ ?_
    · rw [List.range'_succ, List.map_cons, List.flatten_cons]
      rfl
    · rw [Nat.succ_mul]
      omega

/-! Master disable, the pending check and the flush (R204 to R206). -/

/-- The accesses of the flush. -/
def State.flushAccesses (s : State) (dev : BitVec 8) : List Access :=
  let looped := s.regOf dev .hlreg0 0 ||| s.cfg.mask .lpbk
  let clearing := s.regOf dev .gcrExt 0 ||| s.cfg.mask .buffersClearFunc
  readModifyWrite (s.regAddr dev .hlreg0 0) (s.regOf dev .hlreg0 0) looped ++
    readModifyWrite (s.regAddr dev .gcrExt 0) (s.regOf dev .gcrExt 0) clearing ++ [.sleep s.cfg.tFlush] ++
    readModifyWrite (s.regAddr dev .hlreg0 0) looped (insertField looped (s.cfg.mask .lpbk) 0) ++
    readModifyWrite (s.regAddr dev .gcrExt 0) clearing (insertField clearing (s.cfg.mask .buffersClearFunc) 0)

theorem Does.flushBuffers (hr : Responsive s dev) (hl : g (s.cfg.off .hlreg0 0) = s.regOf dev .hlreg0 0)
    (hg : g (s.cfg.off .gcrExt 0) = s.regOf dev .gcrExt 0) :
    ∃ g', g' (s.cfg.off .ctrl 0) = g (s.cfg.off .ctrl 0) ∧
      Does s dev g (flushBuffers dev) () (s.flushAccesses dev) s.cfg.tFlush g' := by
  have hne : s.cfg.off .gcrExt 0 ≠ s.cfg.off .hlreg0 0 := Config.off_ne hr.standard (by decide) rfl rfl
  have hcl : s.cfg.off .ctrl 0 ≠ s.cfg.off .hlreg0 0 := Config.off_ne hr.standard (by decide) rfl rfl
  have hcg : s.cfg.off .ctrl 0 ≠ s.cfg.off .gcrExt 0 := Config.off_ne hr.standard (by decide) rfl rfl
  refine ⟨_, ?_, .cast (.bind (.regSet (f := .lpbk) hr 11 rfl rfl (by decide) nofun)
    (.bind (.regSet (f := .buffersClearFunc) hr 13 rfl rfl (by decide) nofun)
    (.look_bind (fun _ h _ => by rw [h]) (.bind (.sleepUs hr 15 _)
    (.bind (.regWriteField (f := .lpbk) hr 16 rfl rfl (by decide) nofun)
    (.regWriteField (f := .buffersClearFunc) hr 18 rfl rfl (by decide) nofun)))))) ?_ ?_⟩
  · simp only [DevField.reg, Function.update_of_ne hcl, Function.update_of_ne hcg]
  · simp only [DevField.reg, Function.update_self, Function.update_of_ne hne, Function.update_of_ne hne.symm, hl, hg,
      State.flushAccesses, List.append_assoc]
  · omega

/-- The value of the configuration register that says whether a transaction is pending (R205). -/
def State.pendingStatus (s : State) (dev : BitVec 8) : W32 :=
  (s.nic (s.handle dev).bdf).pciRead (s.cfg.pciOff .deviceStatus)

theorem Does.pciRegRead (hr : Responsive s dev) (line : Nat) (r : PciReg) :
    let v := (s.nic (s.handle dev).bdf).pciRead (s.cfg.pciOff r)
    Does s dev g (pciRegRead line (s.handle dev).bdf r) v [.pciRead (s.handle dev).bdf (s.cfg.pciOff r) v] 0 g := by
  intro v l0 d0 t ht
  have hcfg := ht.only.cfg
  have hvalue : (t.nic (s.handle dev).bdf).pciRead (t.cfg.pciOff r) = v := by
    rw [Nic.pciRead, ht.beside.pci, hcfg]
    rfl
  have hread := pciRegRead_quiet (s := t) line (s.handle dev).bdf r (hr.holding ht).quiet
  rw [hvalue, hcfg] at hread
  exact ⟨_, hread, ht.sameNic (ht.accessed _ _) rfl⟩

theorem Does.transactionPending (hr : Responsive s dev) :
    Does s dev g (transactionPending dev)
      (!(extract (s.pendingStatus dev) (s.cfg.pciMask .transactionPending) == 0))
      [.pciRead (s.handle dev).bdf (s.cfg.pciOff .deviceStatus) (s.pendingStatus dev)] 0 g :=
  .look_bind (fun _ _ h => by rw [handle_of_handles h]) (.cast (.bind (.bind (.bind (.pciRegRead hr 10 .deviceStatus)
    (.look_bind (fun _ h _ => by rw [h]) (.pure _))) (.pure _)) (.pure _)) rfl rfl)

/-- The value of CTRL with the master disabled. -/
def State.disabledCtrl (s : State) (dev : BitVec 8) : W32 := s.regOf dev .ctrl 0 ||| s.cfg.mask .masterDisable

/-- The accesses of master disable with its fallback. -/
def State.masterAccesses (s : State) (dev : BitVec 8) : List Access :=
  let status := Access.mmioRead (s.regAddr dev .status 0) (s.regOf dev .status 0)
  readModifyWrite (s.regAddr dev .ctrl 0) (s.regOf dev .ctrl 0) (s.disabledCtrl dev) ++
  (if s.masterStays dev then
    (List.replicate s.cfg.pollAttempts [status, .sleep (pollGap s.cfg s.cfg.tPoll)]).flatten ++
      [.pciRead (s.handle dev).bdf (s.cfg.pciOff .deviceStatus) (s.pendingStatus dev)]
  else [status]) ++
  (if s.flushDue dev then s.flushAccesses dev else [])

/-- The time that master disable with its fallback waits at least. -/
def State.masterWait (s : State) (dev : BitVec 8) : Nat :=
  (if s.masterStays dev then s.cfg.tPoll else 0) + (if s.flushDue dev then s.cfg.tFlush else 0)

theorem Config.mask_spec {c : Config} (h : c.regmap = RegMap.spec) (f : DevField) : c.mask f = f.specMask := by
  rw [Config.mask, h]
  cases f <;> rfl

/-- The bits of CTRL that disable the master are none that reset the device. -/
theorem State.disabledCtrl_and_rst (hc : StandardConfig s.cfg) (h : s.fieldOf dev .rst 0 = 0) :
    s.disabledCtrl dev &&& s.cfg.mask .rst = 0 := by
  have hold : s.regOf dev .ctrl 0 &&& s.cfg.mask .rst = 0 := extract_eq_zero_iff.1 h
  have hbits : s.cfg.mask .masterDisable &&& s.cfg.mask .rst = 0 := by
    rw [Config.mask_spec hc.2.1, Config.mask_spec hc.2.1]
    decide
  rw [State.disabledCtrl, BitVec.and_comm, BitVec.and_or_distrib_left, BitVec.and_comm, hold, BitVec.and_comm, hbits]
  rfl

theorem Does.disableMaster (hr : Responsive s dev) (hrst : s.fieldOf dev .rst 0 = 0)
    (hg : ∀ r, r ≠ .rxdctl → r.indexOk s.cfg 0 = true → g (s.cfg.off r 0) = s.regOf dev r 0) :
    ∃ g', g' (s.cfg.off .ctrl 0) = s.disabledCtrl dev ∧
      Does s dev g (disableMaster dev) () (s.masterAccesses dev) (s.masterWait dev) g' := by
  have hctrl := hg .ctrl (by decide) rfl
  have hset := Does.regSet (g := g) (f := .masterDisable) (i := 0) hr 6 rfl rfl (by decide) fun _ => by
    rw [DevField.reg, hctrl]
    exact State.disabledCtrl_and_rst hr.standard hrst
  simp only [DevField.reg, hctrl] at hset
  rw [← State.disabledCtrl] at hset
  generalize hg' : Function.update g (s.cfg.off .ctrl 0) (s.disabledCtrl dev) = g' at hset
  have hnow : g' (s.cfg.off .ctrl 0) = s.disabledCtrl dev := by rw [← hg', Function.update_self]
  have hother {r : DevReg} (hr1 : r ≠ .ctrl) (hr2 : r ≠ .rxdctl) (hi : r.indexOk s.cfg 0 = true) :
      g' (s.cfg.off r 0) = s.regOf dev r 0 := by
    rw [← hg', Function.update_of_ne (Config.off_ne hr.standard hr1 hi rfl), hg r hr2 hi]
  have hstatus : g' (s.cfg.off .status 0) = s.regOf dev .status 0 := hother (by decide) (by decide) rfl
  by_cases hstays : s.masterStays dev
  · have hpoll := Does.poll_times_out (g := g') (f := .masterEnableStatus) (i := 0) hr 8 rfl (by decide)
      (by rw [DevField.reg, hstatus]; exact hstays)
    simp only [DevField.reg, hstatus] at hpoll
    by_cases hpending : extract (s.pendingStatus dev) (s.cfg.pciMask .transactionPending) = 0
    · have hdue : ¬ s.flushDue dev := fun h => h.2 hpending
      refine ⟨g', hnow, .cast (.bind hset (.bind hpoll (.ite_pos (by decide) (.bind (.transactionPending hr)
        (.ite_neg (by simpa using hpending) (.pure ())))))) ?_ ?_⟩
      · simp only [State.masterAccesses, if_pos hstays, if_neg hdue, List.append_nil]
      · simp only [State.masterWait, if_pos hstays, if_neg hdue]
        omega
    · have hdue : s.flushDue dev := ⟨hstays, hpending⟩
      obtain ⟨g'', hkept, hflush⟩ := Does.flushBuffers (g := g') hr (hother (by decide) (by decide) rfl)
        (hother (by decide) (by decide) rfl)
      refine ⟨g'', hkept.trans hnow, .cast (.bind hset (.bind hpoll (.ite_pos (by decide)
        (.bind (.transactionPending hr) (.ite_pos (by simpa using hpending) hflush))))) ?_ ?_⟩
      · simp only [State.masterAccesses, if_pos hstays, if_pos hdue, List.append_assoc]
      · simp only [State.masterWait, if_pos hstays, if_pos hdue]
        omega
  · have hdue : ¬ s.flushDue dev := fun h => hstays h.1
    have hpoll := Does.poll_passes (g := g') (f := .masterEnableStatus) (i := 0) hr 8 rfl (by decide)
      (by rw [DevField.reg, hstatus]; exact not_not.1 hstays)
    simp only [DevField.reg, hstatus] at hpoll
    refine ⟨g', hnow, .cast (.bind hset (.bind hpoll (.ite_neg (by decide) (.pure ())))) ?_ ?_⟩
    · simp only [State.masterAccesses, if_neg hstays, if_neg hdue, List.append_nil]
    · simp only [State.masterWait, if_neg hstays, if_neg hdue]

end Parts

end Sys2Proof.Machine
end

section
/-! SUPPORT. DEV_RESET of a device that answers at once, as a whole: the device reset and its wait (R207), and the NIC
after it (R349). -/

namespace Sys2Proof.Machine

/-! The device reset (R349). -/

theorem Config.off_rxdctl {c : Config} (hc : StandardConfig c) (q : Nat) :
    c.off .rxdctl q = if q < 64 then 0x01028 + 0x40 * q else 0x0D028 + 0x40 * (q - 64) := by
  rw [Config.off, hc.2.1]
  rfl

/-- At the offset of a receive queue's control register lies one. -/
theorem Config.indexAt_rxdctl {c : Config} (hc : StandardConfig c) {q : Nat} (hq : q < c.rxQueueCount) :
    (c.indexAt .rxdctl (c.off .rxdctl q)).isSome = true := by
  have hrow : c.regmap.rows.getD DevReg.rxdctl.id default = ⟨0x01028, 0x40, some (64, 0x0D028)⟩ := by
    rw [hc.2.1]
    rfl
  have hcount : (DevReg.rxdctl.indexCount c).getD 1 = c.rxQueueCount := rfl
  simp only [Config.indexAt, hrow, hcount]
  by_cases h : q < 64
  · have hlow : (c.off .rxdctl q - 0x01028) / 0x40 = q := by
      rw [Config.off_rxdctl hc, if_pos h]
      omega
    rw [hlow, if_pos ⟨hq, rfl⟩, Option.isSome_some]
  · have hhigh : 64 + (c.off .rxdctl q - 0x0D028) / 0x40 = q := by
      rw [Config.off_rxdctl hc, if_neg h]
      omega
    split
    · exact Option.isSome_some
    · rw [hhigh, if_pos ⟨hq, rfl⟩, Option.isSome_some]

/-- A bit that is masked out of a register is 0. -/
theorem extract_and_not (raw m : W32) : extract (raw &&& ~~~m) m = 0 := by
  rw [extract_eq_zero_iff, BitVec.and_assoc]
  simp

/-- After the device reset every queue is disabled. -/
theorem Nic.deviceReset_disables {c : Config} (hc : StandardConfig c) (n : Nic) (k now q : Nat) :
    (q < c.rxQueueCount → (n.deviceReset c k now).field c .rxdctlEnable q = 0) ∧
      (q < c.txQueueCount → (n.deviceReset c k now).field c .txdctlEnable q = 0) := by
  have hreg (off : Nat) : (n.deviceReset c k now).reg c off = (n.deviceReset c k now).unlisted c off := rfl
  refine ⟨fun hq => ?_, fun hq => ?_⟩
  · rw [Nic.field, DevField.reg, hreg]
    simp only [Nic.unlisted, Nic.deviceReset, Config.indexAt_rxdctl hc hq, if_true]
    exact extract_and_not _ _
  · have hi : DevReg.txdctl.indexOk c q = true := indexOk_of_lt rfl hq
    have hrx : c.indexAt .rxdctl (c.off .txdctl q) = none := Config.indexAt_off_ne hc (by decide) hi
    rw [Nic.field, DevField.reg, hreg]
    simp only [Nic.unlisted, Nic.deviceReset, hrx, Config.indexAt_txdctl hc hi, Option.isSome_none, Option.isSome_some,
      Bool.false_eq_true, if_true, if_false]
    exact extract_and_not _ _

/-- A write that sets `CTRL.RST` and arrives with no device reset under way resets the device. -/
theorem Nic.write_reset {c : Config} {n : Nic} {w : RegWrite} (hoff : w.off = c.off .ctrl 0) (hu : n.usable ≤ w.time)
    (hrst : w.val &&& c.mask .rst ≠ 0) : n.write c w = n.deviceReset c w.micro w.time := by
  rw [Nic.write, if_neg (Nat.not_lt.2 hu), if_pos hoff, if_pos hrst]

section Parts
variable {s : State} {dev : BitVec 8} {g : Nat → W32}

/-- The NIC of a device was reset at time `now`, and is as `s` has it in what a reset leaves alone. -/
def WasReset (s : State) (dev : BitVec 8) (now : Nat) (u : State) : Prop :=
  ∃ n k, (s.nic (s.handle dev).bdf).SameBeside n ∧ u.nic (s.handle dev).bdf = n.deviceReset s.cfg k now

/-- The write that sets the reset bit writes it as 1. -/
theorem or_rst_and_rst {c : Config} (hc : c.legal = true) (v : W32) : (v ||| c.mask .rst) &&& c.mask .rst ≠ 0 := by
  have hmask := regmask_legal hc .rst
  simp only [maskOk, Bool.and_eq_true, bne_iff_ne] at hmask
  have habsorb : (v ||| c.mask .rst) &&& c.mask .rst = c.mask .rst := by
    ext i hi
    simp +contextual
  rw [habsorb]
  exact hmask.1

/-- The write that sets the reset bit. -/
theorem regSet_rst_run {t : State} {l : List Access} {d : Nat} (hr : Responsive s dev) (ht : Holding s dev g l d t) :
    let old := g (s.cfg.off .ctrl 0)
    ∃ u, regSet 20 dev .rst 0 t = .ok () u ∧
      Progress s dev (l ++ readModifyWrite (s.regAddr dev .ctrl 0) old (old ||| s.cfg.mask .rst)) d u ∧
      WasReset s dev u.now u := by
  intro old
  obtain ⟨t1, hread, h1⟩ := Does.regRead (r := .ctrl) (i := 0) hr 20 rfl (by decide) l d t ht
  obtain ⟨w, hoff, hval, husable, htime, hwrite⟩ :=
    h1.regWrite_run (r := .ctrl) (i := 0) hr 21 (old ||| s.cfg.mask .rst) rfl
  rw [Nic.write_reset hoff husable (hval ▸ or_rst_and_rst hr.standard.1 old)] at hwrite
  have hmade := (h1.accessed 21 (.mmioWrite (s.regAddr dev .ctrl 0) (old ||| s.cfg.mask .rst))).setNic
    ((t1.nic (s.handle dev).bdf).deviceReset s.cfg w.micro w.time)
  rw [List.append_assoc] at hmade
  refine ⟨_, ?_, hmade, _, w.micro, h1.beside, ?_⟩
  · rw [regSet, Micro.look_bind, ht.only.cfg]
    refine (Micro.run_bind_ok hread).trans ?_
    rw [Micro.look_bind, h1.only.cfg]
    show regWrite 21 dev .ctrl 0 (insertField old (s.cfg.mask .rst) (fieldOnes (s.cfg.mask .rst))) t1 = _
    rw [insertField_fieldOnes, hwrite]
  · rw [State.nic_setNic_self, htime]
    rfl

/-- The device reset and its wait. -/
theorem issueReset_run {t : State} {l : List Access} {d : Nat} (hr : Responsive s dev) (ht : Holding s dev g l d t) :
    let old := g (s.cfg.off .ctrl 0)
    ∃ u now, issueReset dev t = .ok () u ∧ WasReset s dev now u ∧ now + s.cfg.tReset ≤ u.now ∧
      Progress s dev (l ++ readModifyWrite (s.regAddr dev .ctrl 0) old (old ||| s.cfg.mask .rst) ++
        [.sleep s.cfg.tReset]) (d + s.cfg.tReset) u := by
  intro old
  obtain ⟨t1, hset, h1, hreset⟩ := regSet_rst_run hr ht
  have hsleep := sleepUs_quiet 22 s.cfg.tReset (h1.only.quiet hr.quiet)
  refine ⟨_, t1.now, (Micro.run_bind_ok hset).trans ((congrArg (sleepUs 22 · t1) ?_).trans hsleep), hreset, ?_,
    h1.slept 22 s.cfg.tReset (Config.sleepExtra (t1.micros + 1))⟩
  · exact congrArg Config.tReset h1.only.cfg
  · have haccess : t1.now ≤ (t1.accessed 22 (.sleep s.cfg.tReset)).now := Nat.le_add_right _ _
    simp only [State.elapse_now]
    omega

/-! DEV_RESET. -/

/-- The accesses of DEV_RESET are those of its parts. -/
theorem resetAccesses_eq (s : State) (dev : BitVec 8) :
    resetAccesses s dev = ((List.range' 0 s.cfg.rxQueueCount).map (s.queueAccesses dev)).flatten ++
      s.masterAccesses dev ++ readModifyWrite (s.regAddr dev .ctrl 0) (s.disabledCtrl dev)
        (s.disabledCtrl dev ||| s.cfg.mask .rst) ++ [.sleep s.cfg.tReset] := by
  rw [← List.range_eq_range', State.masterAccesses, ← List.append_assoc, ← List.append_assoc]
  rfl

theorem resetDevice_run (hr : Responsive s dev) (hrst : s.fieldOf dev .rst 0 = 0) :
    ∃ u now, resetDevice dev s = .ok () (u.setHandle dev { u.handle dev with ls := .reset }) ∧ WasReset s dev now u ∧
      now + s.cfg.tReset ≤ u.now ∧ Progress s dev (resetAccesses s dev)
        (s.cfg.rxQueueCount * s.cfg.tRxqWait + s.masterWait dev + s.cfg.tReset) u := by
  have hstart : Holding s dev (s.queuesCleared dev 0) [] 0 s :=
    ⟨⟨.refl s _, rfl, Nat.le_refl _⟩, rfl, rfl, rfl, rfl, rfl, rfl⟩
  obtain ⟨g, hctrl, hmaster⟩ := Does.disableMaster (g := s.queuesCleared dev s.cfg.rxQueueCount) hr hrst
    fun r hne hi => State.queuesCleared_of_ne fun j hj =>
      Config.off_ne hr.standard hne.symm (indexOk_of_lt rfl hj) hi
  obtain ⟨t1, hqueues, h1⟩ := Does.disableRxQueues hr (Nat.zero_add _) [] 0 s hstart
  obtain ⟨t2, hmaster, h2⟩ := hmaster _ _ t1 h1
  obtain ⟨u, now, hissue, hreset, hnow, hu⟩ := issueReset_run hr h2
  rw [hctrl, List.nil_append, Nat.zero_add, ← resetAccesses_eq] at hu
  exact ⟨u, now, (Micro.run_bind_ok hqueues).trans ((Micro.run_bind_ok hmaster).trans (Micro.run_bind_ok hissue)),
    hreset, hnow, hu⟩

end Parts

theorem OnlyNic.deviceFrame_setHandle {s t : State} {bdf : W16} (h : OnlyNic s t bdf) (dev : BitVec 8) (hd : Handle) :
    DeviceFrame s (t.setHandle dev hd) dev bdf :=
  ⟨h.environment, h.engine, ⟨fun _ => by rw [State.setHandle_mem, h.memory], h.blocks⟩, h.answers,
    fun d hne => by rw [State.handle_setHandle, if_neg hne, h.handle], h.nics⟩

/-- Settles O26: the device is quiet while the parts of the command run, so each access finds what those before it
wrote. -/
theorem devResetCompletes : Obligations.DevResetCompletes := by
  intro s dev hq hc hsettled hprompt ha hrst
  have hm : (s.handle dev).mapped = true := Handle.mapped_iff.2 (by rw [ha.2]; decide)
  have hr : Responsive (s.start (.devReset dev)) dev := ⟨hq, hc, hm, hsettled, hprompt⟩
  obtain ⟨u, now, hrun, ⟨n, k, hbeside, hnic⟩, hnow, honly, hmade, hwaited⟩ := resetDevice_run hr hrst
  have hframe : OnlyNic s u (s.handle dev).bdf := honly.of_start
  have hdisabled := Nic.deviceReset_disables hc n k now
  generalize ht : (u.setHandle dev { u.handle dev with ls := .reset }).respond resOk 0 0 = t
  have htdev : t.handle dev = { s.handle dev with ls := .reset } := by
    rw [← ht, ← hframe.handle]
    exact State.handle_setHandle_self ..
  have htnic : t.nic (s.handle dev).bdf = n.deviceReset s.cfg k now := by
    rw [← ht]
    exact hnic
  have htnow : t.now = u.now := by rw [← ht]; rfl
  have htcfg : t.cfg = s.cfg := by rw [← ht]; exact hframe.cfg
  have hfield (f : DevField) (i : Nat) : t.fieldOf dev f i = (n.deviceReset s.cfg k now).field s.cfg f i := by
    rw [← htnic, State.fieldOf, State.regOf, htdev, htcfg]
    rfl
  refine ⟨t, ht ▸ exec_ok (v := noValues) ha (Micro.run_bind_ok hrun), ht ▸ ⟨rfl, rfl⟩, htdev,
    ht ▸ hframe.deviceFrame_setHandle dev _, ?_, ?_, fun q hlt => ?_, fun q hlt => ?_, ht ▸ hmade, ?_⟩
  · rw [State.settled, htdev]
    show (t.nic (s.handle dev).bdf).settledAt t.now
    rw [htnic, htnow]
    exact ⟨hnow, hbeside.hold.trans hsettled.2.1, hbeside.posted.trans hsettled.2.2⟩
  · rw [htnic]
    exact hbeside.pci
  · rw [hfield, htnic]
    exact ⟨(hdisabled q).1 hlt, rfl⟩
  · rw [hfield, htnic]
    exact ⟨(hdisabled q).2 hlt, rfl⟩
  · rw [htnow]
    refine Nat.le_trans (Nat.le_of_eq ?_) hwaited
    show _ = s.now + (s.cfg.rxQueueCount * s.cfg.tRxqWait + s.masterWait dev + s.cfg.tReset)
    rw [State.masterWait]
    omega

end Sys2Proof.Machine
end

section
/-! SUPPORT. DEV_OPEN where no other agent moves (R182 to R190): the accesses made so far and what the NIC then is, at
each of the four checks and at the end. -/

namespace Sys2Proof.Machine

/-! The command register (R185). -/

/-- The NIC once the block has set a field of `PCI_COMMAND` (R164, R356). -/
def Nic.withCommand (c : Config) (n : Nic) (f : PciField) : Nic :=
  { n with
    pci := Store.put n.pci (c.pciOff .command) ⟨true, n.pciRead (c.pciOff .command) ||| c.pciMask f⟩ }

theorem Nic.pciRead_withCommand (c : Config) (n : Nic) (f : PciField) (off : Nat) :
    (n.withCommand c f).pciRead off =
      if off = c.pciOff .command then n.pciRead (c.pciOff .command) ||| c.pciMask f else n.pciRead off := by
  rw [Nic.withCommand, Nic.pciRead, Store.get?_put]
  split <;> rfl

theorem Nic.command_withCommand (c : Config) (n : Nic) (f : PciField) :
    (n.withCommand c f).pciRead (c.pciOff .command) = n.pciRead (c.pciOff .command) ||| c.pciMask f := by
  rw [Nic.pciRead_withCommand, if_pos rfl]

/-- The NIC is this after a write of the value, whatever the micro-step. -/
theorem Nic.pciWrite_command {c : Config} (hc : StandardConfig c) (k : Nat) (n : Nic) (f : PciField) :
    n.pciWrite c k (c.pciOff .command) (n.pciRead (c.pciOff .command) ||| c.pciMask f) = n.withCommand c f := by
  have hfind : (PciReg.all.find? fun r => c.pciOff r == c.pciOff .command) = some .command := by
    simp only [Config.pciOff, hc.2.1]
    decide
  simp only [Nic.pciWrite, hfind, PciReg.access, Nic.withCommand]

/-- The NIC once all three fields are set (R185). -/
def Nic.opened (c : Config) (n : Nic) : Nic :=
  ((n.withCommand c .busMasterEnable).withCommand c .memoryAccessEnable).withCommand c .interruptDisable

theorem Nic.pciRead_opened (c : Config) (n : Nic) (off : Nat) :
    (n.opened c).pciRead off =
      if off = c.pciOff .command then
        n.pciRead (c.pciOff .command) ||| c.pciMask .busMasterEnable ||| c.pciMask .memoryAccessEnable |||
          c.pciMask .interruptDisable
      else n.pciRead off := by
  simp only [Nic.opened, Nic.pciRead_withCommand, if_true]
  split <;> rfl

theorem Nic.pciRead_opened_of_ne {c : Config} (hc : StandardConfig c) (n : Nic) {r : PciReg} (h : r ≠ .command) :
    (n.opened c).pciRead (c.pciOff r) = n.pciRead (c.pciOff r) := by
  rw [Nic.pciRead_opened, if_neg (Config.pciOff_ne_command hc h).symm]

/-- With the default map the high half of the base address shares its offset with no other register (R53). -/
theorem Config.pciOff_ne_bar0High {c : Config} (hc : StandardConfig c) {r : PciReg} (h : r ≠ .bar0High) :
    c.pciOff .bar0High ≠ c.pciOff r := by
  rw [Config.pciOff, Config.pciOff, hc.2.1]
  cases r with
  | bar0High => exact absurd rfl h
  | _ => decide

/-! Micro-steps that return, and those that follow. -/

section Rules
variable {α β : Type} {P P' : State → Prop} {Q : β → State → Prop} {E : Failure → State → Prop}

/-- From a state with `P` the micro-steps `m` return `a` in a state with `P'`. -/
def Returns (P : State → Prop) (m : Micro α) (a : α) (P' : State → Prop) : Prop :=
  ∀ t, P t → ∃ u, m t = .ok a u ∧ P' u

theorem Returns.then {m : Micro α} {k : α → Micro β} {a : α} (h : Returns P m a P') (hk : Concludes P' (k a) Q E) :
    Concludes P (m >>= k) Q E := by
  intro t ht
  obtain ⟨u, hm, hu⟩ := h t ht
  rw [Micro.run_bind_ok hm]
  exact hk u hu

theorem Concludes.raise {f : Failure} (h : ∀ t, P t → E f t) : Concludes P (raise f : Micro β) Q E :=
  fun t ht => .inr ⟨f, t, rfl, h t ht⟩

/-- A check that raises, and what follows where it passes. -/
theorem Concludes.unless {p : Prop} [Decidable p] {f : Failure} {k : Unit → Micro β} (hf : p → ∀ t, P t → E f t)
    (hk : ¬ p → Concludes P (k ()) Q E) : Concludes P (if p then Machine.raise f >>= k else k ()) Q E :=
  .ite (fun hp => .bind (Q := fun _ _ => False) (.raise (hf hp)) fun _ _ h => h.elim) hk

end Rules

/-! The accesses of DEV_OPEN. -/

/-- From `s` to `t` the accesses `l` were made and nothing else is changed but the NIC with PCI identity `bdf`, which
now is `n`. -/
structure Opening (s : State) (bdf : W16) (n : Nic) (l : List Access) (t : State) : Prop where
  only : OnlyNic s t bdf
  made : madeBetween s t l
  nic : t.nic bdf = n

/-- What a configuration register of a NIC reads as. -/
def State.config (s : State) (bdf : W16) (r : PciReg) : W32 := (s.nic bdf).pciRead (s.cfg.pciOff r)

/-- The access that reads it. -/
def State.configRead (s : State) (bdf : W16) (r : PciReg) : Access := .pciRead bdf (s.cfg.pciOff r) (s.config bdf r)

/-- The accesses up to the read of the low half of the base address (R182). -/
def openingAccesses (s : State) (bdf : W16) : List Access :=
  [s.configRead bdf .id, s.configRead bdf .pmcsr] ++ commandAccesses s.cfg bdf (s.config bdf .command) ++
    [s.configRead bdf .bar0Low]

section Accesses
variable {s t : State} {bdf : W16} {n : Nic} {l : List Access}

theorem Opening.start (s : State) (i : Instr) (bdf : W16) : Opening s bdf (s.nic bdf) [] (s.start i) :=
  ⟨(OnlyNic.refl (s.start i) bdf).of_start, rfl, rfl⟩

theorem Opening.accessed (h : Opening s bdf n l t) (line : Nat) (a : Access) :
    Opening s bdf n (l ++ [a]) (t.accessed line a) :=
  ⟨h.only.accessed line a, h.made.trans rfl, h.nic⟩

theorem Opening.setNic (h : Opening s bdf n l t) (n' : Nic) : Opening s bdf n' l (t.setNic bdf n') :=
  ⟨h.only.setNic n', h.made, State.nic_setNic_self ..⟩

/-- A NIC that is as it was: then every NIC is. -/
theorem Opening.sameNics (h : Opening s bdf (s.nic bdf) l t) : SameNics s t := fun b => by
  by_cases hb : b = bdf
  · rw [hb, h.nic]
  · exact h.only.nics b hb

theorem Opening.look_cfg : Returns (Opening s bdf n l) (look State.cfg) s.cfg (Opening s bdf n l) :=
  fun t ht => ⟨t, congrArg (EStateM.Result.ok · t) ht.only.cfg, ht⟩

theorem Opening.pciRegRead (hq : s.quiet) (line : Nat) (r : PciReg) {v : W32} (hv : n.pciRead (s.cfg.pciOff r) = v) :
    Returns (Opening s bdf n l) (pciRegRead line bdf r) v
      (Opening s bdf n (l ++ [.pciRead bdf (s.cfg.pciOff r) v])) := by
  intro t ht
  have hread := pciRegRead_quiet line bdf r (ht.only.quiet hq)
  rw [ht.nic, ht.only.cfg, hv] at hread
  exact ⟨_, hread, ht.accessed line _⟩

theorem Opening.pciReadField (hq : s.quiet) (line : Nat) (f : PciField) {v : W32}
    (hv : n.pciRead (s.cfg.pciOff f.reg) = v) :
    Returns (Opening s bdf n l) (pciReadField line bdf f) (extract v (s.cfg.pciMask f))
      (Opening s bdf n (l ++ [.pciRead bdf (s.cfg.pciOff f.reg) v])) := by
  intro t ht
  obtain ⟨u, hread, hu⟩ := Opening.pciRegRead hq line f.reg hv t ht
  refine ⟨u, (Micro.run_bind_ok hread).trans ?_, hu⟩
  rw [Micro.look_bind, hu.only.cfg, Micro.run_pure]

theorem Opening.pciWrite_command (hq : s.quiet) (hc : StandardConfig s.cfg) (line : Nat) (f : PciField) :
    let new := n.pciRead (s.cfg.pciOff .command) ||| s.cfg.pciMask f
    Returns (Opening s bdf n l) (pciWrite line bdf (s.cfg.pciOff .command) new) ()
      (Opening s bdf (n.withCommand s.cfg f) (l ++ [.pciWrite bdf (s.cfg.pciOff .command) new])) := by
  intro new t ht
  have hwrite := pciWrite_quiet line bdf (s.cfg.pciOff .command) new (ht.only.quiet hq)
  rw [ht.nic, ht.only.cfg, Nic.pciWrite_command hc] at hwrite
  exact ⟨_, hwrite, (ht.accessed line _).setNic _⟩

/-- A field of `PCI_COMMAND` is set by a read and a write that keeps every other bit (R164). -/
theorem Opening.pciSet (hq : s.quiet) (hc : StandardConfig s.cfg) (line : Nat) {f : PciField} (hf : f.reg = .command)
    {old : W32} (hold : n.pciRead (s.cfg.pciOff .command) = old) :
    Returns (Opening s bdf n l) (pciSet line bdf f) ()
      (Opening s bdf (n.withCommand s.cfg f) (l ++ [.pciRead bdf (s.cfg.pciOff .command) old,
        .pciWrite bdf (s.cfg.pciOff .command) (old ||| s.cfg.pciMask f)])) := by
  intro t ht
  subst hold
  obtain ⟨u, hread, hu⟩ := Opening.pciRegRead hq line .command rfl t ht
  obtain ⟨x, hwrite, hx⟩ := Opening.pciWrite_command hq hc (line + 1) f u hu
  rw [List.append_assoc] at hx
  refine ⟨x, ?_, hx⟩
  rw [Machine.pciSet, Micro.look_bind, ht.only.cfg, pciWriteField, hf, Micro.run_bind_ok hread, Micro.look_bind,
    Micro.look_bind, hu.only.cfg, insertField_fieldOnes, hwrite]

theorem Opening.p2v (hq : s.quiet) (line : Nat) (paddr : W64) (size : Nat) :
    Returns (Opening s bdf n l) (p2v line paddr size) (s.p2v paddr size)
      (Opening s bdf n (l ++ [.p2v paddr size (s.p2v paddr size)])) := by
  intro t ht
  obtain ⟨-, -, -, hmaps⟩ := ht.only.environment
  have hanswer : t.p2v paddr size = s.p2v paddr size := by rw [State.p2v, hmaps, State.p2v]
  refine ⟨_, ?_, ht.accessed line _⟩
  rw [Machine.p2v, State.boundary_eq_self (ht.only.quiet hq), ← hanswer]
  rfl

end Accesses

/-- Of the NIC of a device that is opened `PCI_COMMAND` alone is changed (R185). -/
theorem Opening.opened_changes {s t : State} {bdf : W16} {l : List Access}
    (h : Opening s bdf ((s.nic bdf).opened s.cfg) l t) :
    (∀ off, (t.nic bdf).pciRead off =
      if off = s.cfg.pciOff .command then
        s.config bdf .command ||| s.cfg.pciMask .busMasterEnable ||| s.cfg.pciMask .memoryAccessEnable |||
          s.cfg.pciMask .interruptDisable
      else (s.nic bdf).pciRead off) ∧
    OnlyPciChanges s t bdf (s.cfg.pciOff .command) ∧ SameRegistersBut s t bdf fun _ => False := by
  have hread := (s.nic bdf).pciRead_opened s.cfg
  rw [OnlyPciChanges, SameRegistersBut, h.nic, h.only.cfg]
  exact ⟨hread, ⟨rfl, fun off hne => (hread off).trans (if_neg hne)⟩, fun _ _ => rfl⟩

theorem Opening.opened_command {s t : State} {bdf : W16} {l : List Access}
    (h : Opening s bdf ((s.nic bdf).opened s.cfg) l t) :
    (t.nic bdf).pciRead (s.cfg.pciOff .command) =
      s.config bdf .command ||| s.cfg.pciMask .busMasterEnable ||| s.cfg.pciMask .memoryAccessEnable |||
        s.cfg.pciMask .interruptDisable :=
  (h.opened_changes.1 _).trans (if_pos rfl)

/-- Up to there the high half has not been read (R190). -/
theorem bar0High_not_mem_openingAccesses {s : State} {bdf : W16} (hc : StandardConfig s.cfg) (v : W32) :
    .pciRead bdf (s.cfg.pciOff .bar0High) v ∉ openingAccesses s bdf := by
  have hne {r : PciReg} (h : r ≠ .bar0High) := Config.pciOff_ne_bar0High hc h
  simp [openingAccesses, State.configRead, commandAccesses, hne]

/-! The four checks (R183, R184, R186, R187, R189). -/

/-- What `P2V` answers for the window that the two halves of the base address name (R186, R187). -/
def State.window (s : State) (bdf : W16) : Option W64 :=
  s.p2v (barAddress (s.config bdf .bar0High) (s.config bdf .bar0Low)) windowSize

/-- The NIC is powered up (R184). -/
def State.inD0 (s : State) (bdf : W16) : Prop :=
  extract (s.config bdf .pmcsr) (s.cfg.pciMask .powerState) = s.cfg.pciD0

/-- DEV_OPEN has passed every check, and its window is mapped at `va`. -/
structure OpenPassed (s : State) (bdf : W16) (va : W64) (t : State) : Prop where
  identity : s.config bdf .id = s.cfg.pciExpectId
  power : s.inD0 bdf
  bar : barIs64BitMemory (s.config bdf .bar0Low) = true
  window : s.window bdf = some va
  state : Opening s bdf ((s.nic bdf).opened s.cfg) (openAccesses s bdf va) t

/-- A check of DEV_OPEN has failed, and those before it have passed (R189). -/
inductive OpenFailed (s : State) (bdf : W16) : Failure → State → Prop
  | identity {t : State} (hid : s.config bdf .id ≠ s.cfg.pciExpectId)
      (ht : Opening s bdf (s.nic bdf) [s.configRead bdf .id] t) :
      OpenFailed s bdf (.validationFail .identity) t
  | powerState {t : State} (hid : s.config bdf .id = s.cfg.pciExpectId) (hpower : ¬ s.inD0 bdf)
      (ht : Opening s bdf (s.nic bdf) [s.configRead bdf .id, s.configRead bdf .pmcsr] t) :
      OpenFailed s bdf (.validationFail .powerState) t
  | barShape {t : State} (hid : s.config bdf .id = s.cfg.pciExpectId) (hpower : s.inD0 bdf)
      (hbar : barIs64BitMemory (s.config bdf .bar0Low) = false)
      (ht : Opening s bdf ((s.nic bdf).opened s.cfg) (openingAccesses s bdf) t) :
      OpenFailed s bdf (.validationFail .barShape) t
  | mapping {t : State} (hid : s.config bdf .id = s.cfg.pciExpectId) (hpower : s.inD0 bdf)
      (hbar : barIs64BitMemory (s.config bdf .bar0Low) = true) (hwindow : s.window bdf = none)
      (ht : Opening s bdf ((s.nic bdf).opened s.cfg) (openingAccesses s bdf ++ [s.configRead bdf .bar0High,
        .p2v (barAddress (s.config bdf .bar0High) (s.config bdf .bar0Low)) windowSize none]) t) :
      OpenFailed s bdf (.validationFail .mapping) t

theorem OpenFailed.res {s t : State} {bdf : W16} {f : Failure} (h : OpenFailed s bdf f t) : f.res = 3 := by
  cases h <;> rfl

theorem OpenFailed.only {s t : State} {bdf : W16} {f : Failure} (h : OpenFailed s bdf f t) : OnlyNic s t bdf := by
  cases h with
  | identity _ ht | powerState _ _ ht | barShape _ _ _ ht | mapping _ _ _ _ ht => exact ht.only

/-- DEV_OPEN passes every check or fails at the first that does not hold (R182, R189). -/
theorem openDevice_concludes {s : State} (bdf : W16) (hq : s.quiet) (hc : StandardConfig s.cfg) :
    Concludes (Opening s bdf (s.nic bdf) []) (openDevice bdf) (OpenPassed s bdf) (OpenFailed s bdf) := by
  let n := s.nic bdf
  have hmastering := n.command_withCommand s.cfg .busMasterEnable
  have hdecoding := (n.withCommand s.cfg .busMasterEnable).command_withCommand s.cfg .memoryAccessEnable
  rw [hmastering] at hdecoding
  have hlow : (n.opened s.cfg).pciRead _ = s.config bdf .bar0Low := n.pciRead_opened_of_ne hc (by decide)
  have hhigh : (n.opened s.cfg).pciRead _ = s.config bdf .bar0High := n.pciRead_opened_of_ne hc (by decide)
  refine Opening.look_cfg.then <| (Opening.pciRegRead hq 1 .id rfl).then
    (.unless (fun hid _ ht => .identity hid ht) fun hid => ?_)
  rw [not_not] at hid
  refine (Opening.pciReadField hq 2 .powerState rfl).then
    (.unless (fun hpower _ ht => .powerState hid hpower ht) fun hpower => ?_)
  rw [not_not] at hpower
  refine (Opening.pciSet hq hc 3 rfl rfl).then <| (Opening.pciSet hq hc 5 rfl hmastering).then <|
    (Opening.pciSet hq hc 7 rfl hdecoding).then ?_
  refine (Opening.pciRegRead hq 9 .bar0Low hlow).then
    (.unless (fun hbar _ ht => .barShape hid hpower (by simpa using hbar) ht) fun hbar => ?_)
  have hbar : barIs64BitMemory (s.config bdf .bar0Low) = true := by simpa using hbar
  refine (Opening.pciRegRead hq 10 .bar0High hhigh).then ((Opening.p2v hq 11 _ _).then ?_)
  cases hwindow : s.p2v _ windowSize with
  | none => exact .raise fun _ ht => .mapping hid hpower hbar hwindow ht
  | some va => exact .pure fun _ ht => ⟨hid, hpower, hbar, hwindow, ht⟩

/-! How the command ends. -/

/-- Settles O24: the device passes the four checks, and each access then finds what those before it left. -/
theorem devOpenCompletes : Obligations.DevOpenCompletes := by
  intro s dev bdf va hq hc ha pci hid hpower hbar hwindow
  have hstart := Opening.start s (.devOpen dev bdf) bdf
  obtain ⟨va', u, hrun, hu⟩ | ⟨f, u, -, hf⟩ := openDevice_concludes bdf hq hc _ hstart
  · obtain rfl : va' = va := Option.some_inj.1 (hu.window.symm.trans hwindow)
    obtain ⟨honly, hmade, -⟩ := hu.state
    refine ⟨_, exec_ok (v := noValues) ha (Micro.run_bind_ok hrun), ⟨rfl, rfl⟩, honly.deviceFrame_setHandle dev _, ?_,
      hmade, hu.state.opened_changes⟩
    exact (State.handle_setHandle_self ..).trans (by rw [honly.handle])
  · cases hf with
    | identity h => exact absurd hid h
    | powerState _ h => exact absurd hpower h
    | barShape _ _ h => exact absurd (hbar.symm.trans h) nofun
    | mapping _ _ _ h => exact absurd (hwindow.symm.trans h) nofun

/-- Settles O25, by the check that fails: the first two come before the command register is touched, the other two
after all three bits are set. -/
theorem devOpenRejects : Obligations.DevOpenRejects := by
  intro s dev bdf hq hc ha pci idOk powerOk barOk hfails
  have hstart := Opening.start s (.devOpen dev bdf) bdf
  obtain ⟨va, u, -, hu⟩ | ⟨f, u, hrun, hf⟩ := openDevice_concludes bdf hq hc _ hstart
  · exact absurd ⟨hu.identity, hu.power, hu.bar, fun h => nomatch hu.window.symm.trans h⟩ hfails
  · have hexec := (exec_eq (.devOpen dev bdf) s).trans
      (runCommand_raise ((ready_iff _ _).2 ha) (Micro.run_bind_error hrun))
    have honly : OnlyNic s (u.takeFailure f) bdf := hf.only.respond f.res 0 0
    refine ⟨_, hexec, ⟨by rw [State.takeFailure_resp, hf.res], rfl⟩, honly.deviceFrame dev, honly.sameHandles, ?_⟩
    cases hf with
    | identity hid ht => exact ⟨fun _ => ⟨ht.sameNics, ht.made⟩, fun h => absurd h hid, fun h => absurd h hid,
        fun h => absurd h hid⟩
    | powerState hid hpower ht => exact ⟨fun h => absurd hid h, fun _ _ => ⟨ht.sameNics, ht.made⟩,
        fun _ h => absurd h hpower, fun _ h => absurd h hpower⟩
    | barShape hid hpower _ ht =>
      refine ⟨fun h => absurd hid h, fun _ h => absurd hpower h, fun _ _ => ht.opened_command, fun _ _ _ v hv => ?_⟩
      have hmade : u.trace = (openingAccesses s bdf).reverse ++ s.trace := ht.made
      rw [State.takeFailure_trace, hmade, List.mem_append, List.mem_reverse] at hv
      exact hv.resolve_left (bar0High_not_mem_openingAccesses hc v)
    | mapping hid hpower hbar _ ht => exact ⟨fun h => absurd hid h, fun _ h => absurd hpower h,
        fun _ _ => ht.opened_command, fun _ _ h => absurd hbar h⟩

end Sys2Proof.Machine
end

section
/-! SUPPORT. A REG_WRITE that sets `CTRL.RST` (R207, R349): the write it makes, and the NIC's tails after a device
reset. -/

namespace Sys2Proof.Machine

/-! Where registers with an index lie. -/

theorem isSome_first_of_two {p : Nat → Prop} [DecidablePred p] {a b : Nat} (h : p a ∨ p b) :
    (if p a then some a else if p b then some b else none).isSome = true := by
  split
  · rfl
  · rw [if_pos (h.resolve_left ‹_›), Option.isSome_some]

/-- At the offset of a register that rises with the index, lies one. -/
theorem Config.indexAt_off_isSome {c : Config} {r : DevReg} {n i : Nat} (hn : r.indexCount c = some n) (hi : i < n)
    (hs : 0 < (c.regmap.rows.getD r.id default).stride) : (c.indexAt r (c.off r i)).isSome = true := by
  have hoff : c.off r i = (c.regmap.rows.getD r.id default).off i := by
    rw [Config.off, hn, Option.isSome_some, if_pos rfl]
  have found {j : Nat} (hj : j = i) : j < (r.indexCount c).getD 1 ∧ c.off r j = c.off r i := by
    rw [hj, hn]
    exact ⟨hi, rfl⟩
  refine isSome_first_of_two (p := fun j => j < (r.indexCount c).getD 1 ∧ c.off r j = c.off r i) ?_
  generalize c.regmap.rows.getD r.id default = row at hoff hs
  have hback (base k : Nat) : (base + row.stride * k - base) / row.stride = k := by
    rw [Nat.add_sub_cancel_left, Nat.mul_div_cancel_left _ hs]
  cases hsplit : row.split with
  | none => exact .inl (found (by simp only [hoff, OffRow.off, hsplit, hback]))
  | some p =>
    obtain ⟨threshold, high⟩ := p
    by_cases h : i < threshold
    · exact .inl (found (by simp only [hoff, OffRow.off, hsplit, if_pos h, hback]))
    · refine .inr (found ?_)
      simp only [hoff, OffRow.off, hsplit, if_neg h, hback]
      omega

/-! The NIC after a device reset. -/

/-- After the device reset a tail is 0. -/
theorem Nic.reg_deviceReset_tail {c : Config} (hc : StandardConfig c) (n : Nic) (k now : Nat) {r : DevReg}
    (hr : r = .rdt ∨ r = .tdt) {count q : Nat} (hcount : r.indexCount c = some count) (hq : q < count) :
    (n.deviceReset c k now).reg c (c.off r q) = 0 := by
  have hi : r.indexOk c q = true := indexOk_of_lt hcount hq
  have hrow : c.regmap.rows.getD r.id default = r.specRow := by
    rw [hc.2.1]
    cases r <;> rfl
  have hself : (c.indexAt r (c.off r q)).isSome = true :=
    Config.indexAt_off_isSome hcount hq (by rw [hrow]; obtain rfl | rfl := hr <;> decide)
  have htail : ((c.indexAt .rdt (c.off r q)).isSome || (c.indexAt .tdt (c.off r q)).isSome) = true := by
    obtain rfl | rfl := hr <;> simp [hself]
  have hrx : c.indexAt .rxdctl (c.off r q) = none := Config.indexAt_off_ne hc (by rintro rfl; simp at hr) hi
  have htx : c.indexAt .txdctl (c.off r q) = none := Config.indexAt_off_ne hc (by rintro rfl; simp at hr) hi
  have hreg : (n.deviceReset c k now).reg c (c.off r q) = (n.deviceReset c k now).unlisted c (c.off r q) := rfl
  rw [hreg]
  simp only [Nic.unlisted, Nic.deviceReset, hrx, htx, htail, Option.isSome_none, Bool.false_eq_true, if_false, if_true]

/-! The REG_WRITE. -/

/-- The value written to the field is 1 there. -/
theorem insertField_rst_and_rst {c : Config} (hc : StandardConfig c) (raw : W32) :
    insertField raw (c.mask .rst) 1 &&& c.mask .rst ≠ 0 := by
  rw [ne_eq, ← extract_eq_zero_iff, extract_insertField, Config.mask_spec hc.2.1]
  decide

theorem writeSelected_rst {s : State} {dev : BitVec 8} (hq : s.quiet) (hc : StandardConfig s.cfg)
    (hm : (s.handle dev).mapped = true) (hs : s.settled dev) :
    ∃ t k, writeSelected dev (.dev .ctrl (some .rst)) 0 1 s = .ok () t ∧ OnlyNic s t (s.handle dev).bdf ∧
      t.nic (s.handle dev).bdf = (s.nic (s.handle dev).bdf).deviceReset s.cfg k t.now := by
  let old := s.regOf dev .ctrl 0
  let new := insertField old (s.cfg.mask .rst) 1
  let read := s.accessed 1 (.mmioRead (s.regAddr dev .ctrl 0) old)
  have hread : regRead 1 dev .ctrl 0 s = .ok old read := regRead_settled 1 hq hc hm rfl hs (by decide)
  have hrun : writeSelected dev (.dev .ctrl (some .rst)) 0 1 s = regWrite 2 dev .ctrl 0 new read := by
    rw [writeSelected, Micro.look_bind]
    exact (Micro.run_bind_ok hread).trans (Micro.look_bind _ _ _)
  have hsettled : read.settled dev := State.settled_accessed hs 1 _
  have hwrite := regWrite_settled (s := read) (r := .ctrl) (i := 0) 2 new hq hc.1 hm rfl hsettled
  rw [Nic.write_reset] at hwrite
  · exact ⟨_, _, hrun.trans hwrite, (((OnlyNic.refl s _).accessed 1 _).accessed 2 _).setNic _,
      State.nic_setNic_self ..⟩
  · rfl
  · exact Nat.le_trans hsettled.1 (Nat.le_add_right _ _)
  · exact insertField_rst_and_rst hc old

/-- Settles O23: the write arrives at once, and the NIC then is one that was reset at that time. -/
theorem deviceResetEffects : Obligations.DeviceResetEffects := by
  intro s dev hq hc hs ha
  have hm : (s.handle dev).mapped = true := Handle.mapped_iff.2 ha.2
  obtain ⟨u, k, hrun, honly, hnic⟩ := writeSelected_rst
    (s := s.start (.regWrite dev (.dev .ctrl (some .rst)) 0 1)) hq hc hm hs
  obtain ⟨hexec, hanswer, hframe, hhandles⟩ := exec_regWrite_only ha rfl hrun honly
  have hdisabled := Nic.deviceReset_disables hc (s.nic (s.handle dev).bdf) k u.now
  have htail := fun r => Nic.reg_deviceReset_tail hc (s.nic (s.handle dev).bdf) k u.now (r := r)
  generalize ht : u.respond resOk 0 0 = t at hexec hanswer hframe hhandles
  have htnow : t.now = u.now := by rw [← ht]; rfl
  have htcfg : t.cfg = s.cfg := hframe.1.1
  have htnic : t.nic (s.handle dev).bdf = (s.nic (s.handle dev).bdf).deviceReset s.cfg k u.now := by
    rw [← ht]
    exact hnic
  have hreg (r : DevReg) (i : Nat) : t.regOf dev r i =
      ((s.nic (s.handle dev).bdf).deviceReset s.cfg k u.now).reg s.cfg (s.cfg.off r i) := by
    rw [State.regOf, hhandles, htnic, htcfg]
  have hfield (f : DevField) (i : Nat) : t.fieldOf dev f i =
      ((s.nic (s.handle dev).bdf).deviceReset s.cfg k u.now).field s.cfg f i := by
    rw [State.fieldOf, hreg, htcfg]
    rfl
  refine ⟨t, hexec, hanswer, hframe, fun q hlt => ?_, fun q hlt => ?_, by rw [htnic]; rfl, by rw [htnic, htnow]; rfl⟩
  · rw [hfield, hreg, htnic]
    exact ⟨(hdisabled q).1 hlt, htail .rdt (.inl rfl) rfl hlt, rfl⟩
  · rw [hfield, hreg, htnic]
    exact ⟨(hdisabled q).2 hlt, htail .tdt (.inr rfl) rfl hlt, rfl⟩

end Sys2Proof.Machine
end

section
/-! SUPPORT. DEV_RESET of a device that does not answer the clearing of an enable bit (R210, R212): what the write then
leaves alone, and the poll that times out. -/

namespace Sys2Proof.Machine

/-! A write that clears the enable bit of a receive queue, and is not answered (R348, R416). -/

/-- A queue whose enable register holds what it held is not enabled anew. -/
theorem Nic.queueEnable_self (c : Config) (n : Nic) (off : Nat) (v : W32) : n.queueEnable c off v v = n := by
  have hrises (m : W32) : rises m v v = false := by simp [rises]
  simp only [Nic.queueEnable, hrises]
  split
  · rfl
  · split <;> rfl

/-- Bits outside a mask from one word and those inside from another that has the same bits outside. -/
theorem join_of_and_not_eq {v old m : W32} (h : v &&& ~~~m = old &&& ~~~m) : (v &&& ~~~m) ||| (old &&& m) = old := by
  rw [h]
  ext i hi
  cases hm : m[i] <;> simp [hm]

/-- A register marked RW other than CTRL holds what is accepted of a write. -/
theorem Nic.write_accepted {c : Config} (hc : StandardConfig c) {n : Nic} {w : RegWrite} {r : DevReg} {i : Nat}
    (hi : r.indexOk c i = true) (hoff : w.off = c.off r i) (hu : n.usable ≤ w.time) (hrw : r.access = .rw)
    (hctrl : r ≠ .ctrl) :
    n.write c w =
      (n.putReg w.off (n.accepted c w.off w.val)).queueEnable c w.off (n.reg c w.off) (n.accepted c w.off w.val) := by
  have elsewhere {r' : DevReg} (hr' : r'.indexOk c 0 = true) (hne : r ≠ r') : w.off ≠ c.off r' 0 :=
    hoff ▸ Config.off_ne hc hne hi hr'
  have notReadOnly {r' : DevReg} (h : r'.access ≠ .rw) : r ≠ r' := fun e => h (e ▸ hrw)
  have hro : ¬ (w.off = c.off .status 0 ∨ w.off = c.off .secrxstat 0) := fun h =>
    h.elim (elsewhere rfl (notReadOnly (by decide))) (elsewhere rfl (notReadOnly (by decide)))
  rw [Nic.write, if_neg (Nat.not_lt.2 hu), if_neg (elsewhere rfl hctrl), if_neg hro,
    if_neg (elsewhere rfl (notReadOnly (by decide)))]

/-- Of a write to RXDCTL that differs in the enable bit alone a lagging NIC accepts nothing. -/
theorem Nic.write_unanswered {c : Config} (hc : StandardConfig c) {n : Nic} {w : RegWrite} {q : Nat}
    (hq : q < c.rxQueueCount) (hoff : w.off = c.off .rxdctl q) (hu : n.usable ≤ w.time) (hlag : n.lag = true)
    (hv : w.val &&& ~~~(c.mask .rxdctlEnable) = n.reg c w.off &&& ~~~(c.mask .rxdctlEnable)) :
    n.write c w = n.putReg w.off (n.reg c w.off) := by
  have hmask : enableMask c w.off = c.mask .rxdctlEnable := by
    rw [enableMask, hoff, if_pos (Config.indexAt_rxdctl hc hq)]
  have haccepted : n.accepted c w.off w.val = n.reg c w.off := by
    rw [Nic.accepted, if_pos hlag, hmask, join_of_and_not_eq hv]
  rw [Nic.write_accepted hc (indexOk_of_lt rfl hq) hoff hu rfl (by decide), haccepted, Nic.queueEnable_self]

/-- A register that is written what it held. -/
theorem Nic.reg_putReg_reg (c : Config) (n : Nic) (off : Nat) : (n.putReg off (n.reg c off)).reg c = n.reg c := by
  funext o
  rw [Nic.reg_putReg]
  split
  · rw [‹o = off›]
  · rfl

/-! Accesses of a device that is settled. -/

/-- No other agent moves, the default map is in place, and accesses of the device have defined results at once, be its
enable bits answered at once or not (R51, R150). -/
structure Accessible (s : State) (dev : BitVec 8) : Prop where
  quiet : s.quiet
  standard : StandardConfig s.cfg
  mapped : (s.handle dev).mapped = true
  settled : s.settled dev

theorem Progress.trans {s t u : State} {dev : BitVec 8} {l l' : List Access} {d d' : Nat} (h : Progress s dev l d t)
    (k : Progress t dev l' d' u) : Progress s dev (l ++ l') (d + d') u := by
  obtain ⟨konly, kmade, kwaited⟩ := k
  rw [h.only.handle] at konly
  exact ⟨h.only.trans konly, h.made.trans kmade, by have := h.waited; omega⟩

theorem Progress.refl (s : State) (dev : BitVec 8) : Progress s dev [] 0 s := ⟨.refl s _, rfl, Nat.le_refl _⟩

section
variable {s : State} {dev : BitVec 8} {f : DevField} {i : Nat}

theorem regIsCleared_settled (line : Nat) (h : Accessible s dev) (hi : f.reg.indexOk s.cfg i = true)
    (hne : f.reg ≠ .eimc) :
    regIsCleared line dev f i s = .ok (s.fieldOf dev f i == 0)
      (s.accessed line (.mmioRead (s.regAddr dev f.reg i) (s.regOf dev f.reg i))) := by
  have hread := regRead_settled line h.quiet h.standard h.mapped hi h.settled hne
  have hfield : regReadField line dev f i s = .ok (s.fieldOf dev f i) _ :=
    (Micro.run_bind_ok hread).trans (Micro.look_bind _ _ _)
  exact Micro.run_bind_ok hfield

/-- After one round of a poll: a read at `line` and a sleep. -/
def State.polled (s : State) (line : Nat) (dev : BitVec 8) (r : DevReg) (i gap : Nat) : State :=
  let read := s.accessed line (.mmioRead (s.regAddr dev r i) (s.regOf dev r i))
  ((read.accessed (line + 1) (.sleep gap)).elapse gap).elapse (Config.sleepExtra (read.micros + 1))

theorem Progress.polled (s : State) (line : Nat) (dev : BitVec 8) (r : DevReg) (i gap : Nat) :
    Progress s dev [.mmioRead (s.regAddr dev r i) (s.regOf dev r i), .sleep gap] gap (s.polled line dev r i gap) := by
  have hslept := ((Progress.refl s dev).accessed line (.mmioRead (s.regAddr dev r i) (s.regOf dev r i))).slept
    (line + 1) gap (Config.sleepExtra (s.micros + 1 + 1))
  rwa [Nat.zero_add] at hslept

/-- A device whose NIC is as it was beside its registers is accessible still. -/
theorem Accessible.progress {t : State} {l : List Access} {d : Nat} (h : Accessible s dev) (hp : Progress s dev l d t)
    (hnic : (s.nic (s.handle dev).bdf).SameBeside (t.nic (s.handle dev).bdf)) : Accessible t dev := by
  have hnow : s.now ≤ t.now := Nat.le_trans (Nat.le_add_right _ _) hp.waited
  obtain ⟨hq, hc, hm, hu, hhold, hposted⟩ := h
  refine ⟨hp.only.quiet hq, by rwa [hp.only.cfg], by rwa [hp.only.handle], ?_⟩
  rw [State.settled, hp.only.handle]
  exact ⟨hnic.usable ▸ Nat.le_trans hu hnow, hnic.hold.trans hhold, hnic.posted.trans hposted⟩

theorem pollLoop_round (line gap n : Nat) (h : Accessible s dev) (hi : f.reg.indexOk s.cfg i = true)
    (hne : f.reg ≠ .eimc) (hset : s.fieldOf dev f i ≠ 0) :
    pollLoop line dev f i false gap (n + 1) s =
      pollLoop line dev f i false gap n (s.polled line dev f.reg i gap) := by
  have hset' : ¬ ((s.fieldOf dev f i == 0) != false) = true := by simpa using hset
  rw [pollLoop, Micro.run_bind_ok (regIsCleared_settled line h hi hne), if_neg hset']
  exact Micro.run_bind_ok (sleepUs_quiet (line + 1) gap h.quiet)

/-- A poll for a field to be 0, of a field that is not and stays so. -/
theorem pollLoop_times_out (line gap n : Nat) (h : Accessible s dev) (hi : f.reg.indexOk s.cfg i = true)
    (hne : f.reg ≠ .eimc) (hset : s.fieldOf dev f i ≠ 0) :
    ∃ t, pollLoop line dev f i false gap n s = .ok false t ∧ t.nics = s.nics ∧
      Progress s dev (List.replicate n [.mmioRead (s.regAddr dev f.reg i) (s.regOf dev f.reg i), .sleep gap]).flatten
        (n * gap) t := by
  induction n generalizing s with
  | zero => exact ⟨s, rfl, rfl, by rw [Nat.zero_mul]; exact .refl s dev⟩
  | succ n ih =>
    have hround := Progress.polled s line dev f.reg i gap
    obtain ⟨t, hloop, hnics, ht⟩ := ih (h.progress hround ⟨rfl, rfl, rfl, rfl, rfl⟩) hi hset
    refine ⟨t, (pollLoop_round line gap n h hi hne hset).trans hloop, hnics, ?_⟩
    rw [Nat.succ_mul, Nat.add_comm (n * gap), List.replicate_succ, List.flatten_cons]
    exact hround.trans ht

theorem poll_times_out (line : Nat) (h : Accessible s dev) (hi : f.reg.indexOk s.cfg i = true)
    (hne : f.reg ≠ .eimc) (hset : s.fieldOf dev f i ≠ 0) :
    ∃ t, poll line dev f i false s = .ok false t ∧ t.nics = s.nics ∧
      Progress s dev (List.replicate s.cfg.pollAttempts [.mmioRead (s.regAddr dev f.reg i) (s.regOf dev f.reg i),
        .sleep (pollGap s.cfg s.cfg.tPoll)]).flatten s.cfg.tPoll t := by
  obtain ⟨t, hloop, hnics, honly, hmade, hwaited⟩ :=
    pollLoop_times_out line (pollGap s.cfg s.cfg.tPoll) s.cfg.pollAttempts h hi hne hset
  have hgaps := tPoll_le_gaps h.standard.1
  exact ⟨t, (Micro.look_bind _ _ _).trans hloop, hnics, honly, hmade, by omega⟩

end

/-! DEV_RESET (R203, R210, R212). -/

section
variable {s : State} {dev : BitVec 8}

/-- The clearing of an enable bit that is not answered: the NIC holds what it held. -/
theorem regClear_unanswered {q : Nat} (line : Nat) (h : Accessible s dev) (hlag : ¬ s.prompt dev)
    (hq : q < s.cfg.rxQueueCount) :
    let old := s.regOf dev .rxdctl q
    ∃ t, regClear line dev .rxdctlEnable q s = .ok () t ∧
      Progress s dev
        (readModifyWrite (s.regAddr dev .rxdctl q) old (insertField old (s.cfg.mask .rxdctlEnable) 0)) 0 t ∧
      t.nic (s.handle dev).bdf = (s.nic (s.handle dev).bdf).putReg (s.cfg.off .rxdctl q) old := by
  intro old
  let new := insertField old (s.cfg.mask .rxdctlEnable) 0
  let read := s.accessed line (.mmioRead (s.regAddr dev .rxdctl q) old)
  have hi : DevReg.rxdctl.indexOk s.cfg q = true := indexOk_of_lt rfl hq
  have hread : regRead line dev .rxdctl q s = .ok old read :=
    regRead_settled line h.quiet h.standard h.mapped hi h.settled (by decide)
  have hrun : regClear line dev .rxdctlEnable q s = regWrite (line + 1) dev .rxdctl q new read :=
    (Micro.run_bind_ok hread).trans (Micro.look_bind _ _ _)
  have hsettled : read.settled dev := State.settled_accessed h.settled line _
  have hwrite := regWrite_settled (s := read) (line + 1) new h.quiet h.standard.1 h.mapped hi hsettled
  rw [Nic.write_unanswered (c := read.cfg) h.standard hq] at hwrite
  · exact ⟨_, hrun.trans hwrite, (((Progress.refl s dev).accessed line _).accessed (line + 1) _).setNic _,
      State.nic_setNic_self ..⟩
  · rfl
  · exact Nat.le_trans hsettled.1 (Nat.le_add_right _ _)
  · exact eq_true_of_ne_false hlag
  · exact insertField_and_not _ _ _

theorem Config.rxQueueCount_pos {c : Config} (h : c.legal = true) : 0 < c.rxQueueCount := by
  have hn := Config.legal_numbers h
  simp only [Config.numbersOk, Bool.and_eq_true, decide_eq_true_eq] at hn
  omega

/-- The first queue's enable bit stays, so that the device is failed once its poll has timed out. -/
theorem resetDevice_times_out (h : Accessible s dev) (hlag : ¬ s.prompt dev)
    (hset : s.fieldOf dev .rxdctlEnable 0 ≠ 0) :
    let old := s.regOf dev .rxdctl 0
    let new := insertField old (s.cfg.mask .rxdctlEnable) 0
    ∃ t, resetDevice dev s = .error (.raise (.hwTimeout .rxdctlEnable 0 false))
        (t.setHandle dev { t.handle dev with ls := .failed }) ∧
      t.nic (s.handle dev).bdf = (s.nic (s.handle dev).bdf).putReg (s.cfg.off .rxdctl 0) old ∧
      Progress s dev (readModifyWrite (s.regAddr dev .rxdctl 0) old new ++
        (List.replicate s.cfg.pollAttempts [Access.mmioRead (s.regAddr dev .rxdctl 0) old,
          .sleep (pollGap s.cfg s.cfg.tPoll)]).flatten) s.cfg.tPoll t := by
  intro old new
  obtain ⟨n, hn⟩ : ∃ n, s.cfg.rxQueueCount = n + 1 := Nat.exists_eq_add_one.2 (Config.rxQueueCount_pos h.standard.1)
  obtain ⟨x, hclear, hx, hxnic⟩ := regClear_unanswered 1 h hlag (q := 0) (by omega)
  have hregOf : x.regOf dev .rxdctl 0 = old := by
    rw [State.regOf, hx.only.handle, hx.only.cfg, hxnic]
    exact Nic.reg_putReg_self ..
  have hfield : x.fieldOf dev .rxdctlEnable 0 ≠ 0 := by
    rw [State.fieldOf, DevField.reg, hregOf, hx.only.cfg]
    exact hset
  have hbeside : (s.nic (s.handle dev).bdf).SameBeside (x.nic (s.handle dev).bdf) := by
    rw [hxnic]
    exact ⟨rfl, rfl, rfl, rfl, rfl⟩
  have hi : DevReg.rxdctl.indexOk x.cfg 0 = true := by
    rw [hx.only.cfg]
    exact indexOk_of_lt rfl (by omega)
  obtain ⟨t, hpoll, htnics, ht⟩ := poll_times_out (f := .rxdctlEnable) 3 (h.progress hx hbeside) hi (by decide) hfield
  rw [DevField.reg, hregOf, hx.only.regAddr, hx.only.cfg] at ht
  refine ⟨t, ?_, ?_, ?_⟩
  · rw [resetDevice, Micro.look_bind, hn]
    exact Micro.run_bind_error ((Micro.run_bind_ok hclear).trans (Micro.run_bind_ok hpoll))
  · rw [State.nic, htnics]
    exact hxnic
  · have hmade := hx.trans ht
    rwa [Nat.zero_add] at hmade

end

/-- Settles O28: what is written to the enable register is what it held, and so is what each read of the poll finds. -/
theorem devResetTimesOut : Obligations.DevResetTimesOut := by
  intro s dev hq hc hs hlag ha hset a old cleared
  have hm : (s.handle dev).mapped = true := Handle.mapped_iff.2 (by rw [ha.2]; decide)
  have h : Accessible (s.start (.devReset dev)) dev := ⟨hq, hc, hm, hs⟩
  obtain ⟨u, hrun, hnic, honly, hmade, hwaited⟩ := resetDevice_times_out h hlag hset
  have hframe : OnlyNic s u (s.handle dev).bdf := honly.of_start
  have hnic : u.nic (s.handle dev).bdf = (s.nic (s.handle dev).bdf).putReg (s.cfg.off .rxdctl 0) old := hnic
  have hexec := (exec_eq (.devReset dev) s).trans
    (runCommand_raise ((ready_iff _ _).2 ha) (Micro.run_bind_error hrun))
  refine ⟨_, hexec, ⟨rfl, rfl⟩, ?_, hframe.deviceFrame_setHandle dev _, fun off _ => ?_, fun q => ?_, hwaited, hmade⟩
  · rw [← hframe.handle]
    exact State.handle_setHandle_self ..
  · show (u.nic (s.handle dev).bdf).reg u.cfg off = _
    rw [hnic, hframe.cfg]
    exact congrFun (Nic.reg_putReg_reg s.cfg _ _) off
  · show (u.nic (s.handle dev).bdf).rxHead q = _
    rw [hnic]
    rfl

end Sys2Proof.Machine
end

section
/-! SUPPORT. The two readings of DEV_RESET (R201, R202): the device_reset_fsm makes the micro-steps of the pseudocode,
one stretch of states for each part of it. -/

namespace Sys2Proof.Machine

/-- What follows micro-steps may be replaced by what does the same under the configuration they began with (R49). -/
theorem AlwaysKeeps.bind_congr {α β : Type} {m : Micro α} (hm : AlwaysKeeps m) {k k' : α → Micro β} {s : State}
    (h : ∀ a t, t.cfg = s.cfg → k a t = k' a t) : (m >>= k) s = (m >>= k') s := by
  have hcfg := (hm s).cfg
  rw [Micro.run_bind, Micro.run_bind]
  revert hcfg
  cases m s with
  | ok a t => exact h a t
  | error e t => exact fun _ => rfl

/-! One state of the device_reset_fsm. -/

/-- A state whose action names the next state. -/
theorem resetFsm_next {α : Type} {dev : BitVec 8} {phase : ResetPhase} {m : Micro α} {next : α → ResetPhase}
    (fuel : Nat) (h : resetPhaseStep dev phase = m >>= fun a => pure (some (next a))) :
    resetFsm dev (fuel + 1) phase = m >>= fun a => resetFsm dev fuel (next a) := by
  rw [resetFsm, h, bind_assoc]
  simp only [pure_bind]

/-! The end of the pseudocode, from two of its places. -/

/-- The device reset, its wait, and the lifecycle state (R207, R209). -/
def resetAndFinish (dev : BitVec 8) : Micro Unit := do
  issueReset dev
  setLife dev .reset

/-- All that comes after the receive queues (R204 to R209). -/
def disableMasterAndFinish (dev : BitVec 8) : Micro Unit := do
  disableMaster dev
  resetAndFinish dev

theorem resetDevice_eq (dev : BitVec 8) (s : State) :
    resetDevice dev s = (disableRxQueues dev s.cfg.rxQueueCount 0 >>= fun _ => disableMasterAndFinish dev) s :=
  Micro.look_bind _ _ s

/-! The states from the device reset back to master disable. -/

theorem resetFsm_done (dev : BitVec 8) (fuel : Nat) : resetFsm dev (fuel + 1) .done = setLife dev .reset := rfl

theorem resetFsm_deviceReset (dev : BitVec 8) (fuel : Nat) :
    resetFsm dev (fuel + 3) .deviceReset = resetAndFinish dev := by
  rw [resetFsm_next (m := regSet 20 dev .rst 0) (next := fun _ => .resetWait) _ rfl,
    resetFsm_next (m := look (fun s => s.cfg.tReset) >>= sleepUs 22) (next := fun _ => .done) _ rfl,
    resetAndFinish, issueReset]
  simp only [bind_assoc, resetFsm_done]

theorem resetFsm_flushOn (dev : BitVec 8) (fuel : Nat) :
    resetFsm dev (fuel + 6) .flushOn = flushBuffers dev >>= fun _ => resetAndFinish dev := by
  rw [resetFsm_next (m := regSet 11 dev .lpbk 0 >>= fun _ => regSet 13 dev .buffersClearFunc 0)
      (next := fun _ => .flushWait) _ (bind_assoc _ _ _).symm,
    resetFsm_next (m := look (fun s => s.cfg.tFlush) >>= sleepUs 15) (next := fun _ => .flushOff) _ rfl,
    resetFsm_next (m := regClear 16 dev .lpbk 0 >>= fun _ => regClear 18 dev .buffersClearFunc 0)
      (next := fun _ => .deviceReset) _ (bind_assoc _ _ _).symm,
    resetFsm_deviceReset, flushBuffers]
  simp only [bind_assoc]

theorem resetFsm_pendingCheck (dev : BitVec 8) (fuel : Nat) :
    resetFsm dev (fuel + 7) .pendingCheck = transactionPending dev >>= fun pending =>
      (if pending then flushBuffers dev else pure ()) >>= fun _ => resetAndFinish dev := by
  rw [resetFsm_next (m := transactionPending dev)
    (next := fun pending => if pending then .flushOn else .deviceReset) _ rfl]
  congr 1
  funext pending
  cases pending with
  | true => exact resetFsm_flushOn dev fuel
  | false => exact resetFsm_deviceReset dev (fuel + 3)

theorem resetFsm_masterDisable (dev : BitVec 8) (fuel : Nat) :
    resetFsm dev (fuel + 9) .masterDisable = disableMasterAndFinish dev := by
  rw [resetFsm_next (m := regSet 6 dev .masterDisable 0) (next := fun _ => .masterPoll) _ rfl,
    resetFsm_next (m := poll 8 dev .masterEnableStatus 0 false)
      (next := fun ok => if ok then .deviceReset else .pendingCheck) _ rfl,
    disableMasterAndFinish, disableMaster]
  simp only [bind_assoc]
  congr 1
  funext _
  congr 1
  funext ok
  cases ok with
  | true => exact resetFsm_deviceReset dev (fuel + 4)
  | false => exact (resetFsm_pendingCheck dev fuel).trans (bind_assoc _ _ _).symm

/-! The receive queues (R203). -/

/-- After a queue the machine goes to the next one, or to master disable after the last. -/
theorem resetFsm_rxqWait (dev : BitVec 8) (q fuel : Nat) :
    resetFsm dev (fuel + 1) (.rxqWait q) = look (fun s => s.cfg.tRxqWait) >>= fun wait => sleepUs 5 wait >>= fun _ =>
      look (fun s => s.cfg.rxQueueCount) >>= fun count =>
        resetFsm dev fuel (if q + 1 < count then .rxqClear (q + 1) else .masterDisable) :=
  rfl

/-- One queue of the pseudocode, and what follows where its poll passes. -/
theorem disableRxQueues_succ (dev : BitVec 8) (todo q : Nat) (k : Unit → Micro Unit) :
    (disableRxQueues dev (todo + 1) q >>= k) = regClear 1 dev .rxdctlEnable q >>= fun _ =>
      poll 3 dev .rxdctlEnable q false >>= fun ok =>
        if ok then
          look (fun s => s.cfg.tRxqWait) >>= fun wait => sleepUs 5 wait >>= fun _ =>
            disableRxQueues dev todo (q + 1) >>= k
        else failDevice dev (.hwTimeout .rxdctlEnable q false) := by
  rw [disableRxQueues]
  simp only [bind_assoc]
  congr 1
  funext _
  congr 1
  funext ok
  cases ok with
  | true => rfl
  | false => rfl

/-- The machine at queue `q` is the pseudocode from there on, `todo` queues still to disable. -/
theorem resetFsm_queues {dev : BitVec 8} {s : State} {todo q : Nat} (h : q + todo = s.cfg.rxQueueCount) :
    resetFsm dev (3 * todo + 9) (if q < s.cfg.rxQueueCount then .rxqClear q else .masterDisable) s =
      (disableRxQueues dev todo q >>= fun _ => disableMasterAndFinish dev) s := by
  induction todo generalizing q s with
  | zero =>
    rw [if_neg (by omega), resetFsm_masterDisable]
    rfl
  | succ todo ih =>
    have hfuel : 3 * (todo + 1) + 9 = 3 * todo + 12 := by omega
    rw [if_pos (by omega), hfuel, disableRxQueues_succ,
      resetFsm_next (m := regClear 1 dev .rxdctlEnable q) (next := fun _ => .rxqPoll q) _ rfl,
      resetFsm_next (m := poll 3 dev .rxdctlEnable q false)
        (next := fun ok => if ok then .rxqWait q else .fail q) _ rfl]
    refine (AlwaysKeeps.regClear _ _ _ _).bind_congr fun _ t ht => ?_
    refine (AlwaysKeeps.poll _ _ _ _ _).bind_congr fun ok u hu => ?_
    cases ok with
    | false => rfl
    | true =>
      simp only [if_true, resetFsm_rxqWait, Micro.look_bind]
      refine (AlwaysKeeps.sleepUs _ _).bind_congr fun _ x hx => ?_
      have hcfg : x.cfg = s.cfg := hx.trans (hu.trans ht)
      rw [Micro.look_bind]
      exact ih (by rw [hcfg]; omega)

/-- Settles O29: the machine is the pseudocode queue by queue, and then from master disable on. -/
theorem resetFsmIsPseudocode : Obligations.ResetFsmIsPseudocode := by
  intro s dev hpos
  have hqueues := resetFsm_queues (dev := dev) (Nat.zero_add s.cfg.rxQueueCount)
  rw [if_pos hpos] at hqueues
  exact hqueues.trans (resetDevice_eq dev s).symm

end Sys2Proof.Machine
end

section
/-! SUPPORT. SET_PROMISC always ends with `OK` (R250): each of its accesses returns, whatever the other agents do. -/

namespace Sys2Proof.Machine

theorem setPromiscuous_proceeds {s : State} {dev : BitVec 8} {E : Failure → State → Prop} (h : Reaches s dev)
    (enable : Bool) : Proceeds s E (setPromiscuous dev enable) := by
  have fields (off : Bool) : Proceeds s E (do
      regWriteField 4 dev .upe 0 (if enable then 1 else 0)
      regWriteField 6 dev .mpe 0 (if enable then 1 else 0)
      if !off then regSet 8 dev .rxen 0) :=
    .bind (regWriteField_proceeds h rfl) fun _ => .bind (regWriteField_proceeds h rfl) fun _ =>
      .ite (fun _ => regSet_proceeds h rfl) fun _ => .pure fun _ h => h
  exact .bind (regIsCleared_proceeds h rfl) fun off =>
    .ite (fun _ => .bind (regClear_proceeds h rfl) fun _ => fields off) fun _ => fields off

/-- Settles O34: none of its accesses raises, so that the command cannot end with a failure. -/
theorem setPromiscCannotFail : Obligations.SetPromiscCannotFail := by
  intro s dev enable hc ha
  have hd : Reaches (s.start (.setPromisc dev enable)) dev := reaches_of_life hc ha.2 (by decide)
  obtain ⟨t, hexec, ⟨v, u, ⟨rfl, hu⟩, rfl⟩ | ⟨f, u, hfailed, rfl⟩⟩ :=
    exec_of_concludes ha (concludes_start (setPromiscuous_proceeds (E := fun _ _ => False) hd enable))
  · exact ⟨_, hexec, ⟨rfl, rfl⟩, ⟨hu.es, hu.eng⟩, fun d => hu.handle d⟩
  · exact hfailed.elim

end Sys2Proof.Machine
end

section
/-! SUPPORT. Accesses of a settled device where no other agent moves, be its enable bits answered at once or not (R150,
R153, R155, R159): a register that has neither bits of the NIC's own nor the device reset bit holds what is written. -/

namespace Sys2Proof.Machine

/-! Registers that hold what is written. -/

/-- The register is not read-only, cannot reset the device and has no enable bit of a queue: what is written it holds,
whatever it held and whether the NIC lags or not (R348). -/
def isPlain : DevReg → Bool
  | .ctrl | .status | .secrxstat | .eec | .rxdctl | .txdctl => false
  | _ => true

theorem Nic.write_of_plain {c : Config} (hc : StandardConfig c) {n : Nic} {w : RegWrite} {r : DevReg} {i : Nat}
    (hi : r.indexOk c i = true) (hoff : w.off = c.off r i) (hu : n.usable ≤ w.time) (hr : isPlain r = true) :
    n.write c w = n.putReg w.off w.val := by
  have hne {r' : DevReg} (h : isPlain r' = false) : r ≠ r' := fun e => by
    rw [e, h] at hr
    cases hr
  have elsewhere {r' : DevReg} (h : isPlain r' = false) (hr' : r'.indexOk c 0 = true) : w.off ≠ c.off r' 0 :=
    hoff ▸ Config.off_ne hc (hne h) hi hr'
  have hrx : c.indexAt .rxdctl w.off = none := hoff ▸ Config.indexAt_off_ne hc (hne rfl).symm hi
  have htx : c.indexAt .txdctl w.off = none := hoff ▸ Config.indexAt_off_ne hc (hne rfl).symm hi
  have haccepted : n.accepted c w.off w.val = w.val :=
    hoff ▸ Nic.accepted_eq hc w.val hi fun h => (h.elim (hne rfl) (hne rfl)).elim
  rw [Nic.write, if_neg (Nat.not_lt.2 hu), if_neg (elsewhere rfl rfl),
    if_neg (not_or.2 ⟨elsewhere rfl rfl, elsewhere rfl rfl⟩), if_neg (elsewhere rfl rfl), haccepted]
  simp only [Nic.queueEnable, hrx, htx]

/-! Accesses. -/

section
variable {s : State} {dev : BitVec 8} {g : Nat → W32} {r : DevReg} {f : DevField} {i : Nat}

theorem Accessible.holding (h : Accessible s dev) {t : State} {l : List Access} {d : Nat} (ht : Holding s dev g l d t) :
    Accessible t dev := h.progress ht.toProgress ht.beside

theorem Holding.start (s : State) (dev : BitVec 8) : Holding s dev (s.registers dev) [] 0 s :=
  ⟨.refl s dev, rfl, rfl, rfl, rfl, rfl, rfl⟩

theorem Accessible.regRead (h : Accessible s dev) (line : Nat) (hi : r.indexOk s.cfg i = true) (hne : r ≠ .eimc) :
    Does s dev g (regRead line dev r i) (g (s.cfg.off r i)) [.mmioRead (s.regAddr dev r i) (g (s.cfg.off r i))] 0
      g := by
  intro l0 d0 t ht
  have ha := h.holding ht
  have hcfg := ht.only.cfg
  have hvalue : t.regOf dev r i = g (s.cfg.off r i) := by rw [State.regOf, ht.only.handle, hcfg, ht.regs]
  have hrun := regRead_settled line ha.quiet ha.standard ha.mapped (by rwa [hcfg]) ha.settled hne
  rw [hvalue, ht.only.regAddr] at hrun
  exact ⟨_, hrun, ht.sameNic (ht.accessed _ _) rfl⟩

theorem Accessible.regWrite (h : Accessible s dev) (line : Nat) {v : W32} (hi : r.indexOk s.cfg i = true)
    (hr : isPlain r = true) :
    Does s dev g (regWrite line dev r i v) () [.mmioWrite (s.regAddr dev r i) v] 0
      (Function.update g (s.cfg.off r i) v) := by
  intro l0 d0 t ht
  have ha := h.holding ht
  have hcfg := ht.only.cfg
  have hrun := regWrite_settled line v ha.quiet ha.standard.1 ha.mapped (by rwa [hcfg]) ha.settled
  have husable := ha.settled.1
  rw [ht.only.regAddr, ht.only.handle, hcfg] at hrun
  rw [ht.only.handle] at husable
  rw [Nic.write_of_plain h.standard hi rfl (Nat.le_trans husable (Nat.le_add_right _ _)) hr] at hrun
  refine ⟨_, hrun, (ht.accessed line _).setNic _, ?_, ?_⟩
  · rw [State.nic_setNic_self]
    funext off
    rw [Nic.reg_putReg, ht.regs, Function.update_apply]
  · rw [State.nic_setNic_self]
    exact ht.beside.trans ⟨rfl, rfl, rfl, rfl, rfl⟩

theorem Accessible.regIsCleared (h : Accessible s dev) (line : Nat) (hi : f.reg.indexOk s.cfg i = true)
    (hne : f.reg ≠ .eimc) :
    Does s dev g (regIsCleared line dev f i) (extract (g (s.cfg.off f.reg i)) (s.cfg.mask f) == 0)
      [.mmioRead (s.regAddr dev f.reg i) (g (s.cfg.off f.reg i))] 0 g :=
  .cast (.bind (.bind (h.regRead line hi hne) (.look_bind (fun _ h _ => by rw [h]) (.pure _))) (.pure _)) rfl rfl

/-- A read-modify-write of a field of a register that holds `old` (R155). -/
theorem Accessible.regWriteField (h : Accessible s dev) (line : Nat) {old v : W32} (hi : f.reg.indexOk s.cfg i = true)
    (hr : isPlain f.reg = true) (hne : f.reg ≠ .eimc) (hold : g (s.cfg.off f.reg i) = old) :
    Does s dev g (regWriteField line dev f i v) ()
      (readModifyWrite (s.regAddr dev f.reg i) old (insertField old (s.cfg.mask f) v)) 0
      (Function.update g (s.cfg.off f.reg i) (insertField old (s.cfg.mask f) v)) := by
  subst hold
  exact .cast (.bind (h.regRead line hi hne) (.look_bind (fun _ h _ => by rw [h]) (h.regWrite (line + 1) hi hr)))
    rfl rfl

/-- A field is set (R156). -/
theorem Accessible.regSet (h : Accessible s dev) (line : Nat) {old : W32} (hi : f.reg.indexOk s.cfg i = true)
    (hr : isPlain f.reg = true) (hne : f.reg ≠ .eimc) (hold : g (s.cfg.off f.reg i) = old) :
    Does s dev g (regSet line dev f i) ()
      (readModifyWrite (s.regAddr dev f.reg i) old (old ||| s.cfg.mask f)) 0
      (Function.update g (s.cfg.off f.reg i) (old ||| s.cfg.mask f)) := by
  rw [← insertField_fieldOnes]
  exact .look_bind (fun _ h _ => by rw [h]) (h.regWriteField line hi hr hne hold)

/-- A poll of a field that is as asked for (R159). -/
theorem Accessible.poll_passes (h : Accessible s dev) (line : Nat) {w : Bool} (hi : f.reg.indexOk s.cfg i = true)
    (hne : f.reg ≠ .eimc) (hw : (extract (g (s.cfg.off f.reg i)) (s.cfg.mask f) == 0) ≠ w) :
    Does s dev g (poll line dev f i w) true [.mmioRead (s.regAddr dev f.reg i) (g (s.cfg.off f.reg i))] 0 g := by
  refine .look_bind (fun _ h _ => h) ?_
  obtain ⟨n, hn⟩ : ∃ n, s.cfg.pollAttempts = n + 1 := Nat.exists_eq_add_one.2 (Config.pollAttempts_pos h.standard.1)
  rw [hn]
  exact .cast (.bind (h.regIsCleared line hi hne) (.ite_pos (bne_iff_ne.2 hw) (.pure _))) rfl rfl

/-- A poll of a field that is not as asked for, and stays so. -/
theorem Accessible.poll_times_out (h : Accessible s dev) (line : Nat) {w : Bool} (hi : f.reg.indexOk s.cfg i = true)
    (hne : f.reg ≠ .eimc) (hw : (extract (g (s.cfg.off f.reg i)) (s.cfg.mask f) == 0) = w) :
    ∃ l, Does s dev g (poll line dev f i w) false l s.cfg.tPoll g := by
  have hsleep (n gap : Nat) : Does s dev g (sleepUs n gap) () [.sleep gap] gap g := fun _ _ _ ht =>
    ⟨_, sleepUs_quiet n gap (h.holding ht).quiet, ht.sameNic (ht.slept n gap _) rfl⟩
  have loop (gap n : Nat) : ∃ l, Does s dev g (pollLoop line dev f i w gap n) false l (n * gap) g := by
    induction n with
    | zero => exact ⟨[], .cast (.pure _) rfl (Nat.zero_mul gap).symm⟩
    | succ n ih =>
      obtain ⟨l, hl⟩ := ih
      have hstays : ¬ ((extract (g (s.cfg.off f.reg i)) (s.cfg.mask f) == 0) != w) = true := fun h => bne_iff_ne.1 h hw
      refine ⟨_, .cast (.bind (h.regIsCleared line hi hne) (.ite_neg hstays (.bind (hsleep (line + 1) gap) hl))) rfl ?_⟩
      rw [Nat.succ_mul]
      omega
  obtain ⟨l, hl⟩ := loop (pollGap s.cfg s.cfg.tPoll) s.cfg.pollAttempts
  exact ⟨l, .look_bind (fun _ h _ => h) (hl.waits_less (tPoll_le_gaps h.standard.1))⟩

/-! The registers at the end of a command, which changes nothing of the NIC but answers. -/

theorem Holding.reg_after {l : List Access} {d : Nat} {u t : State} (h : Holding s dev g l d u) (hcfg : t.cfg = u.cfg)
    (hnics : t.nics = u.nics) (off : Nat) : (t.nic (s.handle dev).bdf).reg t.cfg off = g off := by
  rw [hcfg, h.only.cfg, State.nic, hnics]
  exact congrFun h.regs off

theorem Holding.regOf_after {l : List Access} {d : Nat} {u t : State} (h : Holding s dev g l d u) (hcfg : t.cfg = u.cfg)
    (hnics : t.nics = u.nics) (hbdf : (t.handle dev).bdf = (s.handle dev).bdf) (r : DevReg) (i : Nat) :
    t.regOf dev r i = g (s.cfg.off r i) := by
  rw [State.regOf, hbdf, h.reg_after hcfg hnics, hcfg, h.only.cfg]

end

end Sys2Proof.Machine
end

section
/-! SUPPORT. SET_PROMISC where no other agent moves (R250, R251): the two filter bits, and the bracket around them where
receive is enabled. -/

namespace Sys2Proof.Machine

section
variable {s : State} {dev : BitVec 8} {g g' : Nat → W32} {v : W32}

/-- The filter control register with `v` in the first filter bit. -/
def State.unicastFiltered (s : State) (dev : BitVec 8) (v : W32) : W32 :=
  insertField (s.regOf dev .fctrl 0) (s.cfg.mask .upe) v

/-- And with `v` in both. -/
def State.bothFiltered (s : State) (dev : BitVec 8) (v : W32) : W32 :=
  insertField (s.unicastFiltered dev v) (s.cfg.mask .mpe) v

/-- The accesses that give the two filter bits their value. -/
def State.filterAccesses (s : State) (dev : BitVec 8) (v : W32) : List Access :=
  readModifyWrite (s.regAddr dev .fctrl 0) (s.regOf dev .fctrl 0) (s.unicastFiltered dev v) ++
    readModifyWrite (s.regAddr dev .fctrl 0) (s.unicastFiltered dev v) (s.bothFiltered dev v)

/-- The two filter bits get their value, and then `k` is done. -/
theorem filterBits_does (h : Accessible s dev) {k : Micro Unit} {l : List Access}
    (hg : g (s.cfg.off .fctrl 0) = s.regOf dev .fctrl 0)
    (hk : Does s dev (Function.update g (s.cfg.off .fctrl 0) (s.bothFiltered dev v)) k () l 0 g') :
    Does s dev g (do regWriteField 4 dev .upe 0 v; regWriteField 6 dev .mpe 0 v; k) ()
      (s.filterAccesses dev v ++ l) 0 g' := by
  have hupe := h.regWriteField (f := .upe) (v := v) 4 rfl rfl (by decide) hg
  have hmpe := h.regWriteField (f := .mpe) (v := v) 6 rfl rfl (by decide)
    (Function.update_self (s.cfg.off .fctrl 0) (s.unicastFiltered dev v) g)
  rw [DevField.reg, Function.update_idem, ← State.bothFiltered] at hmpe
  exact .cast (hupe.bind (hmpe.bind hk)) (List.append_assoc _ _ _).symm rfl

/-- With receive disabled nothing else is done. -/
theorem setPromiscuous_disabled (h : Accessible s dev) (enable : Bool) (hoff : s.fieldOf dev .rxen 0 = 0) :
    Does s dev (s.registers dev) (setPromiscuous dev enable) ()
      (.mmioRead (s.regAddr dev .rxctrl 0) (s.regOf dev .rxctrl 0) :: s.filterAccesses dev (if enable then 1 else 0)) 0
      (Function.update (s.registers dev) (s.cfg.off .fctrl 0) (s.bothFiltered dev (if enable then 1 else 0))) := by
  have hread := h.regIsCleared (g := s.registers dev) (f := .rxen) (i := 0) 1 rfl (by decide)
  have hcleared : (extract (s.registers dev (s.cfg.off .rxctrl 0)) (s.cfg.mask .rxen) == 0) = true := beq_iff_eq.2 hoff
  rw [DevField.reg, hcleared] at hread
  refine .cast (hread.bind (.ite_neg (by decide) (filterBits_does h rfl (.ite_neg (by decide) (.pure ()))))) ?_ rfl
  rw [List.append_nil]
  rfl

/-- Setting a field whose bits were all set, after it was cleared, gives the register what it held. -/
theorem insertField_or_of_and {raw m v : W32} (h : raw &&& m = m) : insertField raw m v ||| m = raw := by
  apply BitVec.eq_of_getLsbD_eq
  intro i _
  have hbit : (raw.getLsbD i && m.getLsbD i) = m.getLsbD i := by rw [← BitVec.getLsbD_and, h]
  rw [BitVec.getLsbD_or, getLsbD_insertField]
  cases hm : m.getLsbD i with
  | false => simp
  | true => simpa [hm] using hbit.symm

/-- Where receive is enabled its one bit is set (R54). -/
theorem State.and_rxen (hc : StandardConfig s.cfg) (hon : s.fieldOf dev .rxen 0 ≠ 0) :
    s.regOf dev .rxctrl 0 &&& s.cfg.mask .rxen = s.cfg.mask .rxen := by
  have hset : s.regOf dev .rxctrl 0 &&& s.cfg.mask .rxen ≠ 0 := fun h => hon (extract_eq_zero_iff.2 h)
  have hmask : s.cfg.mask .rxen = 1 := (Config.mask_spec hc.2.1 .rxen).trans (by decide)
  rw [hmask, BitVec.ofNat_eq_ofNat, BitVec.and_one_eq_setWidth_ofBool_getLsbD] at hset ⊢
  cases hbit : (s.regOf dev .rxctrl 0).getLsbD 0 with
  | false => exact absurd (by rw [hbit]; rfl) hset
  | true => rfl

/-- An enabled receiver is disabled before and enabled again after. -/
theorem setPromiscuous_enabled (h : Accessible s dev) (enable : Bool) (hon : s.fieldOf dev .rxen 0 ≠ 0) :
    let addr := s.regAddr dev .rxctrl 0
    let rxctrl := s.regOf dev .rxctrl 0
    let halted := insertField rxctrl (s.cfg.mask .rxen) 0
    Does s dev (s.registers dev) (setPromiscuous dev enable) ()
      (.mmioRead addr rxctrl :: (readModifyWrite addr rxctrl halted ++
        (s.filterAccesses dev (if enable then 1 else 0) ++ readModifyWrite addr halted rxctrl))) 0
      (Function.update (s.registers dev) (s.cfg.off .fctrl 0) (s.bothFiltered dev (if enable then 1 else 0))) := by
  intro addr rxctrl halted
  have hne : s.cfg.off .rxctrl 0 ≠ s.cfg.off .fctrl 0 := Config.off_ne h.standard (by decide) rfl rfl
  have hread := h.regIsCleared (g := s.registers dev) (f := .rxen) (i := 0) 1 rfl (by decide)
  have hset : (extract (s.registers dev (s.cfg.off .rxctrl 0)) (s.cfg.mask .rxen) == 0) = false :=
    beq_eq_false_iff_ne.2 hon
  rw [DevField.reg, hset] at hread
  have hclear := h.regWriteField (f := .rxen) (g := s.registers dev) (v := 0) 2 rfl rfl (by decide) (rfl : _ = rxctrl)
  have hagain {x : W32} := h.regSet (f := .rxen) (old := halted) 8 rfl rfl (by decide)
    (g := Function.update (Function.update (s.registers dev) (s.cfg.off .rxctrl 0) halted) (s.cfg.off .fctrl 0) x)
    (by rw [DevField.reg, Function.update_of_ne hne, Function.update_self])
  have hrestored : halted ||| s.cfg.mask .rxen = s.registers dev (s.cfg.off .rxctrl 0) :=
    insertField_or_of_and (State.and_rxen h.standard hon)
  simp only [DevField.reg, hrestored, Function.update_comm hne.symm, Function.update_idem,
    Function.update_eq_self] at hagain
  exact .cast (hread.bind (.ite_pos (by decide) (hclear.bind
    (filterBits_does h (Function.update_of_ne hne.symm _ _) (.ite_pos (by decide) hagain))))) rfl rfl
end

/-- Settles O33: the receive control register ends with the value it had, be it bracketed or not. -/
theorem setPromiscCompletes : Obligations.SetPromiscCompletes := by
  intro s dev enable hq hc hs ha v rxctrl fctrl1 fctrl2 was
  have hm : (s.handle dev).mapped = true := Handle.mapped_iff.2 (by rw [ha.2]; decide)
  have h : Accessible (s.start (.setPromisc dev enable)) dev := ⟨hq, hc, hm, hs⟩
  obtain ⟨l, hl, hdoes⟩ : ∃ l, registerWrites l =
        (if was then [(s.regAddr dev .rxctrl 0, insertField rxctrl (s.cfg.mask .rxen) 0)] else []) ++
        [(s.regAddr dev .fctrl 0, fctrl1), (s.regAddr dev .fctrl 0, fctrl2)] ++
        (if was then [(s.regAddr dev .rxctrl 0, rxctrl)] else []) ∧
      Does (s.start (.setPromisc dev enable)) dev (s.registers dev) (setPromiscuous dev enable) () l 0
        (Function.update (s.registers dev) (s.cfg.off .fctrl 0) fctrl2) := by
    by_cases hwas : was
    · exact ⟨_, by simp only [if_pos hwas]; rfl, setPromiscuous_enabled h enable hwas⟩
    · exact ⟨_, by simp only [if_neg hwas]; rfl, setPromiscuous_disabled h enable (not_not.1 hwas)⟩
  obtain ⟨u, hrun, hu⟩ := hdoes _ _ _ (.start _ dev)
  have hframe : OnlyNic s (u.respond resOk 0 0) (s.handle dev).bdf := hu.only.of_start.respond _ _ _
  have hregOf (r : DevReg) : (u.respond resOk 0 0).regOf dev r 0 =
      Function.update (s.registers dev) (s.cfg.off .fctrl 0) fctrl2 (s.cfg.off r 0) :=
    hu.regOf_after rfl rfl (congrArg Handle.bdf (hframe.handle dev)) r 0
  refine ⟨_, l, exec_ok (v := noValues) ha (Micro.run_bind_ok hrun), ⟨rfl, rfl⟩, hframe.deviceFrame dev,
    hframe.sameHandles, ?_, ?_, fun off hoff => ?_, hu.made, hl⟩
  · exact (hregOf .fctrl).trans (Function.update_self ..)
  · exact (hregOf .rxctrl).trans (Function.update_of_ne (Config.off_ne hc (by decide) rfl rfl) ..)
  · exact (hu.reg_after rfl rfl off).trans (Function.update_of_ne hoff ..)

end Sys2Proof.Machine
end

section
/-! SUPPORT. DEV_INIT of a device that is not ready, where no other agent moves (R232 to R234, R242): what its first
steps find, and that nothing but the interrupt mask is written where they fail the device. -/

namespace Sys2Proof.Machine

/-! Micro-steps that fail a device. -/

section Rules
variable {α β : Type} {s : State} {dev : BitVec 8} {g g' g'' : Nat → W32} {f : Failure} {l : List Access} {d d' : Nat}

/-- From a state in which the registers hold `g` the micro-steps `m` raise `f` after at least `d` microseconds, with the
device failed; the registers then hold `g'`. -/
def FailsWith (s : State) (dev : BitVec 8) (g : Nat → W32) (m : Micro α) (f : Failure) (d : Nat) (g' : Nat → W32) :
    Prop :=
  ∀ l0 d0 t, Holding s dev g l0 d0 t → ∃ l u,
    m t = .error (.raise f) (u.setHandle dev { u.handle dev with ls := .failed }) ∧ Holding s dev g' l (d0 + d) u

theorem failDevice_fails : FailsWith s dev g (failDevice dev f : Micro α) f 0 g := fun l0 _ t h =>
  ⟨l0, t, rfl, h⟩

theorem FailsWith.bind {m : Micro α} (h : FailsWith s dev g m f d g') (k : α → Micro β) :
    FailsWith s dev g (m >>= k) f d g' := by
  intro l0 d0 t ht
  obtain ⟨l, u, hm, hu⟩ := h l0 d0 t ht
  exact ⟨l, u, Micro.run_bind_error hm, hu⟩

theorem Does.fails {m : Micro α} {k : α → Micro β} {a : α} (h : Does s dev g m a l d g')
    (hk : FailsWith s dev g' (k a) f d' g'') : FailsWith s dev g (m >>= k) f (d + d') g'' := by
  intro l0 d0 t ht
  obtain ⟨u, hm, hu⟩ := h l0 d0 t ht
  obtain ⟨l', x, hx, hx'⟩ := hk _ _ u hu
  rw [Nat.add_assoc] at hx'
  exact ⟨l', x, (Micro.run_bind_ok hm).trans hx, hx'⟩

/-- A look at the configuration sees what it was at the start. -/
theorem FailsWith.look_bind {F : State → α} {k : α → Micro β} (hF : ∀ t, t.cfg = s.cfg → F t = F s)
    (hk : FailsWith s dev g (k (F s)) f d g') : FailsWith s dev g (look F >>= k) f d g' := by
  intro l0 d0 t ht
  rw [Micro.look_bind, hF t ht.only.cfg]
  exact hk l0 d0 t ht

theorem FailsWith.ite_pos {p : Prop} [Decidable p] {x y : Micro α} (hp : p) (h : FailsWith s dev g x f d g') :
    FailsWith s dev g (if p then x else y) f d g' := by rwa [if_pos hp]

theorem FailsWith.ite_neg {p : Prop} [Decidable p] {x y : Micro α} (hp : ¬ p) (h : FailsWith s dev g y f d g') :
    FailsWith s dev g (if p then x else y) f d g' := by rwa [if_neg hp]

end Rules

/-! The steps that wait for the device (R232 to R234). -/

section
variable {s : State} {dev : BitVec 8}

/-- The registers with the interrupts masked. -/
def State.masked (s : State) (dev : BitVec 8) : Nat → W32 :=
  Function.update (s.registers dev) (s.cfg.off .eimc 0) s.cfg.init.eimcAll

theorem State.masked_off (hc : StandardConfig s.cfg) {r : DevReg} {i : Nat} (hne : r ≠ .eimc)
    (hi : r.indexOk s.cfg i = true) : s.masked dev (s.cfg.off r i) = s.regOf dev r i :=
  Function.update_of_ne (Config.off_ne hc hne hi rfl) ..

/-- A field of another register reads as before. -/
theorem State.masked_field (hc : StandardConfig s.cfg) {f : DevField} (hne : f.reg ≠ .eimc)
    (hi : f.reg.indexOk s.cfg 0 = true) :
    (extract (s.masked dev (s.cfg.off f.reg 0)) (s.cfg.mask f) == 0) = (s.fieldOf dev f 0 == 0) := by
  rw [State.masked_off hc hne hi]
  rfl

theorem maskInterrupts_does (h : Accessible s dev) :
    Does s dev (s.registers dev) (regWrite 1 dev .eimc 0 s.cfg.init.eimcAll) ()
      [.mmioWrite (s.regAddr dev .eimc 0) s.cfg.init.eimcAll] 0 (s.masked dev) := h.regWrite 1 rfl rfl

/-- A status field that is set where the device waits for it: one read. -/
theorem statusPoll_passes (h : Accessible s dev) (line : Nat) {f : DevField} (hne : f.reg ≠ .eimc)
    (hi : f.reg.indexOk s.cfg 0 = true) (hset : s.fieldOf dev f 0 ≠ 0) :
    Does s dev (s.masked dev) (poll line dev f 0 true) true [.mmioRead (s.regAddr dev f.reg 0) (s.regOf dev f.reg 0)] 0
      (s.masked dev) := by
  have hpoll := h.poll_passes (g := s.masked dev) line (w := true) hi hne
    (by rw [State.masked_field h.standard hne hi, beq_eq_false_iff_ne.2 hset]; decide)
  rwa [State.masked_off h.standard hne hi] at hpoll

/-- One that is not set. -/
theorem statusPoll_times_out (h : Accessible s dev) (line : Nat) {f : DevField} (hne : f.reg ≠ .eimc)
    (hi : f.reg.indexOk s.cfg 0 = true) (hclear : s.fieldOf dev f 0 = 0) :
    ∃ l, Does s dev (s.masked dev) (poll line dev f 0 true) false l s.cfg.tPoll (s.masked dev) :=
  h.poll_times_out line hi hne (by rw [State.masked_field h.standard hne hi, hclear]; rfl)

/-- Whether the EEPROM is absent. -/
theorem eepromAbsent_does (h : Accessible s dev) :
    Does s dev (s.masked dev) (regIsCleared 4 dev .eePres 0) (s.fieldOf dev .eePres 0 == 0)
      [.mmioRead (s.regAddr dev .eec 0) (s.regOf dev .eec 0)] 0 (s.masked dev) := by
  have hread := h.regIsCleared (g := s.masked dev) (f := .eePres) (i := 0) 4 rfl (by decide)
  rwa [State.masked_field h.standard (by decide) rfl, DevField.reg,
    State.masked_off h.standard (by decide) rfl] at hread

/-- The accesses of the steps that wait for a device that is ready. -/
def State.awaitAccesses (s : State) (dev : BitVec 8) : List Access :=
  [.mmioWrite (s.regAddr dev .eimc 0) s.cfg.init.eimcAll, .mmioRead (s.regAddr dev .eec 0) (s.regOf dev .eec 0),
    .mmioRead (s.regAddr dev .eec 0) (s.regOf dev .eec 0),
    .mmioRead (s.regAddr dev .rdrxctl 0) (s.regOf dev .rdrxctl 0)]

theorem awaitDevice_does (h : Accessible s dev) (hread : s.fieldOf dev .autoRd 0 ≠ 0)
    (hpresent : s.fieldOf dev .eePres 0 ≠ 0) (hready : s.fieldOf dev .dmaIdone 0 ≠ 0) :
    Does s dev (s.registers dev) (awaitDevice dev) () (s.awaitAccesses dev) 0 (s.masked dev) := by
  exact .look_bind (fun _ h _ => by rw [h]) (.cast (.bind (maskInterrupts_does h)
    (.bind (statusPoll_passes h 2 (by decide) rfl hread) (.ite_neg (by decide)
    (.bind (eepromAbsent_does h) (.ite_neg (by simpa using hpresent)
    (.bind (statusPoll_passes h 5 (by decide) rfl hready) (.ite_neg (by decide) (.pure ())))))))) rfl rfl)

/-- The first thing that is missing decides how the device fails (R242). -/
theorem awaitDevice_fails (h : Accessible s dev)
    (hmissing : ¬ (s.fieldOf dev .autoRd 0 ≠ 0 ∧ s.fieldOf dev .eePres 0 ≠ 0 ∧ s.fieldOf dev .dmaIdone 0 ≠ 0)) :
    ∃ f d, FailsWith s dev (s.registers dev) (awaitDevice dev) f d (s.masked dev) ∧
      if s.fieldOf dev .autoRd 0 ≠ 0 ∧ ¬ s.fieldOf dev .eePres 0 ≠ 0 then f.res = 3
      else f.res = 2 ∧ s.cfg.tPoll ≤ d := by
  by_cases hread : s.fieldOf dev .autoRd 0 = 0
  · obtain ⟨l, hpoll⟩ := statusPoll_times_out h 2 (by decide) rfl hread
    refine ⟨_, _, .look_bind (fun _ h => by rw [h]) ((maskInterrupts_does h).fails (hpoll.fails
      (.ite_pos (by decide) (failDevice_fails.bind _)))), ?_⟩
    rw [if_neg fun hp => hp.1 hread]
    exact ⟨rfl, by omega⟩
  have hpolled := statusPoll_passes h 2 (by decide) rfl hread
  by_cases hpresent : s.fieldOf dev .eePres 0 = 0
  · refine ⟨_, _, .look_bind (fun _ h => by rw [h]) ((maskInterrupts_does h).fails (hpolled.fails
      (.ite_neg (by decide) ((eepromAbsent_does h).fails
      (.ite_pos (beq_iff_eq.2 hpresent) (failDevice_fails.bind _)))))), ?_⟩
    rw [if_pos ⟨hread, not_not.2 hpresent⟩]
    rfl
  · have hready : s.fieldOf dev .dmaIdone 0 = 0 := by
      by_contra hready
      exact hmissing ⟨hread, hpresent, hready⟩
    obtain ⟨l, hpoll⟩ := statusPoll_times_out h 5 (by decide) rfl hready
    refine ⟨_, _, .look_bind (fun _ h => by rw [h]) ((maskInterrupts_does h).fails (hpolled.fails
      (.ite_neg (by decide) ((eepromAbsent_does h).fails (.ite_neg (by simpa using hpresent)
      (hpoll.fails (.ite_pos (by decide) failDevice_fails))))))), ?_⟩
    rw [if_neg fun hp => hp.2 hpresent]
    exact ⟨rfl, by omega⟩

end

/-- Settles O31: whatever is missing, the interrupt mask is all that was written before. -/
theorem devInitFails : Obligations.DevInitFails := by
  intro s dev hq hc hs ha read present ready hmissing
  have hm : (s.handle dev).mapped = true := Handle.mapped_iff.2 (by rw [ha.2]; decide)
  have h : Accessible (s.start (.devInit dev)) dev := ⟨hq, hc, hm, hs⟩
  obtain ⟨f, d, hfails, hcode⟩ := awaitDevice_fails h hmissing
  obtain ⟨l, u, hrun, hu⟩ := hfails.bind _ _ _ _ (.start _ dev)
  have hframe : OnlyNic s u (s.handle dev).bdf := hu.only.of_start
  have hexec := (exec_eq (.devInit dev) s).trans (runCommand_raise ((ready_iff _ _).2 ha) (Micro.run_bind_error hrun))
  generalize ht : (u.setHandle dev { u.handle dev with ls := .failed }).takeFailure f = t at hexec
  have hhandle : t.handle dev = { s.handle dev with ls := .failed } := by
    rw [← ht, ← hframe.handle]
    exact State.handle_setHandle_self ..
  have hbdf : (t.handle dev).bdf = (s.handle dev).bdf := by rw [hhandle]
  refine ⟨t, hexec, hhandle, ht ▸ hframe.deviceFrame_setHandle dev _, ?_, ?_, fun off hoff => ?_⟩
  · have hwaited : s.now + (0 + d) ≤ t.now := ht ▸ hu.waited
    have hanswer {res : BitVec 8} (hres : f.res = res) : t.answered res 0 0 := by
      rw [← ht]
      exact ⟨by rw [State.takeFailure_resp, hres], rfl⟩
    split at hcode
    · rw [if_pos ‹_›]
      exact hanswer hcode
    · rw [if_neg ‹_›]
      obtain ⟨hres, hlate⟩ := hcode
      have hlate : s.cfg.tPoll ≤ d := hlate
      exact ⟨hanswer hres, by omega⟩
  · exact (hu.regOf_after (ht ▸ rfl) (ht ▸ rfl) hbdf .eimc 0).trans (Function.update_self ..)
  · exact (hu.reg_after (ht ▸ rfl) (ht ▸ rfl) off).trans (Function.update_of_ne hoff ..)

end Sys2Proof.Machine
end

section
/-! SUPPORT. Rows of registers written one after the other (R235, R236, R239): the accesses, and what every register
then holds. -/

namespace Sys2Proof.Machine

/-! The registers after a row was written. -/

/-- The registers `g` after writes of `v i` to register `r` at each index `i` of a list. -/
def fillRow (c : Config) (r : DevReg) (v : Nat → W32) (l : List Nat) (g : Nat → W32) : Nat → W32 :=
  l.foldl (fun g i => Function.update g (c.off r i) (v i)) g

section
variable {c : Config} {r r' : DevReg} {v : Nat → W32} {l : List Nat} {g : Nat → W32} {i : Nat} {x : W32}

theorem fillRow_cons (j : Nat) : fillRow c r v (j :: l) g = fillRow c r v l (Function.update g (c.off r j) (v j)) := rfl

theorem fillRow_of_ne {off : Nat} (h : ∀ j ∈ l, off ≠ c.off r j) : fillRow c r v l g off = g off := by
  induction l generalizing g with
  | nil => rfl
  | cons j rest ih =>
    obtain ⟨hj, hrest⟩ := List.forall_mem_cons.1 h
    rw [fillRow_cons, ih hrest, Function.update_of_ne hj]

theorem fillRow_of_mem (hc : StandardConfig c) (hr : (r.indexCount c).isSome = true)
    (hl : ∀ j ∈ l, r.indexOk c j = true) (hi : i ∈ l) : fillRow c r v l g (c.off r i) = v i := by
  induction l generalizing g with
  | nil => cases hi
  | cons j rest ih =>
    obtain ⟨hj, hrest⟩ := List.forall_mem_cons.1 hl
    rw [fillRow_cons]
    by_cases hmem : i ∈ rest
    · exact ih hrest hmem
    · obtain rfl := (List.mem_cons.1 hi).resolve_right hmem
      rw [fillRow_of_ne fun k hk he => hmem (Config.off_inj hc hr hj (hrest k hk) he ▸ hk), Function.update_self]

/-- An index that is not written. -/
theorem fillRow_of_not_mem (hc : StandardConfig c) (hr : (r.indexCount c).isSome = true)
    (hl : ∀ j ∈ l, r.indexOk c j = true) (hok : r.indexOk c i = true) (hi : i ∉ l) :
    fillRow c r v l g (c.off r i) = g (c.off r i) :=
  fillRow_of_ne fun j hj he => hi (Config.off_inj hc hr hok (hl j hj) he ▸ hj)

/-- A register that holds the value every one of the writes has. -/
theorem fillRow_const {off : Nat} (h : g off = x) : fillRow c r (fun _ => x) l g off = x := by
  induction l generalizing g with
  | nil => exact h
  | cons j rest ih => exact ih ((Function.update_apply ..).trans (by rw [h, ite_self]))

/-- Another register. -/
theorem fillRow_other (hc : StandardConfig c) (hne : r' ≠ r) (hl : ∀ j ∈ l, r.indexOk c j = true)
    (hi : r'.indexOk c i = true) : fillRow c r v l g (c.off r' i) = g (c.off r' i) :=
  fillRow_of_ne fun j hj => Config.off_ne hc hne hi (hl j hj)

/-- A write of one register leaves another as it was (R52). -/
theorem update_other (hc : StandardConfig c) (hne : r' ≠ r) {j : Nat} (hj : r.indexOk c j = true)
    (hi : r'.indexOk c i = true) : Function.update g (c.off r j) x (c.off r' i) = g (c.off r' i) :=
  Function.update_of_ne (Config.off_ne hc hne hi hj) x g

end

/-! Rows written by a command. -/

section
variable {s : State} {dev : BitVec 8} {g : Nat → W32}

theorem zeroTable_does (h : Accessible s dev) (line : Nat) {r : DevReg} {n m : Nat} (hr : r.indexCount s.cfg = some m)
    (hn : n ≤ m) (hp : isPlain r = true) :
    Does s dev g (zeroTable line dev r n) () ((List.range n).map fun i => .mmioWrite (s.regAddr dev r i) 0) 0
      (fillRow s.cfg r (fun _ => 0) (List.range n) g) := by
  have row {l : List Nat} (hl : ∀ i ∈ l, r.indexOk s.cfg i = true) (g : Nat → W32) :
      Does s dev g (forEach l fun i => regWrite line dev r i 0) () (l.map fun i => .mmioWrite (s.regAddr dev r i) 0) 0
        (fillRow s.cfg r (fun _ => 0) l g) := by
    induction l generalizing g with
    | nil => exact .pure ()
    | cons i rest ih =>
      obtain ⟨hi, hrest⟩ := List.forall_mem_cons.1 hl
      exact .cast (.bind (h.regWrite line hi hp) (ih hrest _)) rfl rfl
  exact row (fun i hi => indexOk_of_lt hr (Nat.lt_of_lt_of_le (List.mem_range.1 hi) hn)) g

/-- The same value in a field of each register of a row, whose registers hold `old`. -/
theorem fieldRow_does (h : Accessible s dev) (line : Nat) {f : DevField} {v : W32} {old : Nat → W32} {l : List Nat}
    (hr : (f.reg.indexCount s.cfg).isSome = true) (hl : ∀ i ∈ l, f.reg.indexOk s.cfg i = true) (hd : l.Nodup)
    (hp : isPlain f.reg = true) (hold : ∀ i ∈ l, g (s.cfg.off f.reg i) = old i) :
    Does s dev g (forEach l fun i => regWriteField line dev f i v) ()
      (l.map fun i => readModifyWrite (s.regAddr dev f.reg i) (old i) (insertField (old i) (s.cfg.mask f) v)).flatten 0
      (fillRow s.cfg f.reg (fun i => insertField (old i) (s.cfg.mask f) v) l g) := by
  have hne : f.reg ≠ .eimc := fun e => by
    rw [e] at hr
    cases hr
  induction l generalizing g with
  | nil => exact .pure ()
  | cons i rest ih =>
    obtain ⟨hi, hrest⟩ := List.forall_mem_cons.1 hl
    obtain ⟨hnew, hd⟩ := List.nodup_cons.1 hd
    obtain ⟨hfirst, hlater⟩ := List.forall_mem_cons.1 hold
    refine .cast (.bind (h.regWriteField line hi hp hne hfirst) (ih hrest hd fun j hj => ?_)) rfl rfl
    rw [Function.update_of_ne, hlater j hj]
    exact fun he => hnew (Config.off_inj h.standard hr (hrest j hj) hi he ▸ hj)

end

end Sys2Proof.Machine
end

section
/-! SUPPORT. DEV_INIT of a device that is ready, where no other agent moves, part by part (R235 to R239): the accesses
of each part, and the registers after it. -/

namespace Sys2Proof.Machine

section
variable {s : State} {dev : BitVec 8}

/-- A register with `x` in one of its fields, and all else as a device has it. -/
def State.inserted (s : State) (dev : BitVec 8) (f : DevField) (x : W32) (i : Nat) : W32 :=
  insertField (s.regOf dev f.reg i) (s.cfg.mask f) x

/-- The accesses that put it there (R155). -/
def State.insertAccesses (s : State) (dev : BitVec 8) (f : DevField) (x : W32) (i : Nat) : List Access :=
  readModifyWrite (s.regAddr dev f.reg i) (s.regOf dev f.reg i) (s.inserted dev f x i)

/-! The filter tables (R235). -/

/-- The writes of zeros to a table. -/
def State.zeroAccesses (s : State) (dev : BitVec 8) (r : DevReg) (n : Nat) : List Access :=
  (List.range n).map fun i => .mmioWrite (s.regAddr dev r i) 0

/-- The registers with zeros in a table. -/
def zeroed (c : Config) (r : DevReg) (n : Nat) (g : Nat → W32) : Nat → W32 := fillRow c r (fun _ => 0) (List.range n) g

/-- The registers once the filter tables are zero. -/
def State.tablesZeroed (s : State) (dev : BitVec 8) : Nat → W32 :=
  let v := s.cfg.init
  zeroed s.cfg .ftqf v.n5tuple (zeroed s.cfg .mta v.nMulticast (zeroed s.cfg .pfvlvfb v.nVlanBmp
    (zeroed s.cfg .pfvlvf v.nVlan (zeroed s.cfg .pfuta v.nUnicast (s.masked dev)))))

/-- The accesses that make them zero. -/
def State.tableAccesses (s : State) (dev : BitVec 8) : List Access :=
  let v := s.cfg.init
  s.zeroAccesses dev .pfuta v.nUnicast ++ s.zeroAccesses dev .pfvlvf v.nVlan ++
    s.zeroAccesses dev .pfvlvfb v.nVlanBmp ++ s.zeroAccesses dev .mta v.nMulticast ++
    s.zeroAccesses dev .ftqf v.n5tuple

theorem zeroFilterTables_does (h : Accessible s dev) :
    Does s dev (s.masked dev) (zeroFilterTables dev) () (s.tableAccesses dev) 0 (s.tablesZeroed dev) := by
  obtain ⟨hunicast, hvlan, hbitmap, hmulticast, htuple⟩ := Config.tables_fit h.standard.1
  refine .look_bind (fun _ h _ => by rw [h]) (.cast (.bind (zeroTable_does h 7 rfl hunicast rfl)
    (.bind (zeroTable_does h 8 rfl hvlan rfl) (.bind (zeroTable_does h 9 rfl hbitmap rfl)
    (.bind (zeroTable_does h 10 rfl hmulticast rfl) (zeroTable_does h 11 rfl htuple rfl))))) ?_ rfl)
  simp only [State.tableAccesses, List.append_assoc]
  rfl

theorem zeroed_other {c : Config} (hc : StandardConfig c) {r r' : DevReg} {n m i : Nat} {g : Nat → W32}
    (hne : r' ≠ r) (hr : r.indexCount c = some m) (hn : n ≤ m) (hi : r'.indexOk c i = true) :
    zeroed c r n g (c.off r' i) = g (c.off r' i) :=
  fillRow_other hc hne (fun _ hj => indexOk_of_lt hr (Nat.lt_of_lt_of_le (List.mem_range.1 hj) hn)) hi

theorem zeroed_self {c : Config} (hc : StandardConfig c) {r : DevReg} {n m i : Nat} {g : Nat → W32}
    (hr : r.indexCount c = some m) (hn : n ≤ m) (hi : i < n) : zeroed c r n g (c.off r i) = 0 :=
  fillRow_of_mem hc (by rw [hr]; rfl) (fun _ hj => indexOk_of_lt hr (Nat.lt_of_lt_of_le (List.mem_range.1 hj) hn))
    (List.mem_range.2 hi)

/-- The registers of the filter tables. -/
def tableRegs : List DevReg := [.pfuta, .pfvlvf, .pfvlvfb, .mta, .ftqf]

theorem State.tablesZeroed_other (hc : StandardConfig s.cfg) {r : DevReg} {i : Nat} (hr : r ∉ tableRegs)
    (hi : r.indexOk s.cfg i = true) : s.tablesZeroed dev (s.cfg.off r i) = s.masked dev (s.cfg.off r i) := by
  simp only [tableRegs, List.mem_cons, List.not_mem_nil, or_false, not_or] at hr
  obtain ⟨hpfuta, hpfvlvf, hpfvlvfb, hmta, hftqf⟩ := hr
  obtain ⟨hunicast, hvlan, hbitmap, hmulticast, htuple⟩ := Config.tables_fit hc.1
  rw [State.tablesZeroed, zeroed_other hc hftqf rfl htuple hi, zeroed_other hc hmta rfl hmulticast hi,
    zeroed_other hc hpfvlvfb rfl hbitmap hi, zeroed_other hc hpfvlvf rfl hvlan hi,
    zeroed_other hc hpfuta rfl hunicast hi]

/-- A register that neither these writes nor that of the interrupt mask name. -/
theorem State.tablesZeroed_off (hc : StandardConfig s.cfg) {r : DevReg} {i : Nat} (hr : r ∉ tableRegs) (hne : r ≠ .eimc)
    (hi : r.indexOk s.cfg i = true) : s.tablesZeroed dev (s.cfg.off r i) = s.regOf dev r i :=
  (State.tablesZeroed_other hc hr hi).trans (State.masked_off hc hne hi)

/-! Receive (R236 to R238). -/

theorem otherBuffers_indexOk {c : Config} {r : DevReg} (hr : r.indexCount c = some 8) :
    ∀ i ∈ otherBuffers, r.indexOk c i = true := fun i hi => indexOk_of_lt hr (otherBuffers_lt i hi)

/-- The buffer registers once every receive buffer has its size. -/
def State.buffersSized (s : State) (dev : BitVec 8) : Nat → W32 :=
  fillRow s.cfg .rxpbsize (s.inserted dev .rxpbSize 0) otherBuffers
    (Function.update (s.tablesZeroed dev) (s.cfg.off .rxpbsize 0) (s.inserted dev .rxpbSize s.cfg.init.rxpb0 0))

/-- The receive control register with CRC stripping on. -/
def State.crcStripped (s : State) (dev : BitVec 8) : W32 := s.regOf dev .rdrxctl 0 ||| s.cfg.mask .crcStrip

/-- And with no first size for coalescing. -/
def State.coalescingSized (s : State) (dev : BitVec 8) : W32 :=
  insertField (s.crcStripped dev) (s.cfg.mask .rscFrstSize) 0

/-- And with its last two bits set. -/
def State.receiveControl (s : State) (dev : BitVec 8) : W32 :=
  s.coalescingSized dev ||| s.cfg.mask .rscAckc ||| s.cfg.mask .fcoeWrfix

/-- The registers once receive is configured. -/
def State.receiveConfigured (s : State) (dev : BitVec 8) : Nat → W32 :=
  Function.update (Function.update (Function.update (s.buffersSized dev)
    (s.cfg.off .fcrth 0) (s.inserted dev .rth s.cfg.init.fcrth0 0))
    (s.cfg.off .rdrxctl 0) (s.receiveControl dev))
    (s.cfg.off .mflcn 0) (s.regOf dev .mflcn 0 ||| s.cfg.mask .rfce)

/-- The accesses of the receive control register. -/
def State.receiveControlAccesses (s : State) (dev : BitVec 8) : List Access :=
  let a := s.regAddr dev .rdrxctl 0
  let sized := s.coalescingSized dev
  readModifyWrite a (s.regOf dev .rdrxctl 0) (s.crcStripped dev) ++ readModifyWrite a (s.crcStripped dev) sized ++
    readModifyWrite a sized (sized ||| s.cfg.mask .rscAckc) ++
    readModifyWrite a (sized ||| s.cfg.mask .rscAckc) (s.receiveControl dev)

/-- The accesses that configure receive. -/
def State.receiveSetupAccesses (s : State) (dev : BitVec 8) : List Access :=
  s.insertAccesses dev .rxpbSize s.cfg.init.rxpb0 0 ++
    (otherBuffers.map (s.insertAccesses dev .rxpbSize 0)).flatten ++
    s.insertAccesses dev .rth s.cfg.init.fcrth0 0 ++ s.receiveControlAccesses dev ++
    readModifyWrite (s.regAddr dev .mflcn 0) (s.regOf dev .mflcn 0) (s.regOf dev .mflcn 0 ||| s.cfg.mask .rfce)

theorem State.buffersSized_other (hc : StandardConfig s.cfg) {r : DevReg} {i : Nat} (hne : r ≠ .rxpbsize)
    (hi : r.indexOk s.cfg i = true) : s.buffersSized dev (s.cfg.off r i) = s.tablesZeroed dev (s.cfg.off r i) := by
  rw [State.buffersSized, fillRow_other hc hne (otherBuffers_indexOk rfl) hi, update_other hc hne rfl hi]

/-- The receive buffers get their sizes, and then `k` is done. -/
theorem sizeBuffers_does (h : Accessible s dev) {k : Micro Unit} {l : List Access} {d : Nat} {g' : Nat → W32}
    (hk : Does s dev (s.buffersSized dev) k () l d g') :
    Does s dev (s.tablesZeroed dev) (do
        regWriteField 12 dev .rxpbSize 0 s.cfg.init.rxpb0
        forEach otherBuffers fun n => regWriteField 14 dev .rxpbSize n 0
        k) ()
      (s.insertAccesses dev .rxpbSize s.cfg.init.rxpb0 0 ++
        (otherBuffers.map (s.insertAccesses dev .rxpbSize 0)).flatten ++ l) d g' := by
  have hold {i : Nat} (hi : DevReg.rxpbsize.indexOk s.cfg i = true) :
      s.tablesZeroed dev (s.cfg.off .rxpbsize i) = s.regOf dev .rxpbsize i :=
    State.tablesZeroed_off h.standard (by decide) (by decide) hi
  have hfirst := h.regWriteField (f := .rxpbSize) (v := s.cfg.init.rxpb0) 12 rfl rfl (by decide) (hold (i := 0) rfl)
  have hothers := fieldRow_does (g := Function.update (s.tablesZeroed dev) (s.cfg.off .rxpbsize 0)
      (s.inserted dev .rxpbSize s.cfg.init.rxpb0 0)) h 14 (f := .rxpbSize) (v := 0)
    (old := s.regOf dev .rxpbsize) (l := otherBuffers) rfl (otherBuffers_indexOk rfl) (by decide) rfl fun i hi => by
      have hok := otherBuffers_indexOk (c := s.cfg) (r := .rxpbsize) rfl i hi
      rw [DevField.reg, Function.update_of_ne, hold hok]
      intro he
      obtain rfl := Config.off_inj h.standard rfl hok rfl he
      revert hi
      decide
  exact .cast (.bind hfirst (.bind hothers hk)) (List.append_assoc _ _ _).symm (by omega)

/-- The four fields of the receive control register are written, and then `k` is done. -/
theorem receiveControl_does (h : Accessible s dev) {k : Micro Unit} {l : List Access} {d : Nat} {g g' : Nat → W32}
    (hg : g (s.cfg.off .rdrxctl 0) = s.regOf dev .rdrxctl 0)
    (hk : Does s dev (Function.update g (s.cfg.off .rdrxctl 0) (s.receiveControl dev)) k () l d g') :
    Does s dev g (do
        regSet 18 dev .crcStrip 0
        regClear 20 dev .rscFrstSize 0
        regSet 22 dev .rscAckc 0
        regSet 24 dev .fcoeWrfix 0
        k) () (s.receiveControlAccesses dev ++ l) d g' := by
  have holds (x : W32) : Function.update g (s.cfg.off .rdrxctl 0) x (s.cfg.off .rdrxctl 0) = x :=
    Function.update_self ..
  have hstrip := h.regSet (f := .crcStrip) 18 rfl rfl (by decide) hg
  have hsize := h.regWriteField (f := .rscFrstSize) (v := 0) 20 rfl rfl (by decide) (holds (s.crcStripped dev))
  have hackc := h.regSet (f := .rscAckc) 22 rfl rfl (by decide) (holds (s.coalescingSized dev))
  have hfcoe := h.regSet (f := .fcoeWrfix) 24 rfl rfl (by decide)
    (holds (s.coalescingSized dev ||| s.cfg.mask .rscAckc))
  simp only [DevField.reg, Function.update_idem] at hsize hackc hfcoe
  refine .cast (.bind hstrip (.bind hsize (.bind hackc (.bind hfcoe hk)))) ?_ (by omega)
  simp only [State.receiveControlAccesses, List.append_assoc]
  rfl

theorem configureReceive_does (h : Accessible s dev) :
    Does s dev (s.tablesZeroed dev) (configureReceive dev) () (s.receiveSetupAccesses dev) 0
      (s.receiveConfigured dev) := by
  have hc := h.standard
  have hold {r : DevReg} {i : Nat} (hne : r ≠ .rxpbsize) (hr : r ∉ tableRegs) (hmask : r ≠ .eimc)
      (hi : r.indexOk s.cfg i = true) : s.buffersSized dev (s.cfg.off r i) = s.regOf dev r i :=
    (State.buffersSized_other hc hne hi).trans (State.tablesZeroed_off hc hr hmask hi)
  have hrth := h.regWriteField (f := .rth) (v := s.cfg.init.fcrth0) 16 rfl rfl (by decide)
    (hold (r := .fcrth) (i := 0) (by decide) (by decide) (by decide) rfl)
  have hrfce := h.regSet (f := .rfce) (g := Function.update (Function.update (s.buffersSized dev)
      (s.cfg.off .fcrth 0) (s.inserted dev .rth s.cfg.init.fcrth0 0)) (s.cfg.off .rdrxctl 0) (s.receiveControl dev))
    (old := s.regOf dev .mflcn 0) (i := 0) 26 rfl rfl (by decide)
    (by rw [DevField.reg, update_other hc (by decide) rfl rfl, update_other hc (by decide) rfl rfl,
      hold (by decide) (by decide) (by decide) rfl])
  refine .look_bind (fun _ h _ => by rw [h]) (.cast (sizeBuffers_does h (.bind hrth
    (receiveControl_does h ?_ hrfce))) ?_ rfl)
  · rw [DevField.reg, update_other hc (by decide) rfl rfl, hold (by decide) (by decide) (by decide) rfl]
  · simp only [State.receiveSetupAccesses, List.append_assoc]
    rfl

/-- The registers that the configuration of receive writes. -/
def receiveRegs : List DevReg := [.rxpbsize, .fcrth, .rdrxctl, .mflcn]

theorem State.receiveConfigured_other (hc : StandardConfig s.cfg) {r : DevReg} {i : Nat} (hr : r ∉ receiveRegs)
    (hi : r.indexOk s.cfg i = true) :
    s.receiveConfigured dev (s.cfg.off r i) = s.tablesZeroed dev (s.cfg.off r i) := by
  simp only [receiveRegs, List.mem_cons, List.not_mem_nil, or_false, not_or] at hr
  obtain ⟨hrxpbsize, hfcrth, hrdrxctl, hmflcn⟩ := hr
  rw [State.receiveConfigured, update_other hc hmflcn rfl hi, update_other hc hrdrxctl rfl hi,
    update_other hc hfcrth rfl hi, State.buffersSized_other hc hrxpbsize hi]

/-! Transmit (R239). -/

/-- The arbitration register with arbitration disabled. -/
def State.arbitrationPaused (s : State) (dev : BitVec 8) : W32 := s.regOf dev .rttdcs 0 ||| s.cfg.mask .arbDis

/-- The registers once transmit is configured inside the bracket. -/
def State.transmitSized (s : State) (dev : BitVec 8) : Nat → W32 :=
  Function.update (Function.update (fillRow s.cfg .txpbsize (s.inserted dev .txpbSize 0) otherBuffers
    (Function.update (s.receiveConfigured dev) (s.cfg.off .rttdcs 0) (s.arbitrationPaused dev)))
    (s.cfg.off .txpbthresh 0) (s.inserted dev .txpbThresh s.cfg.init.txpbthresh0 0))
    (s.cfg.off .dtxmxszrq 0) (s.inserted dev .maxBytesNumReq s.cfg.init.maxBytesReq 0)

/-- And once the bracket is closed. -/
def State.transmitConfigured (s : State) (dev : BitVec 8) : Nat → W32 :=
  Function.update (s.transmitSized dev) (s.cfg.off .rttdcs 0)
    (insertField (s.arbitrationPaused dev) (s.cfg.mask .arbDis) 0)

/-- The accesses that configure transmit, inside the bracket. -/
def State.transmitSetupAccesses (s : State) (dev : BitVec 8) : List Access :=
  let a := s.regAddr dev .rttdcs 0
  readModifyWrite a (s.regOf dev .rttdcs 0) (s.arbitrationPaused dev) ++
    (otherBuffers.map (s.insertAccesses dev .txpbSize 0)).flatten ++
    s.insertAccesses dev .txpbThresh s.cfg.init.txpbthresh0 0 ++
    s.insertAccesses dev .maxBytesNumReq s.cfg.init.maxBytesReq 0 ++
    readModifyWrite a (s.arbitrationPaused dev) (insertField (s.arbitrationPaused dev) (s.cfg.mask .arbDis) 0)

theorem configureTransmit_does (h : Accessible s dev) :
    Does s dev (s.receiveConfigured dev) (configureTransmit dev) () (s.transmitSetupAccesses dev) 0
      (s.transmitConfigured dev) := by
  have hc := h.standard
  have hrow := otherBuffers_indexOk (c := s.cfg) (r := .txpbsize) rfl
  have hold {r : DevReg} {i : Nat} (hr : r ∉ receiveRegs) (ht : r ∉ tableRegs) (hmask : r ≠ .eimc)
      (hi : r.indexOk s.cfg i = true) : s.receiveConfigured dev (s.cfg.off r i) = s.regOf dev r i :=
    (State.receiveConfigured_other hc hr hi).trans (State.tablesZeroed_off hc ht hmask hi)
  have hpause := h.regSet (f := .arbDis) 28 rfl rfl (by decide)
    (hold (r := .rttdcs) (i := 0) (by decide) (by decide) (by decide) rfl)
  have hbuffers := fieldRow_does h 30 (f := .txpbSize) (v := 0) (old := s.regOf dev .txpbsize) (l := otherBuffers)
    (g := Function.update (s.receiveConfigured dev) (s.cfg.off .rttdcs 0) (s.arbitrationPaused dev))
    rfl hrow (by decide) rfl fun i hi => by
      rw [DevField.reg, update_other hc (by decide) rfl (hrow i hi),
        hold (by decide) (by decide) (by decide) (hrow i hi)]
  refine .look_bind (fun _ h _ => by rw [h]) (.cast (.bind hpause (.bind hbuffers
    (.bind (h.regWriteField (old := s.regOf dev .txpbthresh 0) 32 rfl rfl (by decide) ?_)
    (.bind (h.regWriteField (old := s.regOf dev .dtxmxszrq 0) 34 rfl rfl (by decide) ?_)
    (h.regWriteField (old := s.arbitrationPaused dev) 36 rfl rfl (by decide) ?_))))) ?_ rfl)
  · rw [DevField.reg, DevField.reg, fillRow_other hc (by decide) hrow rfl, update_other hc (by decide) rfl rfl,
      hold (by decide) (by decide) (by decide) rfl]
  · simp only [DevField.reg]
    rw [update_other hc (by decide) rfl rfl, fillRow_other hc (by decide) hrow rfl, update_other hc (by decide) rfl rfl,
      hold (by decide) (by decide) (by decide) rfl]
  · simp only [DevField.reg]
    rw [update_other hc (by decide) rfl rfl, update_other hc (by decide) rfl rfl,
      fillRow_other hc (by decide) hrow rfl, Function.update_self]
  · simp only [State.transmitSetupAccesses, List.append_assoc]
    rfl

/-- The registers that the configuration of transmit writes. -/
def transmitRegs : List DevReg := [.rttdcs, .txpbsize, .txpbthresh, .dtxmxszrq]

theorem State.transmitConfigured_other (hc : StandardConfig s.cfg) {r : DevReg} {i : Nat} (hr : r ∉ transmitRegs)
    (hi : r.indexOk s.cfg i = true) :
    s.transmitConfigured dev (s.cfg.off r i) = s.receiveConfigured dev (s.cfg.off r i) := by
  simp only [transmitRegs, List.mem_cons, List.not_mem_nil, or_false, not_or] at hr
  obtain ⟨hrttdcs, htxpbsize, htxpbthresh, hdtxmxszrq⟩ := hr
  rw [State.transmitConfigured, State.transmitSized, update_other hc hrttdcs rfl hi, update_other hc hdtxmxszrq rfl hi,
    update_other hc htxpbthresh rfl hi, fillRow_other hc htxpbsize (otherBuffers_indexOk rfl) hi,
    update_other hc hrttdcs rfl hi]

end

end Sys2Proof.Machine
end

section
/-! SUPPORT. DEV_INIT of a device that is ready, as a whole (R231): what every register holds once the four parts are
done. -/

namespace Sys2Proof.Machine

section
variable {s : State} {dev : BitVec 8}

/-! The accesses. -/

/-- The accesses of DEV_INIT are those of its parts. -/
theorem initAccesses_eq (s : State) (dev : BitVec 8) :
    initAccesses s dev = s.awaitAccesses dev ++ s.tableAccesses dev ++ s.receiveSetupAccesses dev ++
      s.transmitSetupAccesses dev := by
  simp only [State.tableAccesses, State.receiveSetupAccesses, State.receiveControlAccesses,
    State.transmitSetupAccesses, ← List.append_assoc]
  rfl

theorem initDevice_run (h : Accessible s dev) (hread : s.fieldOf dev .autoRd 0 ≠ 0)
    (hpresent : s.fieldOf dev .eePres 0 ≠ 0) (hready : s.fieldOf dev .dmaIdone 0 ≠ 0) :
    ∃ u, initDevice dev s = .ok () (u.setHandle dev { u.handle dev with ls := .initialized }) ∧
      Holding s dev (s.transmitConfigured dev) (initAccesses s dev) 0 u := by
  obtain ⟨t1, hawait, h1⟩ := awaitDevice_does h hread hpresent hready _ _ s (.start s dev)
  obtain ⟨t2, htables, h2⟩ := zeroFilterTables_does h _ _ t1 h1
  obtain ⟨t3, hreceive, h3⟩ := configureReceive_does h _ _ t2 h2
  obtain ⟨u, htransmit, hu⟩ := configureTransmit_does h _ _ t3 h3
  rw [List.nil_append, ← initAccesses_eq] at hu
  exact ⟨u, (Micro.run_bind_ok hawait).trans ((Micro.run_bind_ok htables).trans ((Micro.run_bind_ok hreceive).trans
    (Micro.run_bind_ok htransmit))), hu⟩

/-! The registers that are written. -/

/-- Each entry of a filter table that the configuration counts is zero; the writes of the tables after it are of zero
too. -/
theorem State.tablesZeroed_table (hc : StandardConfig s.cfg) :
    (∀ i, i < s.cfg.init.nUnicast → s.tablesZeroed dev (s.cfg.off .pfuta i) = 0) ∧
    (∀ i, i < s.cfg.init.nVlan → s.tablesZeroed dev (s.cfg.off .pfvlvf i) = 0) ∧
    (∀ i, i < s.cfg.init.nVlanBmp → s.tablesZeroed dev (s.cfg.off .pfvlvfb i) = 0) ∧
    (∀ i, i < s.cfg.init.nMulticast → s.tablesZeroed dev (s.cfg.off .mta i) = 0) ∧
    (∀ i, i < s.cfg.init.n5tuple → s.tablesZeroed dev (s.cfg.off .ftqf i) = 0) := by
  obtain ⟨hunicast, hvlan, hbitmap, hmulticast, htuple⟩ := Config.tables_fit hc.1
  exact ⟨fun _ hi => fillRow_const (fillRow_const (fillRow_const (fillRow_const (zeroed_self hc rfl hunicast hi)))),
    fun _ hi => fillRow_const (fillRow_const (fillRow_const (zeroed_self hc rfl hvlan hi))),
    fun _ hi => fillRow_const (fillRow_const (zeroed_self hc rfl hbitmap hi)),
    fun _ hi => fillRow_const (zeroed_self hc rfl hmulticast hi), fun _ hi => zeroed_self hc rfl htuple hi⟩

/-- A register that neither receive nor transmit is configured by. -/
theorem State.transmitConfigured_early (hc : StandardConfig s.cfg) {r : DevReg} {i : Nat}
    (hr : r ∉ receiveRegs ++ transmitRegs) (hi : r.indexOk s.cfg i = true) :
    s.transmitConfigured dev (s.cfg.off r i) = s.tablesZeroed dev (s.cfg.off r i) := by
  obtain ⟨hreceive, htransmit⟩ := not_or.1 (mt List.mem_append.2 hr)
  rw [State.transmitConfigured_other hc htransmit hi, State.receiveConfigured_other hc hreceive hi]

theorem mem_otherBuffers {n : Nat} (h : 0 < n) (hn : n < 8) : n ∈ otherBuffers := by
  simp only [otherBuffers, List.mem_cons, List.not_mem_nil, or_false]
  omega

/-- The receive buffers. -/
theorem State.receiveConfigured_rxpbsize (hc : StandardConfig s.cfg) :
    s.receiveConfigured dev (s.cfg.off .rxpbsize 0) = s.inserted dev .rxpbSize s.cfg.init.rxpb0 0 ∧
    ∀ n, 0 < n → n < 8 → s.receiveConfigured dev (s.cfg.off .rxpbsize n) = s.inserted dev .rxpbSize 0 n := by
  have hrow := otherBuffers_indexOk (c := s.cfg) (r := .rxpbsize) rfl
  have after {i : Nat} (hi : DevReg.rxpbsize.indexOk s.cfg i = true) :
      s.receiveConfigured dev (s.cfg.off .rxpbsize i) = s.buffersSized dev (s.cfg.off .rxpbsize i) := by
    rw [State.receiveConfigured, update_other hc (by decide) rfl hi, update_other hc (by decide) rfl hi,
      update_other hc (by decide) rfl hi]
  refine ⟨?_, fun n hpos hn => ?_⟩
  · rw [after rfl, State.buffersSized, fillRow_of_not_mem hc rfl hrow rfl (by decide), Function.update_self]
  · rw [after (indexOk_of_lt rfl hn), State.buffersSized, fillRow_of_mem hc rfl hrow (mem_otherBuffers hpos hn)]

/-- Flow control thresholds, receive control and flow control. -/
theorem State.receiveConfigured_control (hc : StandardConfig s.cfg) :
    s.receiveConfigured dev (s.cfg.off .fcrth 0) = s.inserted dev .rth s.cfg.init.fcrth0 0 ∧
    s.receiveConfigured dev (s.cfg.off .rdrxctl 0) = s.receiveControl dev ∧
    s.receiveConfigured dev (s.cfg.off .mflcn 0) = s.regOf dev .mflcn 0 ||| s.cfg.mask .rfce := by
  refine ⟨?_, ?_, Function.update_self ..⟩
  · rw [State.receiveConfigured, update_other hc (by decide) rfl rfl, update_other hc (by decide) rfl rfl,
      Function.update_self]
  · rw [State.receiveConfigured, update_other hc (by decide) rfl rfl, Function.update_self]

/-- The transmit bracket and what is written inside it. -/
theorem State.transmitConfigured_control (hc : StandardConfig s.cfg) :
    s.transmitConfigured dev (s.cfg.off .rttdcs 0) =
      insertField (s.arbitrationPaused dev) (s.cfg.mask .arbDis) 0 ∧
    (∀ n, 0 < n → n < 8 → s.transmitConfigured dev (s.cfg.off .txpbsize n) = s.inserted dev .txpbSize 0 n) ∧
    s.transmitConfigured dev (s.cfg.off .txpbthresh 0) =
      s.inserted dev .txpbThresh s.cfg.init.txpbthresh0 0 ∧
    s.transmitConfigured dev (s.cfg.off .dtxmxszrq 0) =
      s.inserted dev .maxBytesNumReq s.cfg.init.maxBytesReq 0 := by
  refine ⟨Function.update_self .., fun n hpos hn => ?_, ?_, ?_⟩
  · have hok : DevReg.txpbsize.indexOk s.cfg n = true := indexOk_of_lt rfl hn
    rw [State.transmitConfigured, State.transmitSized, update_other hc (by decide) rfl hok,
      update_other hc (by decide) rfl hok, update_other hc (by decide) rfl hok,
      fillRow_of_mem hc rfl (otherBuffers_indexOk rfl) (mem_otherBuffers hpos hn)]
  · rw [State.transmitConfigured, State.transmitSized, update_other hc (by decide) rfl rfl,
      update_other hc (by decide) rfl rfl, Function.update_self]
  · rw [State.transmitConfigured, State.transmitSized, update_other hc (by decide) rfl rfl, Function.update_self]

/-! The registers that are not. -/

/-- DEV_INIT writes the register at this offset. -/
def InitWrites (c : Config) (off : Nat) : Prop :=
  (∃ r n, ((r = .pfuta ∧ n < c.init.nUnicast) ∨ (r = .pfvlvf ∧ n < c.init.nVlan) ∨
      (r = .pfvlvfb ∧ n < c.init.nVlanBmp) ∨ (r = .mta ∧ n < c.init.nMulticast) ∨ (r = .ftqf ∧ n < c.init.n5tuple) ∨
      (r = .rxpbsize ∧ n < 8) ∨ (r = .txpbsize ∧ 0 < n ∧ n < 8)) ∧ off = c.off r n) ∨
  off ∈ [c.off .eimc 0, c.off .fcrth 0, c.off .rdrxctl 0, c.off .mflcn 0, c.off .rttdcs 0, c.off .txpbthresh 0,
    c.off .dtxmxszrq 0]

theorem State.transmitConfigured_frame {off : Nat} (h : ¬ InitWrites s.cfg off) :
    s.transmitConfigured dev off = s.registers dev off := by
  obtain ⟨hrows, hsingle⟩ := not_or.1 h
  simp only [List.mem_cons, List.not_mem_nil, or_false, not_or] at hsingle
  obtain ⟨heimc, hfcrth, hrdrxctl, hmflcn, hrttdcs, htxpbthresh, hdtxmxszrq⟩ := hsingle
  have row (r : DevReg) (n : Nat) (hn : _) : off ≠ s.cfg.off r n := fun he => hrows ⟨r, n, hn, he⟩
  have table {r : DevReg} {n : Nat} (hr : ∀ i, i < n → off ≠ s.cfg.off r i) (g : Nat → W32) :
      zeroed s.cfg r n g off = g off := fillRow_of_ne fun i hi => hr i (List.mem_range.1 hi)
  have buffers {r : DevReg} {v : Nat → W32} (hr : ∀ i, 0 < i → i < 8 → off ≠ s.cfg.off r i) (g : Nat → W32) :
      fillRow s.cfg r v otherBuffers g off = g off :=
    fillRow_of_ne fun i hi => hr i (Nat.pos_of_ne_zero fun e => by subst e; revert hi; decide) (otherBuffers_lt i hi)
  rw [State.transmitConfigured, Function.update_of_ne hrttdcs, State.transmitSized, Function.update_of_ne hdtxmxszrq,
    Function.update_of_ne htxpbthresh, buffers fun i hpos hi => row _ i (by simp [hpos, hi]),
    Function.update_of_ne hrttdcs, State.receiveConfigured, Function.update_of_ne hmflcn,
    Function.update_of_ne hrdrxctl, Function.update_of_ne hfcrth, State.buffersSized,
    buffers fun i _ hi => row _ i (by simp [hi]), Function.update_of_ne (row _ 0 (by simp)), State.tablesZeroed,
    table fun i hi => row _ i (by simp [hi]), table fun i hi => row _ i (by simp [hi]),
    table fun i hi => row _ i (by simp [hi]), table fun i hi => row _ i (by simp [hi]),
    table fun i hi => row _ i (by simp [hi]), State.masked, Function.update_of_ne heimc]

end

/-- Settles O30: the four parts one after the other, each finding what those before it left. -/
theorem devInitCompletes : Obligations.DevInitCompletes := by
  intro s dev hq hc hs ha hread hpresent hready v m old
  have hm : (s.handle dev).mapped = true := Handle.mapped_iff.2 (by rw [ha.2]; decide)
  have h : Accessible (s.start (.devInit dev)) dev := ⟨hq, hc, hm, hs⟩
  obtain ⟨u, hrun, hu⟩ := initDevice_run h hread hpresent hready
  have hframe : OnlyNic s u (s.handle dev).bdf := hu.only.of_start
  generalize ht : (u.setHandle dev { u.handle dev with ls := .initialized }).respond resOk 0 0 = t
  have hhandle : t.handle dev = { s.handle dev with ls := .initialized } := by
    rw [← ht, ← hframe.handle]
    exact State.handle_setHandle_self ..
  have hbdf : (t.handle dev).bdf = (s.handle dev).bdf := by rw [hhandle]
  have after (r : DevReg) (i : Nat) : t.regOf dev r i = s.transmitConfigured dev (s.cfg.off r i) :=
    hu.regOf_after (ht ▸ rfl) (ht ▸ rfl) hbdf r i
  have early {r : DevReg} {i : Nat} (hr : r ∉ receiveRegs ++ transmitRegs) (hi : r.indexOk s.cfg i = true) :
      t.regOf dev r i = s.tablesZeroed dev (s.cfg.off r i) :=
    (after r i).trans (State.transmitConfigured_early hc hr hi)
  have receive {r : DevReg} {i : Nat} (hr : r ∉ transmitRegs) (hi : r.indexOk s.cfg i = true) :
      t.regOf dev r i = s.receiveConfigured dev (s.cfg.off r i) :=
    (after r i).trans (State.transmitConfigured_other hc hr hi)
  obtain ⟨hunicast, hvlan, hbitmap, hmulticast, htuple⟩ := Config.tables_fit hc.1
  have ok {r : DevReg} {n k i : Nat} (hr : r.indexCount s.cfg = some k) (hn : n ≤ k) (hi : i < n) :
      r.indexOk s.cfg i = true := indexOk_of_lt hr (Nat.lt_of_lt_of_le hi hn)
  obtain ⟨hfirst, hothers⟩ := State.receiveConfigured_rxpbsize (dev := dev) hc
  obtain ⟨hfcrth, hrdrxctl, hmflcn⟩ := State.receiveConfigured_control (dev := dev) hc
  obtain ⟨hrttdcs, htxpbsize, htxpbthresh, hdtxmxszrq⟩ := State.transmitConfigured_control (dev := dev) hc
  obtain ⟨hpfuta, hpfvlvf, hpfvlvfb, hmta, hftqf⟩ := State.tablesZeroed_table (dev := dev) hc
  refine ⟨t, ht ▸ exec_ok (v := noValues) ha (Micro.run_bind_ok hrun), ht ▸ ⟨rfl, rfl⟩,
    ht ▸ hframe.deviceFrame_setHandle dev _, hhandle, ht ▸ hu.made, ?_, ?_, ?_, ?_, ?_, ?_,
    (receive (by decide) rfl).trans hfirst, fun n hpos hn => ?_, (receive (by decide) rfl).trans hfcrth,
    (receive (by decide) rfl).trans hrdrxctl, (receive (by decide) rfl).trans hmflcn, (after _ _).trans hrttdcs,
    fun n hpos hn => (after _ _).trans (htxpbsize n hpos hn), (after _ _).trans htxpbthresh,
    (after _ _).trans hdtxmxszrq, fun off hoff => ?_⟩
  · rw [early (by decide) rfl, State.tablesZeroed_other hc (by decide) rfl]
    exact Function.update_self ..
  · exact fun n hn => (early (by decide) (ok rfl hunicast hn)).trans (hpfuta n hn)
  · exact fun n hn => (early (by decide) (ok rfl hvlan hn)).trans (hpfvlvf n hn)
  · exact fun n hn => (early (by decide) (ok rfl hbitmap hn)).trans (hpfvlvfb n hn)
  · exact fun n hn => (early (by decide) (ok rfl hmulticast hn)).trans (hmta n hn)
  · exact fun n hn => (early (by decide) (ok rfl htuple hn)).trans (hftqf n hn)
  · exact (receive (by decide) (indexOk_of_lt rfl hn)).trans (hothers n hpos hn)
  · exact (hu.reg_after (ht ▸ rfl) (ht ▸ rfl) off).trans (State.transmitConfigured_frame hoff)

end Sys2Proof.Machine
end

section
/-! SUPPORT. ENG_CONSTRUCT where an allocation fails (R262, R263, R265): the blocks given so far are freed, the newest
first; whatever the other agents do, a failure of the command is one of an allocation. -/

namespace Sys2Proof.Machine

/-! Blocks freed where no other agent moves (R353). -/

/-- Freeing the newest block frees no other. -/
theorem BlocksOk.filter_newest {b : Block} {l : List Block} (h : BlocksOk (b :: l)) :
    (b :: l).filter (fun x => x.base != b.base) = l := by
  have hother (x : Block) (hx : x ∈ l) : x.base ≠ b.base := by
    intro he
    obtain ⟨hpos, -⟩ := h.inside b List.mem_cons_self
    obtain ⟨happart, -⟩ := (List.pairwise_cons.1 h.disjoint).1 x hx
    obtain rfl := h.eq_of_base (List.mem_cons_of_mem _ hx) List.mem_cons_self he
    simp only [apart, overlap, Bool.and_eq_false_iff, decide_eq_false_iff_not] at happart
    omega
  rw [List.filter_cons_of_neg (by simp)]
  exact List.filter_eq_self.2 fun x hx => bne_iff_ne.2 (hother x hx)

theorem BlocksOk.tail {b : Block} {l : List Block} (h : BlocksOk (b :: l)) : BlocksOk l :=
  ⟨fun x hx => h.inside x (List.mem_cons_of_mem _ hx), (List.pairwise_cons.1 h.disjoint).2⟩

theorem free_quiet {s : State} (line : Nat) (a : W64) (hq : s.quiet) :
    free line a s =
      .ok () { s.accessed line (.free a) with blocks := s.blocks.filter fun b => b.base != a } := by
  simp only [free, State.boundary_eq_self hq]
  rfl

/-- After the blocks at `bases` were freed and the blocks `old` are left. -/
def State.freed (s : State) (bases : List W64) (old : List Block) (pc : Sequencer) (now micros : Nat) : State :=
  { s with
    pc := pc
    now := now
    micros := micros
    blocks := old
    trace := (bases.map Access.free).reverse ++ s.trace }

/-- The newest blocks `l` are freed one after the other. -/
theorem forEach_free {l old : List Block} {t : State} (hq : t.quiet) (hblocks : t.blocks = l ++ old)
    (hok : BlocksOk t.blocks) :
    ∃ pc now micros, forEach (l.map Block.base) (fun a => free 4 a) t =
      .ok () (t.freed (l.map Block.base) old pc now micros) := by
  induction l generalizing t with
  | nil => exact ⟨t.pc, t.now, t.micros, by rw [← show t.blocks = old from hblocks]; rfl⟩
  | cons b rest ih =>
    rw [hblocks] at hok
    have hfilter : t.blocks.filter (fun x => x.base != b.base) = rest ++ old := by
      rw [hblocks]
      exact hok.filter_newest
    obtain ⟨pc, now, micros, hrest⟩ :=
      ih (t := { t.accessed 4 (.free b.base) with blocks := rest ++ old }) hq rfl hok.tail
    refine ⟨pc, now, micros, ?_⟩
    rw [List.map_cons, forEach_cons, Micro.run_bind_ok (free_quiet 4 b.base hq), hfilter, hrest]
    simp only [State.freed, State.accessed, List.map_cons, List.reverse_cons, List.append_assoc, List.singleton_append]

/-! Allocations up to the one that fails. -/

/-- Blocks were given, with their sizes and in this order, each by one access; the allocator goes on to answer with the
blocks `ps` and then with `rest`. -/
structure Given (s : State) (got ps : List (Grant × Nat)) (rest : List (Option Grant)) (t : State) : Prop
    extends Granting s (got.map fun p => p.1.block p.2).reverse ps rest t where
  live : BlocksOk t.blocks
  made : madeBetween s t (got.map fun p => .alloc p.2 (some p.1.base))

theorem Given.quiet {s t : State} {got ps : List (Grant × Nat)} {rest : List (Option Grant)}
    (h : Given s got ps rest t) (hq : s.quiet) : t.quiet := h.environment.2.2.1.trans hq

/-- One more block is given. -/
theorem Given.alloc {s t : State} {got ps : List (Grant × Nat)} {g : Grant} {size : Nat} {rest : List (Option Grant)}
    {site : AllocSite} (h : Given s got ((g, size) :: ps) rest t) (hq : s.quiet) (hpos : 0 < size)
    (ha : g.aligned site = true) (line : Nat) (l : List W64) :
    ∃ t', allocOrUnwind line size site l t = .ok g.base t' ∧ Given s (got ++ [(g, size)]) ps rest t' := by
  have hok := h.ok _ List.mem_cons_self
  obtain ⟨t', hrun, hgranting⟩ := h.toGranting.alloc hq ha line l
  have hsame : allocOrUnwind line size site l t = .ok g.base _ :=
    Micro.run_bind_ok (alloc_granted (h.quiet hq) (by rw [h.grants]; rfl) ha hok)
  obtain rfl : t.allocated line g size _ = t' := by
    rw [hrun] at hsame
    cases hsame
    rfl
  refine ⟨_, hrun, ⟨?_, BlocksOk.add h.live hpos hok, ?_⟩⟩
  · rwa [List.map_append, List.reverse_append]
  · rw [List.map_append]
    exact h.made.trans rfl

/-- How ENG_CONSTRUCT ends where the allocation of `size` bytes after `got` fails: what it obtained is freed, in reverse
order. -/
structure Unwound (s : State) (got : List (Grant × Nat)) (size : Nat) (rest : List (Option Grant)) (u : State) :
    Prop where
  environment : SameEnvironment s u
  engine : SameEngine s u
  handles : u.handles = s.handles
  nics : u.nics = s.nics
  grants : u.grants = rest
  blocks : u.blocks = s.blocks
  memory : ∀ a, s.memExists a 1 = true → Memory.read u.mem a = Memory.read s.mem a
  made : madeBetween s u ((got.map fun p => Access.alloc p.2 (some p.1.base)) ++ [.alloc size none] ++
    (got.reverse.map fun p => .free p.1.base))

/-- No byte of a block that is live before is one of a block given since (R352). -/
theorem Given.read_live {s t : State} {got ps : List (Grant × Nat)} {rest : List (Option Grant)}
    (h : Given s got ps rest t) {a : Nat} (ha : s.memExists a 1 = true) :
    Memory.read t.mem a = Memory.read s.mem a := by
  obtain ⟨old, hold, hin⟩ := State.memExists_iff.1 ha
  have hlive := h.live
  rw [h.blocks] at hlive
  have hnone : ((got.map fun p => p.1.block p.2).reverse.any fun b => b.holds a 1) = false := by
    refine List.any_eq_false.2 fun b hb hholds => ?_
    obtain ⟨happart, -⟩ := (List.pairwise_append.1 hlive.disjoint).2.2 b hb old hold
    have hb := (hlive.inside b (List.mem_append_left _ hb)).1
    have ho := (hlive.inside old (List.mem_append_right _ hold)).1
    simp only [Block.holds, Bool.and_eq_true, decide_eq_true_eq] at hin hholds
    simp only [apart, overlap, Bool.and_eq_false_iff, decide_eq_false_iff_not] at happart
    omega
  rw [h.memory a, hnone]
  rfl

/-- The allocator has no block to give: its next answer is a failure, or it has no answer left (log 13). -/
def NoBlock (answers : List (Option Grant)) : Prop := answers = [] ∨ ∃ rest, answers = none :: rest

/-- After an allocation that gave no block, in which no other agent moves. -/
def State.denied (s : State) (line size : Nat) : State :=
  { s.accessed line (.alloc size none) with grants := s.grants.tail }

theorem alloc_noBlock {t : State} (line size : Nat) (site : AllocSite) (hq : t.quiet) (hnone : NoBlock t.grants) :
    alloc line size site t = .ok none (t.denied line size) := by
  simp only [alloc, State.denied, State.boundary_eq_self hq]
  obtain hg | ⟨rest, hg⟩ := hnone
  · rw [hg]
    simp only [State.log, State.accessed, hg, List.tail_nil]
  · rw [hg]
    rfl

/-- The allocation that fails, and what it unwinds. -/
theorem Given.unwinds {s t : State} {got : List (Grant × Nat)} {rest : List (Option Grant)}
    (h : Given s got [] rest t) (hq : s.quiet) (hnone : NoBlock rest) (line size : Nat) (site : AllocSite) :
    ∃ u, allocOrUnwind line size site (got.map fun p => p.1.base) t = .error (.raise (.allocFail site)) u ∧
      Unwound s got size rest.tail u := by
  have hgrants : t.grants = rest := h.grants
  have hbases : (got.map fun p => p.1.base).reverse = (got.map fun p => p.1.block p.2).reverse.map Block.base := by
    rw [List.map_reverse, List.map_map]
    rfl
  obtain ⟨pc, now, micros, hfree⟩ :=
    
    
    forEach_free (t := t.denied line size) (old := s.blocks) (h.quiet hq) h.blocks h.live
  rw [← hbases] at hfree
  refine ⟨_, (Micro.run_bind_ok (alloc_noBlock line size site (h.quiet hq) (by rwa [hgrants]))).trans
    (Micro.run_bind_ok hfree), h.environment, h.engine, h.handles, h.nics, congrArg List.tail hgrants, rfl,
    fun a ha => h.read_live ha, ?_⟩
  have hdenied : madeBetween t (t.denied line size) [.alloc size none] := rfl
  refine (h.made.trans hdenied).trans ?_
  simp only [madeBetween, State.freed, List.map_reverse, List.reverse_reverse, List.map_map]
  rfl

/-- From a state in which `got` was obtained, the first of the allocations of `sizes` still to be made that fails is
unwound; the first `rings` of them are of rings. -/
def Unwinds {α : Type} (s : State) (rest : List (Option Grant)) (got : List (Grant × Nat)) (rings : Nat)
    (sizes : List Nat) (m : Micro α) : Prop :=
  ∀ (gs : List Grant) (t : State), Given s got (gs.zip sizes) rest t →
    (∀ g ∈ gs.take rings, g.base.toNat % ringAlign = 0 ∧ g.phys.toNat % ringAlign = 0) → gs.length < sizes.length →
    ∃ site u, m t = .error (.raise (.allocFail site)) u ∧
      Unwound s (got ++ gs.zip sizes) (sizes.getD gs.length 0) rest.tail u

section
variable {α : Type} {s : State} {rest : List (Option Grant)} {got : List (Grant × Nat)} {rings size : Nat}
  {sizes : List Nat}

theorem Unwinds.nil (m : Micro α) : Unwinds s rest got rings [] m := fun _ _ _ _ hlt => absurd hlt (Nat.not_lt_zero _)

/-- One allocation, which fails or is followed by the others. -/
theorem Unwinds.alloc {line : Nat} {site : AllocSite} {k : W64 → Micro α} (hq : s.quiet) (hnone : NoBlock rest)
    (hpos : 0 < size)
    (hsite : ∀ g : Grant, (0 < rings → g.base.toNat % ringAlign = 0 ∧ g.phys.toNat % ringAlign = 0) →
      g.aligned site = true)
    (hk : ∀ g, Unwinds s rest (got ++ [(g, size)]) (rings - 1) sizes (k g.base)) :
    Unwinds s rest got rings (size :: sizes) (allocOrUnwind line size site (got.map fun p => p.1.base) >>= k) := by
  intro gs t ht haligned hlt
  cases gs with
  | nil =>
    obtain ⟨u, hrun, hu⟩ := Given.unwinds ht hq hnone line size site
    exact ⟨site, u, Micro.run_bind_error hrun, by rwa [List.zip_nil_left, List.append_nil]⟩
  | cons g gs =>
    have hg : g.aligned site = true := hsite g fun hrings => haligned g (by
      rw [List.take_cons hrings]
      exact List.mem_cons_self)
    obtain ⟨t', hrun, ht'⟩ := Given.alloc ht hq hpos hg line (got.map fun p => p.1.base)
    obtain ⟨site', u, hrest, hu⟩ := hk g gs t' ht' (fun x hx => haligned x (by
      cases rings with
      | zero => simp at hx
      | succ n => exact List.mem_cons_of_mem _ hx)) (Nat.lt_of_succ_lt_succ hlt)
    refine ⟨site', u, (Micro.run_bind_ok hrun).trans hrest, ?_⟩
    rw [List.append_assoc] at hu
    exact hu

theorem Unwinds.allocRing {n : Nat} {k : W64 → Micro α} (hq : s.quiet) (hc : s.cfg.legal = true) (hnone : NoBlock rest)
    (hk : ∀ g, Unwinds s rest (got ++ [(g, ringBytes s.cfg)]) rings sizes (k g.base)) :
    Unwinds s rest got (rings + 1) (ringBytes s.cfg :: sizes)
      (allocRing n (got.map fun p => p.1.base) >>= k) := by
  have hpos : 0 < ringBytes s.cfg := Nat.mul_pos (Config.ringSize_bounds hc).1 (by decide)
  intro gs t ht
  have hsame : (Machine.allocRing n (got.map fun p => p.1.base) >>= k) t =
      (allocOrUnwind 1 (ringBytes s.cfg) (.ring n) (got.map fun p => p.1.base) >>= k) t := by
    rw [Micro.run_bind, Micro.run_bind, Machine.allocRing, Micro.look_bind, ht.environment.1]
  rw [hsame]
  exact Unwinds.alloc hq hnone hpos (fun g hg => Grant.aligned_ring.2 (hg (Nat.succ_pos _))) hk gs t ht

end

theorem constructEngine_unwinds {s : State} {rest : List (Option Grant)} (hq : s.quiet) (hc : s.cfg.legal = true)
    (hnone : NoBlock rest) : Unwinds s rest [] 4 (blockSizes s.cfg) constructEngine := by
  obtain ⟨hring, -⟩ := Config.ringSize_bounds hc
  obtain ⟨hbuf, hstride⟩ := Config.sizes_pos hc
  have hpool : 0 < s.cfg.ringSize * s.cfg.bufSize := Nat.mul_pos hring hbuf
  have hheads : 0 < outputsMax * s.cfg.headStride := Nat.mul_pos (by decide) hstride
  intro gs t ht
  rw [constructEngine, Micro.look_bind, ht.environment.1]
  exact Unwinds.allocRing hq hc hnone (fun g0 => .allocRing hq hc hnone fun g1 => .allocRing hq hc hnone fun g2 =>
    .allocRing hq hc hnone fun g3 => .alloc hq hnone hpool (fun _ _ => rfl) fun g4 =>
    .alloc hq hnone hheads (fun _ _ => rfl) fun g5 => .nil _) gs t ht

/-- A command that raises ends in the state in which it does, but for the response. -/
theorem exec_raise {i : Instr} {s t : State} {f : Failure} (h : accepts i s)
    (hb : body i (s.start i) = .error (.raise f) t) : exec i s = .next (t.takeFailure f) := by
  rw [exec_eq]
  exact runCommand_raise ((ready_iff i s).2 h) hb

theorem sameNics_of_nics {s t : State} (h : t.nics = s.nics) : SameNics s t := fun b => by
  rw [State.nic, State.nic, h]

/-- Settles O36: the allocations in order, up to the one that fails and unwinds the others. -/
theorem constructUnwinds : Obligations.ConstructUnwinds := by
  intro s gs rest hinv hq ha hlt hgrants hok
  obtain ⟨hin, happart, haligned⟩ := hok
  obtain ⟨answers, hanswers, hnone, rfl⟩ : ∃ answers, s.grants = gs.map some ++ answers ∧ NoBlock answers ∧
      answers.tail = rest := by
    obtain hg | ⟨hg, rfl⟩ := hgrants
    · exact ⟨none :: rest, hg, .inr ⟨rest, rfl⟩, rfl⟩
    · exact ⟨[], by rw [hg, List.append_nil], .inl rfl, rfl⟩
  have hfst : (gs.zip (blockSizes s.cfg)).map Prod.fst = gs := List.map_fst_zip (Nat.le_of_lt hlt)
  have hzip : (gs.zip (blockSizes s.cfg)).map (fun p => some p.1) = gs.map some := by
    rw [← congrArg (List.map some) hfst, List.map_map]
    rfl
  have start : Given (s.start .engConstruct) [] (gs.zip (blockSizes s.cfg)) answers (s.start .engConstruct) :=
    ⟨⟨⟨rfl, rfl, rfl, rfl⟩, ⟨rfl, rfl⟩, rfl, rfl, rfl, by rw [hzip]; exact hanswers, rfl, fun _ => rfl, hin, happart⟩,
      ⟨hinv.blocks, hinv.blocksApart⟩, rfl⟩
  obtain ⟨site, u, hrun, hu⟩ := constructEngine_unwinds (s := s.start .engConstruct) hq hinv.legal hnone gs _ start
    haligned hlt
  refine ⟨_, exec_raise ha (Micro.run_bind_error hrun), ⟨rfl, rfl⟩, hu.engine, hu.blocks, hu.grants, hu.memory,
    hu.environment, handle_of_handles hu.handles, sameNics_of_nics hu.nics, ?_⟩
  · have hfreed : ((gs.zip (blockSizes s.cfg)).reverse.map fun p => Access.free p.1.base) =
        gs.reverse.map fun g => .free g.base := by
      rw [List.map_reverse, List.map_reverse, ← congrArg (List.map _) hfst, List.map_map]
      rfl
    rw [← hfreed]
    exact hu.made

end Sys2Proof.Machine
end

section
/-! SUPPORT. ENG_CONSTRUCT whatever the other agents do (R265): the allocations that were made and answered tell how it
ends. -/

namespace Sys2Proof.Machine

/-- Since `s` accesses were made, for which `p` holds. -/
def MadeSuch (s : State) (p : List Access → Prop) (t : State) : Prop := ∃ l, madeBetween s t l ∧ p l

/-- No allocation was denied. -/
def NoneDenied (l : List Access) : Prop := ∀ n, Access.alloc n none ∉ l

/-- An allocation was denied. -/
def OneDenied (l : List Access) : Prop := ∃ n, Access.alloc n none ∈ l

/-- One more access. -/
theorem MadeSuch.push {s t u : State} {p p' : List Access → Prop} (h : MadeSuch s p t) (a : Access)
    (hu : u.trace = a :: t.trace) (hp : ∀ l, p l → p' (l ++ [a])) : MadeSuch s p' u := by
  obtain ⟨l, hl, hpl⟩ := h
  exact ⟨l ++ [a], hl.trans hu, hp l hpl⟩

theorem NoneDenied.append_granted {l : List Access} (h : NoneDenied l) (n : Nat) (a : W64) :
    NoneDenied (l ++ [.alloc n (some a)]) := by
  intro k hk
  rcases List.mem_append.1 hk with hk | hk
  · exact h k hk
  · cases List.mem_singleton.1 hk

theorem oneDenied_append (l : List Access) (n : Nat) : OneDenied (l ++ [.alloc n none]) :=
  ⟨n, List.mem_append_right _ (List.mem_singleton.2 rfl)⟩

theorem OneDenied.append {l : List Access} (h : OneDenied l) (a : Access) : OneDenied (l ++ [a]) :=
  h.imp fun _ hn => List.mem_append_left _ hn

/-- The accesses made are what they are. -/
theorem madeBetween.unique {s t : State} {l l' : List Access} (h : madeBetween s t l) (h' : madeBetween s t l') :
    l = l' := List.reverse_injective (List.append_cancel_right (h.symm.trans h'))

section
variable {s : State} {F : Fault → Prop}

/-- An allocation is answered with a block, or denied. -/
theorem alloc_answers (line size : Nat) (site : AllocSite) {E : Failure → State → Prop} :
    Triple (MadeSuch s NoneDenied) (alloc line size site)
      (fun r => MadeSuch s (if r.isSome then NoneDenied else OneDenied)) E fun _ => True := by
  intro t ht
  have denied {u : State} (hu : u.trace = .alloc size none :: t.trace) : MadeSuch s OneDenied u :=
    ht.push _ hu fun l _ => oneDenied_append l size
  rcases hg : (t.boundary line).grants with _ | ⟨_ | g, rest⟩ <;> simp only [alloc, hg]
  · exact denied (by rw [State.log_trace, State.boundary_trace])
  · exact denied (by rw [State.log_trace, State.boundary_trace])
  · by_cases ha : g.aligned site = false
    · simp only [ha, if_true]
    · by_cases hok : (t.boundary line).grantOk g size = true
      · simp only [ha, hok, if_true]
        exact ht.push (.alloc size (some g.base)) (by simp) fun l hl => hl.append_granted size g.base
      · simp [ha, hok]

theorem unwind_answers (got : List W64) {E : Failure → State → Prop} :
    Triple (MadeSuch s OneDenied) (unwind got) (fun _ => MadeSuch s OneDenied) E F :=
  .forEach fun a _ _ ht => ht.push (.free a) (by simp) fun _ hl => hl.append _

/-- An allocation of ENG_CONSTRUCT raises where it was denied, and only then. -/
theorem allocOrUnwind_answers (line size : Nat) (site : AllocSite) (got : List W64) :
    Triple (MadeSuch s NoneDenied) (allocOrUnwind line size site got) (fun _ => MadeSuch s NoneDenied)
      (fun _ => MadeSuch s OneDenied) fun _ => True := by
  refine .bind (alloc_answers line size site) fun r => ?_
  cases r with
  | none => exact .bind (unwind_answers got) fun _ => .raise fun _ h => h
  | some a => exact .pure fun _ h => h

theorem allocRing_answers (n : Nat) (got : List W64) :
    Triple (MadeSuch s NoneDenied) (allocRing n got) (fun _ => MadeSuch s NoneDenied)
      (fun _ => MadeSuch s OneDenied) fun _ => True :=
  .bind (.look (Q := fun _ => MadeSuch s NoneDenied) fun _ h => h) fun _ => allocOrUnwind_answers _ _ _ _

theorem constructEngine_answers :
    Triple (MadeSuch s NoneDenied) constructEngine (fun _ t => MadeSuch s NoneDenied t ∧ t.es = .constructed)
      (fun _ => MadeSuch s OneDenied) fun _ => True :=
  .bind (.look (Q := fun _ => MadeSuch s NoneDenied) fun _ h => h) fun _ => .bind (allocRing_answers _ _) fun _ =>
    .bind (allocRing_answers _ _) fun _ => .bind (allocRing_answers _ _) fun _ => .bind (allocRing_answers _ _) fun _ =>
    .bind (allocOrUnwind_answers _ _ _ _) fun _ => .bind (allocOrUnwind_answers _ _ _ _) fun _ =>
    .change fun _ h => ⟨h, rfl⟩

end

/-- No failure has the result code of success (R371). -/
theorem Failure.res_ne_zero (f : Failure) : f.res ≠ 0 := by cases f <;> simp [Failure.res]

/-- Settles O37: construction returns where no allocation was denied, and raises where one was. -/
theorem constructIffAllocated : Obligations.ConstructIffAllocated := by
  intro s t l _ ha hexec hl
  have start : MadeSuch s NoneDenied (s.start .engConstruct) := ⟨[], rfl, fun _ => List.not_mem_nil⟩
  have steps : Triple (MadeSuch s NoneDenied) (body .engConstruct)
      (fun v t => v = noValues ∧ MadeSuch s NoneDenied t ∧ t.es = .constructed) (fun _ => MadeSuch s OneDenied)
      fun _ => True :=
    .bind constructEngine_answers fun _ => .pure fun _ h => ⟨rfl, h⟩
  rcases exec_of_triple (i := .engConstruct) steps start hexec with
    ⟨hna, -⟩ | ⟨-, ⟨_, u, ⟨rfl, ⟨l', hl', hnone⟩, hes⟩, rfl⟩ | ⟨f, u, ⟨l', hl', n, hn⟩, rfl⟩⟩
  · exact (hna ha).elim
  · obtain rfl := madeBetween.unique hl hl'
    exact ⟨fun _ => hnone, fun _ => ⟨⟨rfl, rfl⟩, hes⟩⟩
  · obtain rfl := madeBetween.unique hl hl'
    refine ⟨fun ⟨⟨hresp, _⟩, _⟩ => ?_, fun h => (h n hn).elim⟩
    rw [State.takeFailure_resp, Option.some.injEq, Response.mk.injEq] at hresp
    exact absurd hresp.1 f.res_ne_zero

end Sys2Proof.Machine
end

section
/-! SUPPORT. Register operations and the transmit tail (R295): what holds across a read, a write and a sleep holds
across every operation built on them; BIND_OUTPUT writes other registers alone. -/

namespace Sys2Proof.Machine

/-! Operations on the registers of a device. -/

/-- The relation `R` holds across each primitive operation on the registers of a device; across a write where `ok`
admits the register and its index. -/
structure RegisterOps (dev : BitVec 8) (ok : DevReg → Nat → Prop) (R : State → State → Prop) : Prop where
  chains : Chains R
  sleepUs : ∀ line n, Leads R (sleepUs line n)
  regRead : ∀ line r i, Leads R (regRead line dev r i)
  regWrite : ∀ line r i v, ok r i → Leads R (regWrite line dev r i v)

section
variable {dev : BitVec 8} {ok : DevReg → Nat → Prop} {R : State → State → Prop} {f : DevField} {i : Nat}

theorem RegisterOps.regReadField (h : RegisterOps dev ok R) (line : Nat) : Leads R (regReadField line dev f i) :=
  .bind h.chains (h.regRead _ _ _) fun _ => .bind h.chains (.look h.chains _) fun _ => .pure h.chains _

theorem RegisterOps.regIsCleared (h : RegisterOps dev ok R) (line : Nat) : Leads R (regIsCleared line dev f i) :=
  .bind h.chains (h.regReadField line) fun _ => .pure h.chains _

theorem RegisterOps.regWriteField (h : RegisterOps dev ok R) (line : Nat) (v : W32) (hok : ok f.reg i) :
    Leads R (regWriteField line dev f i v) :=
  .bind h.chains (h.regRead _ _ _) fun _ => .bind h.chains (.look h.chains _) fun _ => h.regWrite _ _ _ _ hok

theorem RegisterOps.regSet (h : RegisterOps dev ok R) (line : Nat) (hok : ok f.reg i) :
    Leads R (regSet line dev f i) :=
  .bind h.chains (.look h.chains _) fun _ => h.regWriteField line _ hok

theorem RegisterOps.poll (h : RegisterOps dev ok R) (line : Nat) (w : Bool) : Leads R (poll line dev f i w) := by
  have loop (gap n : Nat) : Leads R (pollLoop line dev f i w gap n) := by
    induction n with
    | zero => exact .pure h.chains _
    | succ n ih =>
      exact .bind h.chains (h.regIsCleared line) fun _ =>
        .ite (.pure h.chains _) (.bind h.chains (h.sleepUs _ _) fun _ => ih)
  exact .bind h.chains (.look h.chains _) fun _ => loop _ _

/-- A check that raises, and what is done where it passes. -/
theorem Leads.checked {α β : Type} (hR : Chains R) {p : Prop} [Decidable p] {e : Failure} {k : α → Micro β}
    {k' : Micro β} (hk : Leads R k') : Leads R (if p then Machine.raise e >>= k else k') :=
  .ite (fun s => by rw [Micro.raise_bind]; exact hR.refl s) hk

end

/-! Registers other than the transmit tail. -/

/-- Two registers of a device have two addresses. -/
theorem State.regAddr_ne {s : State} {dev : BitVec 8} {r r' : DevReg} {i j : Nat} (hc : StandardConfig s.cfg)
    (hne : r ≠ r') (hi : r.indexOk s.cfg i = true) (hj : r'.indexOk s.cfg j = true) :
    s.regAddr dev r i ≠ s.regAddr dev r' j := by
  have inside {r : DevReg} {i : Nat} (hi : r.indexOk s.cfg i = true) : s.cfg.off r i < 2 ^ 64 := by
    have hoff := regOffOk_off hc.1 r hi
    simp only [regOffOk, Bool.and_eq_true, decide_eq_true_eq] at hoff
    exact Nat.lt_trans hoff.2 (by decide)
  intro he
  have hoff := congrArg BitVec.toNat ((BitVec.add_right_inj _).1 he)
  rw [BitVec.toNat_ofNat, BitVec.toNat_ofNat, Nat.mod_eq_of_lt (inside hi), Nat.mod_eq_of_lt (inside hj)] at hoff
  exact Config.off_ne hc hne hi hj hoff

/-- Since `s` the transmit tail register of queue `q` was not written. -/
def NoTailWrite (dev : BitVec 8) (q : Nat) (s t : State) : Prop :=
  ∀ l, madeBetween s t l → ∀ v, Access.mmioWrite (s.regAddr dev .tdt q) v ∉ l

/-- Accesses alone, and none of them a write of the transmit tail register of queue `q`. -/
def SparesTail (dev : BitVec 8) (q : Nat) (s t : State) : Prop :=
  Calm s t ∧ (StandardConfig s.cfg → q < s.cfg.txQueueCount → NoTailWrite dev q s t)

section
variable {dev : BitVec 8} {q : Nat} {s t : State}

theorem Calm.madeBetween (h : Calm s t) : ∃ l, madeBetween s t l := by
  obtain ⟨l, hl⟩ := h.keeps.trace
  exact ⟨l.reverse, by rw [Machine.madeBetween, List.reverse_reverse, hl]⟩

theorem Calm.regAddr (h : Calm s t) (dev : BitVec 8) (r : DevReg) (i : Nat) :
    t.regAddr dev r i = s.regAddr dev r i := by
  rw [State.regAddr, State.regAddr, h.handle, h.keeps.cfg]

theorem NoTailWrite.of_trace (h : t.trace = s.trace) : NoTailWrite dev q s t := fun l hl _ hv => by
  obtain rfl := madeBetween.unique hl (show madeBetween s t [] from h)
  cases hv

theorem SparesTail.chains (dev : BitVec 8) (q : Nat) : Chains (SparesTail dev q) where
  refl s := ⟨Calm.chains.refl s, fun _ _ => .of_trace rfl⟩
  trans := by
    rintro s t u ⟨hcalm, h⟩ ⟨kcalm, k⟩
    refine ⟨Calm.chains.trans hcalm kcalm, fun hc hq l hl v hv => ?_⟩
    obtain ⟨l₁, hl₁⟩ := hcalm.madeBetween
    obtain ⟨l₂, hl₂⟩ := kcalm.madeBetween
    obtain rfl := madeBetween.unique hl (hl₁.trans hl₂)
    rcases List.mem_append.1 hv with hv | hv
    · exact h hc hq l₁ hl₁ v hv
    · rw [← hcalm.keeps.cfg] at hc hq
      rw [← hcalm.regAddr] at hv
      exact k hc hq l₂ hl₂ v hv

/-- At most one access, which is not such a write. -/
theorem SparesTail.one (h : Calm s t) (ht : t.trace = s.trace ∨ ∃ a, t.trace = a :: s.trace ∧
      (StandardConfig s.cfg → q < s.cfg.txQueueCount → ∀ v, a ≠ .mmioWrite (s.regAddr dev .tdt q) v)) :
    SparesTail dev q s t := by
  refine ⟨h, fun hc hq l hl v hv => ?_⟩
  rcases ht with ht | ⟨a, ht, ha⟩
  · exact NoTailWrite.of_trace ht l hl v hv
  · obtain rfl := madeBetween.unique hl (show Machine.madeBetween s t [a] from ht)
    exact ha hc hq v (List.mem_singleton.1 hv).symm

theorem SparesTail.regRead (line : Nat) (r : DevReg) (i : Nat) : Leads (SparesTail dev q) (regRead line dev r i) := by
  intro s
  have hcalm := Accesses.regRead line dev r i s
  rw [regRead_eq] at hcalm ⊢
  refine .one hcalm ?_
  simp only [mmioRead32]
  split
  · exact .inr ⟨_, congrArg _ ((State.drainNic_trace _ _).trans (s.boundary_trace line)), fun _ _ _ => nofun⟩
  · exact .inl (s.boundary_trace line)

theorem SparesTail.regWrite (line : Nat) {r : DevReg} {i : Nat} (v : W32) (hr : r ≠ .tdt)
    (hi : ∀ c : Config, q < c.txQueueCount → r.indexOk c i = true) :
    Leads (SparesTail dev q) (regWrite line dev r i v) := by
  intro s
  have hcalm := Accesses.regWrite line dev r i v s
  rw [regWrite_eq] at hcalm ⊢
  refine .one hcalm ?_
  simp only [mmioWrite32]
  split
  · refine .inr ⟨_, congrArg _ (s.boundary_trace line), fun hc hq v' he => ?_⟩
    rw [State.boundary_handle] at he
    exact State.regAddr_ne hc hr (hi _ hq) (indexOk_of_lt rfl hq) (Access.mmioWrite.inj he).1
  · exact .inl (s.boundary_trace line)

/-- BIND_OUTPUT writes registers that are not the tail, with an index in range (R285 to R292). -/
def OtherRegister (q : Nat) (r : DevReg) (i : Nat) : Prop :=
  r ≠ .tdt ∧ ∀ c : Config, q < c.txQueueCount → r.indexOk c i = true

theorem SparesTail.registerOps (dev : BitVec 8) (q : Nat) : RegisterOps dev (OtherRegister q) (SparesTail dev q) where
  chains := SparesTail.chains dev q
  sleepUs line n := fun s => .one (Accesses.sleepUs line n s)
    (.inr ⟨.sleep n, congrArg _ (s.boundary_trace line), fun _ _ _ => nofun⟩)
  regRead line r i := .regRead line r i
  regWrite line _ _ v h := .regWrite line v h.1 h.2

theorem SparesTail.v2pOrRaise (line : Nat) (a : W64) (site : AllocSite) :
    Leads (SparesTail dev q) (v2pOrRaise line a site) := by
  have htranslate : Leads (SparesTail dev q) (v2p line a) := fun s =>
    .one (Accesses.v2p line a s) (.inr ⟨_, congrArg _ (s.boundary_trace line), fun _ _ _ => nofun⟩)
  refine .bind (SparesTail.chains dev q) htranslate fun r => ?_
  cases r with
  | none => exact .raise (SparesTail.chains dev q) _
  | some p => exact .pure (SparesTail.chains dev q) p

theorem SparesTail.fillSlot (n : Fin 4) (i : Nat) : Leads (SparesTail dev q) (fillSlot n i) := by
  have hstore (line : Nat) (rel : Bool) (a : W64) (v : W64) : Leads (SparesTail dev q) (memWrite line rel a 8 v) := by
    intro s
    refine .one (Accesses.memWrite line rel a 8 v s) ?_
    simp only [memWrite]
    split
    · exact .inr ⟨_, congrArg _ (s.boundary_trace line), fun _ _ _ => nofun⟩
    · exact .inl (s.boundary_trace line)
  have hload (line : Nat) (acq : Bool) (a : W64) : Leads (SparesTail dev q) (memRead line acq a 1) := by
    intro s
    refine .one (Accesses.memRead line acq a 1 s) ?_
    simp only [memRead]
    split
    · exact .inr ⟨_, congrArg _ (s.boundary_trace line), fun _ _ _ => nofun⟩
    · exact .inl (s.boundary_trace line)
  have hR := SparesTail.chains dev q
  exact .bind hR (.look hR _) fun _ => .bind hR (.v2pOrRaise _ _ _) fun _ => .bind hR (hstore _ _ _ _) fun _ =>
    .bind hR (hload _ _ _) fun _ => .pure hR _

/-- A register that has an index for each transmit queue, or none. -/
theorem otherRegister_queue {r : DevReg} (hr : r ≠ .tdt) (hi : ∀ c : Config, r.indexCount c = some c.txQueueCount) :
    OtherRegister q r q := ⟨hr, fun c hq => indexOk_of_lt (hi c) hq⟩

theorem SparesTail.programOutput (n : Fin 4) : Leads (SparesTail dev q) (programOutput dev n q) := by
  have h := SparesTail.registerOps dev q
  have ok {r : DevReg} (hr : r ≠ .tdt) (hi : ∀ c : Config, r.indexCount c = some c.txQueueCount) :
    OtherRegister q r q := otherRegister_queue hr hi
  exact .bind h.chains (.look h.chains _) fun _ => .bind h.chains (.v2pOrRaise _ _ _) fun _ =>
    .bind h.chains (h.regWrite _ _ _ _ (ok nofun fun _ => rfl)) fun _ =>
    .bind h.chains (h.regWrite _ _ _ _ (ok nofun fun _ => rfl)) fun _ =>
    .bind h.chains (h.regWrite _ _ _ _ (ok nofun fun _ => rfl)) fun _ =>
    .bind h.chains (h.regWriteField _ _ (ok nofun fun _ => rfl)) fun _ =>
    h.regWriteField _ _ (ok nofun fun _ => rfl)

theorem SparesTail.programWriteBack (n : Fin 4) : Leads (SparesTail dev q) (programWriteBack dev n q) := by
  have h := SparesTail.registerOps dev q
  have ok {r : DevReg} (hr : r ≠ .tdt) (hi : ∀ c : Config, r.indexCount c = some c.txQueueCount) :
    OtherRegister q r q := otherRegister_queue hr hi
  exact .bind h.chains (.look h.chains _) fun _ => .bind h.chains (.v2pOrRaise _ _ _) fun _ =>
    .checked h.chains (.bind h.chains (h.regWrite _ _ _ _ (ok nofun fun _ => rfl)) fun _ =>
    .bind h.chains (h.regWrite _ _ _ _ (ok nofun fun _ => rfl)) fun _ =>
    h.regWriteField _ _ (ok nofun fun _ => rfl))

theorem SparesTail.startOutput : Leads (SparesTail dev q) (startOutput dev q) := by
  have h := SparesTail.registerOps dev q
  exact .bind h.chains (h.regSet _ ⟨nofun, fun _ _ => rfl⟩) fun _ =>
    .bind h.chains (h.regSet _ (otherRegister_queue nofun fun _ => rfl)) fun _ =>
    .bind h.chains (h.poll _ _) fun _ => .ite (.raise h.chains _) (.pure h.chains _)

/-- Everything BIND_OUTPUT does before it records the output. -/
theorem bindOutputAs_sparesTail (n : Fin 4) :
    Triple (SparesTail dev q s) (bindOutputAs dev q n)
      (fun _ t => StandardConfig s.cfg → q < s.cfg.txQueueCount → NoTailWrite dev q s t) (fun _ => SparesTail dev q s)
      fun _ => True := by
  have hR := SparesTail.chains dev q
  have h := SparesTail.registerOps dev q
  refine .bind (Q := fun _ => SparesTail dev q s) ((Leads.look hR _).triple hR s) fun c =>
    .unless (fun _ h => h) fun _ => ?_
  refine .bind ((h.regIsCleared _).triple hR s) fun _ => .unless (fun _ h => h) fun _ => ?_
  refine .bind ((Leads.forEach hR (fun _ => .fillSlot n _) _).triple hR s) fun _ =>
    .bind ((SparesTail.programOutput n).triple hR s) fun _ =>
    .bind ((SparesTail.programWriteBack n).triple hR s) fun _ =>
    .bind (SparesTail.startOutput.triple hR s) fun _ => .change fun _ hu => hu.2

end

/-! BIND_OUTPUT that touches nothing (R281, R282). -/

/-- With no output left or the queue out of range BIND_OUTPUT makes no access. -/
theorem bindOutput_refused {s : State} {dev queue : BitVec 8} (ha : accepts (.bindOutput dev queue) s)
    (h : outputsMax ≤ s.eng.oc.toNat ∨ s.cfg.txQueueCount ≤ queue.toNat) :
    exec (.bindOutput dev queue) s = .next s.refusedWith4 := by
  obtain ⟨f, hres, hrun⟩ : ∃ f : Failure, f.res = 4 ∧ bindOutput dev queue (s.start (.bindOutput dev queue)) =
      .error (.raise f) (s.start (.bindOutput dev queue)) := by
    rw [bindOutput, Micro.look_bind]
    by_cases hoc : s.eng.oc.toNat < 4
    · have hq : s.cfg.txQueueCount ≤ queue.toNat := h.resolve_left (Nat.not_le.2 hoc)
      refine ⟨.preconditionFail .queueIndex, rfl, ?_⟩
      rw [dif_pos (show (s.start (.bindOutput dev queue)).eng.oc.toNat < 4 from hoc), bindOutputAs, Micro.look_bind]
      rw [if_pos (show (s.start (.bindOutput dev queue)).cfg.txQueueCount ≤ queue.toNat from hq), Micro.raise_bind]
    · refine ⟨.preconditionFail .outputsFull, rfl, ?_⟩
      rw [dif_neg (show ¬ (s.start (.bindOutput dev queue)).eng.oc.toNat < 4 from hoc)]
      rfl
  rw [exec_raise ha (Micro.run_bind_error hrun), State.takeFailure, hres]
  rfl

/-- Settles O43: no operation of BIND_OUTPUT is such a write, and with the queue out of range there is none at all. -/
theorem bindOutputMakesNoTailWrite : Obligations.BindOutputMakesNoTailWrite := by
  intro s t dev queue l hc hexec hl
  suffices h : NoTailWrite dev queue.toNat s t from h l hl
  by_cases ha : accepts (.bindOutput dev queue) s
  · by_cases hq : queue.toNat < s.cfg.txQueueCount
    · have hspares := fun u (hu : SparesTail dev queue.toNat (s.start (.bindOutput dev queue)) u) => hu.2 hc hq
      have hsteps : Triple (SparesTail dev queue.toNat (s.start (.bindOutput dev queue))) (body (.bindOutput dev queue))
          (fun _ => NoTailWrite dev queue.toNat (s.start (.bindOutput dev queue)))
          (fun _ => NoTailWrite dev queue.toNat (s.start (.bindOutput dev queue))) fun _ => True := by
        refine .bind (.bind (Q := fun _ => SparesTail dev queue.toNat (s.start _)) (.look fun _ h => h) fun oc => ?_)
          fun _ => .pure fun _ h => h
        split
        · exact (bindOutputAs_sparesTail _).weaken (fun _ h => h) (fun _ u hu => hu hc hq) (fun _ => hspares)
            fun _ h => h
        · exact .raise hspares
      rcases exec_of_triple hsteps ((SparesTail.chains _ _).refl _) hexec with
        ⟨hna, -⟩ | ⟨-, ⟨v, u, hu, rfl⟩ | ⟨f, u, hu, rfl⟩⟩
      · exact (hna ha).elim
      · exact hu
      · exact hu
    · rw [bindOutput_refused ha (.inr (Nat.not_lt.1 hq))] at hexec
      cases hexec
      exact .of_trace rfl
  · rw [exec_of_not_accepts ha] at hexec
    cases hexec
    exact .of_trace rfl

end Sys2Proof.Machine
end

section
/-! SUPPORT. Micro-steps of a bind on a settled device where no other agent moves (R270, R280): an address translated, a
queue's enable bit written and answered or not, and how a failure of the command leaves the device. -/

namespace Sys2Proof.Machine

/-! Micro-steps that raise. -/

/-- From a state in which the registers hold `g` the micro-steps `m` raise `f`, after the accesses `l` and at least `d`
microseconds; the registers then hold `g'`. -/
def Breaks {α : Type} (s : State) (dev : BitVec 8) (g : Nat → W32) (m : Micro α) (f : Failure) (l : List Access)
    (d : Nat) (g' : Nat → W32) : Prop :=
  ∀ l0 d0 t, Holding s dev g l0 d0 t →
    ∃ u, m t = .error (.raise f) u ∧ Holding s dev g' (l0 ++ l) (d0 + d) u

section Rules
variable {α β : Type} {s : State} {dev : BitVec 8} {g g' g'' : Nat → W32} {f : Failure}
  {l l' : List Access} {d d' : Nat}

theorem Breaks.raise : Breaks s dev g (raise f : Micro α) f [] 0 g := fun l0 _ t h =>
  ⟨t, rfl, by rwa [List.append_nil]⟩

theorem Breaks.bind {m : Micro α} (h : Breaks s dev g m f l d g') (k : α → Micro β) :
    Breaks s dev g (m >>= k) f l d g' := by
  intro l0 d0 t ht
  obtain ⟨u, hm, hu⟩ := h l0 d0 t ht
  exact ⟨u, Micro.run_bind_error hm, hu⟩

theorem Does.breaks {m : Micro α} {k : α → Micro β} {a : α} (h : Does s dev g m a l d g')
    (hk : Breaks s dev g' (k a) f l' d' g'') : Breaks s dev g (m >>= k) f (l ++ l') (d + d') g'' := by
  intro l0 d0 t ht
  obtain ⟨u, hm, hu⟩ := h l0 d0 t ht
  obtain ⟨x, hx, hx'⟩ := hk _ _ u hu
  rw [List.append_assoc, Nat.add_assoc] at hx'
  exact ⟨x, (Micro.run_bind_ok hm).trans hx, hx'⟩

/-- A look at the configuration sees what it was at the start. -/
theorem Breaks.look_bind {F : State → α} {k : α → Micro β} (hF : ∀ t, t.cfg = s.cfg → F t = F s)
    (hk : Breaks s dev g (k (F s)) f l d g') : Breaks s dev g (look F >>= k) f l d g' := by
  intro l0 d0 t ht
  rw [Micro.look_bind, hF t ht.only.cfg]
  exact hk l0 d0 t ht

/-- A look at the whole state sees the start's but for the device. -/
theorem Breaks.look_state {k : State → Micro β}
    (hk : ∀ t, OnlyNic s t (s.handle dev).bdf → Breaks s dev g (k t) f l d g') :
    Breaks s dev g (look id >>= k) f l d g' := fun l0 d0 t ht => hk t ht.only l0 d0 t ht

theorem Does.look_state {k : State → Micro β} {b : β}
    (hk : ∀ t, OnlyNic s t (s.handle dev).bdf → Does s dev g (k t) b l d g') : Does s dev g (look id >>= k) b l d g' :=
  fun l0 d0 t ht => hk t ht.only l0 d0 t ht

theorem Breaks.ite_pos {p : Prop} [Decidable p] {x y : Micro α} (hp : p) (h : Breaks s dev g x f l d g') :
    Breaks s dev g (if p then x else y) f l d g' := by rwa [if_pos hp]

theorem Breaks.ite_neg {p : Prop} [Decidable p] {x y : Micro α} (hp : ¬ p) (h : Breaks s dev g y f l d g') :
    Breaks s dev g (if p then x else y) f l d g' := by rwa [if_neg hp]

theorem Breaks.cast {m : Micro α} (h : Breaks s dev g m f l d g') (hl : l = l') (hd : d = d') :
    Breaks s dev g m f l' d' g' := hl ▸ hd ▸ h

end Rules

/-! Translation (R354). -/

theorem v2p_quiet {s : State} (line : Nat) (a : W64) (hq : s.quiet) :
    v2p line a s = .ok (s.v2p a) (s.accessed line (.v2p a (s.v2p a))) := by
  simp only [v2p, State.boundary_eq_self hq]
  rfl

theorem v2pOrRaise_translated {s : State} (line : Nat) {a p : W64} (site : AllocSite) (hq : s.quiet)
    (hp : s.v2p a = some p) : v2pOrRaise line a site s = .ok p (s.accessed line (.v2p a (some p))) := by
  have hrun := v2p_quiet line a hq
  rw [hp] at hrun
  exact Micro.run_bind_ok hrun

theorem v2pOrRaise_untranslated {s : State} (line : Nat) {a : W64} (site : AllocSite) (hq : s.quiet)
    (hp : s.v2p a = none) :
    v2pOrRaise line a site s = .error (.raise (.allocFail site)) (s.accessed line (.v2p a none)) := by
  have hrun := v2p_quiet line a hq
  rw [hp] at hrun
  exact Micro.run_bind_ok hrun

/-- With the blocks the translation stays. -/
theorem v2p_of_blocks {s t : State} (h : t.blocks = s.blocks) (a : W64) : t.v2p a = s.v2p a := by
  rw [State.v2p, State.v2p, h]

section Accesses
variable {s : State} {dev : BitVec 8} {g : Nat → W32} {f : DevField} {i : Nat}

theorem Accessible.v2pOrRaise (h : Accessible s dev) (line : Nat) {a p : W64} (site : AllocSite)
    (hp : s.v2p a = some p) : Does s dev g (v2pOrRaise line a site) p [.v2p a (some p)] 0 g := fun _ _ _ ht =>
  ⟨_, v2pOrRaise_translated line site (h.holding ht).quiet ((v2p_of_blocks ht.only.blocks a).trans hp),
    ht.sameNic (ht.accessed line _) rfl⟩

theorem Accessible.v2pOrRaise_breaks (h : Accessible s dev) (line : Nat) {a : W64} (site : AllocSite)
    (hp : s.v2p a = none) :
    Breaks s dev g (Machine.v2pOrRaise line a site) (.allocFail site) [.v2p a none] 0 g := fun _ _ _ ht =>
  ⟨_, v2pOrRaise_untranslated line site (h.holding ht).quiet ((v2p_of_blocks ht.only.blocks a).trans hp),
    ht.sameNic (ht.accessed line _) rfl⟩

/-! A read-modify-write, whatever the NIC makes of the write (R155). -/

/-- The NIC of a device, its registers holding `g`, in what a write leaves alone as `s` has it. -/
structure NicHolds (s : State) (dev : BitVec 8) (g : Nat → W32) (n : Nic) : Prop where
  regs : n.reg s.cfg = g
  beside : (s.nic (s.handle dev).bdf).SameBeside n

theorem Holding.of_nic {l : List Access} {d : Nat} {u : State} (h : Progress s dev l d u)
    (hn : NicHolds s dev g (u.nic (s.handle dev).bdf)) : Holding s dev g l d u := ⟨h, hn.regs, hn.beside⟩

/-- A write that arrives at a register, of the value it then may hold. -/
structure Arrives (n : Nic) (w : RegWrite) (off : Nat) (v : W32) : Prop where
  off : w.off = off
  val : w.val = v
  usable : n.usable ≤ w.time

theorem Accessible.regWriteField_run (h : Accessible s dev) (line : Nat) {old v : W32} {l : List Access} {d : Nat}
    {t : State} (ht : Holding s dev g l d t) (hi : f.reg.indexOk s.cfg i = true) (hne : f.reg ≠ .eimc)
    (hold : g (s.cfg.off f.reg i) = old) :
    ∃ n w u, Machine.regWriteField line dev f i v t = .ok () u ∧ NicHolds s dev g n ∧
      Arrives n w (s.cfg.off f.reg i) (insertField old (s.cfg.mask f) v) ∧ u.nic (s.handle dev).bdf = n.write s.cfg w ∧
      Progress s dev (l ++ readModifyWrite (s.regAddr dev f.reg i) old (insertField old (s.cfg.mask f) v)) d u := by
  subst hold
  obtain ⟨r, hread, hr⟩ := h.regRead (g := g) line hi hne l d t ht
  have hr' := h.holding hr
  have hcfg := hr.only.cfg
  let new := insertField (g (s.cfg.off f.reg i)) (s.cfg.mask f) v
  have hwrite := regWrite_settled (line + 1) new hr'.quiet hr'.standard.1 hr'.mapped (by rwa [hcfg]) hr'.settled
  have husable := hr'.settled.1
  rw [hr.only.regAddr, hr.only.handle, hcfg] at hwrite
  rw [hr.only.handle] at husable
  have hmade := (hr.accessed (line + 1) (.mmioWrite (s.regAddr dev f.reg i) new)).setNic
    ((r.nic (s.handle dev).bdf).write s.cfg ⟨r.micros + 1, r.now + Config.microTime r.micros, s.cfg.off f.reg i, new⟩)
  rw [List.append_assoc] at hmade
  refine ⟨_, _, _, ?_, ⟨hr.regs, hr.beside⟩, ⟨rfl, rfl, Nat.le_trans husable (Nat.le_add_right _ _)⟩,
    State.nic_setNic_self .., hmade⟩
  refine (Micro.run_bind_ok hread).trans ?_
  rw [Micro.look_bind, hcfg, hwrite]

theorem Accessible.regSet_run (h : Accessible s dev) (line : Nat) {old : W32} {l : List Access} {d : Nat}
    {t : State} (ht : Holding s dev g l d t) (hi : f.reg.indexOk s.cfg i = true) (hne : f.reg ≠ .eimc)
    (hold : g (s.cfg.off f.reg i) = old) :
    ∃ n w u, Machine.regSet line dev f i t = .ok () u ∧ NicHolds s dev g n ∧
      Arrives n w (s.cfg.off f.reg i) (old ||| s.cfg.mask f) ∧ u.nic (s.handle dev).bdf = n.write s.cfg w ∧
      Progress s dev (l ++ readModifyWrite (s.regAddr dev f.reg i) old (old ||| s.cfg.mask f)) d u := by
  rw [← insertField_fieldOnes, Machine.regSet, Micro.look_bind, ht.only.cfg]
  exact h.regWriteField_run line ht hi hne hold

end Accesses

/-! A queue that comes to be enabled, or whose NIC does not answer (R341, R345, R348). -/

section
variable {c : Config} {n : Nic} {w : RegWrite} {q : Nat}

/-- The index of a receive queue's control register is the queue. -/
theorem Config.indexAt_rxdctl_eq (hc : StandardConfig c) (hq : q < c.rxQueueCount) :
    c.indexAt .rxdctl (c.off .rxdctl q) = some q := by
  obtain ⟨j, hj⟩ := Option.isSome_iff_exists.1 (Config.indexAt_rxdctl hc hq)
  obtain ⟨hok, hoff⟩ := Config.off_of_indexAt hj
  rw [hj, Config.off_inj hc rfl hok (indexOk_of_lt rfl hq) hoff]

/-- The head of a receive queue whose enable bit rises is 0 (R341). -/
theorem Nic.rxHead_write_enable (hc : StandardConfig c) (hq : q < c.rxQueueCount) (hoff : w.off = c.off .rxdctl q)
    (hu : n.usable ≤ w.time) (hlag : n.lag = false) (hclear : n.reg c w.off &&& c.mask .rxdctlEnable = 0)
    (hset : w.val &&& c.mask .rxdctlEnable ≠ 0) : (n.write c w).rxHead q = 0 := by
  rw [Nic.write_rw hc (indexOk_of_lt rfl hq) hoff hu rfl (fun _ => hlag) nofun]
  simp only [Nic.queueEnable, hoff, Config.indexAt_rxdctl_eq hc hq]
  rw [if_pos (rises_iff.2 ⟨hoff ▸ hclear, hset⟩)]
  simp only [Nic.rxHead, Store.get?_put_self, Option.getD_some]

/-- A transmit queue whose enable bit rises has its head and tail at 0 (R345). -/
theorem Nic.write_txdctl_enable (hc : StandardConfig c) (hq : q < c.txQueueCount) (hoff : w.off = c.off .txdctl q)
    (hu : n.usable ≤ w.time) (hlag : n.lag = false) (hclear : n.reg c w.off &&& c.mask .txdctlEnable = 0)
    (hset : w.val &&& c.mask .txdctlEnable ≠ 0) :
    n.write c w = { (n.putReg w.off w.val).putReg (c.off .tdt q) 0 with
      txQueues := Store.put n.txQueues q TxQueue.empty } := by
  have hi : DevReg.txdctl.indexOk c q = true := indexOk_of_lt rfl hq
  have hrx : c.indexAt .rxdctl w.off = none := hoff ▸ Config.indexAt_off_ne hc (by decide) hi
  have htx : c.indexAt .txdctl w.off = some q := hoff ▸ Config.indexAt_txdctl hc hi
  rw [Nic.write_rw hc hi hoff hu rfl (fun _ => hlag) nofun]
  simp only [Nic.queueEnable, hrx, htx]
  rw [if_pos (rises_iff.2 ⟨hclear, hset⟩)]
  rfl

theorem enableMask_txdctl (hc : StandardConfig c) (hq : q < c.txQueueCount) :
    enableMask c (c.off .txdctl q) = c.mask .txdctlEnable := by
  have hi : DevReg.txdctl.indexOk c q = true := indexOk_of_lt rfl hq
  rw [enableMask, Config.indexAt_off_ne hc (by decide) hi, Config.indexAt_txdctl hc hi]
  rfl

/-- Of a write to TXDCTL that differs in the enable bit alone a lagging NIC accepts nothing. -/
theorem Nic.write_txdctl_unanswered (hc : StandardConfig c) (hq : q < c.txQueueCount) (hoff : w.off = c.off .txdctl q)
    (hu : n.usable ≤ w.time) (hlag : n.lag = true)
    (hv : w.val &&& ~~~(c.mask .txdctlEnable) = n.reg c w.off &&& ~~~(c.mask .txdctlEnable)) :
    n.write c w = n.putReg w.off (n.reg c w.off) := by
  have haccepted : n.accepted c w.off w.val = n.reg c w.off := by
    rw [Nic.accepted, if_pos hlag, hoff, enableMask_txdctl hc hq, ← hoff, join_of_and_not_eq hv]
  rw [Nic.write_accepted hc (indexOk_of_lt rfl hq) hoff hu rfl (by decide), haccepted, Nic.queueEnable_self]

/-- A write to TXDCTL that leaves the enable bit as it is, is accepted whether the NIC lags or not. -/
theorem Nic.write_txdctl_thresholds (hc : StandardConfig c) (hq : q < c.txQueueCount) (hoff : w.off = c.off .txdctl q)
    (hu : n.usable ≤ w.time) (hv : w.val &&& c.mask .txdctlEnable = n.reg c w.off &&& c.mask .txdctlEnable) :
    n.write c w = n.putReg w.off w.val := by
  have hi : DevReg.txdctl.indexOk c q = true := indexOk_of_lt rfl hq
  have haccepted : n.accepted c w.off w.val = w.val := by
    rw [Nic.accepted, hoff, enableMask_txdctl hc hq, ← hoff, ← hv, join_of_and_not_eq rfl, ite_self]
  have hrx : c.indexAt .rxdctl w.off = none := hoff ▸ Config.indexAt_off_ne hc (by decide) hi
  have htx : c.indexAt .txdctl w.off = some q := hoff ▸ Config.indexAt_txdctl hc hi
  have hstays : ¬ rises (c.mask .txdctlEnable) (n.reg c w.off) w.val = true := fun h => by
    obtain ⟨hclear, hset⟩ := rises_iff.1 h
    exact hset (hv.trans hclear)
  rw [Nic.write_accepted hc hi hoff hu rfl (by decide), haccepted]
  simp only [Nic.queueEnable, hrx, htx]
  rw [if_neg hstays]

end

end Sys2Proof.Machine
end

section
/-! SUPPORT. The enable bits of queues, written by a bind where no other agent moves (R274, R293, R341, R345, R348):
what every register then holds, and the head of the queue. -/

namespace Sys2Proof.Machine

/-! A receive queue (R274). -/

section
variable {s t : State} {dev : BitVec 8} {g : Nat → W32} {l : List Access} {d q : Nat} {old : W32}

theorem Responsive.accessible (h : Responsive s dev) : Accessible s dev := ⟨h.quiet, h.standard, h.mapped, h.settled⟩

/-- The enable bits are bits. -/
theorem Config.enable_ne_zero {c : Config} (hc : StandardConfig c) :
    c.mask .rxdctlEnable ≠ 0 ∧ c.mask .txdctlEnable ≠ 0 := by
  rw [Config.mask_spec hc.2.1, Config.mask_spec hc.2.1]
  decide

theorem or_and_ne_zero {v m : W32} (h : m ≠ 0) : (v ||| m) &&& m ≠ 0 := by
  have hand : (v ||| m) &&& m = m := by
    ext i hi
    cases hm : m[i] <;> simp [hm]
  rwa [hand]

theorem or_and_not (v m : W32) : (v ||| m) &&& ~~~m = v &&& ~~~m := by
  ext i hi
  cases hm : m[i] <;> simp [hm]

theorem NicHolds.lag {n : Nic} (h : NicHolds s dev g n) : n.lag = (s.nic (s.handle dev).bdf).lag := h.beside.lag

/-- A NIC that lags, or does not. -/
theorem State.not_prompt_iff : ¬ s.prompt dev ↔ (s.nic (s.handle dev).bdf).lag = true := by
  rw [State.prompt, Bool.not_eq_false]

/-- A disabled queue is enabled: its head is 0. -/
theorem enableInput_run (hr : Responsive s dev) (line : Nat) (hq : q < s.cfg.rxQueueCount) (ht : Holding s dev g l d t)
    (hold : g (s.cfg.off .rxdctl q) = old) (hclear : old &&& s.cfg.mask .rxdctlEnable = 0) :
    ∃ u, regSet line dev .rxdctlEnable q t = .ok () u ∧
      Holding s dev (Function.update g (s.cfg.off .rxdctl q) (old ||| s.cfg.mask .rxdctlEnable))
        (l ++ readModifyWrite (s.regAddr dev .rxdctl q) old (old ||| s.cfg.mask .rxdctlEnable)) d u ∧
      (u.nic (s.handle dev).bdf).rxHead q = 0 := by
  have hc := hr.standard
  have hi : DevReg.rxdctl.indexOk s.cfg q = true := indexOk_of_lt rfl hq
  obtain ⟨n, w, u, hrun, hn, ⟨hoff, hval, husable⟩, hnic, hu⟩ :=
    hr.accessible.regSet_run (f := .rxdctlEnable) line ht hi (by decide) hold
  have hlag : n.lag = false := hn.lag.trans hr.prompt
  obtain ⟨hbeside, hregs⟩ := Nic.write_plain hc hi hoff husable hlag rfl (by decide) nofun
  refine ⟨u, hrun, .of_nic hu ⟨?_, ?_⟩, ?_⟩
  · rw [hnic]
    funext off
    rw [hregs, hn.regs, hval]
  · rw [hnic]
    exact hn.beside.trans hbeside
  · rw [hnic]
    refine Nic.rxHead_write_enable hc hq hoff husable hlag ?_ (hval ▸ or_and_ne_zero (Config.enable_ne_zero hc).1)
    rw [hn.regs, hoff, DevField.reg, hold, hclear]

/-- A NIC that does not answer the write holds what it held. -/
theorem enableInput_unanswered (h : Accessible s dev) (hlag : ¬ s.prompt dev) (line : Nat)
    (hq : q < s.cfg.rxQueueCount) (hold : g (s.cfg.off .rxdctl q) = old) :
    Does s dev g (regSet line dev .rxdctlEnable q) ()
      (readModifyWrite (s.regAddr dev .rxdctl q) old (old ||| s.cfg.mask .rxdctlEnable)) 0 g := by
  intro l0 d0 t ht
  obtain ⟨n, w, u, hrun, hn, ⟨hoff, hval, husable⟩, hnic, hu⟩ :=
    h.regSet_run (f := .rxdctlEnable) line ht (indexOk_of_lt rfl hq) (by decide) hold
  have hheld : n.reg s.cfg w.off = old := by rw [hn.regs, hoff, DevField.reg, hold]
  rw [Nic.write_unanswered h.standard hq hoff husable (hn.lag.trans (State.not_prompt_iff.1 hlag))
    (by rw [hval, hheld, or_and_not])] at hnic
  refine ⟨u, hrun, .of_nic hu ⟨?_, ?_⟩⟩
  · rw [hnic, Nic.reg_putReg_reg, hn.regs]
  · rw [hnic]
    exact hn.beside.trans ⟨rfl, rfl, rfl, rfl, rfl⟩

/-! A transmit queue (R287, R293). -/

/-- A threshold is written beside the enable bit. -/
theorem insertField_and_of_disjoint {raw m v e : W32} (h : m &&& e = 0) : insertField raw m v &&& e = raw &&& e := by
  apply BitVec.eq_of_getLsbD_eq
  intro i _
  have hbit : (m.getLsbD i && e.getLsbD i) = false := by
    rw [← BitVec.getLsbD_and, h]
    exact BitVec.getLsbD_zero
  rw [BitVec.getLsbD_and, BitVec.getLsbD_and, getLsbD_insertField]
  cases he : e.getLsbD i with
  | false => simp
  | true =>
    have hm : m.getLsbD i = false := by simpa [he] using hbit
    simp [hm]

/-- The thresholds of a transmit queue lie beside its enable bit (R54). -/
theorem Config.thresholds_beside_enable {c : Config} (hc : StandardConfig c) :
    c.mask .pthresh &&& c.mask .txdctlEnable = 0 ∧ c.mask .hthresh &&& c.mask .txdctlEnable = 0 := by
  simp only [Config.mask_spec hc.2.1]
  decide

theorem writeThreshold_does (h : Accessible s dev) (line : Nat) {f : DevField} {v : W32} (hf : f.reg = .txdctl)
    (hbeside : s.cfg.mask f &&& s.cfg.mask .txdctlEnable = 0) (hq : q < s.cfg.txQueueCount)
    (hold : g (s.cfg.off .txdctl q) = old) :
    Does s dev g (regWriteField line dev f q v) ()
      (readModifyWrite (s.regAddr dev .txdctl q) old (insertField old (s.cfg.mask f) v)) 0
      (Function.update g (s.cfg.off .txdctl q) (insertField old (s.cfg.mask f) v)) := by
  intro l0 d0 t ht
  obtain ⟨n, w, u, hrun, hn, ⟨hoff, hval, husable⟩, hnic, hu⟩ :=
    h.regWriteField_run (f := f) (v := v) (old := old) line ht (i := q)
      (by rw [hf]; exact indexOk_of_lt rfl hq) (by rw [hf]; decide) (by rwa [hf])
  rw [hf] at hu hoff
  rw [Nic.write_txdctl_thresholds h.standard hq hoff husable
    (by rw [hval, hn.regs, hoff, hold, insertField_and_of_disjoint hbeside])] at hnic
  refine ⟨u, hrun, .of_nic hu ⟨?_, ?_⟩⟩
  · rw [hnic]
    funext off
    rw [Nic.reg_putReg, hn.regs, hoff, hval, Function.update_apply]
  · rw [hnic]
    exact hn.beside.trans ⟨rfl, rfl, rfl, rfl, rfl⟩

/-- A disabled queue is enabled: its tail and its head are 0. -/
theorem enableOutput_run (hr : Responsive s dev) (line : Nat) (hq : q < s.cfg.txQueueCount) (ht : Holding s dev g l d t)
    (hold : g (s.cfg.off .txdctl q) = old) (hclear : old &&& s.cfg.mask .txdctlEnable = 0) :
    ∃ u, regSet line dev .txdctlEnable q t = .ok () u ∧
      Holding s dev (Function.update (Function.update g (s.cfg.off .txdctl q) (old ||| s.cfg.mask .txdctlEnable))
          (s.cfg.off .tdt q) 0)
        (l ++ readModifyWrite (s.regAddr dev .txdctl q) old (old ||| s.cfg.mask .txdctlEnable)) d u ∧
      ((u.nic (s.handle dev).bdf).txQueue q).head = 0 := by
  have hc := hr.standard
  obtain ⟨n, w, u, hrun, hn, ⟨hoff, hval, husable⟩, hnic, hu⟩ :=
    hr.accessible.regSet_run (f := .txdctlEnable) line ht (indexOk_of_lt rfl hq) (by decide) hold
  rw [Nic.write_txdctl_enable hc hq hoff husable (hn.lag.trans hr.prompt)
    (by rw [hn.regs, hoff, DevField.reg, hold, hclear])
    (hval ▸ or_and_ne_zero (Config.enable_ne_zero hc).2)] at hnic
  refine ⟨u, hrun, .of_nic hu ⟨?_, ?_⟩, ?_⟩
  · rw [hnic]
    funext off
    rw [Function.update_apply, Function.update_apply, ← hn.regs, ← hval]
    refine (Nic.reg_putReg s.cfg _ _ off _).trans ?_
    rw [Nic.reg_putReg, hoff]
    rfl
  · rw [hnic]
    exact hn.beside.trans ⟨rfl, rfl, rfl, rfl, rfl⟩
  · rw [hnic]
    simp only [Nic.txQueue, Store.get?_put_self, Option.getD_some]
    rfl

theorem enableOutput_unanswered (h : Accessible s dev) (hlag : ¬ s.prompt dev) (line : Nat)
    (hq : q < s.cfg.txQueueCount) (hold : g (s.cfg.off .txdctl q) = old) :
    Does s dev g (regSet line dev .txdctlEnable q) ()
      (readModifyWrite (s.regAddr dev .txdctl q) old (old ||| s.cfg.mask .txdctlEnable)) 0 g := by
  intro l0 d0 t ht
  obtain ⟨n, w, u, hrun, hn, ⟨hoff, hval, husable⟩, hnic, hu⟩ :=
    h.regSet_run (f := .txdctlEnable) line ht (indexOk_of_lt rfl hq) (by decide) hold
  have hheld : n.reg s.cfg w.off = old := by rw [hn.regs, hoff, DevField.reg, hold]
  rw [Nic.write_txdctl_unanswered h.standard hq hoff husable (hn.lag.trans (State.not_prompt_iff.1 hlag))
    (by rw [hval, hheld, or_and_not])] at hnic
  refine ⟨u, hrun, .of_nic hu ⟨?_, ?_⟩⟩
  · rw [hnic, Nic.reg_putReg_reg, hn.regs]
  · rw [hnic]
    exact hn.beside.trans ⟨rfl, rfl, rfl, rfl, rfl⟩

/-! The poll of an enable bit (R159, R274, R293). -/

/-- A poll for a bit to be set that was just written. -/
theorem poll_passes_of_set (h : Accessible s dev) (line : Nat) {f : DevField} {i : Nat} {v : W32}
    (hi : f.reg.indexOk s.cfg i = true) (hne : f.reg ≠ .eimc) (hv : g (s.cfg.off f.reg i) = v)
    (hset : v &&& s.cfg.mask f ≠ 0) :
    Does s dev g (poll line dev f i true) true [.mmioRead (s.regAddr dev f.reg i) v] 0 g := by
  subst hv
  refine h.poll_passes line hi hne ?_
  rw [beq_eq_false_iff_ne.2 (mt extract_eq_zero_iff.1 hset)]
  decide

theorem poll_times_out_of_clear (h : Accessible s dev) (line : Nat) {f : DevField} {i : Nat} {v : W32}
    (hi : f.reg.indexOk s.cfg i = true) (hne : f.reg ≠ .eimc) (hv : g (s.cfg.off f.reg i) = v)
    (hclear : v &&& s.cfg.mask f = 0) :
    ∃ l, Does s dev g (poll line dev f i true) false l s.cfg.tPoll g := by
  subst hv
  exact h.poll_times_out line hi hne (beq_iff_eq.2 (extract_eq_zero_iff.2 hclear))

end

/-! The head of a queue, once it is 0 (R341, R345). -/

/-- A property of a NIC that register writes keep, be they sent, posted or performed. -/
structure KeptByWrites (P : Nic → Prop) : Prop where
  write : ∀ c n w, P n → P (n.write c w)
  posted : ∀ (n : Nic) l, P n → P { n with posted := l }

/-- Where no other agent moves, the property stays. -/
def NicKeeps (P : Nic → Prop) (bdf : W16) (s t : State) : Prop :=
  s.quiet → t.quiet ∧ (P (s.nic bdf) → P (t.nic bdf))

theorem NicKeeps.chains (P : Nic → Prop) (bdf : W16) : Chains (NicKeeps P bdf) where
  refl _ hq := ⟨hq, id⟩
  trans h k hq :=
    have ⟨hq', hP⟩ := h hq
    have ⟨hq'', hP'⟩ := k hq'
    ⟨hq'', hP' ∘ hP⟩

section
variable {P : Nic → Prop}

theorem KeptByWrites.drain (hP : KeptByWrites P) (c : Config) {n : Nic} (h : P n) : P (n.drain c) := by
  have arrives (l : List RegWrite) (n : Nic) (h : P n) : P (l.foldl (Nic.write c) n) := by
    induction l generalizing n with
    | nil => exact h
    | cons w rest ih => exact ih _ (hP.write c n w h)
  exact arrives _ _ (hP.posted n [] h)

theorem KeptByWrites.post (hP : KeptByWrites P) (c : Config) {n : Nic} (w : RegWrite) (h : P n) : P (n.post c w) := by
  unfold Nic.post
  split
  · exact hP.write c n w h
  · exact hP.posted n _ h

theorem NicKeeps.registerOps (hP : KeptByWrites P) (dev : BitVec 8) (bdf : W16) :
    RegisterOps dev (fun _ _ => True) (NicKeeps P bdf) where
  chains := NicKeeps.chains P bdf
  sleepUs line n := fun s hq => by
    rw [sleepUs_quiet line n hq]
    exact ⟨hq, id⟩
  regRead line r i := fun s hq => by
    rw [regRead_eq]
    simp only [mmioRead32, State.boundary_eq_self hq]
    split
    · refine ⟨?_, fun h => ?_⟩
      · exact (State.drainNic_agenda _ _).trans hq
      · show P (State.nic (State.drainNic _ _) bdf)
        rw [State.nic_drainNic]
        split
        · rename_i hb
          exact hP.drain _ (hb ▸ h)
        · exact h
    · exact ⟨hq, id⟩
  regWrite line r i v _ := fun s hq => by
    rw [regWrite_eq]
    simp only [mmioWrite32, State.boundary_eq_self hq]
    split
    · refine ⟨hq, fun h => ?_⟩
      show P (State.nic (State.postWrite _ _ _ _) bdf)
      rw [State.nic_postWrite]
      split
      · rename_i hb
        exact hP.post _ _ (hb ▸ h)
      · exact h
    · exact ⟨hq, id⟩

end

/-- A write enables a queue, resets the device, or leaves the heads alone. -/
theorem rxHead_kept (q : Nat) : KeptByWrites fun n => n.rxHead q = 0 where
  write c n w h := by
    unfold Nic.write
    split
    · exact h
    · split
      · split
        · rfl
        · exact h
      · split
        · exact h
        · split
          · exact h
          · rcases Nic.rxHead_queueEnable c (n.putReg w.off (n.accepted c w.off w.val)) w.off (n.reg c w.off)
              (n.accepted c w.off w.val) q with hkept | ⟨hzero, -⟩
            · exact hkept.trans h
            · exact hzero
  posted _ _ h := h

theorem txHead_kept (q : Nat) : KeptByWrites fun n => (n.txQueue q).head = 0 where
  write c n w h := by
    unfold Nic.write
    split
    · exact h
    · split
      · split
        · rfl
        · exact h
      · split
        · exact h
        · split
          · exact h
          · rcases Nic.txQueue_queueEnable c (n.putReg w.off (n.accepted c w.off w.val)) w.off (n.reg c w.off)
              (n.accepted c w.off w.val) q with hkept | ⟨hempty, -⟩
            · exact (congrArg TxQueue.head hkept).trans h
            · exact congrArg TxQueue.head hempty
  posted _ _ h := h

end Sys2Proof.Machine
end

section
/-! SUPPORT. BIND_INPUT where no other agent moves (R270 to R278), part by part: the accesses of each part, and the
registers after it. -/

namespace Sys2Proof.Machine

/-- Steps B6 to B9 after the queue's enable bit was written: its poll, the first tail, the secure-receive bracket, the
two bits (R274 to R277). -/
def openInput (dev : BitVec 8) (q : Nat) (c : Config) : Micro Unit := do
  let enabled ← poll 12 dev .rxdctlEnable q true
  if !enabled then raise (.hwTimeout .rxdctlEnable q true)
  regWrite 14 dev .rdt q (BitVec.ofNat 32 (c.ringSize - 1))
  regSet 15 dev .rxDis 0
  let drained ← poll 17 dev .secrxRdy 0 true
  if !drained then raise (.hwTimeout .secrxRdy 0 true)
  regSet 19 dev .rxen 0
  regClear 21 dev .rxDis 0
  regSet 23 dev .nsDis 0
  regWriteField 25 dev .rsvdReq q c.rsvdReqValue

theorem startInput_eq (dev : BitVec 8) (q : Nat) :
    startInput dev q = look State.cfg >>= fun c => regSet 10 dev .rxdctlEnable q >>= fun _ => openInput dev q c := rfl

/-- What holds across each operation on the registers of a device holds across these. -/
theorem openInput_leads {dev : BitVec 8} {R : State → State → Prop} (h : RegisterOps dev (fun _ _ => True) R) (q : Nat)
    (c : Config) : Leads R (openInput dev q c) :=
  .bind h.chains (h.poll 12 true) fun _ => .checked h.chains (.bind h.chains (h.regWrite 14 _ _ _ trivial) fun _ =>
    .bind h.chains (h.regSet 15 trivial) fun _ => .bind h.chains (h.poll 17 true) fun _ => .checked h.chains
    (.bind h.chains (h.regSet 19 trivial) fun _ => .bind h.chains (h.regWriteField 21 _ trivial) fun _ =>
    .bind h.chains (h.regSet 23 trivial) fun _ => h.regWriteField 25 _ trivial))

section
variable {s : State} {dev : BitVec 8} {p : W64}

/-! The registers of each part. -/

/-- The buffer size in the receive control register of the queue. -/
def State.inputSized (s : State) (dev : BitVec 8) : W32 :=
  insertField (s.regOf dev .srrctl s.cfg.rxQueue) (s.cfg.mask .bsizePacket) (BitVec.ofNat 32 (kibCeil s.cfg.bufSize))

/-- And the drop policy. -/
def State.inputDrops (s : State) (dev : BitVec 8) : W32 := s.inputSized dev ||| s.cfg.mask .dropEn

/-- The registers once the ring at `p` is programmed (R272, R273). -/
def State.inputProgrammed (s : State) (dev : BitVec 8) (p : W64) : Nat → W32 :=
  let q := s.cfg.rxQueue
  Function.update (Function.update (Function.update (Function.update (s.registers dev)
    (s.cfg.off .rdbah q) (highHalf p))
    (s.cfg.off .rdbal q) (lowHalf p))
    (s.cfg.off .rdlen q) (BitVec.ofNat 32 (ringBytes s.cfg)))
    (s.cfg.off .srrctl q) (s.inputDrops dev)

/-- The control register of the queue, enabled. -/
def State.inputEnabled (s : State) (dev : BitVec 8) : W32 :=
  s.regOf dev .rxdctl s.cfg.rxQueue ||| s.cfg.mask .rxdctlEnable

/-- The registers once the queue is enabled (R274). -/
def State.inputAnswered (s : State) (dev : BitVec 8) (p : W64) : Nat → W32 :=
  Function.update (s.inputProgrammed dev p) (s.cfg.off .rxdctl s.cfg.rxQueue) (s.inputEnabled dev)

/-- The secure-receive control register with receive disabled. -/
def State.inputHeld (s : State) (dev : BitVec 8) : W32 := s.regOf dev .secrxctrl 0 ||| s.cfg.mask .rxDis

/-- The registers once the receive path was told to drain (R275, R276). -/
def State.inputHalted (s : State) (dev : BitVec 8) (p : W64) : Nat → W32 :=
  Function.update (Function.update (s.inputAnswered dev p)
    (s.cfg.off .rdt s.cfg.rxQueue) (BitVec.ofNat 32 (s.cfg.ringSize - 1)))
    (s.cfg.off .secrxctrl 0) (s.inputHeld dev)

/-- The registers at the end (R276, R277). -/
def State.inputStarted (s : State) (dev : BitVec 8) (p : W64) : Nat → W32 :=
  Function.update (Function.update (Function.update (Function.update (s.inputHalted dev p)
    (s.cfg.off .rxctrl 0) (s.regOf dev .rxctrl 0 ||| s.cfg.mask .rxen))
    (s.cfg.off .secrxctrl 0) (insertField (s.inputHeld dev) (s.cfg.mask .rxDis) 0))
    (s.cfg.off .ctrlExt 0) (s.regOf dev .ctrlExt 0 ||| s.cfg.mask .nsDis))
    (s.cfg.off .dcarxctrl s.cfg.rxQueue)
    (insertField (s.regOf dev .dcarxctrl s.cfg.rxQueue) (s.cfg.mask .rsvdReq) s.cfg.rsvdReqValue)

/-- The receive queue of the engine is one of the queues there are. -/
theorem Config.rxQueue_indexOk {c : Config} (hc : c.legal = true) {r : DevReg}
    (hr : r.indexCount c = some c.rxQueueCount) : r.indexOk c c.rxQueue = true :=
  indexOk_of_lt hr (Config.rxQueue_lt hc)

theorem State.inputProgrammed_other (hc : StandardConfig s.cfg) {r : DevReg} {i : Nat}
    (hr : r ∉ [.rdbah, .rdbal, .rdlen, .srrctl]) (hi : r.indexOk s.cfg i = true) :
    s.inputProgrammed dev p (s.cfg.off r i) = s.regOf dev r i := by
  simp only [List.mem_cons, List.not_mem_nil, or_false, not_or] at hr
  obtain ⟨hrdbah, hrdbal, hrdlen, hsrrctl⟩ := hr
  have hq {r : DevReg} (hr : r.indexCount s.cfg = some s.cfg.rxQueueCount) := Config.rxQueue_indexOk hc.1 hr
  rw [State.inputProgrammed, update_other hc hsrrctl (hq rfl) hi, update_other hc hrdlen (hq rfl) hi,
    update_other hc hrdbal (hq rfl) hi, update_other hc hrdbah (hq rfl) hi]
  rfl

theorem State.inputProgrammed_reads (hc : StandardConfig s.cfg) :
    s.inputProgrammed dev p (s.cfg.off .rdbah s.cfg.rxQueue) = highHalf p ∧
    s.inputProgrammed dev p (s.cfg.off .rdbal s.cfg.rxQueue) = lowHalf p ∧
    s.inputProgrammed dev p (s.cfg.off .rdlen s.cfg.rxQueue) = BitVec.ofNat 32 (ringBytes s.cfg) ∧
    s.inputProgrammed dev p (s.cfg.off .srrctl s.cfg.rxQueue) = s.inputDrops dev := by
  have hq {r : DevReg} (hr : r.indexCount s.cfg = some s.cfg.rxQueueCount) := Config.rxQueue_indexOk hc.1 hr
  refine ⟨?_, ?_, ?_, Function.update_self ..⟩
  · rw [State.inputProgrammed, update_other hc (by decide) (hq rfl) (hq rfl),
      update_other hc (by decide) (hq rfl) (hq rfl), update_other hc (by decide) (hq rfl) (hq rfl),
      Function.update_self]
  · rw [State.inputProgrammed, update_other hc (by decide) (hq rfl) (hq rfl),
      update_other hc (by decide) (hq rfl) (hq rfl), Function.update_self]
  · rw [State.inputProgrammed, update_other hc (by decide) (hq rfl) (hq rfl), Function.update_self]

/-- A register that is written while the receive path drains neither. -/
theorem State.inputHalted_other (hc : StandardConfig s.cfg) {r : DevReg} {i : Nat}
    (hr : r ∉ [.rxdctl, .rdt, .secrxctrl]) (hi : r.indexOk s.cfg i = true) :
    s.inputHalted dev p (s.cfg.off r i) = s.inputProgrammed dev p (s.cfg.off r i) := by
  simp only [List.mem_cons, List.not_mem_nil, or_false, not_or] at hr
  obtain ⟨hrxdctl, hrdt, hsecrxctrl⟩ := hr
  have hq {r : DevReg} (hr : r.indexCount s.cfg = some s.cfg.rxQueueCount) := Config.rxQueue_indexOk hc.1 hr
  rw [State.inputHalted, update_other hc hsecrxctrl rfl hi, update_other hc hrdt (hq rfl) hi, State.inputAnswered,
    update_other hc hrxdctl (hq rfl) hi]

theorem State.inputHalted_reads (hc : StandardConfig s.cfg) :
    s.inputHalted dev p (s.cfg.off .rxdctl s.cfg.rxQueue) = s.inputEnabled dev ∧
    s.inputHalted dev p (s.cfg.off .rdt s.cfg.rxQueue) = BitVec.ofNat 32 (s.cfg.ringSize - 1) ∧
    s.inputHalted dev p (s.cfg.off .secrxctrl 0) = s.inputHeld dev := by
  have hq {r : DevReg} (hr : r.indexCount s.cfg = some s.cfg.rxQueueCount) := Config.rxQueue_indexOk hc.1 hr
  refine ⟨?_, ?_, Function.update_self ..⟩
  · rw [State.inputHalted, update_other hc (by decide) rfl (hq rfl), update_other hc (by decide) (hq rfl) (hq rfl),
      State.inputAnswered, Function.update_self]
  · rw [State.inputHalted, update_other hc (by decide) rfl (hq rfl), Function.update_self]

theorem State.inputStarted_other (hc : StandardConfig s.cfg) {r : DevReg} {i : Nat}
    (hr : r ∉ [.rxctrl, .secrxctrl, .ctrlExt, .dcarxctrl]) (hi : r.indexOk s.cfg i = true) :
    s.inputStarted dev p (s.cfg.off r i) = s.inputHalted dev p (s.cfg.off r i) := by
  simp only [List.mem_cons, List.not_mem_nil, or_false, not_or] at hr
  obtain ⟨hrxctrl, hsecrxctrl, hctrlExt, hdcarxctrl⟩ := hr
  rw [State.inputStarted, update_other hc hdcarxctrl (Config.rxQueue_indexOk hc.1 rfl) hi,
    update_other hc hctrlExt rfl hi, update_other hc hsecrxctrl rfl hi, update_other hc hrxctrl rfl hi]

theorem State.inputStarted_reads (hc : StandardConfig s.cfg) :
    s.inputStarted dev p (s.cfg.off .rxctrl 0) = s.regOf dev .rxctrl 0 ||| s.cfg.mask .rxen ∧
    s.inputStarted dev p (s.cfg.off .secrxctrl 0) = insertField (s.inputHeld dev) (s.cfg.mask .rxDis) 0 ∧
    s.inputStarted dev p (s.cfg.off .ctrlExt 0) = s.regOf dev .ctrlExt 0 ||| s.cfg.mask .nsDis ∧
    s.inputStarted dev p (s.cfg.off .dcarxctrl s.cfg.rxQueue) =
      insertField (s.regOf dev .dcarxctrl s.cfg.rxQueue) (s.cfg.mask .rsvdReq) s.cfg.rsvdReqValue := by
  have hq := Config.rxQueue_indexOk (r := .dcarxctrl) hc.1 rfl
  refine ⟨?_, ?_, ?_, Function.update_self ..⟩
  · rw [State.inputStarted, update_other hc (by decide) hq rfl, update_other hc (by decide) rfl rfl,
      update_other hc (by decide) rfl rfl, Function.update_self]
  · rw [State.inputStarted, update_other hc (by decide) hq rfl, update_other hc (by decide) rfl rfl,
      Function.update_self]
  · rw [State.inputStarted, update_other hc (by decide) hq rfl, Function.update_self]

/-! Each part. -/

/-- The accesses that program the ring. -/
def State.programInputAccesses (s : State) (dev : BitVec 8) (p : W64) : List Access :=
  let q := s.cfg.rxQueue
  [.v2p s.eng.ring[0] (some p), .mmioWrite (s.regAddr dev .rdbah q) (highHalf p),
    .mmioWrite (s.regAddr dev .rdbal q) (lowHalf p),
    .mmioWrite (s.regAddr dev .rdlen q) (BitVec.ofNat 32 (ringBytes s.cfg))] ++
  readModifyWrite (s.regAddr dev .srrctl q) (s.regOf dev .srrctl q) (s.inputSized dev) ++
  readModifyWrite (s.regAddr dev .srrctl q) (s.inputSized dev) (s.inputDrops dev)

theorem programInput_does (h : Accessible s dev) (hp : s.v2p s.eng.ring[0] = some p) :
    Does s dev (s.registers dev) (programInput dev s.cfg.rxQueue) () (s.programInputAccesses dev p) 0
      (s.inputProgrammed dev p) := by
  have hc := h.standard
  have hq {r : DevReg} (hr : r.indexCount s.cfg = some s.cfg.rxQueueCount) := Config.rxQueue_indexOk hc.1 hr
  refine .look_state fun t ht => ?_
  rw [ht.engine.2, ht.cfg]
  have hsize {g : Nat → W32} (hg : g (s.cfg.off .srrctl s.cfg.rxQueue) = s.regOf dev .srrctl s.cfg.rxQueue) :=
    h.regWriteField (f := .bsizePacket) (v := BitVec.ofNat 32 (kibCeil s.cfg.bufSize)) 6 (hq rfl) rfl (by decide) hg
  have hdrop (g : Nat → W32) := h.regSet (f := .dropEn) 8 (hq rfl) rfl (by decide)
    (Function.update_self (s.cfg.off .srrctl s.cfg.rxQueue) (s.inputSized dev) g)
  simp only [DevField.reg, Function.update_idem] at hdrop
  refine .cast (.bind (h.v2pOrRaise 2 _ hp) (.bind (h.regWrite 3 (hq rfl) rfl) (.bind (h.regWrite 4 (hq rfl) rfl)
    (.bind (h.regWrite 5 (hq rfl) rfl) (.bind (hsize ?_) (hdrop _)))))) rfl rfl
  rw [update_other hc (by decide) (hq rfl) (hq rfl), update_other hc (by decide) (hq rfl) (hq rfl),
    update_other hc (by decide) (hq rfl) (hq rfl)]
  rfl

/-- The accesses after the enable bit was written. -/
def State.openInputAccesses (s : State) (dev : BitVec 8) : List Access :=
  let q := s.cfg.rxQueue
  [.mmioRead (s.regAddr dev .rxdctl q) (s.inputEnabled dev),
    .mmioWrite (s.regAddr dev .rdt q) (BitVec.ofNat 32 (s.cfg.ringSize - 1))] ++
  readModifyWrite (s.regAddr dev .secrxctrl 0) (s.regOf dev .secrxctrl 0) (s.inputHeld dev) ++
  [.mmioRead (s.regAddr dev .secrxstat 0) (s.regOf dev .secrxstat 0)] ++
  readModifyWrite (s.regAddr dev .rxctrl 0) (s.regOf dev .rxctrl 0) (s.regOf dev .rxctrl 0 ||| s.cfg.mask .rxen) ++
  readModifyWrite (s.regAddr dev .secrxctrl 0) (s.inputHeld dev)
    (insertField (s.inputHeld dev) (s.cfg.mask .rxDis) 0) ++
  readModifyWrite (s.regAddr dev .ctrlExt 0) (s.regOf dev .ctrlExt 0)
    (s.regOf dev .ctrlExt 0 ||| s.cfg.mask .nsDis) ++
  readModifyWrite (s.regAddr dev .dcarxctrl q) (s.regOf dev .dcarxctrl q)
    (insertField (s.regOf dev .dcarxctrl q) (s.cfg.mask .rsvdReq) s.cfg.rsvdReqValue)

/-- The enable bit answers. -/
theorem inputEnabled_polls (h : Accessible s dev) :
    Does s dev (s.inputAnswered dev p) (poll 12 dev .rxdctlEnable s.cfg.rxQueue true) true
      [.mmioRead (s.regAddr dev .rxdctl s.cfg.rxQueue) (s.inputEnabled dev)] 0 (s.inputAnswered dev p) :=
  poll_passes_of_set h 12 (Config.rxQueue_indexOk h.standard.1 rfl) (by decide) (Function.update_self ..)
    (or_and_ne_zero (Config.enable_ne_zero h.standard).1)

/-- The first tail hands over every slot but one. -/
theorem firstTail_does (h : Accessible s dev) {g : Nat → W32} :
    Does s dev g (regWrite 14 dev .rdt s.cfg.rxQueue (BitVec.ofNat 32 (s.cfg.ringSize - 1))) ()
      [.mmioWrite (s.regAddr dev .rdt s.cfg.rxQueue) (BitVec.ofNat 32 (s.cfg.ringSize - 1))] 0
      (Function.update g (s.cfg.off .rdt s.cfg.rxQueue) (BitVec.ofNat 32 (s.cfg.ringSize - 1))) :=
  h.regWrite 14 (Config.rxQueue_indexOk h.standard.1 rfl) rfl

/-- The receive path is told to drain. -/
theorem haltInput_does (h : Accessible s dev) :
    Does s dev (Function.update (s.inputAnswered dev p) (s.cfg.off .rdt s.cfg.rxQueue)
        (BitVec.ofNat 32 (s.cfg.ringSize - 1))) (regSet 15 dev .rxDis 0) ()
      (readModifyWrite (s.regAddr dev .secrxctrl 0) (s.regOf dev .secrxctrl 0) (s.inputHeld dev)) 0
      (s.inputHalted dev p) := by
  have hc := h.standard
  have hq {r : DevReg} (hr : r.indexCount s.cfg = some s.cfg.rxQueueCount) := Config.rxQueue_indexOk hc.1 hr
  refine h.regSet (f := .rxDis) 15 rfl rfl (by decide) ?_
  rw [DevField.reg, update_other hc (by decide) (hq rfl) rfl, State.inputAnswered,
    update_other hc (by decide) (hq rfl) rfl, State.inputProgrammed_other hc (by decide) rfl]

theorem State.inputHalted_status (hc : StandardConfig s.cfg) :
    s.inputHalted dev p (s.cfg.off .secrxstat 0) = s.regOf dev .secrxstat 0 :=
  (State.inputHalted_other hc (by decide) rfl).trans (State.inputProgrammed_other hc (by decide) rfl)

theorem inputDrained_polls (h : Accessible s dev) (hready : s.fieldOf dev .secrxRdy 0 ≠ 0) :
    Does s dev (s.inputHalted dev p) (poll 17 dev .secrxRdy 0 true) true
      [.mmioRead (s.regAddr dev .secrxstat 0) (s.regOf dev .secrxstat 0)] 0 (s.inputHalted dev p) :=
  poll_passes_of_set (f := .secrxRdy) h 17 rfl (by decide) (State.inputHalted_status h.standard)
    (mt extract_eq_zero_iff.2 hready)

/-- What follows the writing of the enable bit, on a device whose receive path drains. -/
theorem openInput_does (h : Accessible s dev) (hready : s.fieldOf dev .secrxRdy 0 ≠ 0) :
    Does s dev (s.inputAnswered dev p) (openInput dev s.cfg.rxQueue s.cfg) () (s.openInputAccesses dev) 0
      (s.inputStarted dev p) := by
  have hc := h.standard
  have hq := Config.rxQueue_indexOk (r := .dcarxctrl) hc.1 rfl
  have held {r : DevReg} {i : Nat} (hr : r ∉ [.rdbah, .rdbal, .rdlen, .srrctl] ++ [.rxdctl, .rdt, .secrxctrl])
      (hi : r.indexOk s.cfg i = true) : s.inputHalted dev p (s.cfg.off r i) = s.regOf dev r i :=
    have ⟨hr, hr'⟩ := not_or.1 (mt List.mem_append.2 hr)
    (State.inputHalted_other hc hr' hi).trans (State.inputProgrammed_other hc hr hi)
  refine .cast (.bind (inputEnabled_polls h) (.ite_neg (by decide) (.bind (firstTail_does h) (.bind (haltInput_does h)
    (.bind (inputDrained_polls h hready) (.ite_neg (by decide)
    (.bind (h.regSet (f := .rxen) (old := s.regOf dev .rxctrl 0) 19 rfl rfl (by decide) ?_)
    (.bind (h.regWriteField (f := .rxDis) (old := s.inputHeld dev) 21 rfl rfl (by decide) ?_)
    (.bind (h.regSet (f := .nsDis) (old := s.regOf dev .ctrlExt 0) 23 rfl rfl (by decide) ?_)
    (h.regWriteField (f := .rsvdReq) (old := s.regOf dev .dcarxctrl s.cfg.rxQueue) 25 hq rfl
      (by decide) ?_)))))))))) ?_ rfl
  · exact held (by decide) rfl
  · simp only [DevField.reg]
    rw [update_other hc (by decide) rfl rfl, (State.inputHalted_reads hc).2.2]
  · simp only [DevField.reg]
    rw [update_other hc (by decide) rfl rfl, update_other hc (by decide) rfl rfl, held (by decide) rfl]
  · simp only [DevField.reg]
    rw [update_other hc (by decide) rfl hq, update_other hc (by decide) rfl hq, update_other hc (by decide) rfl hq,
      held (by decide) hq]
  · simp only [State.openInputAccesses, List.append_assoc]
    rfl

/-- The accesses of BIND_INPUT are those of its parts. -/
theorem bindInputAccesses_eq (s : State) (dev : BitVec 8) (p : W64) :
    bindInputAccesses s dev p =
      [.mmioRead (s.regAddr dev .rxdctl s.cfg.rxQueue) (s.regOf dev .rxdctl s.cfg.rxQueue)] ++
        s.programInputAccesses dev p ++
        readModifyWrite (s.regAddr dev .rxdctl s.cfg.rxQueue) (s.regOf dev .rxdctl s.cfg.rxQueue)
          (s.inputEnabled dev) ++
        s.openInputAccesses dev := by
  simp only [State.programInputAccesses, State.openInputAccesses, List.append_assoc]
  rfl

theorem State.inputProgrammed_rxdctl (hc : StandardConfig s.cfg) :
    s.inputProgrammed dev p (s.cfg.off .rxdctl s.cfg.rxQueue) = s.regOf dev .rxdctl s.cfg.rxQueue :=
  State.inputProgrammed_other hc (by decide) (Config.rxQueue_indexOk hc.1 rfl)

/-- The queue is not in use: one read. -/
theorem inputIdle_does (h : Accessible s dev) (hfree : s.fieldOf dev .rxdctlEnable s.cfg.rxQueue = 0) :
    Does s dev (s.registers dev) (regIsCleared 1 dev .rxdctlEnable s.cfg.rxQueue) true
      [.mmioRead (s.regAddr dev .rxdctl s.cfg.rxQueue) (s.regOf dev .rxdctl s.cfg.rxQueue)] 0 (s.registers dev) := by
  have hread := h.regIsCleared (g := s.registers dev) (f := .rxdctlEnable) (i := s.cfg.rxQueue) 1
    (Config.rxQueue_indexOk h.standard.1 rfl) (by decide)
  have hclear : (extract (s.registers dev (s.cfg.off .rxdctl s.cfg.rxQueue)) (s.cfg.mask .rxdctlEnable) == 0) = true :=
    beq_iff_eq.2 hfree
  rwa [DevField.reg, hclear] at hread

/-- BIND_INPUT with no input bound and the queue not in use. -/
theorem bindInput_idle {t : State} (hv : s.eng.rtaV = false)
    (hread : regIsCleared 1 dev .rxdctlEnable s.cfg.rxQueue s = .ok true t) :
    bindInput dev s = (programInput dev s.cfg.rxQueue >>= fun _ => startInput dev s.cfg.rxQueue >>= fun _ =>
      change fun u =>
        { u.setHandle dev { u.handle dev with rxBound := true } with
          eng := { u.eng with
            rta := (u.handle dev).base + BitVec.ofNat 64 (u.cfg.off .rdt s.cfg.rxQueue), rtaV := true } }) t := by
  rw [bindInput, Micro.look_bind, if_neg (by rw [id, hv]; decide)]
  exact Micro.run_bind_ok hread

/-- The input bound on a device that answers at once, and whose receive path drains. -/
theorem bindInput_run (hr : Responsive s dev) (hv : s.eng.rtaV = false)
    (hfree : s.fieldOf dev .rxdctlEnable s.cfg.rxQueue = 0) (hp : s.v2p s.eng.ring[0] = some p)
    (hready : s.fieldOf dev .secrxRdy 0 ≠ 0) :
    ∃ u, bindInput dev s = .ok () (u.markInput dev) ∧
      Holding s dev (s.inputStarted dev p) (bindInputAccesses s dev p) 0 u ∧
      (u.nic (s.handle dev).bdf).rxHead s.cfg.rxQueue = 0 := by
  have h := hr.accessible
  have hq := Config.rxQueue_lt h.standard.1
  obtain ⟨t1, hidle, h1⟩ := inputIdle_does h hfree _ _ s (.start s dev)
  obtain ⟨t2, hprogram, h2⟩ := programInput_does h hp _ _ t1 h1
  obtain ⟨t3, henable, h3, hhead⟩ := enableInput_run hr 10 hq h2 (State.inputProgrammed_rxdctl h.standard)
    (extract_eq_zero_iff.1 hfree)
  obtain ⟨u, hopen, hu⟩ := openInput_does h hready _ _ t3 h3
  rw [List.nil_append, ← State.inputEnabled, ← bindInputAccesses_eq] at hu
  have hkept : Leads (NicKeeps (fun n => n.rxHead s.cfg.rxQueue = 0) (s.handle dev).bdf)
      (openInput dev s.cfg.rxQueue s.cfg) := openInput_leads (NicKeeps.registerOps (rxHead_kept _) _ _) _ _
  have hzero := (hkept t3 (h.holding h3).quiet).2 hhead
  rw [hopen] at hzero
  refine ⟨u, ?_, hu, hzero⟩
  have hstart : startInput dev s.cfg.rxQueue t2 = .ok () u := by
    rw [startInput_eq, Micro.look_bind, h2.only.cfg]
    exact (Micro.run_bind_ok henable).trans hopen
  rw [bindInput_idle hv hidle]
  refine (Micro.run_bind_ok hprogram).trans ((Micro.run_bind_ok hstart).trans ?_)
  rw [Micro.run_change, ← hu.only.cfg]
  rfl

end

end Sys2Proof.Machine
end

section
/-! SUPPORT. BIND_INPUT as a whole, where no other agent moves (R270, R279): how it completes, and each way in which it
fails. -/

namespace Sys2Proof.Machine

section
variable {s : State} {dev : BitVec 8} {p : W64}

/-- The registers that are not written. -/
theorem State.inputStarted_frame {off : Nat} (h : off ∉ [s.cfg.off .rdbah s.cfg.rxQueue, s.cfg.off .rdbal s.cfg.rxQueue,
      s.cfg.off .rdlen s.cfg.rxQueue, s.cfg.off .srrctl s.cfg.rxQueue, s.cfg.off .rxdctl s.cfg.rxQueue,
      s.cfg.off .rdt s.cfg.rxQueue, s.cfg.off .secrxctrl 0, s.cfg.off .rxctrl 0, s.cfg.off .ctrlExt 0,
      s.cfg.off .dcarxctrl s.cfg.rxQueue]) : s.inputStarted dev p off = s.registers dev off := by
  simp only [List.mem_cons, List.not_mem_nil, or_false, not_or] at h
  obtain ⟨hrdbah, hrdbal, hrdlen, hsrrctl, hrxdctl, hrdt, hsecrxctrl, hrxctrl, hctrlExt, hdcarxctrl⟩ := h
  rw [State.inputStarted, Function.update_of_ne hdcarxctrl, Function.update_of_ne hctrlExt,
    Function.update_of_ne hsecrxctrl, Function.update_of_ne hrxctrl, State.inputHalted,
    Function.update_of_ne hsecrxctrl, Function.update_of_ne hrdt, State.inputAnswered, Function.update_of_ne hrxdctl,
    State.inputProgrammed, Function.update_of_ne hsrrctl, Function.update_of_ne hrdlen, Function.update_of_ne hrdbal,
    Function.update_of_ne hrdbah]

end

/-- An initialized device is mapped (R43). -/
theorem accessible_of_initialized {s : State} {dev : BitVec 8} (i : Instr) (hq : s.quiet) (hc : StandardConfig s.cfg)
    (hs : s.settled dev) (hl : (s.handle dev).ls = .initialized) : Accessible (s.start i) dev :=
  have hm : (s.handle dev).mapped = true := Handle.mapped_iff.2 (by rw [hl]; decide)
  ⟨hq, hc, hm, hs⟩

/-- Settles O38: the four parts of BIND_INPUT one after the other; the head is 0 from the enabling write on. -/
theorem bindInputCompletes : Obligations.BindInputCompletes := by
  intro s dev p hq hc hs hprompt ha hv hfree hp hready q m old
  have h := accessible_of_initialized (.bindInput dev) hq hc hs ha.2.2
  obtain ⟨u, hrun, hu, hhead⟩ := bindInput_run ⟨h.quiet, h.standard, h.mapped, h.settled, hprompt⟩ hv hfree hp hready
  have hframe : OnlyNic s u (s.handle dev).bdf := hu.only.of_start
  have hrta : (u.markInput dev).eng = { s.eng with rta := s.regAddr dev .rdt q, rtaV := true } := by
    rw [State.markInput, hframe.engine.2, hframe.handle, hframe.cfg]
    rfl
  generalize ht : (u.markInput dev).respond resOk 0 0 = t
  have hhandle : t.handle dev = { s.handle dev with rxBound := true } := by
    rw [← ht, ← hframe.handle]
    exact State.handle_setHandle_self ..
  have hbdf : (t.handle dev).bdf = (s.handle dev).bdf := by rw [hhandle]
  have after (r : DevReg) (i : Nat) : t.regOf dev r i = s.inputStarted dev p (s.cfg.off r i) :=
    hu.regOf_after (ht ▸ rfl) (ht ▸ rfl) hbdf r i
  have hok {r : DevReg} (hr : r.indexCount s.cfg = some s.cfg.rxQueueCount) := Config.rxQueue_indexOk hc.1 hr
  have halted {r : DevReg} {i : Nat} (hr : r ∉ [.rxctrl, .secrxctrl, .ctrlExt, .dcarxctrl])
      (hi : r.indexOk s.cfg i = true) : t.regOf dev r i = s.inputHalted dev p (s.cfg.off r i) :=
    (after r i).trans (State.inputStarted_other hc hr hi)
  have programmed {r : DevReg} {i : Nat}
      (hr : r ∉ [.rxctrl, .secrxctrl, .ctrlExt, .dcarxctrl] ++ [.rxdctl, .rdt, .secrxctrl])
      (hi : r.indexOk s.cfg i = true) : t.regOf dev r i = s.inputProgrammed dev p (s.cfg.off r i) :=
    have ⟨hr, hr'⟩ := not_or.1 (mt List.mem_append.2 hr)
    (halted hr hi).trans (State.inputHalted_other hc hr' hi)
  obtain ⟨hrdbah, hrdbal, hrdlen, hsrrctl⟩ := State.inputProgrammed_reads (dev := dev) (p := p) hc
  obtain ⟨hrxdctl, hrdt, -⟩ := State.inputHalted_reads (dev := dev) (p := p) hc
  obtain ⟨hrxctrl, hsecrxctrl, hctrlExt, hdcarxctrl⟩ := State.inputStarted_reads (dev := dev) (p := p) hc
  refine ⟨t, ht ▸ exec_ok (v := noValues) ha (Micro.run_bind_ok hrun), ht ▸ ⟨rfl, rfl⟩, ht ▸ hframe.engine.1,
    ht ▸ hrta, hhandle, fun d hd => ?_, ht ▸ hu.made, ht ▸ hframe.environment,
    ht ▸ ⟨fun a => congrArg (Memory.read · a) hframe.memory, hframe.blocks⟩, ht ▸ hframe.answers, ht ▸ hframe.nics,
    (programmed (by decide) (hok rfl)).trans hrdbah, (programmed (by decide) (hok rfl)).trans hrdbal,
    (programmed (by decide) (hok rfl)).trans hrdlen, (programmed (by decide) (hok rfl)).trans hsrrctl,
    (halted (by decide) (hok rfl)).trans hrxdctl, (halted (by decide) (hok rfl)).trans hrdt, ht ▸ hhead,
    (after _ _).trans hsecrxctrl, (after _ _).trans hrxctrl, (after _ _).trans hctrlExt, (after _ _).trans hdcarxctrl,
    fun off hoff => (hu.reg_after (ht ▸ rfl) (ht ▸ rfl) off).trans (State.inputStarted_frame hoff)⟩
  rw [← ht, ← hframe.handle d]
  exact (State.handle_setHandle u dev d _).trans (if_neg hd)

/-! How it fails (R279). -/

section
variable {s : State} {dev : BitVec 8} {p : W64}

/-- A receive path that does not drain. -/
theorem inputDrained_times_out (h : Accessible s dev) (hready : s.fieldOf dev .secrxRdy 0 = 0) :
    ∃ l, Does s dev (s.inputHalted dev p) (poll 17 dev .secrxRdy 0 true) false l s.cfg.tPoll (s.inputHalted dev p) :=
  poll_times_out_of_clear (f := .secrxRdy) h 17 rfl (by decide) (State.inputHalted_status h.standard)
    (extract_eq_zero_iff.1 hready)

/-- The registers where BIND_INPUT times out: programmed, and halted too if the enable bit answered. -/
def State.InputAbandoned (s : State) (dev : BitVec 8) (p : W64) (g : Nat → W32) : Prop :=
  (s.prompt dev ∧ g = s.inputHalted dev p) ∨ (¬ s.prompt dev ∧ g = s.inputProgrammed dev p)

/-- A register that is programmed before the queue is enabled. -/
theorem State.InputAbandoned.programmed {g : Nat → W32} (hg : s.InputAbandoned dev p g) (hc : StandardConfig s.cfg)
    {r : DevReg} {i : Nat} (hr : r ∉ [.rxdctl, .rdt, .secrxctrl]) (hi : r.indexOk s.cfg i = true) :
    g (s.cfg.off r i) = s.inputProgrammed dev p (s.cfg.off r i) := by
  rcases hg with ⟨-, rfl⟩ | ⟨-, rfl⟩
  · exact State.inputHalted_other hc hr hi
  · rfl

theorem State.InputAbandoned.frame {g : Nat → W32} (hg : s.InputAbandoned dev p g) {off : Nat}
    (hprogram : off ∉ [s.cfg.off .rdbah s.cfg.rxQueue, s.cfg.off .rdbal s.cfg.rxQueue, s.cfg.off .rdlen s.cfg.rxQueue,
      s.cfg.off .srrctl s.cfg.rxQueue])
    (hhalt : ¬ (s.prompt dev ∧
      off ∈ [s.cfg.off .rxdctl s.cfg.rxQueue, s.cfg.off .rdt s.cfg.rxQueue, s.cfg.off .secrxctrl 0])) :
    g off = s.registers dev off := by
  have programmed : s.inputProgrammed dev p off = s.registers dev off := by
    simp only [List.mem_cons, List.not_mem_nil, or_false, not_or] at hprogram
    obtain ⟨hrdbah, hrdbal, hrdlen, hsrrctl⟩ := hprogram
    rw [State.inputProgrammed, Function.update_of_ne hsrrctl, Function.update_of_ne hrdlen,
      Function.update_of_ne hrdbal, Function.update_of_ne hrdbah]
  rcases hg with ⟨hprompt, rfl⟩ | ⟨-, rfl⟩
  · have halted := fun hmem => hhalt ⟨hprompt, hmem⟩
    simp only [List.mem_cons, List.not_mem_nil, or_false] at halted
    rw [State.inputHalted, Function.update_of_ne fun e => halted (.inr (.inr e)),
      Function.update_of_ne fun e => halted (.inr (.inl e)), State.inputAnswered,
      Function.update_of_ne fun e => halted (.inl e), programmed]
  · exact programmed

/-- On a device that answers the enable bit the receive path does not drain; the other does not answer it. -/
theorem startInput_times_out (h : Accessible s dev) (hfree : s.fieldOf dev .rxdctlEnable s.cfg.rxQueue = 0)
    (hlate : ¬ s.prompt dev ∨ s.fieldOf dev .secrxRdy 0 = 0) :
    ∃ f l d g, Failure.res f = 2 ∧ s.cfg.tPoll ≤ d ∧ s.InputAbandoned dev p g ∧
      Breaks s dev (s.inputProgrammed dev p) (startInput dev s.cfg.rxQueue) f l d g := by
  have hq := Config.rxQueue_lt h.standard.1
  have hheld := State.inputProgrammed_rxdctl (dev := dev) (p := p) h.standard
  rw [startInput_eq]
  by_cases hprompt : s.prompt dev
  · have hr : Responsive s dev := ⟨h.quiet, h.standard, h.mapped, h.settled, hprompt⟩
    have henable : Does s dev (s.inputProgrammed dev p) (regSet 10 dev .rxdctlEnable s.cfg.rxQueue) () _ 0
        (s.inputAnswered dev p) := fun l0 d0 t ht =>
      have ⟨u, hrun, hu, _⟩ := enableInput_run hr 10 hq ht hheld (extract_eq_zero_iff.1 hfree)
      ⟨u, hrun, hu⟩
    obtain ⟨l, hpoll⟩ := inputDrained_times_out (p := p) h (hlate.resolve_left (not_not.2 hprompt))
    refine ⟨.hwTimeout .secrxRdy 0 true, _, _, _, rfl, ?_, .inl ⟨hprompt, rfl⟩, .look_bind (fun _ h => h)
      (henable.breaks ((inputEnabled_polls h).breaks (.ite_neg (by decide) ((firstTail_does h).breaks
      ((haltInput_does h).breaks (hpoll.breaks (.ite_pos (by decide) (Breaks.raise.bind _))))))))⟩
    omega
  · obtain ⟨l, hpoll⟩ := poll_times_out_of_clear (f := .rxdctlEnable) h 12 (indexOk_of_lt rfl hq) (by decide) hheld
      (extract_eq_zero_iff.1 hfree)
    refine ⟨.hwTimeout .rxdctlEnable s.cfg.rxQueue true, _, _, _, rfl, ?_, .inr ⟨hprompt, rfl⟩,
      .look_bind (fun _ h => h)
      ((enableInput_unanswered h hprompt 10 hq hheld).breaks (hpoll.breaks
      (.ite_pos (by decide) (Breaks.raise.bind _))))⟩
    omega

/-- The queue is in use: nothing is done but the one read. -/
theorem bindInput_inUse (h : Accessible s dev) (hv : s.eng.rtaV = false)
    (hused : s.fieldOf dev .rxdctlEnable s.cfg.rxQueue ≠ 0) :
    bindInput dev s = .error (.raise (.preconditionFail .rxQueueInUse)) (s.accessed 1
      (.mmioRead (s.regAddr dev .rxdctl s.cfg.rxQueue) (s.regOf dev .rxdctl s.cfg.rxQueue))) := by
  have hread := regIsCleared_settled (f := .rxdctlEnable) 1 h (Config.rxQueue_indexOk h.standard.1 rfl) (by decide)
  rw [beq_eq_false_iff_ne.2 hused] at hread
  rw [bindInput, Micro.look_bind, if_neg (by rw [id, hv]; decide)]
  exact Micro.run_bind_ok hread

/-- The ring is not translated: nothing is done but the read and the translation. -/
theorem bindInput_untranslated (h : Accessible s dev) (hv : s.eng.rtaV = false)
    (hfree : s.fieldOf dev .rxdctlEnable s.cfg.rxQueue = 0) (hp : s.v2p s.eng.ring[0] = none) :
    bindInput dev s = .error (.raise (.allocFail (.translateRing 0))) ((s.accessed 1
      (.mmioRead (s.regAddr dev .rxdctl s.cfg.rxQueue) (s.regOf dev .rxdctl s.cfg.rxQueue))).accessed 2
      (.v2p s.eng.ring[0] none)) := by
  have hread := regIsCleared_settled (f := .rxdctlEnable) 1 h (Config.rxQueue_indexOk h.standard.1 rfl) (by decide)
  rw [beq_iff_eq.2 hfree] at hread
  rw [bindInput_idle hv hread]
  refine Micro.run_bind_error ?_
  rw [programInput, Micro.look_bind]
  exact Micro.run_bind_error (v2pOrRaise_untranslated 2 _ h.quiet hp)

/-- The device does not answer in time. -/
theorem bindInput_times_out (h : Accessible s dev) (hv : s.eng.rtaV = false)
    (hfree : s.fieldOf dev .rxdctlEnable s.cfg.rxQueue = 0) (hp : s.v2p s.eng.ring[0] = some p)
    (hlate : ¬ s.prompt dev ∨ s.fieldOf dev .secrxRdy 0 = 0) :
    ∃ f l d g u, Failure.res f = 2 ∧ s.cfg.tPoll ≤ d ∧ s.InputAbandoned dev p g ∧
      bindInput dev s = .error (.raise f) u ∧ Holding s dev g l d u := by
  obtain ⟨t1, hidle, h1⟩ := inputIdle_does h hfree _ _ s (.start s dev)
  obtain ⟨f, l, d, g, hres, hd, hg, hbreaks⟩ := startInput_times_out (p := p) h hfree hlate
  obtain ⟨t2, hprogram, h2⟩ := programInput_does h hp _ _ t1 h1
  obtain ⟨u, hrun, hu⟩ := hbreaks _ _ t2 h2
  refine ⟨f, _, _, g, u, hres, ?_, hg, ?_, hu⟩
  · omega
  · rw [bindInput_idle hv hidle]
    exact (Micro.run_bind_ok hprogram).trans (Micro.run_bind_error hrun)

end

/-- A command on a device that raises after accesses of the device alone. -/
theorem exec_raise_frame {s u : State} {i : Instr} {f : Failure} {dev : BitVec 8} (ha : accepts i s)
    (hrun : body i (s.start i) = .error (.raise f) u) (hu : OnlyNic (s.start i) u (s.handle dev).bdf) :
    exec i s = .next (u.takeFailure f) ∧ (u.takeFailure f).answered f.res 0 0 ∧
      DeviceFrame s (u.takeFailure f) dev (s.handle dev).bdf ∧ SameHandles s (u.takeFailure f) :=
  have hframe := hu.of_start.respond f.res 0 0
  ⟨exec_raise ha hrun, ⟨rfl, rfl⟩, hframe.deviceFrame dev, hframe.sameHandles⟩

/-- Settles O39, by what is found first: an input bound, the queue in use, the ring not translated, no answer. -/
theorem bindInputRejects : Obligations.BindInputRejects := by
  intro s dev ha
  have accessible (hq : s.quiet) (hc : StandardConfig s.cfg) (hs : s.settled dev) :=
    accessible_of_initialized (.bindInput dev) hq hc hs ha.2.2
  have unchanged (hread : Access) : OnlyNic (s.start (.bindInput dev)) ((s.start (.bindInput dev)).accessed 1 hread)
      (s.handle dev).bdf := (OnlyNic.refl _ _).accessed 1 hread
  refine ⟨fun hv => ?_, fun hq hc hs hv hused => ?_, fun hq hc hs hv hfree hp => ?_,
    fun p hq hc hs hv hfree hp hlate => ?_⟩
  · have hrun : bindInput dev (s.start (.bindInput dev)) =
        .error (.raise (.preconditionFail .inputBound)) (s.start (.bindInput dev)) := by
      rw [bindInput, Micro.look_bind, if_pos (show (id (s.start _)).eng.rtaV = true from hv), Micro.raise_bind]
    exact exec_raise ha (Micro.run_bind_error hrun)
  · obtain ⟨hexec, hanswer, hframe, hhandles⟩ := exec_raise_frame ha
      (Micro.run_bind_error (bindInput_inUse (accessible hq hc hs) hv hused)) (unchanged _)
    exact ⟨_, hexec, hanswer, hframe, hhandles, sameNics_of_nics rfl, rfl⟩
  · obtain ⟨hexec, hanswer, hframe, hhandles⟩ := exec_raise_frame ha
      (Micro.run_bind_error (bindInput_untranslated (accessible hq hc hs) hv hfree hp)) ((unchanged _).accessed 2 _)
    exact ⟨_, hexec, hanswer, hframe, hhandles, sameNics_of_nics rfl⟩
  · intro q m old
    obtain ⟨f, l, d, g, u, hres, hd, hg, hrun, hu⟩ := bindInput_times_out (accessible hq hc hs) hv hfree hp hlate
    obtain ⟨hexec, hanswer, hframe, hhandles⟩ := exec_raise_frame (dev := dev) ha (Micro.run_bind_error hrun) hu.only
    rw [hres] at hanswer
    generalize ht : u.takeFailure f = t at hexec hanswer hframe hhandles
    have hg : s.InputAbandoned dev p g := hg
    have after (r : DevReg) (i : Nat) : t.regOf dev r i = g (s.cfg.off r i) :=
      hu.regOf_after (ht ▸ rfl) (ht ▸ rfl) (congrArg Handle.bdf (hhandles dev)) r i
    have hok {r : DevReg} (hr : r.indexCount s.cfg = some s.cfg.rxQueueCount) := Config.rxQueue_indexOk hc.1 hr
    have programmed {r : DevReg} {i : Nat} (hr : r ∉ [.rxdctl, .rdt, .secrxctrl]) (hi : r.indexOk s.cfg i = true) :
        t.regOf dev r i = s.inputProgrammed dev p (s.cfg.off r i) := (after r i).trans (hg.programmed hc hr hi)
    obtain ⟨hrdbah, hrdbal, hrdlen, hsrrctl⟩ := State.inputProgrammed_reads (dev := dev) (p := p) hc
    refine ⟨t, hexec, hanswer, hframe, hhandles, ?_, (programmed (by decide) (hok rfl)).trans hrdbah,
      (programmed (by decide) (hok rfl)).trans hrdbal, (programmed (by decide) (hok rfl)).trans hrdlen,
      (programmed (by decide) (hok rfl)).trans hsrrctl, fun hprompt => ?_, fun off hoff => ?_⟩
    · have hwaited : s.now + d ≤ t.now := ht ▸ hu.waited
      have hd : s.cfg.tPoll ≤ d := hd
      omega
    · obtain ⟨hrxdctl, hrdt, hsecrxctrl⟩ := State.inputHalted_reads (dev := dev) (p := p) hc
      obtain rfl : g = s.inputHalted dev p := hg.elim And.right fun h => absurd hprompt h.1
      exact ⟨(after _ _).trans hrxdctl, (after _ _).trans hrdt, (after _ _).trans hsecrxctrl⟩
    · obtain ⟨hprogram, hhalt⟩ := not_or.1 hoff
      exact (hu.reg_after (ht ▸ rfl) (ht ▸ rfl) off).trans (hg.frame hprogram hhalt)

end Sys2Proof.Machine
end

section
/-! SUPPORT. The ring of an output filled with the addresses of its buffers, where no other agent moves (R283, R284). -/

namespace Sys2Proof.Machine

/-! Shared memory where no other agent moves (R76). -/

theorem memRead_quiet {t : State} {a : W64} {n : Nat} (line : Nat) (acq : Bool) (hq : t.quiet)
    (h : t.memExists a.toNat n = true) :
    memRead line acq a n t = .ok (BitVec.ofNat 64 (Memory.readLE t.mem a.toNat n))
      (t.accessed line (.memRead acq a n (BitVec.ofNat 64 (Memory.readLE t.mem a.toNat n)))) := by
  rw [memRead_run line acq h, State.boundary_eq_self hq]
  rfl

/-- After a write to memory, in which no other agent moves. -/
def State.stored (s : State) (line : Nat) (rel : Bool) (a : W64) (n : Nat) (v : W64) : State :=
  { s.accessed line (.memWrite rel a n v) with mem := Memory.writeLE s.mem a.toNat n v.toNat }

theorem memWrite_quiet {t : State} {a : W64} {n : Nat} (line : Nat) (rel : Bool) (v : W64) (hq : t.quiet)
    (h : t.memExists a.toNat n = true) : memWrite line rel a n v t = .ok () (t.stored line rel a n v) := by
  rw [memWrite_run line rel v h, State.boundary_eq_self hq]
  rfl

/-! Where slots and buffers lie. -/

section
variable {s : State}

/-- Word 0 of a slot of a ring, as a number: no address of a ring wraps around. -/
theorem Built.word0_toNat (h : Built s) (n : Fin 4) {i : Nat} (hi : i < s.cfg.ringSize) :
    (s.eng.wordAddr n (BitVec.ofNat 64 i) 0).toNat = s.eng.ring[n].toNat + 16 * i := by
  obtain ⟨b, hb, hbase, hsize⟩ := h.ring_block n
  obtain ⟨-, hend, -⟩ := h.whole.blocks.inside b hb
  rw [hbase, hsize, ringBytes, descSize] at hend
  rw [Engine.wordAddr, BitVec.toNat_add, BitVec.toNat_ofNat, BitVec.toNat_ofNat, descSize]
  omega

/-- The number of a slot is a number of 64 bits. -/
theorem Built.slot_lt (h : Built s) {i : Nat} (hi : i < s.cfg.ringSize) : (BitVec.ofNat 64 i).toNat = i := by
  have hle := (Config.ringSize_bounds h.legal).2
  rw [BitVec.toNat_ofNat]
  omega

theorem Built.bufAddr_eq (h : Built s) {i : Nat} (hi : i < s.cfg.ringSize) :
    s.eng.bufAddr s.cfg (BitVec.ofNat 64 i) = s.eng.buf + BitVec.ofNat 64 (s.cfg.bufSize * i) := by
  rw [Engine.bufAddr, h.slot_lt hi]

/-- No buffer has a byte in a ring (R352). -/
theorem Built.buffer_outside (h : Built s) (n : Fin 4) {i k : Nat} (hi : i < s.cfg.ringSize) (hk : k < s.cfg.ringSize) :
    let a := (s.eng.buf + BitVec.ofNat 64 (s.cfg.bufSize * k)).toNat
    a < s.eng.ring[n].toNat + 16 * i ∨ s.eng.ring[n].toNat + 16 * i + 8 ≤ a := by
  have hsize := (Config.sizes_pos h.legal).1
  have hpool : s.hasBlock s.eng.buf (s.cfg.ringSize * s.cfg.bufSize) :=
    h.engine.live (s.eng.buf, _) (by simp [engineRegions])
  have hinside : s.cfg.bufSize * k + s.cfg.bufSize ≤ s.cfg.ringSize * s.cfg.bufSize := by
    calc s.cfg.bufSize * k + s.cfg.bufSize = (k + 1) * s.cfg.bufSize := by ring
      _ ≤ s.cfg.ringSize * s.cfg.bufSize := Nat.mul_le_mul_right _ hk
  have hapart : apart (s.eng.ring[n], ringBytes s.cfg) (s.eng.buf, s.cfg.ringSize * s.cfg.bufSize) :=
    (List.pairwise_append.1 h.engine.disjoint).2.2 _ (by simp) _ (by simp)
  have hordered := hapart.ordered (by show 0 < ringBytes s.cfg; rw [ringBytes, descSize]; omega)
    (by show 0 < s.cfg.ringSize * s.cfg.bufSize; omega)
  obtain ⟨b, hb, hbase, hblock⟩ := hpool
  obtain ⟨-, hend, -⟩ := h.whole.blocks.inside b hb
  rw [hbase, hblock] at hend
  simp only [ringBytes, descSize] at hordered
  rw [BitVec.toNat_add, BitVec.toNat_ofNat]
  omega

/-! The loop. -/

/-- The accesses of one slot: its buffer translated, word 0 stored, the buffer read. -/
def State.fillAccess (s : State) (n : Fin 4) (pa : Nat → W64) (i : Nat) : List Access :=
  let buf : W64 := s.eng.buf + BitVec.ofNat 64 (s.cfg.bufSize * i)
  [Access.v2p buf (some (pa i)), .memWrite false (s.eng.wordAddr n (BitVec.ofNat 64 i) 0) 8 (pa i),
    .memRead false buf 1 (BitVec.ofNat 64 (Memory.read s.mem buf.toNat).toNat)]

/-- The accesses of the first `k` slots. -/
def State.fillAccesses (s : State) (n : Fin 4) (pa : Nat → W64) (k : Nat) : List Access :=
  ((List.range k).map (s.fillAccess n pa)).flatten

theorem State.fillAccesses_succ (s : State) (n : Fin 4) (pa : Nat → W64) (k : Nat) :
    s.fillAccesses n pa (k + 1) = s.fillAccesses n pa k ++ s.fillAccess n pa k := by
  simp [State.fillAccesses, List.range_succ]

/-- From `s` to `t` the accesses `l` were made, and nothing is changed but word 0 of the first `k` slots of ring `n`. -/
structure Filling (s : State) (n : Fin 4) (pa : Nat → W64) (k : Nat) (l : List Access) (t : State) : Prop where
  environment : SameEnvironment s t
  engine : SameEngine s t
  blocks : t.blocks = s.blocks
  answers : SameAnswers s t
  handles : t.handles = s.handles
  nics : t.nics = s.nics
  now : s.now ≤ t.now
  memory : Memory.wf t.mem = true
  filled : RingFilled s t n pa k
  made : madeBetween s t l

section
variable {t : State} {n : Fin 4} {pa : Nat → W64} {k : Nat} {l : List Access}

theorem Filling.accessed (h : Filling s n pa k l t) (line : Nat) (a : Access) :
    Filling s n pa k (l ++ [a]) (t.accessed line a) :=
  ⟨h.environment, h.engine, h.blocks, h.answers, h.handles, h.nics, Nat.le_trans h.now (Nat.le_add_right _ _), h.memory,
    h.filled, h.made.trans rfl⟩

theorem Filling.quiet (h : Filling s n pa k l t) (hq : s.quiet) : t.quiet := h.environment.2.2.1.trans hq

theorem Filling.v2p (h : Filling s n pa k l t) (a : W64) : t.v2p a = s.v2p a := v2p_of_blocks h.blocks a

theorem Filling.memExists (h : Filling s n pa k l t) (a m : Nat) : t.memExists a m = s.memExists a m := by
  rw [State.memExists, State.memExists, h.blocks]

/-- Word 0 of the next slot is stored. -/
theorem Filling.stored (h : Filling s n pa k l t) (hb : Built s) (hk : k < s.cfg.ringSize) (line : Nat) :
    let a := s.eng.wordAddr n (BitVec.ofNat 64 k) 0
    Filling s n pa (k + 1) (l ++ [.memWrite false a 8 (pa k)]) (t.stored line false a 8 (pa k)) := by
  intro a
  have haddr : a.toNat = s.eng.ring[n].toNat + 16 * k := hb.word0_toNat n hk
  obtain ⟨hwords, hothers⟩ := h.filled
  refine ⟨h.environment, h.engine, h.blocks, h.answers, h.handles, h.nics, Nat.le_trans h.now (Nat.le_add_right _ _),
    Memory.wf_writeLE _ _ _ h.memory, ⟨fun i hi => ?_, fun x hx => ?_⟩, h.made.trans rfl⟩
  · show Memory.readLE (Memory.writeLE t.mem a.toNat 8 (pa k).toNat) _ 8 = _
    rcases Nat.lt_succ_iff_lt_or_eq.1 hi with hlt | rfl
    · rw [Memory.readLE_writeLE_outside _ _ _ _ (by omega), hwords i hlt]
    · rw [← haddr, Memory.readLE_writeLE_self _ _ _ h.memory]
      exact Nat.mod_eq_of_lt (pa i).isLt
  · show Memory.read (Memory.writeLE t.mem a.toNat 8 (pa k).toNat) x = _
    rw [Memory.read_writeLE_outside _ _ _ _ (haddr ▸ hx k (Nat.lt_succ_self k)),
      hothers x fun i hi => hx i (Nat.lt_succ_of_lt hi)]

/-- The first byte of a buffer is as it was. -/
theorem Filling.read_buffer (h : Filling s n pa k l t) (hb : Built s) (hk : k ≤ s.cfg.ringSize) {i : Nat}
    (hi : i < s.cfg.ringSize) :
    let a := (s.eng.buf + BitVec.ofNat 64 (s.cfg.bufSize * i)).toNat
    Memory.readLE t.mem a 1 = (Memory.read s.mem a).toNat := by
  intro a
  rw [Memory.readLE, Memory.readLE, Nat.mul_zero, Nat.add_zero,
    h.filled.2 a fun j hj => hb.buffer_outside n (Nat.lt_of_lt_of_le hj hk) hi]

/-- A slot whose buffer is translated. -/
theorem fillSlot_run (h : Filling s n pa k l t) (hb : Built s) (hq : s.quiet) (hk : k < s.cfg.ringSize)
    (hp : s.v2p (s.eng.buf + BitVec.ofNat 64 (s.cfg.bufSize * k)) = some (pa k)) :
    ∃ u, fillSlot n k t = .ok () u ∧ Filling s n pa (k + 1) (l ++ s.fillAccess n pa k) u := by
  have hslot : (BitVec.ofNat 64 k).toNat < s.cfg.ringSize := (hb.slot_lt hk).symm ▸ hk
  have hbuf := hb.bufAddr_eq hk
  have hbyte := State.memExists_part (k := 0) (m := 1) (hb.bufAddr_exists hslot) (Config.sizes_pos hb.legal).1
  rw [Nat.add_zero, hbuf] at hbyte
  have h1 := h.accessed 2 (.v2p (s.eng.buf + BitVec.ofNat 64 (s.cfg.bufSize * k)) (some (pa k)))
  have h2 := h1.stored hb hk 3
  have hread := memRead_quiet 4 false (h2.quiet hq) ((h2.memExists _ _).trans hbyte)
  rw [h2.read_buffer hb hk hk] at hread
  have h3 := h2.accessed 4 (.memRead false (s.eng.buf + BitVec.ofNat 64 (s.cfg.bufSize * k)) 1
    (BitVec.ofNat 64 (Memory.read s.mem (s.eng.buf + BitVec.ofNat 64 (s.cfg.bufSize * k)).toNat).toNat))
  rw [List.append_assoc, List.append_assoc] at h3
  refine ⟨_, ?_, h3⟩
  rw [fillSlot, Micro.look_bind]
  simp only [id, h.engine.2, h.environment.1, hbuf]
  refine (Micro.run_bind_ok (v2pOrRaise_translated 2 _ (h.quiet hq) ((h.v2p _).trans hp))).trans ?_
  refine (Micro.run_bind_ok (memWrite_quiet 3 false _ (h1.quiet hq)
    ((h1.memExists _ _).trans (hb.wordAddr_exists n hslot (by decide))))).trans ?_
  exact Micro.run_bind_ok hread

/-- A slot whose buffer is not. -/
theorem fillSlot_untranslated (h : Filling s n pa k l t) (hb : Built s) (hq : s.quiet) (hk : k < s.cfg.ringSize)
    (hp : s.v2p (s.eng.buf + BitVec.ofNat 64 (s.cfg.bufSize * k)) = none) :
    ∃ l' u, fillSlot n k t = .error (.raise (.allocFail (.translateBuffer k))) u ∧ Filling s n pa k l' u := by
  refine ⟨_, _, ?_, h.accessed 2 (.v2p (s.eng.buf + BitVec.ofNat 64 (s.cfg.bufSize * k)) none)⟩
  rw [fillSlot, Micro.look_bind]
  simp only [id, h.engine.2, h.environment.1, hb.bufAddr_eq hk]
  exact Micro.run_bind_error (v2pOrRaise_untranslated 2 _ (h.quiet hq) ((h.v2p _).trans hp))

/-- The first `k` slots, whose buffers are translated. -/
theorem fillSlots_run (h : Filling s n pa 0 l t) (hb : Built s) (hq : s.quiet) (hk : k ≤ s.cfg.ringSize)
    (hp : BuffersTranslate s pa k) :
    ∃ u, forEach (List.range k) (fillSlot n) t = .ok () u ∧ Filling s n pa k (l ++ s.fillAccesses n pa k) u := by
  induction k with
  | zero =>
    refine ⟨t, rfl, ?_⟩
    rwa [State.fillAccesses, List.range_zero, List.map_nil, List.flatten_nil, List.append_nil]
  | succ k ih =>
    obtain ⟨u, hrun, hu⟩ := ih (Nat.le_of_succ_le hk) fun i hi => hp i (Nat.lt_succ_of_lt hi)
    obtain ⟨x, hnext, hx⟩ := fillSlot_run hu hb hq hk (hp k (Nat.lt_succ_self k))
    rw [List.append_assoc, ← State.fillAccesses_succ] at hx
    refine ⟨x, ?_, hx⟩
    rw [List.range_succ, forEach_append]
    exact (Micro.run_bind_ok hrun).trans (Micro.run_bind_ok hnext)

/-- The loop ends at the first buffer that is not translated. -/
theorem fillSlots_untranslated (h : Filling s n pa 0 l t) (hb : Built s) (hq : s.quiet) (hk : k < s.cfg.ringSize)
    (hp : BuffersTranslate s pa k) (hnone : s.v2p (s.eng.buf + BitVec.ofNat 64 (s.cfg.bufSize * k)) = none) :
    ∃ f l' u, Failure.res f = 1 ∧ forEach (List.range s.cfg.ringSize) (fillSlot n) t = .error (.raise f) u ∧
      Filling s n pa k l' u := by
  obtain ⟨u, hrun, hu⟩ := fillSlots_run h hb hq (Nat.le_of_lt hk) hp
  obtain ⟨l', x, hfail, hx⟩ := fillSlot_untranslated hu hb hq hk hnone
  obtain ⟨m, hm⟩ := Nat.exists_eq_add_of_lt hk
  refine ⟨.allocFail (.translateBuffer k), l', x, rfl, ?_, hx⟩
  rw [hm, Nat.add_assoc, List.range_add, forEach_append, List.range_succ_eq_map, List.map_cons, Nat.add_zero]
  exact (Micro.run_bind_ok hrun).trans (Micro.run_bind_error hfail)

end

end

end Sys2Proof.Machine
end

section
/-! SUPPORT. BIND_OUTPUT after its ring is filled, where no other agent moves (R285 to R293), part by part: the
accesses of each part, and the registers after it. -/

namespace Sys2Proof.Machine

section
variable {s : State} {dev : BitVec 8} {n : Fin 4} {q : Nat} {p hp : W64}

/-! The registers of each part. -/

/-- The prefetch threshold in the control register of the queue. -/
def State.outputPrefetch (s : State) (dev : BitVec 8) (q : Nat) : W32 :=
  insertField (s.regOf dev .txdctl q) (s.cfg.mask .pthresh) s.cfg.txPthresh

/-- And the host threshold. -/
def State.outputThresholds (s : State) (dev : BitVec 8) (q : Nat) : W32 :=
  insertField (s.outputPrefetch dev q) (s.cfg.mask .hthresh) s.cfg.txHthresh

/-- The registers once the ring at `p` is programmed (R285 to R287). -/
def State.outputProgrammed (s : State) (dev : BitVec 8) (q : Nat) (p : W64) : Nat → W32 :=
  Function.update (Function.update (Function.update (Function.update (s.registers dev)
    (s.cfg.off .tdbah q) (highHalf p))
    (s.cfg.off .tdbal q) (lowHalf p))
    (s.cfg.off .tdlen q) (BitVec.ofNat 32 (ringBytes s.cfg)))
    (s.cfg.off .txdctl q) (s.outputThresholds dev q)

/-- The control register of the write-back, with relaxed ordering off. -/
def State.outputOrdered (s : State) (dev : BitVec 8) (q : Nat) : W32 :=
  insertField (s.regOf dev .dcatxctrl q) (s.cfg.mask .txDescWbRoEn) 0

/-- The registers once the write-back of the head to `hp` is programmed too (R290, R291). -/
def State.headProgrammed (s : State) (dev : BitVec 8) (q : Nat) (p hp : W64) : Nat → W32 :=
  Function.update (Function.update (Function.update (s.outputProgrammed dev q p)
    (s.cfg.off .tdwbah q) (highHalf hp))
    (s.cfg.off .tdwbal q) (lowHalf hp ||| 1))
    (s.cfg.off .dcatxctrl q) (s.outputOrdered dev q)

/-- The registers once transmission is enabled (R292). -/
def State.transmitsEnabled (s : State) (dev : BitVec 8) (q : Nat) (p hp : W64) : Nat → W32 :=
  Function.update (s.headProgrammed dev q p hp) (s.cfg.off .dmatxctl 0)
    (s.regOf dev .dmatxctl 0 ||| s.cfg.mask .te)

/-- The control register of the queue, enabled. -/
def State.outputEnabled (s : State) (dev : BitVec 8) (q : Nat) : W32 :=
  s.outputThresholds dev q ||| s.cfg.mask .txdctlEnable

/-- The registers once the queue is enabled (R293, R345). -/
def State.outputStarted (s : State) (dev : BitVec 8) (q : Nat) (p hp : W64) : Nat → W32 :=
  Function.update (Function.update (s.transmitsEnabled dev q p hp) (s.cfg.off .txdctl q) (s.outputEnabled dev q))
    (s.cfg.off .tdt q) 0

theorem State.outputProgrammed_other (hc : StandardConfig s.cfg) (hq : q < s.cfg.txQueueCount) {r : DevReg} {i : Nat}
    (hr : r ∉ [.tdbah, .tdbal, .tdlen, .txdctl]) (hi : r.indexOk s.cfg i = true) :
    s.outputProgrammed dev q p (s.cfg.off r i) = s.regOf dev r i := by
  simp only [List.mem_cons, List.not_mem_nil, or_false, not_or] at hr
  obtain ⟨htdbah, htdbal, htdlen, htxdctl⟩ := hr
  rw [State.outputProgrammed, update_other hc htxdctl (indexOk_of_lt rfl hq) hi,
    update_other hc htdlen (indexOk_of_lt rfl hq) hi, update_other hc htdbal (indexOk_of_lt rfl hq) hi,
    update_other hc htdbah (indexOk_of_lt rfl hq) hi]
  rfl

/-- A register other than those of the write-back. -/
theorem State.headProgrammed_other (hc : StandardConfig s.cfg) (hq : q < s.cfg.txQueueCount) {r : DevReg} {i : Nat}
    (hr : r ∉ [.tdwbah, .tdwbal, .dcatxctrl]) (hi : r.indexOk s.cfg i = true) :
    s.headProgrammed dev q p hp (s.cfg.off r i) = s.outputProgrammed dev q p (s.cfg.off r i) := by
  simp only [List.mem_cons, List.not_mem_nil, or_false, not_or] at hr
  obtain ⟨htdwbah, htdwbal, hdcatxctrl⟩ := hr
  rw [State.headProgrammed, update_other hc hdcatxctrl (indexOk_of_lt rfl hq) hi,
    update_other hc htdwbal (indexOk_of_lt rfl hq) hi, update_other hc htdwbah (indexOk_of_lt rfl hq) hi]

theorem State.transmitsEnabled_other (hc : StandardConfig s.cfg) {r : DevReg} {i : Nat} (hr : r ≠ .dmatxctl)
    (hi : r.indexOk s.cfg i = true) :
    s.transmitsEnabled dev q p hp (s.cfg.off r i) = s.headProgrammed dev q p hp (s.cfg.off r i) :=
  update_other hc hr rfl hi

theorem State.outputStarted_other (hc : StandardConfig s.cfg) (hq : q < s.cfg.txQueueCount) {r : DevReg} {i : Nat}
    (hr : r ∉ [.txdctl, .tdt]) (hi : r.indexOk s.cfg i = true) :
    s.outputStarted dev q p hp (s.cfg.off r i) = s.transmitsEnabled dev q p hp (s.cfg.off r i) := by
  simp only [List.mem_cons, List.not_mem_nil, or_false, not_or] at hr
  obtain ⟨htxdctl, htdt⟩ := hr
  rw [State.outputStarted, update_other hc htdt (indexOk_of_lt rfl hq) hi,
    update_other hc htxdctl (indexOk_of_lt rfl hq) hi]

theorem State.outputProgrammed_reads (hc : StandardConfig s.cfg) (hq : q < s.cfg.txQueueCount) :
    s.outputProgrammed dev q p (s.cfg.off .tdbah q) = highHalf p ∧
    s.outputProgrammed dev q p (s.cfg.off .tdbal q) = lowHalf p ∧
    s.outputProgrammed dev q p (s.cfg.off .tdlen q) = BitVec.ofNat 32 (ringBytes s.cfg) ∧
    s.outputProgrammed dev q p (s.cfg.off .txdctl q) = s.outputThresholds dev q := by
  have ok {r : DevReg} (hr : r.indexCount s.cfg = some s.cfg.txQueueCount) := indexOk_of_lt hr hq
  refine ⟨?_, ?_, ?_, Function.update_self ..⟩
  · rw [State.outputProgrammed, update_other hc (by decide) (ok rfl) (ok rfl),
      update_other hc (by decide) (ok rfl) (ok rfl), update_other hc (by decide) (ok rfl) (ok rfl),
      Function.update_self]
  · rw [State.outputProgrammed, update_other hc (by decide) (ok rfl) (ok rfl),
      update_other hc (by decide) (ok rfl) (ok rfl), Function.update_self]
  · rw [State.outputProgrammed, update_other hc (by decide) (ok rfl) (ok rfl), Function.update_self]

theorem State.transmitsEnabled_reads (hc : StandardConfig s.cfg) (hq : q < s.cfg.txQueueCount) :
    s.transmitsEnabled dev q p hp (s.cfg.off .tdwbah q) = highHalf hp ∧
    s.transmitsEnabled dev q p hp (s.cfg.off .tdwbal q) = lowHalf hp ||| 1 ∧
    s.transmitsEnabled dev q p hp (s.cfg.off .dcatxctrl q) = s.outputOrdered dev q ∧
    s.transmitsEnabled dev q p hp (s.cfg.off .dmatxctl 0) = s.regOf dev .dmatxctl 0 ||| s.cfg.mask .te := by
  have ok {r : DevReg} (hr : r.indexCount s.cfg = some s.cfg.txQueueCount) := indexOk_of_lt hr hq
  refine ⟨?_, ?_, ?_, Function.update_self ..⟩
  · rw [State.transmitsEnabled_other hc (by decide) (ok rfl), State.headProgrammed,
      update_other hc (by decide) (ok rfl) (ok rfl), update_other hc (by decide) (ok rfl) (ok rfl),
      Function.update_self]
  · rw [State.transmitsEnabled_other hc (by decide) (ok rfl), State.headProgrammed,
      update_other hc (by decide) (ok rfl) (ok rfl), Function.update_self]
  · rw [State.transmitsEnabled_other hc (by decide) (ok rfl), State.headProgrammed, Function.update_self]

/-! The registers that are not written. -/

theorem State.outputProgrammed_frame {off : Nat}
    (h : off ∉ [s.cfg.off .tdbah q, s.cfg.off .tdbal q, s.cfg.off .tdlen q, s.cfg.off .txdctl q]) :
    s.outputProgrammed dev q p off = s.registers dev off := by
  simp only [List.mem_cons, List.not_mem_nil, or_false, not_or] at h
  obtain ⟨htdbah, htdbal, htdlen, htxdctl⟩ := h
  rw [State.outputProgrammed, Function.update_of_ne htxdctl, Function.update_of_ne htdlen,
    Function.update_of_ne htdbal, Function.update_of_ne htdbah]

theorem State.transmitsEnabled_frame {off : Nat}
    (h : off ∉ [s.cfg.off .tdbah q, s.cfg.off .tdbal q, s.cfg.off .tdlen q, s.cfg.off .txdctl q, s.cfg.off .tdwbah q,
      s.cfg.off .tdwbal q, s.cfg.off .dcatxctrl q, s.cfg.off .dmatxctl 0]) :
    s.transmitsEnabled dev q p hp off = s.registers dev off := by
  simp only [List.mem_cons, List.not_mem_nil, or_false, not_or] at h
  obtain ⟨htdbah, htdbal, htdlen, htxdctl, htdwbah, htdwbal, hdcatxctrl, hdmatxctl⟩ := h
  rw [State.transmitsEnabled, Function.update_of_ne hdmatxctl, State.headProgrammed,
    Function.update_of_ne hdcatxctrl, Function.update_of_ne htdwbal, Function.update_of_ne htdwbah,
    State.outputProgrammed_frame (by simp [htdbah, htdbal, htdlen, htxdctl])]

/-! Each part. -/

/-- The accesses that program the ring. -/
def State.programOutputAccesses (s : State) (dev : BitVec 8) (n : Fin 4) (q : Nat) (p : W64) : List Access :=
  [.v2p s.eng.ring[n] (some p), .mmioWrite (s.regAddr dev .tdbah q) (highHalf p),
    .mmioWrite (s.regAddr dev .tdbal q) (lowHalf p),
    .mmioWrite (s.regAddr dev .tdlen q) (BitVec.ofNat 32 (ringBytes s.cfg))] ++
  readModifyWrite (s.regAddr dev .txdctl q) (s.regOf dev .txdctl q) (s.outputPrefetch dev q) ++
  readModifyWrite (s.regAddr dev .txdctl q) (s.outputPrefetch dev q) (s.outputThresholds dev q)

theorem programOutput_does (h : Accessible s dev) (hq : q < s.cfg.txQueueCount) (hp : s.v2p s.eng.ring[n] = some p) :
    Does s dev (s.registers dev) (programOutput dev n q) () (s.programOutputAccesses dev n q p) 0
      (s.outputProgrammed dev q p) := by
  have hc := h.standard
  have ok {r : DevReg} (hr : r.indexCount s.cfg = some s.cfg.txQueueCount) := indexOk_of_lt hr hq
  obtain ⟨hpthresh, hhthresh⟩ := Config.thresholds_beside_enable hc
  refine .look_state fun t ht => ?_
  rw [ht.engine.2, ht.cfg]
  have hhost (g : Nat → W32) := writeThreshold_does (v := s.cfg.txHthresh) h 11 rfl hhthresh hq
    (Function.update_self (s.cfg.off .txdctl q) (s.outputPrefetch dev q) g)
  simp only [Function.update_idem] at hhost
  refine .cast (.bind (h.v2pOrRaise 5 _ hp) (.bind (h.regWrite 6 (ok rfl) rfl) (.bind (h.regWrite 7 (ok rfl) rfl)
    (.bind (h.regWrite 8 (ok rfl) rfl)
    (.bind (writeThreshold_does (old := s.regOf dev .txdctl q) h 9 rfl hpthresh hq ?_) (hhost _)))))) rfl rfl
  rw [update_other hc (by decide) (ok rfl) (ok rfl), update_other hc (by decide) (ok rfl) (ok rfl),
    update_other hc (by decide) (ok rfl) (ok rfl)]
  rfl

/-- The accesses that program the write-back of the head. -/
def State.writeBackAccesses (s : State) (dev : BitVec 8) (n : Fin 4) (q : Nat) (hp : W64) : List Access :=
  [.v2p (s.eng.headAddr s.cfg n) (some hp), .mmioWrite (s.regAddr dev .tdwbah q) (highHalf hp),
    .mmioWrite (s.regAddr dev .tdwbal q) (lowHalf hp ||| 1)] ++
  readModifyWrite (s.regAddr dev .dcatxctrl q) (s.regOf dev .dcatxctrl q) (s.outputOrdered dev q)

theorem programWriteBack_does (h : Accessible s dev) (hq : q < s.cfg.txQueueCount)
    (hhead : s.v2p (s.eng.headAddr s.cfg n) = some hp) (haligned : hp.toNat % 16 = 0) :
    Does s dev (s.outputProgrammed dev q p) (programWriteBack dev n q) () (s.writeBackAccesses dev n q hp) 0
      (s.headProgrammed dev q p hp) := by
  have hc := h.standard
  have ok {r : DevReg} (hr : r.indexCount s.cfg = some s.cfg.txQueueCount) := indexOk_of_lt hr hq
  refine .look_state fun t ht => ?_
  rw [ht.engine.2, ht.cfg]
  refine .cast (.bind (h.v2pOrRaise 13 _ hhead) (.ite_neg (not_not.2 haligned) (.bind (h.regWrite 14 (ok rfl) rfl)
    (.bind (h.regWrite 15 (ok rfl) rfl)
    (h.regWriteField (f := .txDescWbRoEn) (old := s.regOf dev .dcatxctrl q) 16 (ok rfl) rfl (by decide) ?_))))) rfl rfl
  rw [DevField.reg, update_other hc (by decide) (ok rfl) (ok rfl), update_other hc (by decide) (ok rfl) (ok rfl),
    State.outputProgrammed_other hc hq (by decide) (ok rfl)]

/-- A head slot that is not aligned (R289). -/
theorem programWriteBack_misaligned (h : Accessible s dev) {g : Nat → W32}
    (hhead : s.v2p (s.eng.headAddr s.cfg n) = some hp) (hmis : hp.toNat % 16 ≠ 0) :
    Breaks s dev g (programWriteBack dev n q) (.preconditionFail .headAlignment)
      [.v2p (s.eng.headAddr s.cfg n) (some hp)] 0 g := by
  refine .look_state fun t ht => ?_
  rw [ht.engine.2, ht.cfg]
  exact .cast ((h.v2pOrRaise 13 _ hhead).breaks (.ite_pos hmis (Breaks.raise.bind _))) rfl rfl

/-- One that is not translated (R288). -/
theorem programWriteBack_untranslated (h : Accessible s dev) {g : Nat → W32}
    (hhead : s.v2p (s.eng.headAddr s.cfg n) = none) :
    Breaks s dev g (programWriteBack dev n q) (.allocFail (.translateHead n))
      [.v2p (s.eng.headAddr s.cfg n) none] 0 g := by
  refine .look_state fun t ht => ?_
  rw [ht.engine.2, ht.cfg]
  exact (h.v2pOrRaise_breaks 13 _ hhead).bind _

/-- Transmission is enabled. -/
theorem enableTransmit_does (h : Accessible s dev) (hq : q < s.cfg.txQueueCount) :
    Does s dev (s.headProgrammed dev q p hp) (regSet 18 dev .te 0) ()
      (readModifyWrite (s.regAddr dev .dmatxctl 0) (s.regOf dev .dmatxctl 0)
        (s.regOf dev .dmatxctl 0 ||| s.cfg.mask .te)) 0 (s.transmitsEnabled dev q p hp) := by
  refine h.regSet (f := .te) 18 rfl rfl (by decide) ?_
  rw [DevField.reg, State.headProgrammed_other h.standard hq (by decide) rfl,
    State.outputProgrammed_other h.standard hq (by decide) rfl]

theorem State.transmitsEnabled_txdctl (hc : StandardConfig s.cfg) (hq : q < s.cfg.txQueueCount) :
    s.transmitsEnabled dev q p hp (s.cfg.off .txdctl q) = s.outputThresholds dev q := by
  have hi : DevReg.txdctl.indexOk s.cfg q = true := indexOk_of_lt rfl hq
  rw [State.transmitsEnabled_other hc (by decide) hi, State.headProgrammed_other hc hq (by decide) hi]
  exact Function.update_self ..

/-- The thresholds leave the enable bit clear. -/
theorem State.outputThresholds_clear (hc : StandardConfig s.cfg) (hfree : s.fieldOf dev .txdctlEnable q = 0) :
    s.outputThresholds dev q &&& s.cfg.mask .txdctlEnable = 0 := by
  obtain ⟨hpthresh, hhthresh⟩ := Config.thresholds_beside_enable hc
  rw [State.outputThresholds, insertField_and_of_disjoint hhthresh, State.outputPrefetch,
    insertField_and_of_disjoint hpthresh]
  exact extract_eq_zero_iff.1 hfree

/-- The accesses that start the queue. -/
def State.startOutputAccesses (s : State) (dev : BitVec 8) (q : Nat) : List Access :=
  readModifyWrite (s.regAddr dev .dmatxctl 0) (s.regOf dev .dmatxctl 0) (s.regOf dev .dmatxctl 0 ||| s.cfg.mask .te) ++
  readModifyWrite (s.regAddr dev .txdctl q) (s.outputThresholds dev q) (s.outputEnabled dev q) ++
  [.mmioRead (s.regAddr dev .txdctl q) (s.outputEnabled dev q)]

/-- On a device that answers at once the head of the queue is 0 from the enabling write on. -/
theorem startOutput_run (hr : Responsive s dev) (hq : q < s.cfg.txQueueCount)
    (hfree : s.fieldOf dev .txdctlEnable q = 0) {l : List Access} {d : Nat} {t : State}
    (ht : Holding s dev (s.headProgrammed dev q p hp) l d t) :
    ∃ u, startOutput dev q t = .ok () u ∧
      Holding s dev (s.outputStarted dev q p hp) (l ++ s.startOutputAccesses dev q) d u ∧
      ((u.nic (s.handle dev).bdf).txQueue q).head = 0 := by
  have h := hr.accessible
  have hc := hr.standard
  have hi : DevReg.txdctl.indexOk s.cfg q = true := indexOk_of_lt rfl hq
  obtain ⟨t1, htransmit, h1⟩ := enableTransmit_does h hq _ _ t ht
  obtain ⟨t2, henable, h2, hhead⟩ := enableOutput_run hr 20 hq h1 (State.transmitsEnabled_txdctl hc hq)
    (State.outputThresholds_clear hc hfree)
  have hpolls := poll_passes_of_set (f := .txdctlEnable) (g := s.outputStarted dev q p hp) (v := s.outputEnabled dev q)
    h 22 hi (by decide)
    (by rw [DevField.reg, State.outputStarted, update_other hc (by decide) (indexOk_of_lt rfl hq) hi,
      Function.update_self])
    (or_and_ne_zero (Config.enable_ne_zero hc).2)
  obtain ⟨u, hpoll, hu⟩ := hpolls _ _ t2 h2
  have hzero := ((NicKeeps.registerOps (txHead_kept q) dev (s.handle dev).bdf).poll (f := .txdctlEnable) (i := q) 22
    true t2 (h.holding h2).quiet).2 hhead
  rw [hpoll] at hzero
  refine ⟨u, ?_, ?_, hzero⟩
  · exact (Micro.run_bind_ok htransmit).trans ((Micro.run_bind_ok henable).trans (Micro.run_bind_ok hpoll))
  · rw [List.append_assoc, List.append_assoc] at hu
    exact hu

/-- A device that does not answer the enabling write. -/
theorem startOutput_times_out (h : Accessible s dev) (hlag : ¬ s.prompt dev) (hq : q < s.cfg.txQueueCount)
    (hfree : s.fieldOf dev .txdctlEnable q = 0) :
    ∃ l d, s.cfg.tPoll ≤ d ∧
      Breaks s dev (s.headProgrammed dev q p hp) (startOutput dev q) (.hwTimeout .txdctlEnable q true) l d
        (s.transmitsEnabled dev q p hp) := by
  have hheld := State.transmitsEnabled_txdctl (dev := dev) (p := p) (hp := hp) h.standard hq
  obtain ⟨l, hpoll⟩ := poll_times_out_of_clear (f := .txdctlEnable) h 22 (indexOk_of_lt rfl hq) (by decide) hheld
    (State.outputThresholds_clear h.standard hfree)
  refine ⟨_, _, ?_, (enableTransmit_does h hq).breaks ((enableOutput_unanswered h hlag 20 hq hheld).breaks
    (hpoll.breaks (.ite_pos (by decide) .raise)))⟩
  omega

end

end Sys2Proof.Machine
end

section
/-! SUPPORT. BIND_OUTPUT as a whole, where no other agent moves (R280 to R296): how it completes, and each way in which
it fails. -/

namespace Sys2Proof.Machine

section
variable {s r u : State} {dev : BitVec 8} {n : Fin 4} {pa : Nat → W64} {k q d : Nat} {p hp : W64} {l l' : List Access}
  {g : Nat → W32}

/-! The device once the ring is filled: it is as it was. -/

theorem Filling.handle (h : Filling s n pa k l r) (dev : BitVec 8) : r.handle dev = s.handle dev :=
  handle_of_handles h.handles dev

theorem Filling.nic (h : Filling s n pa k l r) (bdf : W16) : r.nic bdf = s.nic bdf := sameNics_of_nics h.nics bdf

theorem Filling.registers (h : Filling s n pa k l r) (dev : BitVec 8) : r.registers dev = s.registers dev := by
  rw [State.registers, State.registers, h.handle, h.nic, h.environment.1]

theorem Filling.regOf (h : Filling s n pa k l r) (dev : BitVec 8) (reg : DevReg) (i : Nat) :
    r.regOf dev reg i = s.regOf dev reg i := by
  rw [State.regOf, State.regOf, h.handle, h.nic, h.environment.1]

theorem Filling.regAddr (h : Filling s n pa k l r) (dev : BitVec 8) (reg : DevReg) (i : Nat) :
    r.regAddr dev reg i = s.regAddr dev reg i := by
  rw [State.regAddr, State.regAddr, h.handle, h.environment.1]

theorem Filling.fieldOf (h : Filling s n pa k l r) (dev : BitVec 8) (f : DevField) (i : Nat) :
    r.fieldOf dev f i = s.fieldOf dev f i := by
  rw [State.fieldOf, State.fieldOf, h.regOf, h.environment.1]

theorem Filling.prompt_iff (h : Filling s n pa k l r) (dev : BitVec 8) : r.prompt dev ↔ s.prompt dev := by
  rw [State.prompt, State.prompt, h.handle, h.nic]

theorem Filling.accessible (hf : Filling s n pa k l r) (h : Accessible s dev) : Accessible r dev := by
  obtain ⟨hq, hc, hm, husable, hhold, hposted⟩ := h
  refine ⟨hf.quiet hq, by rwa [hf.environment.1], by rwa [hf.handle], ?_⟩
  rw [State.settled, hf.handle, hf.nic]
  exact ⟨Nat.le_trans husable hf.now, hhold, hposted⟩

theorem Filling.outputProgrammed (h : Filling s n pa k l r) :
    r.outputProgrammed dev q p = s.outputProgrammed dev q p := by
  simp only [State.outputProgrammed, State.outputThresholds, State.outputPrefetch, h.registers, h.regOf,
    h.environment.1]

theorem Filling.transmitsEnabled (h : Filling s n pa k l r) :
    r.transmitsEnabled dev q p hp = s.transmitsEnabled dev q p hp := by
  simp only [State.transmitsEnabled, State.headProgrammed, State.outputOrdered, h.outputProgrammed, h.regOf,
    h.environment.1]

theorem Filling.outputStarted (h : Filling s n pa k l r) :
    r.outputStarted dev q p hp = s.outputStarted dev q p hp := by
  simp only [State.outputStarted, State.outputEnabled, State.outputThresholds, State.outputPrefetch, h.transmitsEnabled,
    h.regOf, h.environment.1]

theorem Filling.programOutputAccesses (h : Filling s n pa k l r) :
    r.programOutputAccesses dev n q p = s.programOutputAccesses dev n q p := by
  simp only [State.programOutputAccesses, State.outputThresholds, State.outputPrefetch, h.regAddr, h.regOf, h.engine.2,
    h.environment.1]

theorem Filling.writeBackAccesses (h : Filling s n pa k l r) :
    r.writeBackAccesses dev n q hp = s.writeBackAccesses dev n q hp := by
  simp only [State.writeBackAccesses, State.outputOrdered, h.regAddr, h.regOf, h.engine.2, h.environment.1]

theorem Filling.startOutputAccesses (h : Filling s n pa k l r) :
    r.startOutputAccesses dev q = s.startOutputAccesses dev q := by
  simp only [State.startOutputAccesses, State.outputEnabled, State.outputThresholds, State.outputPrefetch, h.regAddr,
    h.regOf, h.environment.1]

/-! What is left alone. -/

/-- From `s` to `t` the accesses `l` were made and at least `d` microseconds passed; the first `k` slots of ring `n` are
filled, the registers of the device hold `g`, and all else is as it was. -/
structure OutputLeft (s : State) (dev : BitVec 8) (n : Fin 4) (pa : Nat → W64) (k : Nat) (g : Nat → W32)
    (l : List Access) (d : Nat) (t : State) : Prop where
  frame : BindFrame s t (s.handle dev).bdf
  filled : RingFilled s t n pa k
  regs : ∀ off, (t.nic (s.handle dev).bdf).reg t.cfg off = g off
  made : madeBetween s t l
  waited : s.now + d ≤ t.now

theorem OutputLeft.regOf {t : State} (h : OutputLeft s dev n pa k g l d t) (reg : DevReg) (i : Nat) :
    t.regOf dev reg i = g (s.cfg.off reg i) := by
  obtain ⟨⟨hcfg, -⟩, -, -, -, hhandles, -⟩ := h.frame
  rw [State.regOf, hhandles, h.regs, hcfg]

/-- A ring is filled whatever is changed but memory. -/
theorem RingFilled.of_mem {t : State} (h : RingFilled s r n pa k) (hm : t.mem = r.mem) : RingFilled s t n pa k := by
  rw [RingFilled, hm]
  exact h

/-- After the ring was filled the device alone was changed. -/
theorem Filling.left (hf : Filling s n pa k l r) (hu : Holding r dev g l' d u) :
    OutputLeft s dev n pa k g (l ++ l') d u := by
  have hnow := hf.now
  have hwaited := hu.waited
  obtain ⟨hcfg, hport, hagenda, hmaps⟩ := hf.environment
  obtain ⟨hes, heng⟩ := hf.engine
  obtain ⟨hgrants, hqueue⟩ := hf.answers
  obtain ⟨⟨kcfg, kport, kagenda, kmaps⟩, ⟨kes, keng⟩, kmem, kblocks, ⟨kgrants, kqueue⟩, khandles, knics⟩ := hu.only
  rw [hf.handle] at knics
  refine ⟨⟨⟨kcfg.trans hcfg, kport.trans hport, kagenda.trans hagenda, kmaps.trans hmaps⟩,
    ⟨kes.trans hes, keng.trans heng⟩, kblocks.trans hf.blocks, ⟨kgrants.trans hgrants, kqueue.trans hqueue⟩,
    handle_of_handles (khandles.trans hf.handles), fun b hb => (knics b hb).trans (hf.nic b)⟩,
    hf.filled.of_mem kmem, fun off => ?_, hf.made.trans hu.made, by omega⟩
  rw [← hf.handle]
  exact hu.reg_after rfl rfl off

theorem OutputLeft.takeFailure (h : OutputLeft s dev n pa k g l d u) (f : Failure) :
    OutputLeft s dev n pa k g l d (u.takeFailure f) := ⟨h.frame, h.filled, h.regs, h.made, h.waited⟩

/-! The command up to the loop. -/

/-- BIND_OUTPUT of output `n`, the next free one, with the queue not in use. -/
theorem bindOutput_idle {queue : BitVec 8} {t : State} (hn : s.eng.oc.toNat = n.val)
    (hq : queue.toNat < s.cfg.txQueueCount) (hread : regIsCleared 1 dev .txdctlEnable queue.toNat s = .ok true t) :
    bindOutput dev queue s = (forEach (List.range s.cfg.ringSize) (fillSlot n) >>= fun _ =>
      programOutput dev n queue.toNat >>= fun _ => programWriteBack dev n queue.toNat >>= fun _ =>
      startOutput dev queue.toNat >>= fun _ => change fun u => u.markOutput dev queue.toNat n) t := by
  obtain ⟨n, hlt⟩ := n
  subst hn
  rw [bindOutput, Micro.look_bind, dif_pos hlt, bindOutputAs, Micro.look_bind, if_neg (Nat.not_le.2 hq)]
  exact Micro.run_bind_ok hread

/-- The queue is in use: nothing is done but the one read. -/
theorem bindOutput_inUse {queue : BitVec 8} (h : Accessible s dev) (hn : s.eng.oc.toNat < outputsMax)
    (hq : queue.toNat < s.cfg.txQueueCount) (hused : s.fieldOf dev .txdctlEnable queue.toNat ≠ 0) :
    bindOutput dev queue s = .error (.raise (.preconditionFail .txQueueInUse)) (s.accessed 1
      (.mmioRead (s.regAddr dev .txdctl queue.toNat) (s.regOf dev .txdctl queue.toNat))) := by
  have hread := regIsCleared_settled (f := .txdctlEnable) (i := queue.toNat) 1 h (indexOk_of_lt rfl hq) (by decide)
  rw [beq_eq_false_iff_ne.2 hused] at hread
  rw [bindOutput, Micro.look_bind, dif_pos (show s.eng.oc.toNat < 4 from hn), bindOutputAs, Micro.look_bind,
    if_neg (Nat.not_le.2 hq)]
  exact Micro.run_bind_ok hread

end

/-- What a bind of output `n` to a free queue begins from. -/
structure OutputFree (s : State) (dev queue : BitVec 8) (n : Fin 4) : Prop where
  built : Built s
  accessible : Accessible s dev
  output : s.eng.oc.toNat = n.val
  inRange : queue.toNat < s.cfg.txQueueCount
  free : s.fieldOf dev .txdctlEnable queue.toNat = 0

section
variable {s : State} {dev queue : BitVec 8} {n : Fin 4} {pa : Nat → W64} {p hp : W64}

/-- The read that finds the queue not in use. -/
def State.idleRead (s : State) (dev queue : BitVec 8) : Access :=
  .mmioRead (s.regAddr dev .txdctl queue.toNat) (s.regOf dev .txdctl queue.toNat)

/-- The state in which the loop begins. -/
def State.looping (s : State) (dev queue : BitVec 8) : State :=
  (s.start (.bindOutput dev queue)).accessed 1 (s.idleRead dev queue)

theorem OutputFree.filling (h : OutputFree s dev queue n) (pa : Nat → W64) :
    Filling s n pa 0 [s.idleRead dev queue] (s.looping dev queue) :=
  ⟨⟨rfl, rfl, rfl, rfl⟩, ⟨rfl, rfl⟩, rfl, ⟨rfl, rfl⟩, rfl, rfl, Nat.le_add_right _ _, h.built.whole.sound.memory,
    ⟨nofun, fun _ _ => rfl⟩, rfl⟩

theorem OutputFree.run (h : OutputFree s dev queue n) :
    bindOutput dev queue (s.start (.bindOutput dev queue)) =
      (forEach (List.range s.cfg.ringSize) (fillSlot n) >>= fun _ =>
        programOutput dev n queue.toNat >>= fun _ => programWriteBack dev n queue.toNat >>= fun _ =>
        startOutput dev queue.toNat >>= fun _ => change fun u => u.markOutput dev queue.toNat n)
      (s.looping dev queue) := by
  have hstart : Accessible (s.start (.bindOutput dev queue)) dev :=
    ⟨h.accessible.quiet, h.accessible.standard, h.accessible.mapped, h.accessible.settled⟩
  have hread := regIsCleared_settled (f := .txdctlEnable) (i := queue.toNat) 1 hstart (indexOk_of_lt rfl h.inRange)
    (by decide)
  have hfree : (s.start (.bindOutput dev queue)).fieldOf dev .txdctlEnable queue.toNat = 0 := h.free
  rw [beq_iff_eq.2 hfree] at hread
  exact bindOutput_idle (s := s.start (.bindOutput dev queue)) h.output h.inRange hread

/-- The ring filled, with every buffer translated. -/
theorem OutputFree.fills (h : OutputFree s dev queue n) (hpa : BuffersTranslate s pa s.cfg.ringSize) :
    ∃ r, forEach (List.range s.cfg.ringSize) (fillSlot n) (s.looping dev queue) = .ok () r ∧
      Filling s n pa s.cfg.ringSize (s.idleRead dev queue :: s.fillAccesses n pa s.cfg.ringSize) r :=
  fillSlots_run (h.filling pa) h.built h.accessible.quiet (Nat.le_refl _) hpa

/-- A failure after the ring was filled, and programmed. -/
theorem OutputFree.raises_programmed (h : OutputFree s dev queue n) (hring : s.v2p s.eng.ring[n] = some p) {r : State}
    (hfill : forEach (List.range s.cfg.ringSize) (fillSlot n) (s.looping dev queue) = .ok () r)
    (hr : Filling s n pa s.cfg.ringSize (s.idleRead dev queue :: s.fillAccesses n pa s.cfg.ringSize) r)
    {f : Failure} {l : List Access} {d : Nat} {g : Nat → W32}
    (hrest : Breaks r dev (r.outputProgrammed dev queue.toNat p)
      (programWriteBack dev n queue.toNat >>= fun _ => startOutput dev queue.toNat) f l d g) :
    ∃ u, bindOutput dev queue (s.start (.bindOutput dev queue)) = .error (.raise f) u ∧
      OutputLeft s dev n pa s.cfg.ringSize g (s.idleRead dev queue :: s.fillAccesses n pa s.cfg.ringSize ++
        (s.programOutputAccesses dev n queue.toNat p ++ l)) d u := by
  have hring' : r.v2p r.eng.ring[n] = some p := by rw [hr.v2p, hr.engine.2, hring]
  obtain ⟨t, hprogram, ht⟩ :=
    programOutput_does (hr.accessible h.accessible) (hr.environment.1 ▸ h.inRange) hring' _ _ r (.start r dev)
  obtain ⟨u, hbreak, hu⟩ := hrest _ _ t ht
  rw [List.nil_append, hr.programOutputAccesses, Nat.zero_add] at hu
  refine ⟨u, ?_, hr.left hu⟩
  rw [h.run]
  refine (Micro.run_bind_ok hfill).trans ((Micro.run_bind_ok hprogram).trans ?_)
  have hassoc : (programWriteBack dev n queue.toNat >>= fun _ => startOutput dev queue.toNat >>= fun _ =>
      change fun u => u.markOutput dev queue.toNat n) =
    ((programWriteBack dev n queue.toNat >>= fun _ => startOutput dev queue.toNat) >>= fun _ =>
      change fun u => u.markOutput dev queue.toNat n) := (bind_assoc _ _ _).symm
  rw [hassoc]
  exact Micro.run_bind_error hbreak

/-- The accesses of BIND_OUTPUT are those of its parts. -/
theorem bindOutputAccesses_eq (s : State) (dev queue : BitVec 8) (n : Fin 4) (pa : Nat → W64) (p hp : W64) :
    bindOutputAccesses s dev queue.toNat n pa p hp =
      s.idleRead dev queue :: s.fillAccesses n pa s.cfg.ringSize ++ s.programOutputAccesses dev n queue.toNat p ++
        s.writeBackAccesses dev n queue.toNat hp ++ s.startOutputAccesses dev queue.toNat := by
  simp only [bindOutputAccesses, State.programOutputAccesses, State.writeBackAccesses, State.startOutputAccesses,
    List.append_assoc, List.singleton_append]
  rfl

/-- The output bound on a device that answers at once. -/
theorem OutputFree.completes (h : OutputFree s dev queue n) (hprompt : s.prompt dev)
    (hpa : BuffersTranslate s pa s.cfg.ringSize) (hring : s.v2p s.eng.ring[n] = some p)
    (hhead : s.v2p (s.eng.headAddr s.cfg n) = some hp) (haligned : hp.toNat % 16 = 0) :
    ∃ u, bindOutput dev queue (s.start (.bindOutput dev queue)) = .ok () (u.markOutput dev queue.toNat n) ∧
      OutputLeft s dev n pa s.cfg.ringSize (s.outputStarted dev queue.toNat p hp)
        (bindOutputAccesses s dev queue.toNat n pa p hp) 0 u ∧
      ((u.nic (s.handle dev).bdf).txQueue queue.toNat).head = 0 := by
  obtain ⟨r, hfill, hr⟩ := h.fills hpa
  have ha := hr.accessible h.accessible
  have hq : queue.toNat < r.cfg.txQueueCount := hr.environment.1 ▸ h.inRange
  have hring' : r.v2p r.eng.ring[n] = some p := by rw [hr.v2p, hr.engine.2, hring]
  have hhead' : r.v2p (r.eng.headAddr r.cfg n) = some hp := by rw [hr.v2p, hr.engine.2, hr.environment.1, hhead]
  obtain ⟨t1, hprogram, h1⟩ := programOutput_does ha hq hring' _ _ r (.start r dev)
  obtain ⟨t2, hback, h2⟩ := programWriteBack_does ha hq hhead' haligned _ _ t1 h1
  obtain ⟨u, hstart, hu, hzero⟩ := startOutput_run
    ⟨ha.quiet, ha.standard, ha.mapped, ha.settled, (hr.prompt_iff dev).2 hprompt⟩ hq ((hr.fieldOf ..).trans h.free) h2
  have hleft := hr.left hu
  rw [hr.outputStarted, List.nil_append, hr.programOutputAccesses, hr.writeBackAccesses, hr.startOutputAccesses,
    ← List.append_assoc, ← List.append_assoc, ← bindOutputAccesses_eq] at hleft
  rw [hr.handle] at hzero
  refine ⟨u, ?_, hleft, hzero⟩
  rw [h.run]
  exact (Micro.run_bind_ok hfill).trans ((Micro.run_bind_ok hprogram).trans ((Micro.run_bind_ok hback).trans
    (Micro.run_bind_ok hstart)))

end

end Sys2Proof.Machine
end

section
/-! SUPPORT. BIND_OUTPUT where no other agent moves: how it completes, and that a misaligned head slot is found before
the write-back is programmed (R280, R289, R294). -/

namespace Sys2Proof.Machine

section
variable {s : State} {dev queue : BitVec 8} {n : Fin 4} {pa : Nat → W64} {p hp : W64}

theorem outputFree_of_accepts (hinv : Inv s) (hq : s.quiet) (hc : StandardConfig s.cfg) (hs : s.settled dev)
    (ha : accepts (.bindOutput dev queue) s) (hn : s.eng.oc.toNat = n.val) (hqueue : queue.toNat < s.cfg.txQueueCount)
    (hfree : s.fieldOf dev .txdctlEnable queue.toNat = 0) : OutputFree s dev queue n :=
  have hm : (s.handle dev).mapped = true := Handle.mapped_iff.2 (by rw [ha.2.2]; decide)
  ⟨⟨(inv_iff.1 hinv).1, ha.1⟩, ⟨hq, hc, hm, hs⟩, hn, hqueue, hfree⟩

/-- What BIND_OUTPUT records in the engine registers: the tail of output `n`, and that it is bound (R294). -/
theorem markOutput_eng {u : State} {q : Nat} (hcfg : u.cfg = s.cfg) (heng : u.eng = s.eng)
    (hhandle : u.handle dev = s.handle dev) (hn : s.eng.oc.toNat = n.val) :
    (u.markOutput dev q n).eng =
      { s.eng with tta := s.eng.tta.set n (s.regAddr dev .tdt q), oc := s.eng.oc + 1 } := by
  have hoc : BitVec.ofNat 64 (n.val + 1) = s.eng.oc + 1 := by
    rw [← hn, BitVec.ofNat_add, BitVec.ofNat_toNat, BitVec.setWidth_eq]
    rfl
  rw [State.markOutput, hcfg, heng, hhandle, hoc]
  rfl

/-- The registers of the transmit queue that are programmed before it is enabled. -/
theorem State.outputStarted_reads (hc : StandardConfig s.cfg) (hq : queue.toNat < s.cfg.txQueueCount) :
    s.outputStarted dev queue.toNat p hp (s.cfg.off .txdctl queue.toNat) = s.outputEnabled dev queue.toNat ∧
    s.outputStarted dev queue.toNat p hp (s.cfg.off .tdt queue.toNat) = 0 := by
  refine ⟨?_, Function.update_self ..⟩
  rw [State.outputStarted, update_other hc (by decide) (indexOk_of_lt rfl hq) (indexOk_of_lt rfl hq),
    Function.update_self]

theorem State.outputStarted_frame {q off : Nat}
    (h : off ∉ [s.cfg.off .tdbah q, s.cfg.off .tdbal q, s.cfg.off .tdlen q, s.cfg.off .tdwbah q, s.cfg.off .tdwbal q,
      s.cfg.off .txdctl q, s.cfg.off .dcatxctrl q, s.cfg.off .dmatxctl 0, s.cfg.off .tdt q]) :
    s.outputStarted dev q p hp off = s.registers dev off := by
  simp only [List.mem_cons, List.not_mem_nil, or_false, not_or] at h
  obtain ⟨htdbah, htdbal, htdlen, htdwbah, htdwbal, htxdctl, hdcatxctrl, hdmatxctl, htdt⟩ := h
  rw [State.outputStarted, Function.update_of_ne htdt, Function.update_of_ne htxdctl,
    State.transmitsEnabled_frame (by simp [htdbah, htdbal, htdlen, htdwbah, htdwbal, htxdctl, hdcatxctrl, hdmatxctl])]

end

/-- Settles O40: the ring filled, then the three parts of BIND_OUTPUT one after the other. -/
theorem bindOutputCompletes : Obligations.BindOutputCompletes := by
  intro s dev queue n pa p hp hinv hq hc hs hprompt ha hn hqueue hfree hpa hring hhead haligned q m old
  have h := outputFree_of_accepts hinv hq hc hs ha hn hqueue hfree
  obtain ⟨u, hrun, hleft, hzero⟩ := h.completes hprompt hpa hring hhead haligned
  obtain ⟨henvironment, ⟨hes, heng⟩, hblocks, hanswers, hhandles, hnics⟩ := hleft.frame
  have heng := markOutput_eng (dev := dev) (q := q) henvironment.1 heng (hhandles dev) hn
  generalize ht : (u.markOutput dev q n).respond resOk 0 0 = t
  have hhandle : t.handle dev = { s.handle dev with txBound := (s.handle dev).txBound + 1 } := by
    rw [← ht, ← hhandles dev]
    exact State.handle_setHandle_self ..
  have hreg (off : Nat) : (t.nic (s.handle dev).bdf).reg t.cfg off = s.outputStarted dev q p hp off :=
    ht ▸ hleft.regs off
  have hcfg : t.cfg = s.cfg := ht ▸ henvironment.1
  have after (r : DevReg) (i : Nat) : t.regOf dev r i = s.outputStarted dev q p hp (s.cfg.off r i) := by
    rw [State.regOf, hhandle, hreg, hcfg]
  have ok {r : DevReg} (hr : r.indexCount s.cfg = some s.cfg.txQueueCount) : r.indexOk s.cfg q = true :=
    indexOk_of_lt hr hqueue
  have enabled {r : DevReg} {i : Nat} (hr : r ∉ [.txdctl, .tdt]) (hi : r.indexOk s.cfg i = true) :
      t.regOf dev r i = s.transmitsEnabled dev q p hp (s.cfg.off r i) :=
    (after r i).trans (State.outputStarted_other hc hqueue hr hi)
  have programmed {r : DevReg} {i : Nat} (hr : r ∉ [.txdctl, .tdt] ++ ([.dmatxctl] ++ [.tdwbah, .tdwbal, .dcatxctrl]))
      (hi : r.indexOk s.cfg i = true) : t.regOf dev r i = s.outputProgrammed dev q p (s.cfg.off r i) := by
    simp only [List.mem_append, not_or] at hr
    obtain ⟨hlate, htransmit, hback⟩ := hr
    rw [enabled hlate hi, State.transmitsEnabled_other hc (by simpa using htransmit) hi,
      State.headProgrammed_other hc hqueue hback hi]
  obtain ⟨htdbah, htdbal, htdlen, -⟩ := State.outputProgrammed_reads (dev := dev) (p := p) hc hqueue
  obtain ⟨htdwbah, htdwbal, hdcatxctrl, hdmatxctl⟩ :=
    State.transmitsEnabled_reads (dev := dev) (p := p) (hp := hp) hc hqueue
  obtain ⟨htxdctl, htdt⟩ := State.outputStarted_reads (dev := dev) (p := p) (hp := hp) hc hqueue
  refine ⟨t, ht ▸ exec_ok (v := noValues) ha (Micro.run_bind_ok hrun), ht ▸ ⟨rfl, rfl⟩, ht ▸ hes, ht ▸ heng, hhandle,
    fun d hd => ?_, ht ▸ hleft.made, ht ▸ henvironment, ht ▸ hanswers, ht ▸ hnics, ht ▸ hblocks, ht ▸ hleft.filled,
    (programmed (by decide) (ok rfl)).trans htdbah, (programmed (by decide) (ok rfl)).trans htdbal,
    (programmed (by decide) (ok rfl)).trans htdlen, (enabled (by decide) (ok rfl)).trans htdwbah,
    (enabled (by decide) (ok rfl)).trans htdwbal, (after _ _).trans htxdctl,
    (enabled (by decide) (ok rfl)).trans hdcatxctrl, (enabled (by decide) rfl).trans hdmatxctl, (after _ _).trans htdt,
    ht ▸ hzero, fun off hoff => (hreg off).trans ?_⟩
  · rw [← ht, ← hhandles d]
    exact (State.handle_setHandle u dev d _).trans (if_neg hd)
  · exact State.outputStarted_frame hoff

/-! How it fails (R296). -/

section
variable {s : State} {dev queue : BitVec 8} {n : Fin 4} {pa : Nat → W64} {p hp : W64}

/-- Up to a failure after the ring was programmed, no other register of the queue was written. -/
theorem State.written_before_writeBack {k : Nat} {a x : W64} {v : W32} {y : Option W64}
    (h : Access.mmioWrite a v ∈ s.idleRead dev queue :: s.fillAccesses n pa k ++
      (s.programOutputAccesses dev n queue.toNat p ++ [.v2p x y])) :
    ∃ r, r ∈ [DevReg.tdbah, .tdbal, .tdlen, .txdctl] ∧ a = s.regAddr dev r queue.toNat := by
  simp only [State.idleRead, State.fillAccesses, State.fillAccess, State.programOutputAccesses, readModifyWrite,
    List.mem_append, List.mem_cons, List.mem_flatten, List.mem_map, List.mem_range, List.not_mem_nil, or_false,
    reduceCtorEq, false_or, Access.mmioWrite.injEq] at h
  rcases h with ⟨_, ⟨i, -, rfl⟩, hi⟩ | ((⟨rfl, -⟩ | ⟨rfl, -⟩ | ⟨rfl, -⟩) | ⟨rfl, -⟩) | ⟨rfl, -⟩
  · simp at hi
  · exact ⟨.tdbah, by decide, rfl⟩
  · exact ⟨.tdbal, by decide, rfl⟩
  · exact ⟨.tdlen, by decide, rfl⟩
  · exact ⟨.txdctl, by decide, rfl⟩
  · exact ⟨.txdctl, by decide, rfl⟩

/-- The head slot is translated as it was before the ring was filled. -/
theorem Filling.head_v2p {r : State} {k : Nat} {l : List Access} (h : Filling s n pa k l r) :
    r.v2p (r.eng.headAddr r.cfg n) = s.v2p (s.eng.headAddr s.cfg n) := by rw [h.v2p, h.engine.2, h.environment.1]

/-- The head slot is not aligned. -/
theorem OutputFree.misaligned (h : OutputFree s dev queue n) (hpa : BuffersTranslate s pa s.cfg.ringSize)
    (hring : s.v2p s.eng.ring[n] = some p) (hhead : s.v2p (s.eng.headAddr s.cfg n) = some hp)
    (hmis : hp.toNat % 16 ≠ 0) :
    ∃ u, bindOutput dev queue (s.start (.bindOutput dev queue)) =
        .error (.raise (.preconditionFail .headAlignment)) u ∧
      OutputLeft s dev n pa s.cfg.ringSize (s.outputProgrammed dev queue.toNat p)
        (s.idleRead dev queue :: s.fillAccesses n pa s.cfg.ringSize ++
          (s.programOutputAccesses dev n queue.toNat p ++ [.v2p (s.eng.headAddr s.cfg n) (some hp)])) 0 u := by
  obtain ⟨r, hfill, hr⟩ := h.fills hpa
  have hbreaks := (programWriteBack_misaligned (n := n) (q := queue.toNat) (g := r.outputProgrammed dev queue.toNat p)
    (hr.accessible h.accessible) (hr.head_v2p.trans hhead) hmis).bind fun _ => startOutput dev queue.toNat
  have hraises := h.raises_programmed hring hfill hr hbreaks
  rwa [hr.outputProgrammed, hr.engine.2, hr.environment.1] at hraises

/-- The head slot is not translated. -/
theorem OutputFree.headUntranslated (h : OutputFree s dev queue n) (hpa : BuffersTranslate s pa s.cfg.ringSize)
    (hring : s.v2p s.eng.ring[n] = some p) (hhead : s.v2p (s.eng.headAddr s.cfg n) = none) :
    ∃ l u, bindOutput dev queue (s.start (.bindOutput dev queue)) = .error (.raise (.allocFail (.translateHead n))) u ∧
      OutputLeft s dev n pa s.cfg.ringSize (s.outputProgrammed dev queue.toNat p) l 0 u := by
  obtain ⟨r, hfill, hr⟩ := h.fills hpa
  have hbreaks := (programWriteBack_untranslated (n := n) (q := queue.toNat)
    (g := r.outputProgrammed dev queue.toNat p) (hr.accessible h.accessible) (hr.head_v2p.trans hhead)).bind
    fun _ => startOutput dev queue.toNat
  have hraises := h.raises_programmed hring hfill hr hbreaks
  rw [hr.outputProgrammed] at hraises
  exact ⟨_, hraises⟩

/-- The device does not answer the enabling write. -/
theorem OutputFree.times_out (h : OutputFree s dev queue n) (hlag : ¬ s.prompt dev)
    (hpa : BuffersTranslate s pa s.cfg.ringSize) (hring : s.v2p s.eng.ring[n] = some p)
    (hhead : s.v2p (s.eng.headAddr s.cfg n) = some hp) (haligned : hp.toNat % 16 = 0) :
    ∃ l d u, s.cfg.tPoll ≤ d ∧ bindOutput dev queue (s.start (.bindOutput dev queue)) =
        .error (.raise (.hwTimeout .txdctlEnable queue.toNat true)) u ∧
      OutputLeft s dev n pa s.cfg.ringSize (s.transmitsEnabled dev queue.toNat p hp) l d u := by
  obtain ⟨r, hfill, hr⟩ := h.fills hpa
  have hq : queue.toNat < r.cfg.txQueueCount := hr.environment.1 ▸ h.inRange
  have ha := hr.accessible h.accessible
  obtain ⟨l, d, hd, hstart⟩ := startOutput_times_out (p := p) (hp := hp) ha (mt (hr.prompt_iff dev).1 hlag) hq
    ((hr.fieldOf ..).trans h.free)
  obtain ⟨u, hrun, hu⟩ := h.raises_programmed hring hfill hr
    ((programWriteBack_does ha hq (hr.head_v2p.trans hhead) haligned).breaks hstart)
  rw [hr.transmitsEnabled] at hu
  rw [hr.environment.1] at hd
  exact ⟨_, _, u, by omega, hrun, hu⟩

end

/-- Settles O41: the head slot is looked at after the ring is programmed, and before the write-back. -/
theorem bindOutputRejectsMisalignedHead : Obligations.BindOutputRejectsMisalignedHead := by
  intro s dev queue n pa p hp hinv hq hc hs ha hn hqueue hfree hpa hring hhead hmis q
  have h := outputFree_of_accepts hinv hq hc hs ha hn hqueue hfree
  obtain ⟨u, hrun, hleft⟩ := h.misaligned hpa hring hhead hmis
  have ht := hleft.takeFailure (.preconditionFail .headAlignment)
  have ok {r : DevReg} (hr : r.indexCount s.cfg = some s.cfg.txQueueCount) : r.indexOk s.cfg q = true :=
    indexOk_of_lt hr hqueue
  have spared {l : List Access} (hl : madeBetween s (u.takeFailure (.preconditionFail .headAlignment)) l) {r : DevReg}
      (hr : r ∉ [DevReg.tdbah, .tdbal, .tdlen, .txdctl]) (hi : r.indexOk s.cfg q = true) (v : W32) :
      Access.mmioWrite (s.regAddr dev r q) v ∉ l := fun hmem => by
    obtain rfl := madeBetween.unique hl ht.made
    obtain ⟨r', hr', he⟩ := State.written_before_writeBack hmem
    have hi' : r'.indexOk s.cfg q = true := by
      simp only [List.mem_cons, List.not_mem_nil, or_false] at hr'
      rcases hr' with rfl | rfl | rfl | rfl <;> exact ok rfl
    exact State.regAddr_ne hc (ne_of_mem_of_not_mem hr' hr).symm hi hi' he
  obtain ⟨htdbah, htdbal, htdlen, htxdctl⟩ := State.outputProgrammed_reads (dev := dev) (p := p) hc hqueue
  refine ⟨_, exec_raise ha (Micro.run_bind_error hrun), ⟨rfl, rfl⟩, ht.frame,
    fun l hl v => ⟨spared hl (by decide) (ok rfl) v, spared hl (by decide) (ok rfl) v⟩, ?_, ?_,
    (ht.regOf ..).trans htdbah, (ht.regOf ..).trans htdbal, (ht.regOf ..).trans htdlen, (ht.regOf ..).trans htxdctl,
    ht.filled⟩
  · exact (ht.regOf ..).trans (State.outputProgrammed_other hc hqueue (by decide) (ok rfl))
  · exact (ht.regOf ..).trans (State.outputProgrammed_other hc hqueue (by decide) (ok rfl))

end Sys2Proof.Machine
end

section
/-! SUPPORT. BIND_OUTPUT that fails, where no other agent moves (R281 to R283, R285, R288, R293, R296). -/

namespace Sys2Proof.Machine

section
variable {s : State} {dev queue : BitVec 8} {n : Fin 4} {pa : Nat → W64} {k : Nat}

/-- A failure while the ring is filled, or right after, leaves the NICs as they were. -/
theorem Filling.takeFailure {r : State} {l : List Access} (h : Filling s n pa k l r) (f : Failure) :
    BindFrame s (r.takeFailure f) (s.handle dev).bdf ∧ SameNics s (r.takeFailure f) ∧
      RingFilled s (r.takeFailure f) n pa k :=
  ⟨⟨h.environment, h.engine, h.blocks, h.answers, handle_of_handles h.handles, fun b _ => h.nic b⟩, h.nic, h.filled⟩

/-- A buffer is not translated (R283). -/
theorem OutputFree.bufferUntranslated (h : OutputFree s dev queue n) (hk : k < s.cfg.ringSize)
    (hpa : BuffersTranslate s pa k) (hnone : s.v2p (s.eng.buf + BitVec.ofNat 64 (s.cfg.bufSize * k)) = none) :
    ∃ f l u, Failure.res f = 1 ∧ bindOutput dev queue (s.start (.bindOutput dev queue)) = .error (.raise f) u ∧
      Filling s n pa k l u := by
  obtain ⟨f, l, u, hres, hrun, hu⟩ := fillSlots_untranslated (h.filling pa) h.built h.accessible.quiet hk hpa hnone
  refine ⟨f, l, u, hres, ?_, hu⟩
  rw [h.run]
  exact Micro.run_bind_error hrun

/-- The ring is not translated (R285). -/
theorem OutputFree.ringUntranslated (h : OutputFree s dev queue n) (hpa : BuffersTranslate s pa s.cfg.ringSize)
    (hring : s.v2p s.eng.ring[n] = none) :
    ∃ l u, bindOutput dev queue (s.start (.bindOutput dev queue)) = .error (.raise (.allocFail (.translateRing n))) u ∧
      Filling s n pa s.cfg.ringSize l u := by
  obtain ⟨r, hfill, hr⟩ := h.fills hpa
  have hring' : r.v2p r.eng.ring[n] = none := by rw [hr.v2p, hr.engine.2, hring]
  refine ⟨_, _, ?_, hr.accessed 5 (.v2p r.eng.ring[n] none)⟩
  rw [h.run]
  refine (Micro.run_bind_ok hfill).trans (Micro.run_bind_error ?_)
  rw [programOutput, Micro.look_bind]
  exact Micro.run_bind_error (v2pOrRaise_untranslated 5 _ (hr.quiet h.accessible.quiet) hring')

end

/-- Settles O42, by what is found first: no output left, the queue in use, an address not translated, no answer. -/
theorem bindOutputRejects : Obligations.BindOutputRejects := by
  intro s dev queue ha
  refine ⟨bindOutput_refused ha, fun hq hc hs hn hqueue hused => ?_,
    fun n pa hinv hq hc hs hn hqueue hfree => ?_⟩
  · have h := accessible_of_initialized (.bindOutput dev queue) hq hc hs ha.2.2
    obtain ⟨hexec, hanswer, hframe, hhandles⟩ := exec_raise_frame ha
      (Micro.run_bind_error (bindOutput_inUse h hn hqueue hused)) ((OnlyNic.refl _ _).accessed 1 _)
    exact ⟨_, hexec, hanswer, hframe, hhandles, sameNics_of_nics rfl, rfl⟩
  intro q m old bdf programmed
  have h := outputFree_of_accepts hinv hq hc hs ha hn hqueue hfree
  have ok {r : DevReg} (hr : r.indexCount s.cfg = some s.cfg.txQueueCount) : r.indexOk s.cfg q = true :=
    indexOk_of_lt hr hqueue
  refine ⟨fun k hk hpa hnone => ?_, fun hpa hring => ?_, fun p hpa hring hhead => ?_,
    fun p hp hlag hpa hring hhead haligned => ?_⟩
  · obtain ⟨f, l, u, hres, hrun, hu⟩ := h.bufferUntranslated hk hpa hnone
    exact ⟨_, exec_raise ha (Micro.run_bind_error hrun), ⟨by rw [State.takeFailure_resp, hres], rfl⟩, hu.takeFailure f⟩
  · obtain ⟨l, u, hrun, hu⟩ := h.ringUntranslated hpa hring
    exact ⟨_, exec_raise ha (Micro.run_bind_error hrun), ⟨rfl, rfl⟩, hu.takeFailure _⟩
  · obtain ⟨l, u, hrun, hu⟩ := h.headUntranslated hpa hring hhead
    have ht := hu.takeFailure (.allocFail (.translateHead n))
    obtain ⟨htdbah, htdbal, htdlen, htxdctl⟩ := State.outputProgrammed_reads (dev := dev) (p := p) hc hqueue
    exact ⟨_, exec_raise ha (Micro.run_bind_error hrun), ⟨rfl, rfl⟩, ht.frame, ht.filled,
      ⟨(ht.regOf ..).trans htdbah, (ht.regOf ..).trans htdbal, (ht.regOf ..).trans htdlen,
        (ht.regOf ..).trans htxdctl⟩,
      fun off hoff => (ht.regs off).trans (State.outputProgrammed_frame hoff)⟩
  · obtain ⟨l, d, u, hd, hrun, hu⟩ := h.times_out hlag hpa hring hhead haligned
    have ht := hu.takeFailure (.hwTimeout .txdctlEnable q true)
    obtain ⟨htdbah, htdbal, htdlen, htxdctl⟩ := State.outputProgrammed_reads (dev := dev) (p := p) hc hqueue
    obtain ⟨htdwbah, htdwbal, hdcatxctrl, hdmatxctl⟩ :=
      State.transmitsEnabled_reads (dev := dev) (p := p) (hp := hp) hc hqueue
    have early {r : DevReg} (hr : r ∉ [.dmatxctl] ++ [.tdwbah, .tdwbal, .dcatxctrl]) (hi : r.indexOk s.cfg q = true) :
        (u.takeFailure (.hwTimeout .txdctlEnable q true)).regOf dev r q =
          s.outputProgrammed dev q p (s.cfg.off r q) := by
      obtain ⟨htransmit, hback⟩ := not_or.1 (mt List.mem_append.2 hr)
      rw [ht.regOf, State.transmitsEnabled_other hc (by simpa using htransmit) hi,
        State.headProgrammed_other hc hqueue hback hi]
    exact ⟨_, exec_raise ha (Micro.run_bind_error hrun), ⟨rfl, rfl⟩, ht.frame, ht.filled,
      Nat.le_trans (Nat.add_le_add_left hd _) ht.waited,
      ⟨(early (by decide) (ok rfl)).trans htdbah, (early (by decide) (ok rfl)).trans htdbal,
        (early (by decide) (ok rfl)).trans htdlen, (early (by decide) (ok rfl)).trans htxdctl⟩,
      (ht.regOf ..).trans htdwbah, (ht.regOf ..).trans htdwbal, (ht.regOf ..).trans hdcatxctrl,
      (ht.regOf ..).trans hdmatxctl, fun off hoff => (ht.regs off).trans (State.transmitsEnabled_frame hoff)⟩

end Sys2Proof.Machine
end

section
/-! SUPPORT. Slot numbers (R334) and the head scan (R318, R319): 64-bit arithmetic agrees with that modulo the ring
size, which is a power of two. -/

namespace Sys2Proof.Machine

/-! Slot numbers. -/

/-- The ring size divides the range of 64-bit numbers (R9). -/
theorem Config.ringSize_dvd {c : Config} (h : c.legal = true) : c.ringSize ∣ 2 ^ 64 := by
  have hn := Config.legal_numbers h
  have hle := (Config.ringSize_bounds h).2
  simp only [Config.numbersOk, isPow2, Bool.and_eq_true, bne_iff_ne, beq_iff_eq] at hn
  obtain ⟨k, hk⟩ := (Nat.and_sub_one_eq_zero_iff_isPowerOfTwo (by omega)).1
    (show c.ringSize &&& (c.ringSize - 1) = 0 by tauto)
  rw [hk] at hle ⊢
  exact Nat.pow_dvd_pow 2 (by have := (Nat.pow_le_pow_iff_right (a := 2) (by decide)).1 hle; omega)

/-- The process period is a number of slots below the ring size, and not 0 (R15). -/
theorem Config.processPeriod_bounds {c : Config} (h : c.legal = true) :
    0 < c.processPeriod ∧ c.processPeriod < c.ringSize := by
  have hn := Config.legal_numbers h
  simp only [Config.numbersOk, isPow2, Bool.and_eq_true, decide_eq_true_eq, bne_iff_ne] at hn
  omega

/-- The sentinel is no slot number (R33). -/
theorem Config.flushedNone_ge {c : Config} (h : c.legal = true) : c.ringSize ≤ c.flushedNone.toNat := by
  have hn := Config.legal_numbers h
  simp only [Config.numbersOk, Bool.and_eq_true, decide_eq_true_eq] at hn
  omega

theorem slotAdd_toNat {c : Config} (h : c.legal = true) (x : W64) (k : Nat) :
    (slotAdd c x k).toNat = (x.toNat + k) % c.ringSize := by
  obtain ⟨hpos, hle⟩ := Config.ringSize_bounds h
  have hlt := Nat.mod_lt (x.toNat + k) hpos
  rw [slotAdd, BitVec.toNat_ofNat, Nat.mod_eq_of_lt (by omega)]

/-- A 64-bit difference is the difference modulo the ring size (R334 (b)). -/
theorem sub_mod_ringSize {c : Config} (h : c.legal = true) (x : W64) {y : W64} (hy : y.toNat ≤ c.ringSize) :
    (x - y).toNat % c.ringSize = (x.toNat + c.ringSize - y.toNat) % c.ringSize := by
  obtain ⟨k, hk⟩ := Config.ringSize_dvd h
  obtain ⟨hpos, hle⟩ := Config.ringSize_bounds h
  have hk1 : 0 < k := Nat.pos_of_ne_zero fun e => by simp [e] at hk
  rw [BitVec.toNat_sub, Nat.mod_mod_of_dvd _ (Config.ringSize_dvd h), hk]
  have hsplit : c.ringSize * k - y.toNat + x.toNat = x.toNat + c.ringSize - y.toNat + c.ringSize * (k - 1) := by
    obtain ⟨j, rfl⟩ := Nat.exists_eq_add_one.2 hk1
    rw [Nat.add_sub_cancel, Nat.mul_succ]
    omega
  rw [hsplit, Nat.add_mul_mod_self_left]

theorem slotBefore_toNat {c : Config} (h : c.legal = true) (x : W64) :
    (slotBefore c x).toNat = (x.toNat + c.ringSize - 1) % c.ringSize := by
  obtain ⟨hpos, hle⟩ := Config.ringSize_bounds h
  have hmod := sub_mod_ringSize h x (y := 1) hpos
  have hlt := Nat.mod_lt (x - 1).toNat hpos
  rw [slotBefore, BitVec.toNat_ofNat, Nat.mod_eq_of_lt (by omega), hmod]
  rfl

/-- The slot before the next one is the slot itself (R321). -/
theorem slotBefore_slotAdd {c : Config} (h : c.legal = true) {x : W64} (hx : x.toNat < c.ringSize) :
    slotBefore c (slotAdd c x 1) = x := by
  apply BitVec.eq_of_toNat_eq
  rw [slotBefore_toNat h, slotAdd_toNat h]
  obtain hlt | heq : x.toNat + 1 < c.ringSize ∨ x.toNat + 1 = c.ringSize := by omega
  · rw [Nat.mod_eq_of_lt hlt, show x.toNat + 1 + c.ringSize - 1 = x.toNat + c.ringSize by omega, Nat.add_mod_right,
      Nat.mod_eq_of_lt hx]
  · rw [heq, Nat.mod_self, Nat.mod_eq_of_lt (by omega)]
    omega

/-! The head scan. -/

/-- What the scan keeps after the heads `l`: the delimiter while there was none, and then a head with its distance,
which is the least (R318, R319). -/
def ScanKeeps (pd : W64) (l : List W64) (best : W64 × W64) : Prop :=
  (l = [] → best = scanStart pd) ∧
    (l ≠ [] → best.1 ∈ l ∧ best.2 = best.1 - pd ∧ ∀ h ∈ l, best.1 - pd ≤ h - pd)

/-- One more head. -/
theorem ScanKeeps.scanHead {pd : W64} {l : List W64} {best : W64 × W64} (k : ScanKeeps pd l best) (h : W64) :
    ScanKeeps pd (l ++ [h]) (scanHead pd h best) := by
  refine ⟨fun hnil => absurd hnil (by simp), fun _ => ?_⟩
  rw [Machine.scanHead]
  by_cases hl : l = []
  · have hbest := k.1 hl
    have hle : h - pd ≤ best.2 := by
      have hlt := (h - pd).isLt
      rw [hbest, scanStart, BitVec.le_def, BitVec.toNat_allOnes]
      omega
    rw [if_pos hle, hl]
    simp
  · obtain ⟨hmem, hdist, hleast⟩ := k.2 hl
    by_cases hle : h - pd ≤ best.2
    · rw [if_pos hle]
      rw [hdist] at hle
      refine ⟨by simp, rfl, fun x hx => ?_⟩
      obtain hx | hx := List.mem_append.1 hx
      · exact BitVec.le_trans hle (hleast x hx)
      · rw [List.mem_singleton.1 hx]
        exact BitVec.le_refl _
    · rw [if_neg hle]
      refine ⟨List.mem_append_left _ hmem, hdist, fun x hx => ?_⟩
      obtain hx | hx := List.mem_append.1 hx
      · exact hleast x hx
      · rw [List.mem_singleton.1 hx, ← hdist]
        exact BitVec.le_of_lt (BitVec.not_le.1 hle)

theorem scanKeeps_foldl (pd : W64) (l : List W64) :
    ScanKeeps pd l (l.foldl (fun best h => scanHead pd h best) (scanStart pd)) := by
  induction l using List.reverseRecOn with
  | nil => exact ⟨fun _ => rfl, fun h => absurd rfl h⟩
  | append_singleton l h ih =>
    rw [List.foldl_concat]
    exact ih.scanHead h

/-- Slot numbers are as far ahead of the delimiter modulo the ring size as they are in 64-bit arithmetic: those behind
it come after those ahead of it in both (R334 (b)). -/
theorem forward_le_of_sub_le {c : Config} (hc : c.legal = true) {pd x y : W64} (hpd : pd.toNat < c.ringSize)
    (hx : x.toNat < c.ringSize) (hy : y.toNat < c.ringSize) (h : x - pd ≤ y - pd) :
    (x.toNat + c.ringSize - pd.toNat) % c.ringSize ≤ (y.toNat + c.ringSize - pd.toNat) % c.ringSize := by
  obtain ⟨hpos, hle⟩ := Config.ringSize_bounds hc
  have forward {z : W64} (hz : z.toNat < c.ringSize) : (z.toNat + c.ringSize - pd.toNat) % c.ringSize =
      if pd.toNat ≤ z.toNat then z.toNat - pd.toNat else z.toNat + c.ringSize - pd.toNat := by
    split
    · rw [show z.toNat + c.ringSize - pd.toNat = z.toNat - pd.toNat + c.ringSize by omega, Nat.add_mod_right,
        Nat.mod_eq_of_lt (by omega)]
    · exact Nat.mod_eq_of_lt (by omega)
  have distance (z : W64) : (z - pd).toNat =
      if pd.toNat ≤ z.toNat then z.toNat - pd.toNat else z.toNat + 2 ^ 64 - pd.toNat := by
    rw [BitVec.toNat_sub]
    split <;> omega
  rw [BitVec.le_def, distance, distance] at h
  rw [forward hx, forward hy]
  split_ifs at h ⊢ <;> omega

/-- Settles O52: the head kept has the least distance in 64-bit arithmetic, and so modulo the ring size. -/
theorem scanKeepsLeastDistance : Obligations.ScanKeepsLeastDistance := by
  intro c pd heads hc hpd hheads
  have k := scanKeeps_foldl pd heads
  refine ⟨fun hnil => congrArg Prod.fst (k.1 hnil), fun hne => ?_⟩
  obtain ⟨hmem, -, hleast⟩ := k.2 hne
  exact ⟨hmem, fun h hh => forward_le_of_sub_le hc hpd (hheads _ hmem) (hheads h hh) (hleast h hh)⟩

end Sys2Proof.Machine
end

section
/-! SUPPORT. What the parts of RECEIVE and TRANSMIT do, whatever the other agents do between their micro-steps (R303,
R316): the accesses they make, one micro-step each, and the engine registers; and, where no other agent moves, memory
and the NICs. -/

namespace Sys2Proof.Machine

/-! Register writes among accesses. -/

theorem registerWrites_append (l l' : List Access) : 
    registerWrites (l ++ l') = registerWrites l ++ registerWrites l' := by
  induction l with
  | nil => rfl
  | cons a rest ih => cases a <;> simp [registerWrites, ih]

theorem registerWrites_map_mmioWrite {α : Type} (l : List α) (a : α → W64) (v : α → W32) :
    registerWrites (l.map fun x => .mmioWrite (a x) (v x)) = l.map fun x => (a x, v x) := by
  induction l with
  | nil => rfl
  | cons x rest ih => exact congrArg _ ih

theorem registerWrites_map_memRead {α : Type} (l : List α) (acq : Bool) (a : α → W64) (n : Nat) (v : α → W64) :
    registerWrites (l.map fun x => .memRead acq (a x) n (v x)) = [] := by
  induction l with
  | nil => rfl
  | cons x rest ih => exact ih

theorem registerWrites_map_memWrite {α : Type} (l : List α) (rel : Bool) (a : α → W64) (n : Nat) (v : α → W64) :
    registerWrites (l.map fun x => .memWrite rel (a x) n (v x)) = [] := by
  induction l with
  | nil => rfl
  | cons x rest ih => exact ih

/-- The register writes among the accesses `l` that go to the NIC `bdf`, as offsets and values (R72). -/
def State.writesTo (s : State) (bdf : W16) (l : List Access) : List (Nat × W32) :=
  (registerWrites l).filterMap fun w => (s.windowAt w.1).bind fun p => if p.1 = bdf then some (p.2, w.2) else none

theorem State.writesTo_append (s : State) (bdf : W16) (l l' : List Access) :
    s.writesTo bdf (l ++ l') = s.writesTo bdf l ++ s.writesTo bdf l' := by
  rw [State.writesTo, registerWrites_append, List.filterMap_append, State.writesTo, State.writesTo]

theorem State.mem_writesTo {s : State} {bdf : W16} {l : List Access} {off : Nat} {v : W32} :
    (off, v) ∈ s.writesTo bdf l ↔ ∃ a, (a, v) ∈ registerWrites l ∧ s.windowAt a = some (bdf, off) := by
  simp only [State.writesTo, List.mem_filterMap, Option.bind_eq_some_iff]
  constructor
  · rintro ⟨⟨a, x⟩, hw, ⟨b, o⟩, hwin, hif⟩
    split at hif
    · cases hif
      subst_vars
      exact ⟨a, hw, hwin⟩
    · cases hif
  · rintro ⟨a, hw, hwin⟩
    exact ⟨(a, v), hw, (bdf, off), hwin, if_pos rfl⟩

/-! What the hot path has done. -/

/-- From `s` to `t` every register write among the accesses `l` was posted toward its NIC, in order, and no NIC changed
otherwise (R51). -/
def PostsTails (s t : State) (l : List Access) : Prop :=
  ∀ bdf, ∃ ws : List RegWrite, (ws.map fun w => (w.off, w.val)) = s.writesTo bdf l ∧ (∀ w ∈ ws, s.now ≤ w.time) ∧
    t.nic bdf = ws.foldl (Nic.post s.cfg) (s.nic bdf)

theorem PostsTails.refl (s : State) : PostsTails s s [] := fun _ => ⟨[], rfl, by simp, rfl⟩

theorem PostsTails.trans {s t u : State} {l l' : List Access} (h : PostsTails s t l) (k : PostsTails t u l')
    (hcfg : t.cfg = s.cfg) (hhandles : t.handles = s.handles) (hnow : s.now ≤ t.now) : PostsTails s u (l ++ l') := by
  intro bdf
  obtain ⟨ws, hws, htime, hnic⟩ := h bdf
  obtain ⟨ws', hws', htime', hnic'⟩ := k bdf
  have hwrites : t.writesTo bdf l' = s.writesTo bdf l' := by simp only [State.writesTo, State.windowAt, hhandles]
  refine ⟨ws ++ ws', ?_, fun w hw => ?_, ?_⟩
  · rw [List.map_append, hws, hws', hwrites, State.writesTo_append]
  · obtain hw | hw := List.mem_append.1 hw
    · exact htime w hw
    · exact Nat.le_trans hnow (htime' w hw)
  · rw [List.foldl_append, ← hnic, ← hcfg]
    exact hnic'

/-- From `s` to `t` the accesses `l` were made, each one micro-step, the engine registers are then `e`, and no answer of
the allocator or of the handler was used up. Where no other agent moves, memory then is what `f` makes of it, and the
NICs changed by what was posted toward them. -/
structure HotRun (s : State) (e : Engine) (f : List Host.Cell → List Host.Cell) (l : List Access) (t : State) :
    Prop where
  runs : Runs Delimits s t
  eng : t.eng = e
  answers : SameAnswers s t
  made : madeBetween s t l
  micros : t.micros = s.micros + l.length
  quiet : s.quiet → t.quiet
  mem : s.quiet → t.mem = f s.mem
  posts : s.quiet → PostsTails s t l

section
variable {s t u : State} {e e' : Engine} {f f' : List Host.Cell → List Host.Cell} {l l' : List Access}

theorem HotRun.refl (s : State) : HotRun s s.eng id [] s :=
  ⟨Delimits.chains.refl s, rfl, ⟨rfl, rfl⟩, rfl, rfl, id, fun _ => rfl, fun _ => .refl s⟩

theorem HotRun.trans (h : HotRun s e f l t) (k : HotRun t e' f' l' u) : HotRun s e' (f' ∘ f) (l ++ l') u where
  runs := Delimits.chains.trans h.runs k.runs
  eng := k.eng
  answers := ⟨k.answers.1.trans h.answers.1, k.answers.2.trans h.answers.2⟩
  made := h.made.trans k.made
  micros := by rw [k.micros, h.micros, List.length_append, Nat.add_assoc]
  quiet hq := k.quiet (h.quiet hq)
  mem hq := by rw [k.mem (h.quiet hq), h.mem hq, Function.comp_apply]
  posts hq := (h.posts hq).trans (k.posts (h.quiet hq)) h.runs.keeps.cfg h.runs.handles h.runs.keeps.now

theorem HotRun.cfg (h : HotRun s e f l t) : t.cfg = s.cfg := h.runs.keeps.cfg

/-- The same run, its accesses in other words. -/
theorem HotRun.cast (h : HotRun s e f l t) (he : e = e') (hl : l = l') : HotRun s e' f l' t := he ▸ hl ▸ h

/-- The delimiters are written, to slot numbers or the sentinel: no micro-step. -/
theorem HotRun.setEng (hd : Delimits s.cfg s.eng e) : HotRun s e id [] { s with eng := e } :=
  ⟨.setEng hd, rfl, ⟨rfl, rfl⟩, rfl, rfl, id, fun _ => rfl, fun _ _ => ⟨[], rfl, by simp, rfl⟩⟩

/-! Single accesses. -/

/-- An access that was made alone. -/
theorem HotRun.of_calm {a : Access} (hc : Calm s t) (hanswers : SameAnswers s t) (htrace : t.trace = a :: s.trace)
    (hmicros : t.micros = s.micros + 1) (hquiet : s.quiet → t.quiet) (hmem : s.quiet → t.mem = f s.mem)
    (hposts : s.quiet → PostsTails s t [a]) : HotRun s s.eng f [a] t :=
  ⟨hc.runs Delimits.refl, hc.eng, hanswers, htrace, hmicros, hquiet, hmem, hposts⟩

/-- The NICs are as they were. -/
theorem PostsTails.of_nics (hnics : t.nics = s.nics) (hl : registerWrites l = []) : PostsTails s t l := fun bdf =>
  ⟨[], by rw [State.writesTo, hl]; rfl, by simp, by rw [State.nic, hnics]; rfl⟩

theorem memRead_hot {a : W64} {n : Nat} (line : Nat) (acq : Bool) (h : s.memExists a.toNat n = true) :
    ∃ v t, memRead line acq a n s = .ok v t ∧ HotRun s s.eng id [.memRead acq a n v] t ∧
      (s.quiet → v = BitVec.ofNat 64 (Memory.readLE s.mem a.toNat n)) := by
  have hrun := memRead_run line acq h
  refine ⟨_, _, hrun, .of_calm ((Accesses.memRead line acq a n).calm hrun) ?_ ?_ ?_ ?_ ?_ ?_, ?_⟩
  · exact ⟨s.boundary_grants line, s.boundary_handlerQ line⟩
  · exact congrArg _ (s.boundary_trace line)
  · exact s.boundary_micros line
  all_goals
    intro hq
    rw [State.boundary_eq_self hq]
  · exact hq
  · rfl
  · exact .of_nics rfl rfl

theorem memWrite_hot {a : W64} {n : Nat} (line : Nat) (rel : Bool) (v : W64) (h : s.memExists a.toNat n = true) :
    ∃ t, memWrite line rel a n v s = .ok () t ∧
      HotRun s s.eng (fun m => Memory.writeLE m a.toNat n v.toNat) [.memWrite rel a n v] t := by
  have hrun := memWrite_run line rel v h
  refine ⟨_, hrun, .of_calm ((Accesses.memWrite line rel a n v).calm hrun) ?_ ?_ ?_ ?_ ?_ ?_⟩
  · exact ⟨s.boundary_grants line, s.boundary_handlerQ line⟩
  · exact congrArg _ (s.boundary_trace line)
  · exact s.boundary_micros line
  all_goals
    intro hq
    rw [State.boundary_eq_self hq]
  · exact hq
  · rfl
  · exact .of_nics rfl rfl

theorem mmioWriteAt_hot {a : W64} (line : Nat) (v : W32) (h : ∃ bdf off, s.windowAt a = some (bdf, off)) :
    ∃ t, mmioWriteAt line a v s = .ok () t ∧ HotRun s s.eng id [.mmioWrite a v] t := by
  obtain ⟨bdf, off, hw⟩ := h
  have hrun := mmioWriteAt_run line v hw
  refine ⟨_, hrun, .of_calm ((Accesses.mmioWriteAt line a v).calm hrun) ?_ ?_ ?_ ?_ ?_ ?_⟩
  · exact ⟨s.boundary_grants line, s.boundary_handlerQ line⟩
  · exact congrArg _ (s.boundary_trace line)
  · exact s.boundary_micros line
  all_goals
    intro hq
    rw [State.boundary_eq_self hq]
  · exact hq
  · rfl
  · intro b
    have hwrites : s.writesTo b [.mmioWrite a v] = if bdf = b then [(off, v)] else [] := by
      simp only [State.writesTo, registerWrites, List.filterMap_cons, hw, Option.bind_some, List.filterMap_nil]
      split <;> simp_all
    rw [State.nic_log, State.nic_postWrite, hwrites]
    by_cases hb : b = bdf
    · subst hb
      simp only [if_true]
      exact ⟨[_], rfl, by simp, rfl⟩
    · simp only [if_neg hb, if_neg (Ne.symm hb)]
      exact ⟨[], rfl, by simp, rfl⟩

end

/-! Loops over outputs. -/

section
variable {s : State}

theorem storeWords_hot (line : Nat) (addr v : Fin 4 → W64) {l : List (Fin 4)}
    (h : ∀ n ∈ l, s.memExists (addr n).toNat 8 = true) :
    ∃ t, forEach l (fun n => memWrite line true (addr n) 8 (v n)) s = .ok () t ∧
      HotRun s s.eng (fun m => writeWords (fun n => (addr n).toNat) v m l)
        (l.map fun n => .memWrite true (addr n) 8 (v n)) t := by
  induction l generalizing s with
  | nil => exact ⟨s, rfl, .refl s⟩
  | cons n rest ih =>
    obtain ⟨t, hrun, ht⟩ := memWrite_hot line true (v n) (h n List.mem_cons_self)
    obtain ⟨u, hloop, hu⟩ := ih (s := t) fun k hk => (ht.runs.memExists _ _).trans (h k (List.mem_cons_of_mem _ hk))
    exact ⟨u, (Micro.run_bind_ok hrun).trans hloop, (ht.trans hu).cast ht.eng rfl⟩

theorem writeTails_hot (line : Nat) (addr : Fin 4 → W64) (v : W32) {l : List (Fin 4)}
    (h : ∀ n ∈ l, ∃ bdf off, s.windowAt (addr n) = some (bdf, off)) :
    ∃ t, forEach l (fun n => mmioWriteAt line (addr n) v) s = .ok () t ∧
      HotRun s s.eng id (l.map fun n => .mmioWrite (addr n) v) t := by
  induction l generalizing s with
  | nil => exact ⟨s, rfl, .refl s⟩
  | cons n rest ih =>
    obtain ⟨t, hrun, ht⟩ := mmioWriteAt_hot line v (h n List.mem_cons_self)
    obtain ⟨u, hloop, hu⟩ := ih (s := t) fun k hk => by
      rw [ht.runs.windowAt]
      exact h k (List.mem_cons_of_mem _ hk)
    exact ⟨u, (Micro.run_bind_ok hrun).trans hloop, (ht.trans hu).cast ht.eng rfl⟩

/-- A flush (R305, R314). -/
theorem flushTails_hot (h : Built s) (line : Nat) :
    ∃ t, flushTails line s = .ok () t ∧ HotRun s s.eng id (tailWrites s s.eng.pd) t := by
  rw [flushTails, Micro.look_bind]
  exact writeTails_hot line _ _ fun n hn => h.tta_window (State.mem_outputs.1 hn)

end

/-! Commands of the hot path. -/

/-- From `s` to `t` a command of the hot path made the accesses `l` and ended; the rest is as in `HotRun`. -/
structure HotCommand (s : State) (e : Engine) (f : List Host.Cell → List Host.Cell) (l : List Access) (t : State) :
    Prop where
  cfg : t.cfg = s.cfg
  port : t.port = s.port
  maps : t.maps = s.maps
  es : t.es = s.es
  handles : t.handles = s.handles
  blocks : t.blocks = s.blocks
  eng : t.eng = e
  answers : SameAnswers s t
  made : madeBetween s t l
  micros : t.micros = s.micros + l.length
  quiet : s.quiet → t.quiet
  mem : s.quiet → t.mem = f s.mem
  posts : s.quiet → PostsTails s t l

section
variable {s t : State} {e : Engine} {f : List Host.Cell → List Host.Cell} {l : List Access}

/-- The micro-steps of a command, and its response. -/
theorem HotRun.command {i : Instr} (h : HotRun (s.start i) e f l t) (res : BitVec 8) (v w : W64) :
    HotCommand s e f l (t.respond res v w) :=
  ⟨h.cfg, h.runs.keeps.port, h.runs.keeps.maps, h.runs.es, h.runs.handles, h.runs.blocks, h.eng, h.answers, h.made,
    h.micros, h.quiet, h.mem, h.posts⟩

theorem HotCommand.environment (h : HotCommand s e f l t) (hq : s.quiet) : SameEnvironment s t :=
  ⟨h.cfg, h.port, (h.quiet hq).trans hq.symm, h.maps⟩

theorem HotCommand.sameHandles (h : HotCommand s e f l t) : SameHandles s t := handle_of_handles h.handles

/-! The tails that a command writes (R305, R314, R320). -/

/-- The register writes of a command of the hot path: on a flush the transmit tails of the bound outputs get `x`, on a
Report-Status slot the receive tail gets `y`. -/
def State.tailRegisters (s : State) (flush rs : Prop) [Decidable flush] [Decidable rs] (x y : W32) : List (W64 × W32) :=
  (if flush then s.outputs.map fun n => (s.eng.tta[n], x) else []) ++ if rs then [(s.eng.rta, y)] else []

variable {flush rs : Prop} [Decidable flush] [Decidable rs] {x y : W32} {bdf : W16}

theorem State.mem_tailRegisters {a : W64} {v : W32} : (a, v) ∈ s.tailRegisters flush rs x y ↔
    (flush ∧ v = x ∧ ∃ n : Fin 4, n.val < s.eng.oc.toNat ∧ s.eng.tta[n] = a) ∨ (rs ∧ v = y ∧ a = s.eng.rta) := by
  have bound : (a, v) ∈ s.outputs.map (fun n => (s.eng.tta[n], x)) ↔
      v = x ∧ ∃ n : Fin 4, n.val < s.eng.oc.toNat ∧ s.eng.tta[n] = a := by
    simp only [List.mem_map, State.mem_outputs, Prod.mk.injEq]
    exact ⟨fun ⟨n, hn, ha, hv⟩ => ⟨hv.symm, n, hn, ha⟩, fun ⟨hv, n, hn, ha⟩ => ⟨n, hn, ha, hv.symm⟩⟩
  rw [State.tailRegisters, List.mem_append]
  refine or_congr ?_ ?_
  · by_cases hf : flush
    · rw [if_pos hf, bound, and_iff_right hf]
    · simp [hf]
  · by_cases hr : rs <;> simp [hr, and_comm]

/-- The writes to a NIC, by the tail that they are of. -/
theorem State.mem_writesTo_tails {off : Nat} {v : W32} (hl : registerWrites l = s.tailRegisters flush rs x y) :
    (off, v) ∈ s.writesTo bdf l ↔
      (flush ∧ v = x ∧ ∃ n : Fin 4, n.val < s.eng.oc.toNat ∧ s.windowAt s.eng.tta[n] = some (bdf, off)) ∨
        (rs ∧ v = y ∧ s.windowAt s.eng.rta = some (bdf, off)) := by
  rw [State.mem_writesTo, hl]
  simp only [State.mem_tailRegisters]
  constructor
  · rintro ⟨a, ⟨hf, hv, n, hn, rfl⟩ | ⟨hr, hv, rfl⟩, hw⟩
    · exact .inl ⟨hf, hv, n, hn, hw⟩
    · exact .inr ⟨hr, hv, hw⟩
  · rintro (⟨hf, hv, n, hn, hw⟩ | ⟨hr, hv, hw⟩)
    · exact ⟨_, .inl ⟨hf, hv, n, hn, rfl⟩, hw⟩
    · exact ⟨_, .inr ⟨hr, hv, rfl⟩, hw⟩

/-- The registers that are written are those the tail writes name. -/
theorem State.exists_mem_writesTo_iff {off : Nat} (hl : registerWrites l = s.tailRegisters flush rs x y) :
    (∃ p ∈ s.writesTo bdf l, p.1 = off) ↔ tailTargets s flush rs bdf off := by
  constructor
  · rintro ⟨⟨o, v⟩, hp, rfl⟩
    obtain ⟨hf, -, n, hn, hw⟩ | ⟨hr, -, hw⟩ := (State.mem_writesTo_tails hl).1 hp
    · exact .inl ⟨hf, n, hn, hw⟩
    · exact .inr ⟨hr, hw⟩
  · rintro (⟨hf, n, hn, hw⟩ | ⟨hr, hw⟩)
    · exact ⟨(off, x), (State.mem_writesTo_tails hl).2 (.inl ⟨hf, rfl, n, hn, hw⟩), rfl⟩
    · exact ⟨(off, y), (State.mem_writesTo_tails hl).2 (.inr ⟨hr, rfl, hw⟩), rfl⟩

/-- No NIC changes that none of the tail writes names. -/
theorem HotCommand.sameNicsButTails (h : HotCommand s e f l t) (hq : s.quiet)
    (hl : registerWrites l = s.tailRegisters flush rs x y) : SameNicsButTails s t flush rs := by
  intro bdf hnone
  obtain ⟨ws, hws, -, hnic⟩ := h.posts hq bdf
  have hwrites : s.writesTo bdf l = [] := List.eq_nil_iff_forall_not_mem.2 fun p hp =>
    hnone p.1 ((State.exists_mem_writesTo_iff hl).1 ⟨p, hp, rfl⟩)
  obtain rfl : ws = [] := List.map_eq_nil_iff.1 (hws.trans hwrites)
  exact hnic

/-! Tail registers of a settled NIC. -/

/-- The register at the offset is the tail of a queue. -/
def Config.IsTail (c : Config) (off : Nat) : Prop :=
  (∃ q, q < c.txQueueCount ∧ off = c.off .tdt q) ∨ off = c.off .rdt c.rxQueue

/-- A write of a tail makes it hold the value, and does nothing else (R151). -/
theorem Nic.write_tail {c : Config} (hc : StandardConfig c) {n : Nic} {w : RegWrite} (hw : Config.IsTail c w.off)
    (hu : n.usable ≤ w.time) : n.write c w = n.putReg w.off w.val := by
  have plain {r : DevReg} {i : Nat} (hi : r.indexOk c i = true) (hoff : w.off = c.off r i) (hrw : r.access = .rw)
      (hrx : .rxdctl ≠ r) (htx : .txdctl ≠ r) (hctrl : r ≠ .ctrl) : n.write c w = n.putReg w.off w.val := by
    rw [Nic.write_rw hc hi hoff hu hrw (fun h => absurd h (by tauto)) fun h => absurd h hctrl, Nic.queueEnable, hoff,
      Config.indexAt_off_ne hc hrx hi, Config.indexAt_off_ne hc htx hi]
  obtain ⟨q, hq, hoff⟩ | hoff := hw
  · exact plain (indexOk_of_lt rfl hq) hoff rfl (by decide) (by decide) (by decide)
  · exact plain (indexOk_of_lt rfl (Config.rxQueue_lt hc.1)) hoff rfl (by decide) (by decide) (by decide)

/-- Writes of tails toward a settled NIC arrive at once. -/
theorem Nic.foldl_post_tails {c : Config} (hc : StandardConfig c) {n : Nic} {now : Nat} (hn : n.settledAt now)
    {ws : List RegWrite} (hw : ∀ w ∈ ws, now ≤ w.time ∧ Config.IsTail c w.off) :
    ws.foldl (Nic.post c) n = ws.foldl (fun n w => n.putReg w.off w.val) n := by
  induction ws generalizing n with
  | nil => rfl
  | cons w rest ih =>
    obtain ⟨htime, htail⟩ := hw w List.mem_cons_self
    rw [List.foldl_cons, List.foldl_cons, Nic.post_of_settled c hn, Nic.write_tail hc htail (Nat.le_trans hn.1 htime)]
    exact ih (n := n.putReg w.off w.val) hn fun w' hw' => hw w' (List.mem_cons_of_mem _ hw')

/-- A register after writes that all give it one value, if they give it any. -/
theorem Nic.reg_foldl_putReg (c : Config) (n : Nic) {ws : List RegWrite} {off : Nat} {v : W32}
    (hv : ∀ w ∈ ws, w.off = off → w.val = v) :
    ((∃ w ∈ ws, w.off = off) → (ws.foldl (fun n w => n.putReg w.off w.val) n).reg c off = v) ∧
      ((∀ w ∈ ws, w.off ≠ off) → (ws.foldl (fun n w => n.putReg w.off w.val) n).reg c off = n.reg c off) := by
  induction ws generalizing n with
  | nil => exact ⟨fun ⟨_, hw, _⟩ => absurd hw List.not_mem_nil, fun _ => rfl⟩
  | cons w rest ih =>
    obtain ⟨written, kept⟩ := ih (n.putReg w.off w.val) fun w' hw' => hv w' (List.mem_cons_of_mem _ hw')
    rw [List.foldl_cons]
    refine ⟨fun hex => ?_, fun hnone => ?_⟩
    · by_cases hrest : ∃ w' ∈ rest, w'.off = off
      · exact written hrest
      · obtain ⟨w', hw', hoff⟩ := hex
        obtain rfl := (List.mem_cons.1 hw').resolve_right fun hmem => hrest ⟨w', hmem, hoff⟩
        rw [kept fun w'' hw'' hoff'' => hrest ⟨w'', hw'', hoff''⟩, ← hoff, Nic.reg_putReg_self]
        exact hv w' hw' hoff
    · rw [kept fun w' hw' => hnone w' (List.mem_cons_of_mem _ hw'),
        Nic.reg_putReg_ne c n _ (Ne.symm (hnone w List.mem_cons_self))]

/-- Every register of a settled NIC after a command whose writes to it are of tails. -/
theorem HotCommand.reg (h : HotCommand s e f l t) (hq : s.quiet) (hc : StandardConfig s.cfg)
    (hs : (s.nic bdf).settledAt s.now) (htails : ∀ p ∈ s.writesTo bdf l, Config.IsTail s.cfg p.1) {off : Nat} {v : W32}
    (hv : ∀ p ∈ s.writesTo bdf l, p.1 = off → p.2 = v) :
    ((∃ p ∈ s.writesTo bdf l, p.1 = off) → (t.nic bdf).reg s.cfg off = v) ∧
      ((∀ p ∈ s.writesTo bdf l, p.1 ≠ off) → (t.nic bdf).reg s.cfg off = (s.nic bdf).reg s.cfg off) := by
  obtain ⟨ws, hws, htime, hnic⟩ := h.posts hq bdf
  simp only [← hws, List.mem_map, exists_exists_and_eq_and, forall_exists_index, and_imp,
    forall_apply_eq_imp_iff₂] at htails hv ⊢
  rw [hnic, Nic.foldl_post_tails hc hs fun w hw => ⟨htime w hw, htails w hw⟩]
  obtain ⟨written, kept⟩ := Nic.reg_foldl_putReg s.cfg (s.nic bdf) hv
  exact ⟨fun w hw hoff => written ⟨w, hw, hoff⟩, kept⟩

/-- Where the recorded tails name tail registers the writes to a NIC are of tails (R35, R36). -/
theorem TailsResolve.isTail (ht : TailsResolve s) (hl : registerWrites l = s.tailRegisters flush rs x y)
    (hrs : rs → s.eng.rtaV = true) : ∀ p ∈ s.writesTo bdf l, Config.IsTail s.cfg p.1 := by
  rintro ⟨off, v⟩ hp
  obtain ⟨-, -, n, hn, hw⟩ | ⟨hr, -, hw⟩ := (State.mem_writesTo_tails hl).1 hp
  · obtain ⟨b, q, hq, hwin⟩ := ht.1 n hn
    cases hw.symm.trans hwin
    exact .inl ⟨q, hq, rfl⟩
  · obtain ⟨b, hwin⟩ := ht.2 (hrs hr)
    cases hw.symm.trans hwin
    exact .inr rfl

end

end Sys2Proof.Machine
end

section
/-! SUPPORT. RECEIVE (R303 to R309): its one read, and the catch-up flush and the sentinel where it finds no packet. -/

namespace Sys2Proof.Machine

section
variable {s : State}

/-- What RECEIVE does once it has read the word (R303, V2). -/
theorem receiveSteps_of_read {line : Nat} {word : W64} {t : State}
    (h : memRead line true (s.eng.wordAddr 0 s.eng.pd 1) 8 s = .ok word t) :
    receiveSteps line s =
      (if word.getLsbD s.cfg.desc.dd = true then pure (true, lenOf s.cfg word, s.eng.bufAddr s.cfg s.eng.pd)
      else receiveIdle (line + 1) >>= fun _ => pure (false, 0, 0)) t := by
  rw [receiveSteps, Micro.look_bind]
  exact Micro.run_bind_ok h

/-! With a packet, where no other agent moves (R307). -/

theorem receiveSteps_found (line : Nat) (hq : s.quiet)
    (hex : s.memExists (s.eng.wordAddr 0 s.eng.pd 1).toNat 8 = true) (hdd : s.word1.getLsbD s.cfg.desc.dd = true) :
    receiveSteps line s = .ok (true, lenOf s.cfg s.word1, s.eng.bufAddr s.cfg s.eng.pd)
      (s.accessed line (.memRead true (s.eng.wordAddr 0 s.eng.pd 1) 8 s.word1)) := by
  refine (receiveSteps_of_read (memRead_quiet line true hq hex)).trans ?_
  rw [Micro.run_ite]
  exact if_pos hdd

/-- The length of the packet as RECEIVE reports it (R114, R121). -/
theorem lenOf_word1 (hc : s.cfg.legal = true) : lenOf s.cfg s.word1 = BitVec.ofNat 16 s.length1 := by
  apply BitVec.eq_of_toNat_eq
  have hlen : (lenOf s.cfg s.word1).toNat = s.length1 := lenOf_toNat hc s.word1
  rw [BitVec.toNat_ofNat, ← hlen, Nat.mod_eq_of_lt (lenOf s.cfg s.word1).isLt]

theorem length1_lt (hc : s.cfg.legal = true) : s.length1 < 2 ^ 16 := by
  have hlen : (lenOf s.cfg s.word1).toNat = s.length1 := lenOf_toNat hc s.word1
  exact hlen ▸ (lenOf s.cfg s.word1).isLt

/-- Settles O44: the micro-steps are the one read. -/
theorem receiveReportsPacket : Obligations.ReceiveReportsPacket := by
  intro s hq hc ha hex hdd
  have hrun : receiveSteps 1 (s.start .receive) = .ok (true, lenOf s.cfg s.word1, s.eng.bufAddr s.cfg s.eng.pd)
      ((s.start .receive).accessed 1 (.memRead true (s.eng.wordAddr 0 s.eng.pd 1) 8 s.word1)) :=
    receiveSteps_found 1 hq hex hdd
  have hval : (lenOf s.cfg s.word1).setWidth 64 = BitVec.ofNat 64 s.length1 := by
    have hlt := length1_lt hc
    rw [lenOf_word1 hc]
    apply BitVec.eq_of_toNat_eq
    simp only [BitVec.toNat_setWidth, BitVec.toNat_ofNat]
    omega
  have hpacket : (receiveValues (true, lenOf s.cfg s.word1, s.eng.bufAddr s.cfg s.eng.pd)).1 =
      0x8000000000000000 ||| BitVec.ofNat 64 s.length1 := congrArg (0x8000000000000000#64 ||| ·) hval
  rw [exec_ok (i := .receive) ha (Micro.run_bind_ok hrun), hpacket]
  rfl

/-! Whatever the other agents do. -/

/-- The accesses of a RECEIVE that reads `word` (R303). -/
def State.receiveMade (s : State) (word : W64) : List Access :=
  .memRead true (s.eng.wordAddr 0 s.eng.pd 1) 8 word ::
    (if word.getLsbD s.cfg.desc.dd = false ∧ s.catchesUp then tailWrites s s.eng.pd else [])

/-- The engine registers after a RECEIVE that finds no packet (R305, R306). -/
def State.engineIdle (s : State) : Engine :=
  if s.cfg.idleAlwaysSentinel = true ∨ s.catchesUp then { s.eng with fd := s.cfg.flushedNone } else s.eng

theorem catchUpDue_iff : catchUpDue s.cfg s.eng.fd s.eng.pd = true ↔ s.catchesUp := by simp [catchUpDue]

/-- The sentinel is recorded. -/
theorem setFd_flushedNone_hot (s : State) :
    ∃ t, setFd s.cfg.flushedNone s = .ok () t ∧ HotRun s { s.eng with fd := s.cfg.flushedNone } id [] t :=
  ⟨_, rfl, .setEng (Unflushes.delimits (.inr rfl))⟩

theorem receiveIdle_hot (h : Built s) (line : Nat) :
    ∃ t, receiveIdle line s = .ok () t ∧
      HotRun s s.engineIdle id (if s.catchesUp then tailWrites s s.eng.pd else []) t := by
  simp only [receiveIdle, Micro.look_bind, id, catchUpDue_iff, Micro.run_ite]
  by_cases hup : s.catchesUp
  · obtain ⟨t, hflush, ht⟩ := flushTails_hot h line
    obtain ⟨u, hset, hu⟩ := setFd_flushedNone_hot t
    rw [ht.cfg] at hset hu
    rw [if_pos hup, if_pos hup, State.engineIdle, if_pos (.inr hup)]
    exact ⟨u, (Micro.run_bind_ok hflush).trans hset, (ht.trans hu).cast (by rw [ht.eng]) (List.append_nil _)⟩
  · rw [if_neg hup, if_neg hup]
    by_cases hidle : s.cfg.idleAlwaysSentinel = true
    · rw [if_pos hidle, State.engineIdle, if_pos (.inl hidle)]
      exact setFd_flushedNone_hot s
    · rw [if_neg hidle, State.engineIdle, if_neg (not_or.2 ⟨hidle, hup⟩)]
      exact ⟨s, rfl, .refl s⟩

/-- RECEIVE's micro-steps return, with the packet of the word they read or with none (R303). -/
theorem receiveSteps_hot (h : Built s) (line : Nat) :
    ∃ word r t, receiveSteps line s = .ok r t ∧ (s.quiet → word = s.word1) ∧
      ((word.getLsbD s.cfg.desc.dd = true ∧ r = (true, lenOf s.cfg word, s.eng.bufAddr s.cfg s.eng.pd) ∧
          HotRun s s.eng id (s.receiveMade word) t) ∨
        (word.getLsbD s.cfg.desc.dd = false ∧ r = (false, 0, 0) ∧
          HotRun s s.engineIdle id (s.receiveMade word) t)) := by
  obtain ⟨word, t, hread, ht, hword⟩ := memRead_hot line true (h.wordAddr_exists 0 h.engine.pd (w := 1) (by decide))
  rw [receiveSteps_of_read hread, Micro.run_ite]
  by_cases hdd : word.getLsbD s.cfg.desc.dd = true
  · refine ⟨word, (true, lenOf s.cfg word, s.eng.bufAddr s.cfg s.eng.pd), t, if_pos hdd, hword,
      .inl ⟨hdd, rfl, ht.cast rfl ?_⟩⟩
    rw [State.receiveMade, if_neg (by simp [hdd])]
  · have hclear : word.getLsbD s.cfg.desc.dd = false := by simpa using hdd
    obtain ⟨u, hidle, hu⟩ := receiveIdle_hot (h.runs ht.runs) (line + 1)
    have hup : t.catchesUp ↔ s.catchesUp := by rw [State.catchesUp, State.catchesUp, ht.cfg, ht.eng]
    have hengine : t.engineIdle = s.engineIdle := by simp only [State.engineIdle, ht.cfg, ht.eng, hup]
    have htails : tailWrites t t.eng.pd = tailWrites s s.eng.pd := by simp only [tailWrites, State.outputs, ht.eng]
    refine ⟨word, _, u, ?_, hword, .inr ⟨hclear, rfl, (ht.trans hu).cast hengine ?_⟩⟩
    · rw [if_neg hdd, Micro.run_bind_ok hidle]
      rfl
    · simp only [State.receiveMade, hclear, true_and, hup, htails]
      rfl

/-- RECEIVE ends with `OK` (R300, R303). -/
theorem exec_receive_hot (h : Built s) :
    ∃ word t, exec .receive s = .next t ∧ (s.quiet → word = s.word1) ∧
      ((word.getLsbD s.cfg.desc.dd = true ∧ HotCommand s s.eng id (s.receiveMade word) t ∧
          t.answered 0 (receiveValues (true, lenOf s.cfg word, s.eng.bufAddr s.cfg s.eng.pd)).1
            (s.eng.bufAddr s.cfg s.eng.pd)) ∨
        (word.getLsbD s.cfg.desc.dd = false ∧ HotCommand s s.engineIdle id (s.receiveMade word) t ∧
          t.answered 0 0 0)) := by
  have hstart : Built (s.start .receive) := ⟨h.whole.same rfl rfl rfl rfl rfl rfl rfl, h.constructed⟩
  obtain ⟨word, r, u, hrun, hword, hend⟩ := receiveSteps_hot hstart 1
  refine ⟨word, _, exec_ok (i := .receive) h.constructed (Micro.run_bind_ok hrun), hword, ?_⟩
  obtain ⟨hdd, rfl, hu⟩ | ⟨hdd, rfl, hu⟩ := hend
  · exact .inl ⟨hdd, hu.command _ _ _, rfl, rfl⟩
  · exact .inr ⟨hdd, hu.command _ _ _, rfl, rfl⟩

theorem registerWrites_tailWrites (s : State) (pd : W64) :
    registerWrites (tailWrites s pd) = s.outputs.map fun n => (s.eng.tta[n], tailValue pd) :=
  registerWrites_map_mmioWrite _ _ _

theorem registerWrites_receiveMade (s : State) {word : W64} (hdd : word.getLsbD s.cfg.desc.dd = false) :
    registerWrites (s.receiveMade word) = s.tailRegisters s.catchesUp False (tailValue s.eng.pd) 0 := by
  rw [State.tailRegisters, if_neg not_false, List.append_nil, State.receiveMade]
  by_cases hup : s.catchesUp
  · rw [if_pos ⟨hdd, hup⟩, if_pos hup]
    exact registerWrites_tailWrites s _
  · rw [if_neg (fun h => hup h.2), if_neg hup]
    rfl

end

theorem built_of_inv {s : State} (h : Inv s) (hes : s.es = .constructed) : Built s := ⟨(inv_iff.1 h).1, hes⟩

/-- A slot number as a tail value (R127). -/
theorem tailValue_eq (x : W64) : tailValue x = BitVec.ofNat 32 x.toNat := by
  apply BitVec.eq_of_toNat_eq
  rw [tailValue, BitVec.toNat_setWidth, BitVec.toNat_ofNat]

/-- Settles O45: the run of a RECEIVE whose word has Descriptor-Done clear. -/
theorem receiveFindsNone : Obligations.ReceiveFindsNone := by
  intro s hinv hq ha hdd
  obtain ⟨word, t, hexec, hword, hend⟩ := exec_receive_hot (built_of_inv hinv ha)
  obtain rfl := hword hq
  obtain ⟨hset, -⟩ | ⟨-, ht, hanswer⟩ := hend
  · rw [hdd] at hset
    cases hset
  have hwrites := registerWrites_receiveMade s hdd
  refine ⟨t, hexec, hanswer, ht.made, ht.es, ht.eng, ht.environment hq, ⟨fun a => by rw [ht.mem hq]; rfl, ht.blocks⟩,
    ht.answers, ht.sameHandles, ht.sameNicsButTails hq hwrites, fun hc hresolve bdf hs => ?_⟩
  have hvalue {off : Nat} : ∀ p ∈ s.writesTo bdf (s.receiveMade s.word1), p.1 = off → p.2 = tailValue s.eng.pd := by
    rintro ⟨o, v⟩ hp -
    obtain ⟨-, hv, -⟩ | ⟨hf, -⟩ := (State.mem_writesTo_tails hwrites).1 hp
    · exact hv
    · exact hf.elim
  have hregs (off : Nat) := ht.reg hq hc hs (hresolve.isTail hwrites nofun) (hvalue (off := off))
  refine ⟨fun off hoff => ?_, fun off hoff => ?_⟩
  · rw [ht.cfg]
    exact (hregs off).2 fun p hp he => hoff ((State.exists_mem_writesTo_iff hwrites).1 ⟨p, hp, he⟩)
  · rw [← tailValue_eq]
    exact (hregs off).1 ((State.exists_mem_writesTo_iff hwrites).2 hoff)

/-! RECEIVE again (R308). -/

/-- Commands keep the invariant. -/
theorem Inv.exec {i : Instr} {s t : State} (h : Inv s) (he : exec i s = .next t) : Inv t := by
  have hw := (inv_iff.1 h).1
  rw [inv_iff]
  obtain ⟨-, rfl⟩ | ⟨ha, u, res, v, w, heff, rfl⟩ := exec_effect he
  · exact ⟨hw.same rfl rfl rfl rfl rfl rfl rfl, rfl⟩
  · have hstart : Whole (s.start i) := hw.same rfl rfl rfl rfl rfl rfl rfl
    have ha' : accepts i (s.start i) := by cases i <;> exact ha
    exact ⟨(hstart.effect ha' heff).same rfl rfl rfl rfl rfl rfl rfl, rfl⟩

/-- A slot that reads the same is the same to RECEIVE. -/
theorem word1_of_same {s t : State} (hpd : t.eng.wordAddr 0 t.eng.pd 1 = s.eng.wordAddr 0 s.eng.pd 1)
    (hmem : ∀ a, Memory.read t.mem a = Memory.read s.mem a) : t.word1 = s.word1 := by
  rw [State.word1, State.word1, hpd, Memory.readLE_congr fun a _ _ => hmem a]

/-- Settles O46: a RECEIVE leaves a state in which the next one finds the same word and nothing to flush. -/
theorem receiveIsIdempotent : Obligations.ReceiveIsIdempotent := by
  intro s t hinv hq ha hexec
  have hinvt := hinv.exec hexec
  by_cases hdd : s.word1.getLsbD s.cfg.desc.dd = true
  · have hword := (built_of_inv hinv ha).wordAddr_exists 0 (built_of_inv hinv ha).engine.pd (w := 1) (by decide)
    have hfirst := receiveReportsPacket s hq hinv.legal ha hword hdd
    rw [hexec] at hfirst
    cases hfirst
    refine ⟨fun hclear => absurd hdd (by simp [hclear]), _,
      receiveReportsPacket _ hq hinvt.legal ha hword hdd, rfl, ⟨rfl, rfl⟩, fun _ => rfl, ⟨fun _ => rfl, rfl⟩, rfl⟩
  · have hclear : s.word1.getLsbD s.cfg.desc.dd = false := by simpa using hdd
    obtain ⟨t', hexec', hanswer, -, hes, heng, ⟨hcfg, -, hagenda, -⟩, hmem, -⟩ := receiveFindsNone s hinv hq ha hclear
    rw [hexec] at hexec'
    cases hexec'
    have hkept : t.eng.wordAddr 0 t.eng.pd 1 = s.eng.wordAddr 0 s.eng.pd 1 := by rw [heng]; split <;> rfl
    have hword := word1_of_same hkept hmem.1
    have hnone : ¬ t.catchesUp := by
      rw [State.catchesUp, hcfg, heng]
      split
      · exact fun h => h.1 rfl
      · rename_i hkeeps
        exact fun h => hkeeps (.inr h)
    have hclear' : t.word1.getLsbD t.cfg.desc.dd = false := by rw [hword, hcfg]; exact hclear
    obtain ⟨u, hagain, hanswer', hmade, hes', heng', -, hmem', -, -, hnics, -⟩ :=
      receiveFindsNone t hinvt (hagenda.trans hq) (hes.trans ha) hclear'
    refine ⟨fun _ => ⟨hanswer, fun hidle => ?_⟩, u, hagain, hanswer'.1.trans hanswer.1.symm,
      ⟨hes', ?_⟩, fun bdf => ?_, hmem', ?_⟩
    · rw [heng, if_pos (.inl hidle)]
    · rw [heng']
      split
      · rename_i hidle
        rw [hcfg] at hidle
        rw [hcfg, heng, if_pos (.inl (hidle.resolve_right hnone))]
      · rfl
    · exact hnics bdf fun off ht => ht.elim (fun h => hnone h.1) fun h => h.1
    · rw [receiveAccesses, if_neg fun h => hnone h.2, hkept, hword] at hmade
      exact hmade

end Sys2Proof.Machine
end

section
/-! SUPPORT. TRANSMIT (R310 to R323): its accesses whatever the other agents do, part by part, and its delimiters; the
head slots lie apart from what it stores. -/

namespace Sys2Proof.Machine

section
variable {s : State}

/-! The head array lies apart from the rings and the pool (R352). -/

theorem Built.heads_block (h : Built s) : s.hasBlock s.eng.heads (outputsMax * s.cfg.headStride) :=
  h.engine.live (s.eng.heads, _) (by simp [engineRegions])

/-- A head slot as a number: no address of the head array wraps around. -/
theorem Built.headAddr_toNat (h : Built s) (n : Fin 4) :
    (s.eng.headAddr s.cfg n).toNat = s.eng.heads.toNat + n.val * s.cfg.headStride ∧
      n.val * s.cfg.headStride + 4 ≤ outputsMax * s.cfg.headStride := by
  have hslot := Config.headStride_ge h.legal
  have hfits : n.val * s.cfg.headStride + 4 ≤ outputsMax * s.cfg.headStride := by
    calc n.val * s.cfg.headStride + 4 ≤ (n.val + 1) * s.cfg.headStride := by rw [Nat.succ_mul]; omega
      _ ≤ outputsMax * s.cfg.headStride := Nat.mul_le_mul_right _ n.isLt
  obtain ⟨b, hb, hbase, hsize⟩ := h.heads_block
  obtain ⟨-, hend, -⟩ := h.whole.blocks.inside b hb
  rw [hbase, hsize] at hend
  refine ⟨?_, hfits⟩
  rw [Engine.headAddr, BitVec.toNat_add, BitVec.toNat_ofNat]
  omega

/-- The heads are the same where the bytes of the head array are. -/
theorem Built.headOf_congr (h : Built s) {t : State} (hcfg : t.cfg = s.cfg) (heng : t.eng.heads = s.eng.heads)
    (hmem : ∀ a, s.eng.heads.toNat ≤ a → a < s.eng.heads.toNat + outputsMax * s.cfg.headStride →
      Memory.read t.mem a = Memory.read s.mem a) (n : Fin 4) : t.headOf n = s.headOf n := by
  obtain ⟨haddr, hfits⟩ := h.headAddr_toNat n
  have hsame : t.eng.headAddr t.cfg n = s.eng.headAddr s.cfg n := by rw [Engine.headAddr, Engine.headAddr, hcfg, heng]
  rw [State.headOf, State.headOf, hsame, haddr]
  exact congrArg _ (Memory.readLE_congr fun a _ _ => hmem a (by omega) (by omega))

/-- What TRANSMIT stores lies outside the head array. -/
theorem Built.headOf_after_stores (h : Built s) {t : State} (hcfg : t.cfg = s.cfg) (heng : t.eng.heads = s.eng.heads)
    (len : W16) (mask : BitVec 4) (hmem : t.mem = s.memoryAfterTransmit len mask) (n : Fin 4) :
    t.headOf n = s.headOf n := by
  refine h.headOf_congr hcfg heng (fun a hlo hhi => ?_) n
  rw [hmem]
  refine h.read_outside_sent len mask fun k _ => ?_
  have hpd := h.engine.pd
  have hstride := (Config.sizes_pos h.legal).2
  have hapart : apart (s.eng.ring[k], ringBytes s.cfg) (s.eng.heads, outputsMax * s.cfg.headStride) :=
    (List.pairwise_append.1 h.engine.disjoint).2.2 _ (by simp) _ (by simp)
  have hordered := hapart.ordered (by show 0 < ringBytes s.cfg; rw [ringBytes, descSize]; omega)
    (by show 0 < outputsMax * s.cfg.headStride; rw [outputsMax]; omega)
  simp only [ringBytes, descSize] at hordered
  omega

/-! The head scan (R318, R319). -/

/-- The reads of head slots, with the heads they found. -/
def State.headReads (s : State) (heads : List (Fin 4 × W64)) : List Access :=
  heads.map fun p => .memRead true (s.eng.headAddr s.cfg p.1) 4 p.2

/-- The heads of outputs as memory holds them. -/
def State.headsOf (s : State) (l : List (Fin 4)) : List (Fin 4 × W64) := l.map fun n => (n, s.headOf n)

theorem scanHeads_hot (h : Built s) (line : Nat) (l : List (Fin 4)) (best : W64 × W64) :
    ∃ heads t, scanHeads line l best s =
        .ok ((heads.map Prod.snd).foldl (fun best x => scanHead s.eng.pd x best) best) t ∧
      heads.map Prod.fst = l ∧ HotRun s s.eng id (s.headReads heads) t ∧ (s.quiet → heads = s.headsOf l) := by
  induction l generalizing s best with
  | nil => exact ⟨[], s, rfl, rfl, .refl s, fun _ => rfl⟩
  | cons n rest ih =>
    obtain ⟨v, t, hread, ht, hv⟩ := memRead_hot line true (h.headAddr_exists n)
    obtain ⟨heads, u, hscan, hfst, hu, hheads⟩ := ih (h.runs ht.runs) (scanHead s.eng.pd v best)
    refine ⟨(n, v) :: heads, u, ?_, by rw [List.map_cons, hfst], (ht.trans hu).cast ht.eng ?_, fun hq => ?_⟩
    · rw [scanHeads, Micro.look_bind]
      refine (Micro.run_bind_ok hread).trans (hscan.trans ?_)
      rw [ht.eng]
      rfl
    · simp only [State.headReads, ht.eng, ht.cfg]
      rfl
    · have hmem := ht.mem hq
      have hhead (k : Fin 4) : t.headOf k = s.headOf k := by simp only [State.headOf, ht.eng, ht.cfg, hmem]; rfl
      rw [hheads (ht.quiet hq), hv hq]
      simp only [State.headsOf, hhead, List.map_cons]
      rfl

/-- The slot before the head that the scan keeps of these, for the delimiter `pd` (R320). -/
def recycledSlot (c : Config) (pd : W64) (heads : List (Fin 4 × W64)) : W64 :=
  slotBefore c (earliestHead pd (heads.map Prod.snd))

theorem recycle_hot (h : Built s) (hv : s.eng.rtaV = true) (line : Nat) :
    ∃ heads t, recycle line s = .ok () t ∧ heads.map Prod.fst = s.outputs ∧
      HotRun s s.eng id
        (s.headReads heads ++ [.mmioWrite s.eng.rta (tailValue (recycledSlot s.cfg s.eng.pd heads))]) t ∧
      (s.quiet → heads = s.headsOf s.outputs) := by
  obtain ⟨heads, t, hscan, hfst, ht, hheads⟩ := scanHeads_hot h line s.outputs (scanStart s.eng.pd)
  have hwindow : ∃ bdf off, t.windowAt s.eng.rta = some (bdf, off) := by
    rw [ht.runs.windowAt]
    exact h.rta_window hv
  obtain ⟨u, hwrite, hu⟩ := mmioWriteAt_hot (line + 1) (tailValue (recycledSlot s.cfg s.eng.pd heads)) hwindow
  refine ⟨heads, u, ?_, hfst, (ht.trans hu).cast ht.eng rfl, hheads⟩
  rw [recycle, Micro.look_bind]
  exact (Micro.run_bind_ok hscan).trans hwrite

/-! The delimiters (R313 to R315). -/

/-- The advanced processed delimiter. -/
def State.nextPd (s : State) : W64 := slotAdd s.cfg s.eng.pd 1

/-- The engine registers after a TRANSMIT (R313 to R315). -/
def State.engineAfterTransmit (s : State) : Engine :=
  { s.eng with pd := s.nextPd, fd := if s.flushes then s.nextPd else s.eng.fd }

/-- The flush condition, with the advanced `PD` (R315). -/
theorem flushDue_iff (hc : s.cfg.legal = true) : flushDue s.cfg s.eng.fd s.nextPd = true ↔ s.flushes := by
  simp only [flushDue, Bool.or_eq_true, beq_iff_eq, State.nextPd, BitVec.toNat_eq (x := slotAdd _ _ 1),
    slotAdd_toNat hc]

theorem flushIfDue_hot (h : Built s) (line : Nat) :
    ∃ t, flushIfDue line s = .ok () t ∧
      HotRun s { s.eng with fd := if flushDue s.cfg s.eng.fd s.eng.pd then s.eng.pd else s.eng.fd } id
        (if flushDue s.cfg s.eng.fd s.eng.pd then tailWrites s s.eng.pd else []) t := by
  simp only [flushIfDue, Micro.look_bind, id, Micro.run_ite]
  by_cases hdue : flushDue s.cfg s.eng.fd s.eng.pd = true
  · obtain ⟨t, hflush, ht⟩ := flushTails_hot h line
    have hset : HotRun t { t.eng with fd := s.eng.pd } id [] { t with eng := { t.eng with fd := s.eng.pd } } :=
      .setEng ⟨rfl, fun _ he => ⟨he.1, .inr (by rw [← ht.eng]; exact he.1)⟩⟩
    simp only [if_pos hdue]
    exact ⟨_, (Micro.run_bind_ok hflush).trans rfl, (ht.trans hset).cast (by rw [ht.eng]) (List.append_nil _)⟩
  · simp only [if_neg hdue]
    exact ⟨s, rfl, .refl s⟩

/-! The whole (R316). -/

/-- The accesses of a TRANSMIT whose scan finds these heads (R316). -/
def State.transmitMade (s : State) (len : W16) (mask : BitVec 4) (heads : List (Fin 4 × W64)) : List Access :=
  (s.outputs.map fun n => .memWrite true (s.eng.wordAddr n s.eng.pd 1) 8 (s.sentWord len mask n)) ++
    (if s.flushes then tailWrites s s.nextPd else []) ++
    if s.rsDue then
      s.headReads heads ++ [.mmioWrite s.eng.rta (tailValue (recycledSlot s.cfg s.nextPd heads))]
    else []

/-- With the heads that memory holds they are those of R316. -/
theorem State.transmitMade_headsOf (s : State) (len : W16) (mask : BitVec 4) :
    s.transmitMade len mask (s.headsOf s.outputs) = transmitAccesses s len mask := by
  simp only [State.transmitMade, transmitAccesses, State.headReads, State.headsOf, recycledSlot, List.map_map]
  rfl

theorem advance_hot (s : State) :
    ∃ t, advance s = .ok () t ∧ HotRun s { s.eng with pd := s.nextPd } id [] t :=
  ⟨_, rfl, .setEng ⟨rfl, fun hc he => ⟨slotAdd_lt hc _ _, he.2⟩⟩⟩

/-- The rest of a TRANSMIT, once its descriptors are stored. -/
theorem transmitEnd_hot (h : Built s) (hv : s.rsDue → s.eng.rtaV = true) (line : Nat) :
    ∃ heads u, (advance >>= fun _ => flushIfDue (line + 1) >>= fun _ =>
        if rsSlot s.cfg s.eng.pd then recycle (line + 2) else pure ()) s = .ok () u ∧ heads.map Prod.fst = s.outputs ∧
      HotRun s s.engineAfterTransmit id
        ((if s.flushes then tailWrites s s.nextPd else []) ++
          if s.rsDue then
            s.headReads heads ++ [.mmioWrite s.eng.rta (tailValue (recycledSlot s.cfg s.nextPd heads))]
          else []) u ∧
      (s.quiet → heads = s.headsOf s.outputs) := by
  obtain ⟨x, hadvance, hx⟩ := advance_hot s
  obtain ⟨u, hflush, hu⟩ := flushIfDue_hot (h.runs hx.runs) (line + 1)
  have hau := (hx.trans hu).cast (e' := s.engineAfterTransmit)
    (l' := if s.flushes then tailWrites s s.nextPd else []) (by simp only [hx.cfg, hx.eng, flushDue_iff h.legal]; rfl)
    (by simp only [hx.cfg, hx.eng, flushDue_iff h.legal, tailWrites, State.outputs]; rfl)
  have hrs : rsSlot s.cfg s.eng.pd = true ↔ s.rsDue := beq_iff_eq
  rw [Micro.run_bind_ok hadvance, Micro.run_bind_ok hflush]
  by_cases hrsd : s.rsDue
  · obtain ⟨heads, t, hrecycle, hfst, ht, hheads⟩ :=
      recycle_hot (h.runs hau.runs) (by rw [hau.eng]; exact hv hrsd) (line + 2)
    have houtputs : u.outputs = s.outputs := by simp only [State.outputs, hau.eng]; rfl
    refine ⟨heads, t, ?_, hfst.trans houtputs, (hau.trans ht).cast hau.eng ?_, fun hq => ?_⟩
    · rw [if_pos (hrs.2 hrsd), hrecycle]
    · simp only [if_pos hrsd, State.headReads, hau.eng, hau.cfg]
      rfl
    · have hmem : u.mem = s.mem := hau.mem hq
      rw [hheads (hau.quiet hq), houtputs]
      simp only [State.headsOf, State.headOf, hau.eng, hau.cfg, hmem]
      rfl
  · refine ⟨s.headsOf s.outputs, u, ?_, by simp [State.headsOf, Function.comp_def], hau.cast rfl ?_, fun _ => rfl⟩
    · rw [if_neg (mt hrs.1 hrsd)]
      rfl
    · rw [if_neg hrsd, List.append_nil]

/-- TRANSMIT's micro-steps return (R316). -/
theorem transmitSteps_hot (h : Built s) (hv : s.rsDue → s.eng.rtaV = true) (line : Nat) (len : W16) (mask : BitVec 4) :
    ∃ heads t, transmitSteps line len mask s = .ok () t ∧ heads.map Prod.fst = s.outputs ∧
      HotRun s s.engineAfterTransmit
        (fun m => writeWords (fun n => (s.eng.wordAddr n s.eng.pd 1).toNat) (s.sentWord len mask) m s.outputs)
        (s.transmitMade len mask heads) t ∧
      (s.quiet → heads = s.headsOf s.outputs) := by
  obtain ⟨x, hstore, hx⟩ := storeWords_hot (s := s) line (fun n => s.eng.wordAddr n s.eng.pd 1) (s.sentWord len mask)
    (l := s.outputs) fun n _ => h.wordAddr_exists n h.engine.pd (by decide)
  obtain ⟨heads, t, hend, hfst, ht, hheads⟩ :=
    transmitEnd_hot (h.runs hx.runs) (by simpa only [State.rsDue, hx.cfg, hx.eng] using hv) line
  have hsame : x.outputs = s.outputs ∧ x.nextPd = s.nextPd ∧ (x.flushes ↔ s.flushes) ∧ (x.rsDue ↔ s.rsDue) := by
    simp only [State.outputs, State.nextPd, State.flushes, State.rsDue, hx.cfg, hx.eng]
    trivial
  obtain ⟨houtputs, hpd, hflushes, hrs⟩ := hsame
  refine ⟨heads, t, ?_, hfst.trans houtputs, (hx.trans ht).cast ?_ ?_, fun hq => ?_⟩
  · refine (Micro.run_bind_ok hstore).trans ?_
    rw [← hend, hx.cfg, hx.eng]
  · simp only [State.engineAfterTransmit, hx.eng, hpd, hflushes]
  · simp only [State.transmitMade, State.headReads, tailWrites, houtputs, hpd, hflushes, hrs, hx.cfg, hx.eng,
      List.append_assoc]
  · rw [hheads (hx.quiet hq), houtputs]
    exact List.map_congr_left fun n _ =>
      congrArg _ (h.headOf_after_stores hx.cfg (by rw [hx.eng]) len mask (hx.mem hq) n)

end

end Sys2Proof.Machine
end

section
/-! SUPPORT. TRANSMIT (R310 to R323): what the command leaves, and its tails. -/

namespace Sys2Proof.Machine

section
variable {s t : State} {len : W16} {mask : BitVec 4}

/-- A Report-Status slot has a receive tail to write (R310). -/
theorem rtaV_of_accepts (ha : accepts (.transmit len mask) s) (hrs : s.rsDue) : s.eng.rtaV = true :=
  ha.2.resolve_right fun hne => hne hrs

/-- TRANSMIT ends with `OK` (R316, R375). -/
theorem exec_transmit_hot (h : Built s) (ha : accepts (.transmit len mask) s) :
    ∃ heads t, exec (.transmit len mask) s = .next t ∧ t.answered 0 0 0 ∧ heads.map Prod.fst = s.outputs ∧
      HotCommand s s.engineAfterTransmit
        (fun m => writeWords (fun n => (s.eng.wordAddr n s.eng.pd 1).toNat) (s.sentWord len mask) m s.outputs)
        (s.transmitMade len mask heads) t ∧
      (s.quiet → heads = s.headsOf s.outputs) := by
  have hstart : Built (s.start (.transmit len mask)) := ⟨h.whole.same rfl rfl rfl rfl rfl rfl rfl, h.constructed⟩
  obtain ⟨heads, u, hrun, hfst, hu, hheads⟩ :=
    transmitSteps_hot hstart (rtaV_of_accepts (len := len) (mask := mask) ha) 1 len mask
  exact ⟨heads, _, exec_ok (i := .transmit len mask) ha (Micro.run_bind_ok hrun), ⟨rfl, rfl⟩, hfst,
    hu.command _ _ _, hheads⟩

theorem registerWrites_transmitMade (s : State) (len : W16) (mask : BitVec 4) (heads : List (Fin 4 × W64)) :
    registerWrites (s.transmitMade len mask heads) =
      s.tailRegisters s.flushes s.rsDue (tailValue s.nextPd) (tailValue (recycledSlot s.cfg s.nextPd heads)) := by
  have hflush : registerWrites (if s.flushes then tailWrites s s.nextPd else []) =
      if s.flushes then s.outputs.map fun n => (s.eng.tta[n], tailValue s.nextPd) else [] := by
    split
    · exact registerWrites_tailWrites s _
    · rfl
  rw [State.transmitMade, registerWrites_append, registerWrites_append, registerWrites_map_memWrite, hflush,
    State.tailRegisters, List.nil_append]
  congr 1
  split
  · rw [registerWrites_append, State.headReads, registerWrites_map_memRead]
    rfl
  · rfl

/-- Settles O47: the run of an accepted TRANSMIT. -/
theorem transmitFollowsItsSteps : Obligations.TransmitFollowsItsSteps := by
  intro s len mask hinv hq ha
  obtain ⟨heads, t, hexec, hanswer, -, ht, hheads⟩ := exec_transmit_hot (built_of_inv hinv ha.1) ha
  refine ⟨t, hexec, hanswer, ?_, ht.es, ht.eng, ht.environment hq, ht.answers, ht.sameHandles, ht.blocks,
    ht.sameNicsButTails hq (registerWrites_transmitMade s len mask heads)⟩
  rw [← State.transmitMade_headsOf, ← hheads hq]
  exact ht.made

/-- Settles O53: with no output the scan keeps the delimiter, and the slot before it is the one just processed. -/
theorem transmitWithoutOutputs : Obligations.TransmitWithoutOutputs := by
  intro s len mask hinv hq ha hoc
  have hb := built_of_inv hinv ha.1
  obtain ⟨heads, t, hexec, hanswer, hfst, ht, -⟩ := exec_transmit_hot hb ha
  have hnone : s.outputs = [] := List.eq_nil_iff_forall_not_mem.2 fun n hn => by
    have hlt := State.mem_outputs.1 hn
    rw [hoc] at hlt
    exact absurd hlt (Nat.not_lt_zero _)
  obtain rfl : heads = [] := List.map_eq_nil_iff.1 (hfst.trans hnone)
  have hslot : recycledSlot s.cfg s.nextPd [] = s.eng.pd := slotBefore_slotAdd hinv.legal hb.engine.pd
  refine ⟨t, hexec, hanswer, ⟨fun a => ?_, ht.blocks⟩, ?_, by rw [ht.eng]; rfl, ?_⟩
  · rw [ht.mem hq, hnone]
    rfl
  · rw [ht.eng]
    exact slotAdd_toNat hinv.legal _ _
  · have hmade := ht.made
    simpa only [State.transmitMade, hnone, tailWrites, State.headReads, hslot, List.map_nil, ite_self,
      List.nil_append] using hmade

/-! Where the recorded tails name tail registers, each of these gets the value of its kind. -/

theorem tdt_ne_rdt (hc : StandardConfig s.cfg) {q : Nat} (hq : q < s.cfg.txQueueCount) :
    s.cfg.off .tdt q ≠ s.cfg.off .rdt s.cfg.rxQueue :=
  Config.off_ne hc (by decide) (indexOk_of_lt rfl hq) (indexOk_of_lt rfl (Config.rxQueue_lt hc.1))

section
variable {flush rs : Prop} [Decidable flush] [Decidable rs] {x y : W32} {bdf : W16} {l : List Access} {p : Nat × W32}

theorem TailsResolve.value_of_tdt (ht : TailsResolve s) (hc : StandardConfig s.cfg) (hrs : rs → s.eng.rtaV = true)
    (hl : registerWrites l = s.tailRegisters flush rs x y) (hp : p ∈ s.writesTo bdf l) {q : Nat}
    (hq : q < s.cfg.txQueueCount) (hoff : p.1 = s.cfg.off .tdt q) : p.2 = x := by
  obtain ⟨-, hv, -⟩ | ⟨hr, -, hrta⟩ := (State.mem_writesTo_tails hl).1 hp
  · exact hv
  · obtain ⟨b, hwin⟩ := ht.2 (hrs hr)
    obtain ⟨-, hrdt⟩ := Prod.mk.inj (Option.some.inj (hrta.symm.trans hwin))
    exact absurd (hoff.symm.trans hrdt) (tdt_ne_rdt hc hq)

theorem TailsResolve.value_of_rdt (ht : TailsResolve s) (hc : StandardConfig s.cfg)
    (hl : registerWrites l = s.tailRegisters flush rs x y) (hp : p ∈ s.writesTo bdf l)
    (hoff : p.1 = s.cfg.off .rdt s.cfg.rxQueue) : p.2 = y := by
  obtain ⟨-, -, n, hn, htta⟩ | ⟨-, hv, -⟩ := (State.mem_writesTo_tails hl).1 hp
  · obtain ⟨b, q, hq, hwin⟩ := ht.1 n hn
    obtain ⟨-, htdt⟩ := Prod.mk.inj (Option.some.inj (htta.symm.trans hwin))
    exact absurd (htdt.symm.trans hoff) (tdt_ne_rdt hc hq)
  · exact hv

end

/-- A slot number as a tail register's value (R127). -/
theorem tailValue_slotBefore_toNat (hc : s.cfg.legal = true) (x : W64) :
    (tailValue (slotBefore s.cfg x)).toNat = (x.toNat + s.cfg.ringSize - 1) % s.cfg.ringSize := by
  obtain ⟨hpos, hle⟩ := Config.ringSize_bounds hc
  rw [tailValue, BitVec.toNat_setWidth, slotBefore_toNat hc]
  exact Nat.mod_eq_of_lt (Nat.lt_of_lt_of_le (Nat.mod_lt _ hpos) (by omega))

/-- Settles O51: a tail register that a TRANSMIT writes gets one value only. -/
theorem transmitLeavesTails : Obligations.TransmitLeavesTails := by
  intro s t len mask hinv hq hc hresolve ha hexec
  obtain ⟨heads, t', hexec', -, -, ht, hheads⟩ := exec_transmit_hot (built_of_inv hinv ha.1) ha
  cases hexec.symm.trans hexec'
  have hwrites := registerWrites_transmitMade s len mask heads
  have hrta := rtaV_of_accepts ha
  have hregs {bdf : W16} (hs : (s.nic bdf).settledAt s.now) {off : Nat} (v : W32) :=
    ht.reg (off := off) (v := v) hq hc hs (hresolve.isTail hwrites hrta)
  refine ⟨fun n bdf q hn hqueue hw hs hf => ?_, fun bdf hw hs hrs => ?_, fun bdf hs off hoff => ?_⟩
  · have hvalue := (hregs hs _ fun p hp hoff => hresolve.value_of_tdt hc hrta hwrites hp hqueue hoff).1
      ((State.exists_mem_writesTo_iff hwrites).2 (.inl ⟨hf, n, hn, hw⟩))
    rw [hvalue, tailValue_eq, State.nextPd, slotAdd_toNat hinv.legal]
  · have hvalue := (hregs hs _ fun p hp hoff => hresolve.value_of_rdt hc hwrites hp hoff).1
      ((State.exists_mem_writesTo_iff hwrites).2 (.inr ⟨hrs, hw⟩))
    have hheadsOf : heads.map Prod.snd = s.outputs.map fun n => s.headOf n := by
      rw [hheads hq, State.headsOf, List.map_map]
      rfl
    have hpd : t.eng.pd = s.nextPd := by rw [ht.eng]; rfl
    rw [hvalue, recycledSlot, tailValue_slotBefore_toNat hinv.legal, hheadsOf, hpd]
  · have hnone : ∀ p ∈ s.writesTo bdf (s.transmitMade len mask heads), p.1 ≠ off := fun p hp he =>
      hoff ((State.exists_mem_writesTo_iff hwrites).1 ⟨p, hp, he⟩)
    rw [ht.cfg]
    exact (hregs hs 0 fun p hp he => absurd he (hnone p hp)).2 hnone

end

end Sys2Proof.Machine
end

section
/-! SUPPORT. TRANSMITs one after the other (R313, R315). -/

namespace Sys2Proof.Machine

section
variable {s t : State} {op : W16 × BitVec 4} {ops : List (W16 × BitVec 4)}

/-- The first of several TRANSMITs that all end with `OK` was accepted. -/
theorem runAll_transmits_cons (h : Inv s) (hes : s.es = .constructed)
    (hrun : runAll (transmits (op :: ops)) s = some t) :
    ∃ heads f u, Inv u ∧ HotCommand s s.engineAfterTransmit f (s.transmitMade op.1 op.2 heads) u ∧
      runAll (transmits ops) u = some t := by
  have hb := built_of_inv h hes
  by_cases ha : accepts (.transmit op.1 op.2) s
  · obtain ⟨heads, u, hexec, hanswer, -, hu, -⟩ := exec_transmit_hot hb ha
    have hok : u.lastOk = true := by rw [State.lastOk, hanswer.1]; rfl
    refine ⟨heads, _, u, h.exec hexec, hu, ?_⟩
    simpa only [transmits, List.map_cons, runAll, hexec, hok, if_true] using hrun
  · simp only [transmits, List.map_cons, runAll, exec_of_not_accepts ha] at hrun
    exact absurd hrun (by simp [State.lastOk, State.refusedWith4, resOk])

/-- Settles O49, by induction on the TRANSMITs: each advances the delimiter by one. -/
theorem transmitsAdvanceDelimiter : Obligations.TransmitsAdvanceDelimiter := by
  intro s t ops hinv hes hrun
  induction ops generalizing s with
  | nil =>
    cases hrun
    exact (Nat.mod_eq_of_lt (built_of_inv hinv hes).engine.pd).symm
  | cons op ops ih =>
    obtain ⟨heads, f, u, hinvu, hu, hrest⟩ := runAll_transmits_cons hinv hes hrun
    have hpd : u.eng.pd.toNat = (s.eng.pd.toNat + 1) % s.cfg.ringSize := by
      rw [hu.eng]
      exact slotAdd_toNat hinv.legal _ _
    rw [ih u hinvu (hu.es.trans hes) hrest, hpd, hu.cfg, Nat.mod_add_mod, List.length_cons]
    congr 1
    omega

/-! One flush in a batch (R315). -/

/-- The register writes among the accesses, but for those to the address `a`. -/
def tailsBut (a : W64) (l : List Access) : List (W64 × W32) := (registerWrites l).filter fun w => w.1 ≠ a

theorem tailsBut_append (a : W64) (l l' : List Access) : tailsBut a (l ++ l') = tailsBut a l ++ tailsBut a l' := by
  rw [tailsBut, registerWrites_append, List.filter_append, tailsBut, tailsBut]

/-- The transmit tails that a TRANSMIT writes. -/
theorem tailsBut_transmitMade (hapart : ∀ n : Fin 4, n.val < s.eng.oc.toNat → s.eng.tta[n] ≠ s.eng.rta) (len : W16)
    (mask : BitVec 4) (heads : List (Fin 4 × W64)) : tailsBut s.eng.rta (s.transmitMade len mask heads) =
      if s.flushes then s.outputs.map fun n => (s.eng.tta[n], tailValue s.nextPd) else [] := by
  have bound : ∀ w ∈ s.outputs.map fun n => (s.eng.tta[n], tailValue s.nextPd), decide (w.1 ≠ s.eng.rta) = true := by
    intro w hw
    obtain ⟨n, hn, rfl⟩ := List.mem_map.1 hw
    exact decide_eq_true (hapart n (State.mem_outputs.1 hn))
  have received (y : W32) : (if s.rsDue then [(s.eng.rta, y)] else []).filter (fun w => w.1 ≠ s.eng.rta) = [] := by
    split <;> simp
  rw [tailsBut, registerWrites_transmitMade, State.tailRegisters, List.filter_append, received, List.append_nil]
  split
  · exact List.filter_eq_self.2 bound
  · rfl

/-- Slots as many steps on from one slot are the same where the steps are as many. -/
theorem slot_steps_inj {R x a b : Nat} (ha : a < R) (hb : b < R) : (x + a) % R = (x + b) % R ↔ a = b := by
  refine ⟨fun h => ?_, fun h => by rw [h]⟩
  have hmod : a % R = b % R := Nat.ModEq.add_left_cancel' x h
  rwa [Nat.mod_eq_of_lt ha, Nat.mod_eq_of_lt hb] at hmod

/-- `k` slots have been transmitted since the last flush (R315). -/
structure SinceFlush (s : State) (k : Nat) : Prop where
  pd : s.eng.pd.toNat = (s.eng.fd.toNat + k) % s.cfg.ringSize
  fd : s.eng.fd.toNat < s.cfg.ringSize
  below : k < s.cfg.processPeriod

/-- The next TRANSMIT flushes where it completes the process period. -/
theorem SinceFlush.flushes_iff {k : Nat} (h : SinceFlush s k) (hc : s.cfg.legal = true) :
    s.flushes ↔ k + 1 = s.cfg.processPeriod := by
  have hne : s.eng.fd ≠ s.cfg.flushedNone := fun he => by
    have hge := Config.flushedNone_ge hc
    have hlt := h.fd
    rw [he] at hlt
    omega
  obtain ⟨hbelow, hperiod⟩ := And.intro h.below (Config.processPeriod_bounds hc).2
  rw [State.flushes, or_iff_right hne, h.pd, Nat.mod_add_mod, Nat.add_assoc]
  exact slot_steps_inj (by omega) hperiod

/-- TRANSMITs up to the process period make one flush, the last of them if it reaches the period, and none otherwise. -/
theorem transmits_since_flush {k : Nat} (h : Inv s) (hes : s.es = .constructed) (hk : SinceFlush s k)
    (hapart : ∀ n : Fin 4, n.val < s.eng.oc.toNat → s.eng.tta[n] ≠ s.eng.rta)
    (hlen : k + ops.length ≤ s.cfg.processPeriod) (hrun : runAll (transmits ops) s = some t) :
    ∃ l, madeBetween s t l ∧
      (k + ops.length < s.cfg.processPeriod → t.eng.fd = s.eng.fd ∧ tailsBut s.eng.rta l = []) ∧
      (k + ops.length = s.cfg.processPeriod → t.eng.fd = t.eng.pd ∧
        tailsBut s.eng.rta l = s.outputs.map fun n => (s.eng.tta[n], tailValue t.eng.pd)) := by
  induction ops generalizing s k with
  | nil =>
    cases hrun
    exact ⟨[], rfl, fun _ => ⟨rfl, rfl⟩, fun hlen => absurd hlen (Nat.ne_of_lt hk.below)⟩
  | cons op ops ih =>
    obtain ⟨heads, f, u, hinvu, hu, hrest⟩ := runAll_transmits_cons h hes hrun
    have htails := tailsBut_transmitMade hapart op.1 op.2 heads
    have hflush := hk.flushes_iff h.legal
    rw [List.length_cons] at hlen
    by_cases hlast : k + 1 = s.cfg.processPeriod
    · obtain rfl : ops = [] := List.eq_nil_of_length_eq_zero (by omega)
      obtain rfl : u = t := Option.some.inj hrest
      have heng : u.eng = { s.eng with pd := s.nextPd, fd := s.nextPd } := by
        rw [hu.eng, State.engineAfterTransmit, if_pos (hflush.2 hlast)]
      rw [if_pos (hflush.2 hlast)] at htails
      exact ⟨_, hu.made, fun hlt => absurd hlast (Nat.ne_of_lt hlt), fun _ => ⟨by rw [heng], by rw [htails, heng]⟩⟩
    · have hstay : ¬ s.flushes := fun hf => hlast (hflush.1 hf)
      rw [if_neg hstay] at htails
      have heng : u.eng = { s.eng with pd := s.nextPd } := by rw [hu.eng, State.engineAfterTransmit, if_neg hstay]
      have hku : SinceFlush u (k + 1) := by
        refine ⟨?_, by rw [hu.cfg, heng]; exact hk.fd, by rw [hu.cfg]; have := hk.below; omega⟩
        rw [heng, hu.cfg]
        show (slotAdd s.cfg s.eng.pd 1).toNat = _
        rw [slotAdd_toNat h.legal, hk.pd, Nat.mod_add_mod, Nat.add_assoc]
      obtain ⟨l, hl, hshort, hfull⟩ := ih hinvu (hu.es.trans hes) hku (by rw [heng]; exact hapart)
        (by rw [hu.cfg]; omega) hrest
      simp only [hu.cfg, heng, State.outputs] at hshort hfull
      refine ⟨_, hu.made.trans hl, ?_, ?_⟩
      all_goals
        rw [tailsBut_append, htails, List.length_cons, ← Nat.add_assoc, Nat.add_right_comm]
        assumption

/-- Settles O50: the batch begins with no slot since the flush. -/
theorem oneFlushPerBatch : Obligations.OneFlushPerBatch := by
  intro s t ops l hinv hes hfd hapart hrun hmade
  have hpd := (built_of_inv hinv hes).engine.pd
  obtain ⟨hpos, hlt⟩ := Config.processPeriod_bounds hinv.legal
  have hstart : SinceFlush s 0 :=
    ⟨by rw [hfd]; exact (Nat.mod_eq_of_lt hpd).symm, by rw [hfd]; exact hpd, hpos⟩
  by_cases hlong : s.cfg.processPeriod < ops.length
  · exact ⟨fun hlen => by omega, fun hlen => by omega⟩
  obtain ⟨l', hmade', hshort, hfull⟩ := transmits_since_flush hinv hes hstart hapart (by omega) hrun
  obtain rfl := hmade.unique hmade'
  rw [Nat.zero_add] at hshort hfull
  refine ⟨hshort, fun hlen => ?_⟩
  obtain ⟨hfd', htails⟩ := hfull hlen
  refine ⟨hfd', fun he => ?_, by rw [← tailValue_eq]; exact htails⟩
  have hadvanced := transmitsAdvanceDelimiter s t ops hinv hes hrun
  rw [← hfd', he, hfd, hlen] at hadvanced
  have hzero : (s.eng.pd.toNat + 0) % s.cfg.ringSize = (s.eng.pd.toNat + s.cfg.processPeriod) % s.cfg.ringSize := by
    rw [← hadvanced]
    exact Nat.mod_eq_of_lt hpd
  exact absurd ((slot_steps_inj (by omega) hlt).1 hzero) (by omega)

end

end Sys2Proof.Machine
end

section
/-! SUPPORT. The handler call (R332): what its next answer makes of it. -/

namespace Sys2Proof.Machine

theorem Memory.read_applyWrites_ne (m : List Host.Cell) (base : Nat) {l : List (Nat × Byte)} {a : Nat}
    (h : ∀ w ∈ l, base + w.1 ≠ a) : Memory.read (applyWrites m base l) a = Memory.read m a := by
  induction l generalizing m with
  | nil => rfl
  | cons w rest ih =>
    rw [applyWrites, ih _ fun w' hw' => h w' (List.mem_cons_of_mem _ hw'),
      Memory.read_write_ne m _ (Ne.symm (h w List.mem_cons_self))]

section
variable {s : State} {len : W16} {addr : W64} {run : HandlerRun} {rest : List HandlerRun}

/-- The next answer in State is what the handler does (log 16). -/
theorem handlerRun_of_queue (h : s.handlerQ = run :: rest) (line : Nat) (len : W16) (addr : W64) :
    (s.boundary line).handlerRun len addr = run := by
  rw [State.handlerRun, State.boundary_handlerQ, h]

theorem callHandler_never (line : Nat) (h : (s.boundary line).handlerRun len addr = .never) :
    callHandler line len addr s = .error (.fault .handlerNeverReturns) (s.boundary line) := by
  simp only [callHandler, h]

variable {len' : W16} {sel : BitVec 4} {writes : List (Nat × Byte)}

theorem callHandler_outside (line : Nat) (h : (s.boundary line).handlerRun len addr = .returns len' sel writes)
    (hout : ∃ w ∈ writes, s.cfg.bufSize ≤ w.1) :
    callHandler line len addr s = .error (.refuse .handlerBrokeContract) (s.boundary line) := by
  have hany : (writes.any fun w => decide (s.cfg.bufSize ≤ w.1)) = true := by simpa using hout
  simp only [callHandler, h, State.boundary_cfg, hany, if_true]

theorem callHandler_inside (line : Nat) (h : (s.boundary line).handlerRun len addr = .returns len' sel writes)
    (hex : s.memExists addr.toNat s.cfg.bufSize = true) (hin : ∀ w ∈ writes, w.1 < s.cfg.bufSize) :
    callHandler line len addr s = .ok (len', sel)
      ({ s.boundary line with
          handlerQ := s.handlerQ.tail
          mem := applyWrites (s.boundary line).mem addr.toNat writes }.log (.handler len addr)) := by
  have hnone : (writes.any fun w => decide (s.cfg.bufSize ≤ w.1)) = false := by simpa using hin
  have hall : (writes.all fun w => s.memExists (addr.toNat + w.1) 1) = true :=
    List.all_eq_true.2 fun w hw => State.memExists_part hex (hin w hw)
  simp only [callHandler, h, State.boundary_cfg, State.boundary_memExists, State.boundary_handlerQ, hnone, hall,
    if_true, Bool.false_eq_true, if_false]

/-- From `s` to `t` the handler was called with this length and address and answered within its contract, with `rest`
of the answers left. Where no other agent moves, memory then holds the bytes it wrote and nothing else changed. -/
structure Handled (s : State) (len : W16) (addr : W64) (writes : List (Nat × Byte)) (rest : List HandlerRun)
    (t : State) : Prop where
  calm : Calm s t
  handlerQ : t.handlerQ = rest
  grants : t.grants = s.grants
  made : madeBetween s t [.handler len addr]
  micros : t.micros = s.micros + 1
  quiet : s.quiet → t.quiet
  mem : s.quiet → t.mem = applyWrites s.mem addr.toNat writes
  nics : s.quiet → t.nics = s.nics

theorem callHandler_handled (line : Nat) (h : s.handlerQ = .returns len' sel writes :: rest)
    (hex : s.memExists addr.toNat s.cfg.bufSize = true) (hin : ∀ w ∈ writes, w.1 < s.cfg.bufSize) :
    ∃ t, callHandler line len addr s = .ok (len', sel) t ∧ Handled s len addr writes rest t := by
  have hrun := callHandler_inside line (handlerRun_of_queue h line len addr) hex hin
  have hcalm := Accesses.callHandler line len addr s
  rw [hrun] at hcalm
  refine ⟨_, hrun, hcalm, congrArg List.tail h, s.boundary_grants line, congrArg _ (s.boundary_trace line),
    s.boundary_micros line, ?_, ?_, ?_⟩
  all_goals
    intro hq
    rw [State.boundary_eq_self hq]
  · exact hq
  all_goals rfl

/-- Settles O56: each kind of answer the handler can give. -/
theorem handlerTouchesItsBuffer : Obligations.HandlerTouchesItsBuffer := by
  intro s line len addr run rest hq hnext hex
  have hrun := handlerRun_of_queue hnext line len addr
  refine ⟨fun hnever => ⟨_, callHandler_never line (hrun.trans hnever)⟩, fun len' sel writes hret =>
    ⟨fun hout => ⟨_, callHandler_outside line (hrun.trans hret) hout⟩, fun hin => ?_⟩⟩
  subst hret
  obtain ⟨t, hcall, ht⟩ := callHandler_handled (len := len) line hnext hex hin
  refine ⟨t, hcall, ht.handlerQ,
    ⟨ht.calm.keeps.cfg, ht.calm.keeps.port, (ht.quiet hq).trans hq.symm, ht.calm.keeps.maps⟩,
    ⟨ht.calm.es, ht.calm.eng⟩, ht.calm.handle, fun bdf => by rw [State.nic, ht.nics hq]; rfl, ht.calm.blocks, ht.made,
    fun a ha => ?_⟩
  rw [ht.mem hq]
  refine Memory.read_applyWrites_ne _ _ fun w hw he => ?_
  have hlt := hin w hw
  obtain hlo | hhi | hne := ha
  · omega
  · omega
  · exact hne w hw he

end

end Sys2Proof.Machine
end

section
/-! SUPPORT. PROCESS (R331): where it finds a packet and the handler keeps its contract, the run of RECEIVE, the handler
call and the run of TRANSMIT; and how many micro-steps the hot path makes (R431). -/

namespace Sys2Proof.Machine

section
variable {s t : State} {l : List Access}

/-- Commands that write no register leave the NICs as they are. -/
theorem HotCommand.nic {e : Engine} {f : List Host.Cell → List Host.Cell} {l : List Access} (h : HotCommand s e f l t)
    (hq : s.quiet) (hl : registerWrites l = []) (bdf : W16) : t.nic bdf = s.nic bdf := by
  obtain ⟨ws, hws, -, hnic⟩ := h.posts hq bdf
  rw [State.writesTo, hl, List.filterMap_nil] at hws
  rw [hnic, List.map_eq_nil_iff.1 hws]
  rfl

/-- A RECEIVE that finds a packet makes the one read (R307). -/
theorem State.receiveMade_found {word : W64} (hdd : word.getLsbD s.cfg.desc.dd = true) :
    s.receiveMade word = [.memRead true (s.eng.wordAddr 0 s.eng.pd 1) 8 word] := by
  rw [State.receiveMade, if_neg (by simp [hdd])]

/-! Buffers and head slots (R352). -/

/-- No buffer has a byte in the head array. -/
theorem Built.buffer_apart_heads (h : Built s) {off : Nat} (hoff : off < s.cfg.bufSize) :
    let a := (s.eng.bufAddr s.cfg s.eng.pd).toNat + off
    a < s.eng.heads.toNat ∨ s.eng.heads.toNat + outputsMax * s.cfg.headStride ≤ a := by
  obtain ⟨hsize, hstride⟩ := Config.sizes_pos h.legal
  have hpool : s.hasBlock s.eng.buf (s.cfg.ringSize * s.cfg.bufSize) :=
    h.engine.live (s.eng.buf, _) (by simp [engineRegions])
  have hinside : s.cfg.bufSize * s.eng.pd.toNat + s.cfg.bufSize ≤ s.cfg.ringSize * s.cfg.bufSize := by
    rw [← Nat.mul_succ, Nat.mul_comm]
    exact Nat.mul_le_mul_right _ h.engine.pd
  have hapart : apart (s.eng.buf, s.cfg.ringSize * s.cfg.bufSize) (s.eng.heads, outputsMax * s.cfg.headStride) :=
    List.rel_of_pairwise_cons (List.pairwise_append.1 h.engine.disjoint).2.1 List.mem_cons_self
  have hordered := hapart.ordered (by show 0 < s.cfg.ringSize * s.cfg.bufSize; omega)
    (by show 0 < outputsMax * s.cfg.headStride; rw [outputsMax]; omega)
  obtain ⟨b, hb, hbase, hblock⟩ := hpool
  obtain ⟨-, hend, -⟩ := h.whole.blocks.inside b hb
  rw [hbase, hblock] at hend
  simp only [Engine.bufAddr, BitVec.toNat_add, BitVec.toNat_ofNat] at hordered ⊢
  omega

/-- What the handler may write in the buffer of slot `PD` changes no head. -/
theorem Handled.headOf (h : Built s) {len : W16} {writes : List (Nat × Byte)} {rest : List HandlerRun} {r t : State}
    (hr : HotCommand s s.eng id l r) (ht : Handled r len (s.eng.bufAddr s.cfg s.eng.pd) writes rest t) (hq : s.quiet)
    (hin : ∀ w ∈ writes, w.1 < s.cfg.bufSize) (n : Fin 4) : t.headOf n = s.headOf n := by
  refine h.headOf_congr (ht.calm.keeps.cfg.trans hr.cfg) (by rw [ht.calm.eng, hr.eng]) (fun a hlo hhi => ?_) n
  rw [ht.mem (hr.quiet hq), hr.mem hq]
  refine Memory.read_applyWrites_ne _ _ fun w hw he => ?_
  have hout := h.buffer_apart_heads (hin w hw)
  omega

/-! What a TRANSMIT does rests on the engine and the heads. -/

theorem State.flushes_congr (hcfg : t.cfg = s.cfg) (heng : t.eng = s.eng) : t.flushes ↔ s.flushes := by
  rw [State.flushes, State.flushes, hcfg, heng]

theorem State.rsDue_congr (hcfg : t.cfg = s.cfg) (heng : t.eng = s.eng) : t.rsDue ↔ s.rsDue := by
  rw [State.rsDue, State.rsDue, hcfg, heng]

theorem State.engineAfterTransmit_congr (hcfg : t.cfg = s.cfg) (heng : t.eng = s.eng) :
    t.engineAfterTransmit = s.engineAfterTransmit := by
  simp only [State.engineAfterTransmit, State.nextPd, State.flushes_congr hcfg heng, hcfg, heng]

theorem transmitAccesses_congr (hcfg : t.cfg = s.cfg) (heng : t.eng = s.eng) (hheads : ∀ n, t.headOf n = s.headOf n)
    (len : W16) (mask : BitVec 4) : transmitAccesses t len mask = transmitAccesses s len mask := by
  simp only [transmitAccesses, State.outputs, tailWrites, State.flushes_congr hcfg heng, State.rsDue_congr hcfg heng,
    hcfg, heng, hheads]

/-! A PROCESS that finds a packet (R331). -/

/-- RECEIVE found the word `word`, and the handler answered within its contract. -/
structure FoundAndHandled (s : State) (word : W64) (writes : List (Nat × Byte)) (rest : List HandlerRun) (r t : State) :
    Prop where
  received : HotCommand s s.eng id (s.receiveMade word) r
  handled : Handled r (lenOf s.cfg word) (s.eng.bufAddr s.cfg s.eng.pd) writes rest t

variable {word : W64} {len : W16} {sel : BitVec 4} {writes : List (Nat × Byte)} {rest : List HandlerRun} {r : State}

theorem FoundAndHandled.same (h : FoundAndHandled s word writes rest r t) :
    t.cfg = s.cfg ∧ t.es = s.es ∧ t.eng = s.eng ∧ t.handles = s.handles ∧ t.blocks = s.blocks :=
  ⟨h.handled.calm.keeps.cfg.trans h.received.cfg, h.handled.calm.es.trans h.received.es,
    h.handled.calm.eng.trans h.received.eng, h.handled.calm.handles.trans h.received.handles,
    h.handled.calm.blocks.trans h.received.blocks⟩

/-- PROCESS then ends as the TRANSMIT of the answer (R331). -/
theorem exec_process_found (hinv : Inv s) (ha : accepts .process s)
    (hnext : s.handlerQ = .returns len sel writes :: rest) (hlen : len.toNat ≤ s.cfg.bufSize)
    (hin : ∀ w ∈ writes, w.1 < s.cfg.bufSize) (hexec : exec .receive s = .next r)
    (hr : HotCommand s s.eng id (s.receiveMade word) r)
    (hanswer : r.answered 0 (receiveValues (true, lenOf s.cfg word, s.eng.bufAddr s.cfg s.eng.pd)).1
      (s.eng.bufAddr s.cfg s.eng.pd)) :
    ∃ h heads t, FoundAndHandled s word writes rest r h ∧ exec .process s = .next t ∧ t.answered 0 0 0 ∧
      heads.map Prod.fst = h.outputs ∧
      HotCommand h h.engineAfterTransmit
        (fun m => writeWords (fun n => (h.eng.wordAddr n h.eng.pd 1).toNat) (h.sentWord len sel) m h.outputs)
        (h.transmitMade len sel heads) t ∧
      (h.quiet → heads = h.headsOf h.outputs) := by
  have hb := built_of_inv hinv ha.1
  have hbr := built_of_inv (hinv.exec hexec) (hr.es.trans ha.1)
  have hbuffer := hb.bufAddr_exists hb.engine.pd
  obtain ⟨h, hcall, hh⟩ := callHandler_handled (s := r) (len := lenOf s.cfg word)
    (addr := s.eng.bufAddr s.cfg s.eng.pd) 3 (hr.answers.2.trans hnext)
    (by rw [State.memExists, hr.blocks, hr.cfg]; exact hbuffer) (by rw [hr.cfg]; exact hin)
  have hfound : FoundAndHandled s word writes rest r h := ⟨hr, hh⟩
  obtain ⟨hcfg, hes, heng, -, -⟩ := hfound.same
  have haccepts : accepts (.transmit len sel) h := by
    refine ⟨hes.trans ha.1, ?_⟩
    rw [hcfg, heng]
    exact ha.2
  have hprocess := (processIsReceiveHandleTransmit.2 s r h _ _ len sel ha hexec hanswer (receiveValues_found _)
    (by rw [receiveValues_length]; exact hcall)).1 hlen
  obtain ⟨heads, t, htransmit, hok, hfst, ht, hheads⟩ :=
    exec_transmit_hot (hbr.runs (hh.calm.runs Delimits.refl)) haccepts
  exact ⟨h, heads, t, hfound, hprocess.trans htransmit, hok, hfst, ht, hheads⟩

/-- Settles O55: the three parts of the run, whose NICs and heads are those of the first state until the tail writes. -/
theorem processForwardsPacket : Obligations.ProcessForwardsPacket := by
  intro s len sel writes rest hinv hq ha hdd hnext hlen hin
  have hb := built_of_inv hinv ha.1
  obtain ⟨word, r, hexec, hword, hend⟩ := exec_receive_hot hb
  obtain rfl := hword hq
  obtain ⟨-, hr, hanswer⟩ | ⟨hclear, -⟩ := hend
  swap
  · rw [hdd] at hclear
    cases hclear
  obtain ⟨h, heads, t, hfound, hprocess, hok, -, ht, hheads⟩ :=
    exec_process_found hinv ha hnext hlen hin hexec hr hanswer
  obtain ⟨hcfg, hes, heng, hhandles, hblocks⟩ := hfound.same
  have hh := hfound.handled
  have hqh := hh.quiet (hr.quiet hq)
  have hsent : h.transmitMade len sel heads = transmitAccesses s len sel := by
    rw [hheads hqh, State.transmitMade_headsOf]
    exact transmitAccesses_congr hcfg heng (Handled.headOf hb hr hh hq hin) len sel
  rw [State.receiveMade_found hdd] at hr
  refine ⟨t, hprocess, hok, ?_, ht.es.trans hes, ?_, ht.answers.2.trans hh.handlerQ,
    ⟨ht.cfg.trans hcfg, ht.port.trans (hh.calm.keeps.port.trans hr.port), (ht.quiet hqh).trans hq.symm,
      ht.maps.trans (hh.calm.keeps.maps.trans hr.maps)⟩,
    handle_of_handles (ht.handles.trans hhandles), ht.blocks.trans hblocks,
    ht.answers.1.trans (hh.grants.trans hr.answers.1), fun bdf hnone => ?_⟩
  · have hmade := hr.made.trans (hh.made.trans ht.made)
    rw [hsent, lenOf_word1 hinv.legal] at hmade
    exact hmade
  · rw [ht.eng, State.engineAfterTransmit_congr hcfg heng]
    rfl
  · have htargets {off : Nat} (hoff : tailTargets h h.flushes h.rsDue bdf off) :
        tailTargets s s.flushes s.rsDue bdf off := by
      simpa only [tailTargets, State.flushes, State.rsDue, State.windowAt, hcfg, heng, hhandles] using hoff
    rw [ht.sameNicsButTails hqh (registerWrites_transmitMade h len sel heads) bdf
      fun off hoff => hnone off (htargets hoff),
      State.nic, hh.nics (hr.quiet hq)]
    exact hr.nic hq rfl bdf

/-! How many micro-steps (R431): one for each access. -/

theorem State.outputs_length_le (s : State) : s.outputs.length ≤ s.eng.oc.toNat := by
  have hvals : s.outputs.map Fin.val ⊆ List.range s.eng.oc.toNat := fun k hk => by
    obtain ⟨n, hn, rfl⟩ := List.mem_map.1 hk
    exact List.mem_range.2 (State.mem_outputs.1 hn)
  have hle := ((s.outputs_nodup.map Fin.val_injective).subperm hvals).length_le
  rwa [List.length_map, List.length_range] at hle

theorem tailWrites_length (s : State) (pd : W64) : (tailWrites s pd).length = s.outputs.length := List.length_map _

theorem State.receiveMade_length_le (s : State) (word : W64) : (s.receiveMade word).length ≤ 1 + s.eng.oc.toNat := by
  have hle := s.outputs_length_le
  rw [State.receiveMade, List.length_cons]
  split
  · rw [tailWrites_length]
    omega
  · rw [List.length_nil]
    omega

theorem State.transmitMade_length_le (s : State) (len : W16) (mask : BitVec 4) {heads : List (Fin 4 × W64)}
    (hheads : heads.map Prod.fst = s.outputs) : (s.transmitMade len mask heads).length ≤ 3 * s.eng.oc.toNat + 1 := by
  have hle := s.outputs_length_le
  have hcount : heads.length = s.outputs.length := by rw [← hheads, List.length_map]
  have hflush : (if s.flushes then tailWrites s s.nextPd else []).length ≤ s.outputs.length := by
    split
    · rw [tailWrites_length]
    · exact Nat.zero_le _
  have hrecycle (a : Access) : (if s.rsDue then s.headReads heads ++ [a] else []).length ≤ s.outputs.length + 1 := by
    split
    · rw [List.length_append, State.headReads, List.length_map, hcount, List.length_singleton]
    · exact Nat.zero_le _
  have hend := hrecycle (.mmioWrite s.eng.rta (tailValue (recycledSlot s.cfg s.nextPd heads)))
  rw [State.transmitMade, List.length_append, List.length_append, List.length_map]
  omega

/-- Settles O12: each run of the hot path ends, and its accesses are its micro-steps. -/
theorem hotPathEndsInBoundedSteps : Obligations.HotPathEndsInBoundedSteps := by
  intro s hinv
  refine ⟨fun ha => ?_, fun len mask ha => ?_, fun ha hok => ?_⟩
  · obtain ⟨word, t, hexec, -, hend⟩ := exec_receive_hot (built_of_inv hinv ha)
    have hle := s.receiveMade_length_le word
    obtain ⟨-, ht, hanswer⟩ | ⟨-, ht, hanswer⟩ := hend
    all_goals exact ⟨t, _, _, hexec, hanswer, by rw [ht.micros]; omega⟩
  · obtain ⟨heads, t, hexec, hanswer, hfst, ht, -⟩ := exec_transmit_hot (built_of_inv hinv ha.1) ha
    have hle := s.transmitMade_length_le len mask hfst
    exact ⟨t, hexec, hanswer, by rw [ht.micros]; omega⟩
  · obtain ⟨len, sel, writes, rest, hnext, hlen, hin⟩ := hok
    obtain ⟨word, r, hexec, -, hend⟩ := exec_receive_hot (built_of_inv hinv ha.1)
    obtain ⟨hdd, hr, hanswer⟩ | ⟨-, hr, hanswer⟩ := hend
    · obtain ⟨h, heads, t, hfound, hprocess, hdone, hfst, ht, -⟩ :=
        exec_process_found hinv ha hnext hlen hin hexec hr hanswer
      have hle := h.transmitMade_length_le len sel hfst
      obtain ⟨-, -, heng, -, -⟩ := hfound.same
      rw [heng] at hle
      refine ⟨t, hprocess, hdone, ?_⟩
      rw [ht.micros, hfound.handled.micros, hr.micros, State.receiveMade_found hdd, List.length_singleton]
      omega
    · have hle := s.receiveMade_length_le word
      refine ⟨r, processIsReceiveHandleTransmit.1 s r ha hexec hanswer, hanswer, ?_⟩
      rw [hr.micros]
      omega

end

end Sys2Proof.Machine
end

section
/-! SUPPORT. Breaches of a collaborator's contract (U7, U13; log 14, 16): part by part, those in which micro-steps can
end, whatever the state. Only the allocator, the handler and the operand check make any. -/

namespace Sys2Proof.Machine

/-- Neither a failure nor the fault of an access: a refusal, or a handler that never returns. -/
def Stop.breach : Stop → Bool
  | .raise _ => false
  | .fault f => f == .handlerNeverReturns
  | .refuse _ => true

section Rules
variable {α β : Type} {l : List Stop}

/-- Every breach in which the micro-steps `m` end is one of these. -/
def Breaches (l : List Stop) (m : Micro α) : Prop := ∀ s e t, m s = .error e t → e.breach = true → e ∈ l

theorem Breaches.of_ok {m : Micro α} (h : ∀ s, ∃ a t, m s = .ok a t) : Breaches l m := by
  intro s e t hm
  obtain ⟨a, u, hok⟩ := h s
  cases hok.symm.trans hm

/-- Micro-steps that return, or end in a stop that is no breach. -/
theorem Breaches.of_stop {m : Micro α} {e : Stop} (he : e.breach = false)
    (h : ∀ s, (∃ a t, m s = .ok a t) ∨ ∃ t, m s = .error e t) : Breaches l m := by
  intro s e' t hm hb
  obtain ⟨a, u, hok⟩ | ⟨u, herr⟩ := h s
  · cases hok.symm.trans hm
  · cases herr.symm.trans hm
    cases he.symm.trans hb

theorem Breaches.pure (a : α) : Breaches l (pure a : Micro α) := .of_ok fun s => ⟨a, s, rfl⟩

theorem Breaches.look (f : State → α) : Breaches l (look f) := .of_ok fun s => ⟨f s, s, rfl⟩

theorem Breaches.change (f : State → State) : Breaches l (change f) := .of_ok fun s => ⟨(), f s, rfl⟩

theorem Breaches.raise (f : Failure) : Breaches l (raise f : Micro α) :=
  .of_stop (e := .raise f) rfl fun s => .inr ⟨s, rfl⟩

theorem Breaches.refuse {r : Refusal} (h : .refuse r ∈ l) : Breaches l (refuse r : Micro α) := by
  intro s e t hm _
  cases hm
  exact h

theorem Breaches.bind {m : Micro α} {k : α → Micro β} (h : Breaches l m) (hk : ∀ a, Breaches l (k a)) :
    Breaches l (m >>= k) := by
  intro s e t hm hb
  cases hr : m s with
  | ok a u =>
    rw [Micro.run_bind_ok hr] at hm
    exact hk a u e t hm hb
  | error e' u =>
    rw [Micro.run_bind_error hr] at hm
    cases hm
    exact h s _ _ hr hb

theorem Breaches.ite {p : Prop} [Decidable p] {x y : Micro α} (hx : Breaches l x) (hy : Breaches l y) :
    Breaches l (if p then x else y) := by split <;> assumption

/-- Something done on a condition, and what follows. -/
theorem Breaches.guarded {p : Prop} [Decidable p] {x : Micro Unit} {k : Unit → Micro β} (hx : Breaches l x)
    (hk : ∀ u, Breaches l (k u)) : Breaches l (if p then x >>= k else k ()) := .ite (.bind hx hk) (hk ())

theorem Breaches.forEach {body : α → Micro Unit} (h : ∀ x, Breaches l (body x)) (xs : List α) :
    Breaches l (forEach xs body) := by
  induction xs with
  | nil => exact .pure ()
  | cons x rest ih => exact .bind (h x) fun _ => ih

/-! Primitives. -/

theorem Breaches.memRead (line : Nat) (acq : Bool) (a : W64) (n : Nat) : Breaches l (memRead line acq a n) := by
  refine .of_stop (e := .fault (.unmappedMemory a)) rfl fun s => ?_
  cases he : s.memExists a.toNat n with
  | true => exact .inl ⟨_, _, memRead_run line acq he⟩
  | false => exact .inr ⟨_, memRead_fault line acq he⟩

theorem Breaches.memWrite (line : Nat) (rel : Bool) (a : W64) (n : Nat) (v : W64) :
    Breaches l (memWrite line rel a n v) := by
  refine .of_stop (e := .fault (.unmappedMemory a)) rfl fun s => ?_
  cases he : s.memExists a.toNat n with
  | true => exact .inl ⟨_, _, memWrite_run line rel v he⟩
  | false => exact .inr ⟨_, memWrite_fault line rel v he⟩

theorem Breaches.mmioRead32 (line : Nat) (dev : BitVec 8) (off : Nat) : Breaches l (mmioRead32 line dev off) := by
  intro s e t hm hb
  simp only [Machine.mmioRead32] at hm
  split at hm <;> cases hm
  cases hb

theorem Breaches.mmioWrite32 (line : Nat) (dev : BitVec 8) (off : Nat) (v : W32) :
    Breaches l (mmioWrite32 line dev off v) := by
  intro s e t hm hb
  simp only [Machine.mmioWrite32] at hm
  split at hm <;> cases hm
  cases hb

theorem Breaches.mmioWriteAt (line : Nat) (a : W64) (v : W32) : Breaches l (mmioWriteAt line a v) := by
  intro s e t hm hb
  simp only [Machine.mmioWriteAt] at hm
  split at hm <;> cases hm
  cases hb

theorem Breaches.sleepUs (line n : Nat) : Breaches l (sleepUs line n) := .of_ok fun _ => ⟨_, _, rfl⟩

theorem Breaches.pciRead (line : Nat) (bdf : W16) (off : Nat) : Breaches l (pciRead line bdf off) :=
  .of_ok fun _ => ⟨_, _, rfl⟩

theorem Breaches.pciWrite (line : Nat) (bdf : W16) (off : Nat) (v : W32) : Breaches l (pciWrite line bdf off v) :=
  .of_ok fun _ => ⟨_, _, rfl⟩

theorem Breaches.free (line : Nat) (a : W64) : Breaches l (free line a) := .of_ok fun _ => ⟨_, _, rfl⟩

theorem Breaches.v2p (line : Nat) (a : W64) : Breaches l (v2p line a) := .of_ok fun _ => ⟨_, _, rfl⟩

theorem Breaches.p2v (line : Nat) (p : W64) (n : Nat) : Breaches l (p2v line p n) := .of_ok fun _ => ⟨_, _, rfl⟩

/-- The allocator's (U13). -/
theorem Breaches.alloc (line size : Nat) (site : AllocSite) (hm : .refuse .misalignedBlock ∈ l)
    (ho : .refuse .overlappingBlock ∈ l) : Breaches l (alloc line size site) := by
  intro s e t h _
  simp only [Machine.alloc] at h
  split at h
  · cases h
  · cases h
  · split at h
    · cases h
      exact hm
    · split at h <;> cases h
      exact ho

/-- The handler's (U7). -/
theorem Breaches.callHandler (line : Nat) (len : W16) (a : W64) (hn : .fault .handlerNeverReturns ∈ l)
    (hw : .refuse .handlerBrokeContract ∈ l) : Breaches l (callHandler line len a) := by
  intro s e t h hb
  simp only [Machine.callHandler] at h
  split at h
  · cases h
    exact hn
  · split at h
    · cases h
      exact hw
    · split at h <;> cases h
      cases hb

/-! Register and field operations: none. -/

theorem Breaches.regRead (line : Nat) (dev : BitVec 8) (r : DevReg) (i : Nat) : Breaches l (regRead line dev r i) :=
  .bind (.look _) fun _ => .mmioRead32 _ _ _

theorem Breaches.regWrite (line : Nat) (dev : BitVec 8) (r : DevReg) (i : Nat) (v : W32) :
    Breaches l (regWrite line dev r i v) := .bind (.look _) fun _ => .mmioWrite32 _ _ _ _

theorem Breaches.regReadField (line : Nat) (dev : BitVec 8) (f : DevField) (i : Nat) :
    Breaches l (regReadField line dev f i) := .bind (.regRead _ _ _ _) fun _ => .bind (.look _) fun _ => .pure _

theorem Breaches.regWriteField (line : Nat) (dev : BitVec 8) (f : DevField) (i : Nat) (v : W32) :
    Breaches l (regWriteField line dev f i v) :=
  .bind (.regRead _ _ _ _) fun _ => .bind (.look _) fun _ => .regWrite _ _ _ _ _

theorem Breaches.regSet (line : Nat) (dev : BitVec 8) (f : DevField) (i : Nat) : Breaches l (regSet line dev f i) :=
  .bind (.look _) fun _ => .regWriteField _ _ _ _ _

theorem Breaches.regClear (line : Nat) (dev : BitVec 8) (f : DevField) (i : Nat) : Breaches l (regClear line dev f i) :=
  .regWriteField _ _ _ _ _

theorem Breaches.regIsCleared (line : Nat) (dev : BitVec 8) (f : DevField) (i : Nat) :
    Breaches l (regIsCleared line dev f i) := .bind (.regReadField _ _ _ _) fun _ => .pure _

theorem Breaches.poll (line : Nat) (dev : BitVec 8) (f : DevField) (i : Nat) (w : Bool) :
    Breaches l (poll line dev f i w) := by
  have loop (gap n : Nat) : Breaches l (pollLoop line dev f i w gap n) := by
    induction n with
    | zero => exact .pure _
    | succ n ih => exact .bind (.regIsCleared _ _ _ _) fun _ => .ite (.pure _) (.bind (.sleepUs _ _) fun _ => ih)
  exact .bind (.look _) fun _ => loop _ _

theorem Breaches.pciRegRead (line : Nat) (bdf : W16) (r : PciReg) : Breaches l (pciRegRead line bdf r) :=
  .bind (.look _) fun _ => .pciRead _ _ _

theorem Breaches.pciReadField (line : Nat) (bdf : W16) (f : PciField) : Breaches l (pciReadField line bdf f) :=
  .bind (.pciRegRead _ _ _) fun _ => .bind (.look _) fun _ => .pure _

theorem Breaches.pciWriteField (line : Nat) (bdf : W16) (f : PciField) (v : W32) :
    Breaches l (pciWriteField line bdf f v) :=
  .bind (.pciRegRead _ _ _) fun _ => .bind (.look _) fun _ => .bind (.look _) fun _ => .pciWrite _ _ _ _

theorem Breaches.pciSet (line : Nat) (bdf : W16) (f : PciField) : Breaches l (pciSet line bdf f) :=
  .bind (.look _) fun _ => .pciWriteField _ _ _ _

theorem Breaches.v2pOrRaise (line : Nat) (a : W64) (site : AllocSite) : Breaches l (v2pOrRaise line a site) := by
  refine .bind (.v2p _ _) fun r => ?_
  cases r with
  | none => exact .raise _
  | some p => exact .pure p

theorem Breaches.flushTails (line : Nat) : Breaches l (flushTails line) :=
  .bind (.look _) fun _ => .forEach (fun _ => .mmioWriteAt _ _ _) _

end Rules

/-! The commands that open, access and bind devices: none. -/

section Devices
variable {l : List Stop}

theorem openDevice_breaches (bdf : W16) : Breaches l (openDevice bdf) := by
  refine .bind (.look _) fun _ => .bind (.pciRegRead _ _ _) fun _ => .guarded (.raise _) fun _ => ?_
  refine .bind (.pciReadField _ _ _) fun _ => .guarded (.raise _) fun _ => ?_
  refine .bind (.pciSet _ _ _) fun _ => .bind (.pciSet _ _ _) fun _ => .bind (.pciSet _ _ _) fun _ => ?_
  refine .bind (.pciRegRead _ _ _) fun _ => .guarded (.raise _) fun _ => ?_
  refine .bind (.pciRegRead _ _ _) fun _ => .bind (.p2v _ _ _) fun answer => ?_
  cases answer with
  | none => exact .raise _
  | some va => exact .pure va

theorem readSelected_breaches (dev : BitVec 8) (sel : RegSel) (index : W16) :
    Breaches l (readSelected dev sel index) := by
  refine .bind (.look _) fun _ => ?_
  match sel with
  | .dev _ none => exact .regRead _ _ _ _
  | .dev _ (some _) => exact .regReadField _ _ _ _
  | .pci _ none => exact .pciRegRead _ _ _
  | .pci _ (some _) => exact .pciReadField _ _ _

theorem writeSelected_breaches (dev : BitVec 8) (sel : RegSel) (index : W16) (value : W32) :
    Breaches l (writeSelected dev sel index value) := by
  refine .bind (.look _) fun _ => ?_
  match sel with
  | .dev _ none => exact .regWrite _ _ _ _ _
  | .dev _ (some _) => exact .regWriteField _ _ _ _ _
  | .pci _ none => exact .bind (.look _) fun _ => .pciWrite _ _ _ _
  | .pci _ (some _) => exact .pciWriteField _ _ _ _

theorem bindInput_breaches (dev : BitVec 8) : Breaches l (bindInput dev) := by
  have program (q : Nat) : Breaches l (programInput dev q) :=
    .bind (.look _) fun _ => .bind (.v2pOrRaise _ _ _) fun _ => .bind (.regWrite _ _ _ _ _) fun _ =>
      .bind (.regWrite _ _ _ _ _) fun _ => .bind (.regWrite _ _ _ _ _) fun _ =>
      .bind (.regWriteField _ _ _ _ _) fun _ => .regSet _ _ _ _
  have start (q : Nat) : Breaches l (startInput dev q) := by
    refine .bind (.look _) fun _ => .bind (.regSet _ _ _ _) fun _ => .bind (.poll _ _ _ _ _) fun _ =>
      .guarded (.raise _) fun _ => ?_
    refine .bind (.regWrite _ _ _ _ _) fun _ => .bind (.regSet _ _ _ _) fun _ => .bind (.poll _ _ _ _ _) fun _ =>
      .guarded (.raise _) fun _ => ?_
    exact .bind (.regSet _ _ _ _) fun _ => .bind (.regClear _ _ _ _) fun _ => .bind (.regSet _ _ _ _) fun _ =>
      .regWriteField _ _ _ _ _
  exact .bind (.look _) fun _ => .guarded (.raise _) fun _ => .bind (.regIsCleared _ _ _ _) fun _ =>
    .guarded (.raise _) fun _ => .bind (program _) fun _ => .bind (start _) fun _ => .change _

theorem bindOutput_breaches (dev queue : BitVec 8) : Breaches l (bindOutput dev queue) := by
  have slot (n : Fin 4) (i : Nat) : Breaches l (fillSlot n i) :=
    .bind (.look _) fun _ => .bind (.v2pOrRaise _ _ _) fun _ => .bind (.memWrite _ _ _ _ _) fun _ =>
      .bind (.memRead _ _ _ _) fun _ => .pure _
  have program (n : Fin 4) (q : Nat) : Breaches l (programOutput dev n q) :=
    .bind (.look _) fun _ => .bind (.v2pOrRaise _ _ _) fun _ => .bind (.regWrite _ _ _ _ _) fun _ =>
      .bind (.regWrite _ _ _ _ _) fun _ => .bind (.regWrite _ _ _ _ _) fun _ =>
      .bind (.regWriteField _ _ _ _ _) fun _ => .regWriteField _ _ _ _ _
  have writeBack (n : Fin 4) (q : Nat) : Breaches l (programWriteBack dev n q) :=
    .bind (.look _) fun _ => .bind (.v2pOrRaise _ _ _) fun _ => .guarded (.raise _) fun _ =>
      .bind (.regWrite _ _ _ _ _) fun _ => .bind (.regWrite _ _ _ _ _) fun _ => .regClear _ _ _ _
  have start (q : Nat) : Breaches l (startOutput dev q) :=
    .bind (.regSet _ _ _ _) fun _ => .bind (.regSet _ _ _ _) fun _ => .bind (.poll _ _ _ _ _) fun _ =>
      .ite (.raise _) (.pure _)
  have bind (q : Nat) (n : Fin 4) : Breaches l (bindOutputAs dev q n) :=
    .bind (.look _) fun _ => .guarded (.raise _) fun _ => .bind (.regIsCleared _ _ _ _) fun _ =>
      .guarded (.raise _) fun _ => .bind (.forEach (slot n) _) fun _ => .bind (program _ _) fun _ =>
      .bind (writeBack _ _) fun _ => .bind (start _) fun _ => .change _
  refine .bind (.look _) fun oc => ?_
  split
  · exact bind _ _
  · exact .raise _

/-! The engine's commands. -/

/-- ENG_CONSTRUCT's (U13; log 14). -/
theorem constructEngine_breaches :
    Breaches [.refuse .misalignedBlock, .refuse .overlappingBlock] constructEngine := by
  have block (line size : Nat) (site : AllocSite) (got : List W64) :
      Breaches [.refuse .misalignedBlock, .refuse .overlappingBlock] (allocOrUnwind line size site got) := by
    refine .bind (.alloc _ _ _ (by decide) (by decide)) fun r => ?_
    cases r with
    | none => exact .bind (.forEach (fun _ => .free _ _) _) fun _ => .raise _
    | some a => exact .pure a
  have ring (n : Nat) (got : List W64) := Breaches.bind (.look State.cfg) fun c => block 1 (ringBytes c) (.ring n) got
  exact .bind (.look _) fun _ => .bind (ring _ _) fun _ => .bind (ring _ _) fun _ => .bind (ring _ _) fun _ =>
    .bind (ring _ _) fun _ => .bind (block _ _ _ _) fun _ => .bind (block _ _ _ _) fun _ => .change _

theorem receiveSteps_breaches (line : Nat) : Breaches l (receiveSteps line) := by
  have idle (line : Nat) : Breaches l (receiveIdle line) :=
    .bind (.look _) fun _ => .ite (.bind (.flushTails _) fun _ => .change _) (.ite (.change _) (.pure _))
  exact .bind (.look _) fun _ => .bind (.memRead _ _ _ _) fun _ => .ite (.pure _) (.bind (idle _) fun _ => .pure _)

theorem transmitSteps_breaches (line : Nat) (len : W16) (mask : BitVec 4) :
    Breaches l (transmitSteps line len mask) := by
  have descriptors (line : Nat) (rs : Bool) : Breaches l (writeDescriptors line len mask rs) :=
    .bind (.look _) fun _ => .forEach (fun _ => .memWrite _ _ _ _ _) _
  have flush (line : Nat) : Breaches l (flushIfDue line) :=
    .bind (.look _) fun _ => .ite (.bind (.flushTails _) fun _ => .change _) (.pure _)
  have scan (line : Nat) (ns : List (Fin 4)) (best : W64 × W64) : Breaches l (scanHeads line ns best) := by
    induction ns generalizing best with
    | nil => exact .pure best
    | cons n rest ih => exact .bind (.look _) fun _ => .bind (.memRead _ _ _ _) fun _ => ih _
  have recycled (line : Nat) : Breaches l (recycle line) :=
    .bind (.look _) fun _ => .bind (scan _ _ _) fun _ => .mmioWriteAt _ _ _
  exact .bind (.look _) fun _ => .bind (descriptors _ _) fun _ => .bind (.change _) fun _ => .bind (flush _) fun _ =>
    .ite (recycled _) (.pure _)

/-- PROCESS's (U7; log 16). -/
theorem processSteps_breaches :
    Breaches [.refuse .handlerBrokeContract, .fault .handlerNeverReturns] processSteps :=
  .bind (receiveSteps_breaches 1) fun _ => .ite (.bind (.look _) fun _ =>
    .bind (.callHandler _ _ _ (by decide) (by decide)) fun _ => .guarded (.refuse (by decide)) fun _ =>
      transmitSteps_breaches _ _ _) (.pure _)

end Devices

end Sys2Proof.Machine
end

section
/-! SUPPORT. How commands end from a state that meets the invariant (R370): no access of theirs faults, so that what
stops one short of a next state is a breach. -/

namespace Sys2Proof.Machine

section
variable {s : State} {i : Instr} {l : List Stop}

/-- A command ends in a next state, or in one of its breaches. -/
theorem exec_of_breaches (hw : Whole s)
    (h : ∀ e t, body i (s.start i) = .error e t → e.breach = true → e ∈ l) :
    (∃ t, exec i s = .next t) ∨ (.fault .handlerNeverReturns ∈ l ∧ exec i s = .fault .handlerNeverReturns) ∨
      ∃ r, .refuse r ∈ l ∧ exec i s = .refused r := by
  by_cases ha : accepts i s
  swap
  · exact .inl ⟨_, exec_of_not_accepts ha⟩
  have hready := (ready_iff i s).2 ha
  cases hrun : body i (s.start i) with
  | ok v t => exact .inl ⟨_, exec_ok ha hrun⟩
  | error e t =>
    have hmem := h e t hrun
    cases e with
    | raise f => exact .inl ⟨_, (exec_eq i s).trans (runCommand_raise hready hrun)⟩
    | fault f =>
      have hexec : exec i s = .fault f := by rw [exec_eq, runCommand, if_pos hready, ← State.start, hrun]
      obtain rfl := exec_fault hw hexec
      exact .inr (.inl ⟨hmem rfl, hexec⟩)
    | refuse r =>
      have hexec : exec i s = .refused r := by rw [exec_eq, runCommand, if_pos hready, ← State.start, hrun]
      exact .inr (.inr ⟨r, hmem rfl, hexec⟩)

/-- A command that makes no breach ends in a next state. -/
theorem exec_of_no_breach (hw : Whole s) (h : ∀ e t, body i (s.start i) = .error e t → e.breach = true → e ∈ []) :
    ∃ t, exec i s = .next t := by
  obtain hnext | ⟨hmem, -⟩ | ⟨r, hmem, -⟩ := exec_of_breaches hw h
  · exact hnext
  all_goals exact absurd hmem List.not_mem_nil

/-- Register commands whose operands are legal make no breach (R116 (d)). -/
theorem legal_bind_no_breach {sel : RegSel} {index : W16} {k : Unit → Micro (W64 × W64)} {t : State}
    (hl : sel.legal t.cfg index = true) (h : Breaches l (k ())) :
    ∀ e u, (requireLegal sel index >>= k) t = .error e u → e.breach = true → e ∈ l := by
  rw [Micro.run_bind_ok (requireLegal_ok hl)]
  exact h t

end

/-- Settles O11: command by command, the breaches in which it can end. -/
theorem everyCommandEnds : Obligations.EveryCommandEnds := by
  intro s i hinv hi
  have hw := (inv_iff.1 hinv).1
  have accepted (h : accepts i s → ∃ t, exec i s = .next t) : ∃ t, exec i s = .next t := by
    by_cases ha : accepts i s
    · exact h ha
    · exact ⟨_, exec_of_not_accepts ha⟩
  cases i with
  | devOpen dev bdf =>
    exact .inl (exec_of_no_breach hw
      ((openDevice_breaches bdf).bind (fun _ => .bind (.change _) fun _ => .pure _) _))
  | devReset dev =>
    exact .inl (accepted fun ha => (devResetAlwaysEnds s dev hinv.legal ha).imp fun _ h => h.1)
  | devInit dev =>
    exact .inl (accepted fun ha => (devInitAlwaysEnds s dev hinv.legal ha).imp fun _ h => h.1)
  | setPromisc dev enable =>
    exact .inl (accepted fun ha => (setPromiscCannotFail s dev enable hinv.legal ha).imp fun _ h => h.1)
  | regRead dev sel index =>
    have hl : sel.legal s.cfg index = true := (Bool.and_eq_true_iff.1 hi).2
    exact .inl (exec_of_no_breach hw
      (legal_bind_no_breach hl ((readSelected_breaches dev sel index).bind fun _ => .pure _)))
  | regWrite dev sel index value =>
    have hl : sel.legal s.cfg index = true := (Bool.and_eq_true_iff.1 hi).2
    exact .inl (exec_of_no_breach hw
      (legal_bind_no_breach hl ((writeSelected_breaches dev sel index value).bind fun _ => .pure _)))
  | engConstruct =>
    refine (exec_of_breaches (i := .engConstruct) hw (constructEngine_breaches.bind (fun _ => .pure _) _)).imp_right
      fun hend => .inl ⟨rfl, ?_⟩
    simpa using hend
  | bindInput dev => exact .inl (exec_of_no_breach hw ((bindInput_breaches dev).bind (fun _ => .pure _) _))
  | bindOutput dev queue =>
    exact .inl (exec_of_no_breach hw ((bindOutput_breaches dev queue).bind (fun _ => .pure _) _))
  | receive =>
    refine .inl (accepted fun ha => ?_)
    obtain ⟨word, t, hexec, -⟩ := exec_receive_hot (built_of_inv hinv ha)
    exact ⟨t, hexec⟩
  | transmit len mask =>
    refine .inl (accepted fun ha => ?_)
    obtain ⟨heads, t, hexec, -⟩ := exec_transmit_hot (built_of_inv hinv ha.1) ha
    exact ⟨t, hexec⟩
  | process =>
    refine (exec_of_breaches (i := .process) hw (processSteps_breaches.bind (fun _ => .pure _) _)).imp_right
      fun hend => .inr ⟨rfl, ?_⟩
    simpa using hend.symm

end Sys2Proof.Machine
end

section
/-! SUPPORT. The receive DMA (R341 to R344): the word it writes bit by bit, what a delivery makes of memory where the
addresses lie in live blocks, and the packets it drops. -/

namespace Sys2Proof.Machine

/-! Word 1 as the receive DMA writes it (R122). -/

/-- A length fits its operand (R19, R111). -/
theorem Config.lenBits_le {c : Config} (h : c.legal = true) : c.lenBits ≤ 16 := by
  have hn := Config.legal_numbers h
  simp only [Config.numbersOk, Bool.and_eq_true, decide_eq_true_eq] at hn
  omega

/-- The place of the length in word 1. -/
theorem getLsbD_lenPlace {c : Config} (hc : c.desc.lenLo + c.lenBits ≤ 64) (b : Nat) :
    (lenMask c <<< c.desc.lenLo).getLsbD b = decide (c.desc.lenLo ≤ b ∧ b < c.desc.lenLo + c.lenBits) := by
  rw [lenMask, BitVec.getLsbD_shiftLeft, BitVec.getLsbD_ofNat, Nat.testBit_two_pow_sub_one, Bool.eq_iff_iff]
  simp only [Bool.and_eq_true, Bool.not_eq_true', decide_eq_true_eq, decide_eq_false_iff_not]
  omega

/-- Every bit of word 1 in receive form (R122). -/
theorem getLsbD_rxWord {c : Config} (hc : c.legal = true) (len : W16) (other : W64) {b : Nat} (hb : b < 64) :
    let inLen := decide (c.desc.lenLo ≤ b ∧ b < c.desc.lenLo + c.lenBits)
    (rxWord c len other).getLsbD b =
      ((other.getLsbD b && !(inLen || decide (b = c.desc.dd))) || (inLen && len.getLsbD (b - c.desc.lenLo)) ||
        decide (b = c.desc.dd)) := by
  obtain ⟨hlen, hflags, -⟩ := Config.desc_layout hc
  have hdd := getLsbD_flag true (hflags c.desc.dd (by simp)).1 b
  simp only [if_true, Bool.true_and] at hdd
  simp only [rxWord, BitVec.getLsbD_or, BitVec.getLsbD_and, BitVec.getLsbD_not, getLsbD_lenPlace hlen,
    getLsbD_lenField hlen, hdd, hb, decide_true, Bool.true_and]

theorem rxWord_dd {c : Config} (hc : c.legal = true) (len : W16) (other : W64) :
    (rxWord c len other).getLsbD c.desc.dd = true := by
  obtain ⟨-, hflags, -⟩ := Config.desc_layout hc
  simp [getLsbD_rxWord hc len other (hflags c.desc.dd (by simp)).1]

/-- The length that word 1 in receive form holds (R342). -/
theorem rxWord_length {c : Config} (hc : c.legal = true) (len : W16) (other : W64) :
    (rxWord c len other).toNat / 2 ^ c.desc.lenLo % 2 ^ c.lenBits = len.toNat % 2 ^ c.lenBits := by
  obtain ⟨hlen, hflags, -⟩ := Config.desc_layout hc
  apply Nat.eq_of_testBit_eq
  intro i
  rw [Nat.testBit_mod_two_pow, Nat.testBit_mod_two_pow, Nat.testBit_div_two_pow, BitVec.testBit_toNat,
    BitVec.testBit_toNat]
  by_cases hi : i < c.lenBits
  · have hdd : i + c.desc.lenLo ≠ c.desc.dd := fun h => (hflags c.desc.dd (by simp)).2 (by omega)
    simp [getLsbD_rxWord hc len other (b := i + c.desc.lenLo) (by omega), hi, hdd, Nat.add_comm c.desc.lenLo]
  · simp [hi]

/-! Bytes stored one after the other. -/

/-- Memory after bytes were stored from `a` on. -/
def storeBytes (m : List Host.Cell) (a : Nat) : List Byte → List Host.Cell
  | [] => m
  | b :: rest => storeBytes (Memory.write m a b) (a + 1) rest

theorem Memory.wf_storeBytes {m : List Host.Cell} (a : Nat) (bytes : List Byte) (h : Memory.wf m = true) :
    Memory.wf (storeBytes m a bytes) = true := by
  induction bytes generalizing m a with
  | nil => exact h
  | cons b rest ih => exact ih _ (Memory.wf_write a b h)

theorem Memory.read_storeBytes_outside (m : List Host.Cell) {a x : Nat} {bytes : List Byte}
    (h : x < a ∨ a + bytes.length ≤ x) : Memory.read (storeBytes m a bytes) x = Memory.read m x := by
  induction bytes generalizing m a with
  | nil => rfl
  | cons b rest ih =>
    rw [List.length_cons] at h
    rw [storeBytes, ih _ (by omega), Memory.read_write_ne m b (by omega)]

theorem Memory.read_storeBytes_inside {m : List Host.Cell} (a : Nat) {k : Nat} {b : Byte} {bytes : List Byte}
    (hm : Memory.wf m = true) (h : bytes[k]? = some b) : Memory.read (storeBytes m a bytes) (a + k) = b := by
  induction bytes generalizing m a k with
  | nil => cases h
  | cons x rest ih =>
    cases k with
    | zero =>
      obtain rfl : x = b := by simpa using h
      rw [Nat.add_zero, storeBytes, Memory.read_storeBytes_outside _ (.inl (Nat.lt_succ_self a)),
        Memory.read_write_self a x hm]
    | succ k =>
      rw [storeBytes, show a + (k + 1) = a + 1 + k by omega]
      exact ih (a + 1) (Memory.wf_write a x hm) (by simpa using h)

/-- A DMA write inside the live blocks stores its bytes at their image (R88). -/
theorem dmaWrite_inside {s : State} {p a : Nat} {bytes : List Byte} (h : s.MapsTo p a bytes.length) :
    s.dmaWrite p bytes = { s with mem := storeBytes s.mem a bytes } := by
  induction bytes generalizing s p a with
  | nil => rfl
  | cons b rest ih =>
    obtain ⟨h0, hrest⟩ := State.mapsTo_succ h
    rw [State.dmaWrite, h0]
    exact ih (s := { s with mem := Memory.write s.mem a b }) hrest

/-! A packet in its buffer and word 1 in its slot (R342). -/

/-- Memory after `packet` was stored from `va` on, and then `word` as word 1 of the descriptor at `desc`. -/
def storePacket (m : List Host.Cell) (va : Nat) (packet : List Byte) (desc : Nat) (word : W64) : List Host.Cell :=
  Memory.writeLE (storeBytes m va packet) (desc + 8) 8 word.toNat

section
variable {m : List Host.Cell} {va desc : Nat} {packet : List Byte} {word : W64}

theorem Memory.read_storePacket_inside (hm : Memory.wf m = true)
    (hapart : va + packet.length ≤ desc ∨ desc + 16 ≤ va) {k : Nat} {b : Byte} (h : packet[k]? = some b) :
    Memory.read (storePacket m va packet desc word) (va + k) = b := by
  obtain ⟨hk, -⟩ := List.getElem?_eq_some_iff.1 h
  rw [storePacket, Memory.read_writeLE_outside _ _ _ _ (by omega), Memory.read_storeBytes_inside va hm h]

theorem Memory.read_storePacket_outside {a : Nat} (hbuf : a < va ∨ va + packet.length ≤ a)
    (hdesc : a < desc + 8 ∨ desc + 16 ≤ a) :
    Memory.read (storePacket m va packet desc word) a = Memory.read m a := by
  rw [storePacket, Memory.read_writeLE_outside _ _ _ _ (by omega), Memory.read_storeBytes_outside m hbuf]

theorem Memory.readLE_storePacket_word1 (hm : Memory.wf m = true) :
    Memory.readLE (storePacket m va packet desc word) (desc + 8) 8 = word.toNat := by
  rw [storePacket, Memory.readLE_writeLE_self _ _ _ (Memory.wf_storeBytes va packet hm)]
  exact Nat.mod_eq_of_lt word.isLt

end

/-! The receive DMA step (R341 to R344). -/

section
variable {s : State} {bdf : W16} {q : Nat} {packet : List Byte}

/-- The receive DMA drops the packet (R341, R342, R344; log 28, 36). -/
def State.rxDrops (s : State) (bdf : W16) (q : Nat) (packet : List Byte) : Prop :=
  s.cfg.rxQueueCount ≤ q ∨ (s.nic bdf).field s.cfg .rxdctlEnable q = 0 ∨ (s.nic bdf).field s.cfg .rxen 0 = 0 ∨
    (s.nic bdf).rxHead q = ((s.nic bdf).reg s.cfg (s.cfg.off .rdt q)).toNat ∨ packet.length = 0 ∨
    s.cfg.bufSize < packet.length

theorem rxDeliver_of_rxDrops (h : s.rxDrops bdf q packet) (other : W64) : s.rxDeliver bdf q packet other = s := if_pos h

/-- After a delivery to the descriptor at `desc` and the buffer at `va`. -/
def State.delivered (s : State) (bdf : W16) (q : Nat) (packet : List Byte) (va desc : Nat) (word : W64) : State :=
  ({ s with mem := storePacket s.mem va packet desc word } : State).setNic bdf
    { s.nic bdf with
      rxHeads := Store.put (s.nic bdf).rxHeads q (((s.nic bdf).rxHead q + 1) % s.cfg.ringSize) }

/-- A packet that is not dropped is stored where word 0 of its slot says, and word 1 in the slot. -/
theorem rxDeliver_eq_delivered {va desc : Nat} (other : W64) (h : ¬ s.rxDrops bdf q packet)
    (hslot : s.MapsTo (((s.nic bdf).pair s.cfg .rdbah .rdbal q).toNat + 16 * (s.nic bdf).rxHead q) desc 16)
    (hbuf : s.MapsTo (Memory.readLE s.mem desc 8) va packet.length) :
    s.rxDeliver bdf q packet other =
      s.delivered bdf q packet va desc (rxWord s.cfg (BitVec.ofNat 16 packet.length) other) := by
  have low : s.MapsTo (((s.nic bdf).pair s.cfg .rdbah .rdbal q).toNat + descSize * (s.nic bdf).rxHead q) desc 8 :=
    fun k hk => hslot k (Nat.lt_trans hk (by decide))
  have high (m : List Host.Cell) : State.MapsTo { s with mem := m }
      (((s.nic bdf).pair s.cfg .rdbah .rdbal q).toNat + descSize * (s.nic bdf).rxHead q + 8) (desc + 8) 8 :=
    fun k hk => by
      have hk8 := hslot (8 + k) (by omega)
      rwa [← Nat.add_assoc, ← Nat.add_assoc] at hk8
  refine (if_neg h).trans ?_
  rw [ofBytesLE_dmaRead low, dmaWrite_inside hbuf, dmaWrite_bytesLE _ (high _)]
  rfl

/-- Of the NICs a delivery changes only one receive head (R343). -/
theorem delivered_nics (s : State) (bdf : W16) (q : Nat) (packet : List Byte) (va desc : Nat) (word : W64) :
    let t := s.delivered bdf q packet va desc word
    SameNicsBut s t bdf ∧ (SameRegistersBut s t bdf fun _ => False) ∧
      (t.nic bdf).rxHead q = ((s.nic bdf).rxHead q + 1) % s.cfg.ringSize := by
  refine ⟨fun b hb => (State.nic_setNic _ _ _ _).trans (if_neg hb), fun off _ => ?_, ?_⟩
  · rw [State.delivered, State.nic_setNic_self]
    rfl
  · rw [State.delivered, State.nic_setNic_self, Nic.rxHead, Store.get?_put_self, Option.getD_some]

/-- Word 1 of a slot stands 8 bytes after its word 0 (R37, R121). -/
theorem Built.word1_toNat (h : Built s) (n : Fin 4) :
    (s.eng.wordAddr n s.eng.pd 1).toNat = (s.eng.wordAddr n s.eng.pd 0).toNat + 8 := by
  have hword0 := h.word0_toNat n h.engine.pd
  rw [BitVec.ofNat_toNat, BitVec.setWidth_eq] at hword0
  rw [h.slot_toNat, hword0]

/-- Word 1 of the slot `PD` after a delivery to it is the word the receive DMA wrote. -/
theorem delivered_word1 (h : Built s) (bdf : W16) (q : Nat) (packet : List Byte) (va : Nat) (word : W64) :
    (s.delivered bdf q packet va (s.eng.wordAddr 0 s.eng.pd 0).toNat word).word1 = word := by
  show BitVec.ofNat 64 (Memory.readLE (storePacket _ _ _ _ _) (s.eng.wordAddr 0 s.eng.pd 1).toNat 8) = word
  rw [h.word1_toNat, Memory.readLE_storePacket_word1 h.whole.sound.memory, BitVec.ofNat_toNat, BitVec.setWidth_eq]

/-- RECEIVE reports the packet delivered to the slot `PD` (R303, R307, R342). -/
theorem receive_delivered (h : Built s) (hq : s.quiet) (bdf : W16) (q va : Nat) (other : W64)
    (hlen : packet.length < 2 ^ s.cfg.lenBits) :
    ∃ u, exec .receive (s.delivered bdf q packet va (s.eng.wordAddr 0 s.eng.pd 0).toNat
        (rxWord s.cfg (BitVec.ofNat 16 packet.length) other)) = .next u ∧
      u.answered 0 (0x8000000000000000 ||| BitVec.ofNat 64 packet.length)
        (s.eng.buf + BitVec.ofNat 64 (s.cfg.bufSize * s.eng.pd.toNat)) := by
  have hword := delivered_word1 h bdf q packet va (rxWord s.cfg (BitVec.ofNat 16 packet.length) other)
  have hlength : State.length1 (s.delivered bdf q packet va (s.eng.wordAddr 0 s.eng.pd 0).toNat
      (rxWord s.cfg (BitVec.ofNat 16 packet.length) other)) = packet.length := by
    rw [State.length1, hword]
    refine (rxWord_length h.legal _ other).trans ?_
    have hpow : 2 ^ s.cfg.lenBits ≤ 2 ^ 16 := Nat.pow_le_pow_right (by decide) (Config.lenBits_le h.legal)
    rw [BitVec.toNat_ofNat, Nat.mod_eq_of_lt (Nat.lt_of_lt_of_le hlen hpow), Nat.mod_eq_of_lt hlen]
  refine ⟨_, receiveReportsPacket _ hq h.legal h.constructed (h.wordAddr_exists 0 h.engine.pd (by decide)) ?_, ?_, rfl⟩
  · rw [hword]
    exact rxWord_dd h.legal _ _
  · rw [hlength]
    rfl

end

/-- Settles O58: these are the conditions of the branch in which the receive DMA changes nothing. -/
theorem packetIsDropped : Obligations.PacketIsDropped := by
  intro s bdf q packet other n h
  rw [← List.length_eq_zero_iff] at h
  exact rxDeliver_of_rxDrops h other

/-- Settles O57: a delivery stores the packet and word 1 in turn, and the RECEIVE after it reads that word. -/
theorem deliveredPacketIsReceived : Obligations.DeliveredPacketIsReceived := by
  intro s bdf packet other va hinv ha n q slot word0 t hqueue hrx hhead hpos hsize hlen hq hslot hbuf hapart
  have hbuilt := built_of_inv hinv ha
  have hkept : ¬ s.rxDrops bdf q packet := by
    rintro (h | h | h | h | h | h)
    · exact absurd (Config.rxQueue_lt hinv.legal) (Nat.not_lt.2 h)
    · exact hqueue h
    · exact hrx h
    · exact hhead h
    · exact Nat.ne_of_gt hpos h
    · exact Nat.not_lt.2 hsize h
  have ht : t = s.delivered bdf q packet va word0 (rxWord s.cfg (BitVec.ofNat 16 packet.length) other) :=
    rxDeliver_eq_delivered other hkept hslot hbuf
  obtain ⟨hnics, hregs, hnext⟩ := delivered_nics s bdf q packet va word0
    (rxWord s.cfg (BitVec.ofNat 16 packet.length) other)
  rw [ht]
  exact ⟨⟨rfl, rfl⟩, handle_of_handles rfl, rfl, hnics, hregs, hnext,
    fun k b hb => Memory.read_storePacket_inside hinv.memory hapart hb,
    fun a houtside hword => Memory.read_storePacket_outside houtside hword,
    receive_delivered hbuilt hq bdf q va other hlen⟩

end Sys2Proof.Machine
end
